-- ==== Sys2Proof/Word.lean ====
section
/-! DEFINITION. The widths of the hardware: bytes, 16-bit and 32-bit words, packets (spec/00_scope.md R8,
spec/10_state.md R42). -/

namespace Sys2Proof

/-- Eight bits (R8). -/
abbrev Byte := BitVec 8

/-- Sixteen bits: MCCTL, MAXPKT and every PHY register (R33, R36, R44). -/
abbrev Half := BitVec 16

/-- Thirty-two bits: the u32 of the spec. Every value is unsigned (R8). -/
abbrev Word := BitVec 32

/-- A packet is "an owned byte buffer plus a length": a byte string of any length (R42). -/
abbrev Packet := List Byte

end Sys2Proof
end

