-- ==== Sys2Proof/Config.lean ====
section
/-! DEFINITION. The constants the spec fixes (spec/00_scope.md R5), the bit positions it decides (R6 "Decided"),
and the parameters it leaves OPEN (R6) as a record of plain data that State carries, so that a statement about
every state is a statement about every parameter set. `Config.p0` is the spec's reference set (R7): only
`State.reset`, the reading of table words and the tests name it. -/

namespace Sys2Proof

/-- One rule of the availability oracle: an access of `n` bytes at `a` is available if it lies in
`[base, limit)` and `minLen ≤ n ≤ maxLen`. A list of such rules is a union, so any predicate that holds of
finitely many accesses can be written down (log entry 3). -/
structure AvailRule where
  base : Nat
  limit : Nat
  minLen : Nat
  maxLen : Nat
deriving DecidableEq, Repr

/-- The OPEN parameters of R6. -/
structure Config where
  /-- `MMIO_BASE`: guest physical address of register offset 0 (R6, R80). -/
  mmioBase : Word
  /-- `MAX_FRAME_SIZE`: the bound of the TX length check (R6). -/
  maxFrameSize : Nat
  /-- `SOFT_RESET_MASK`: the soft-reset bit pattern of CFG0 (R6). -/
  softResetMask : Word
  /-- `MDIO_READ_OP`: the 5-bit read sentinel of PHYCTL (R6). -/
  mdioReadOp : BitVec 5
  /-- `PHY_DEFAULT[0..31]`: startup value of each PHY register, the same for all PHYs (R6, R196). -/
  phyDefault : Vector Half 32
  /-- `ANAR_FIXUP_REG` (R6, R195). -/
  anarFixupReg : BitVec 5
  /-- `ANAR_FIXUP_MASK` (R6, R195). -/
  anarFixupMask : Half
  /-- `IRQ_TAG`: the tag handed to the Interrupt Sink (R6, R323). -/
  irqTag : Nat
  /-- The Guest Memory Accessor's oracle `Avail` (R75, U7), as data. -/
  avail : List AvailRule
deriving DecidableEq, Repr

/-- A rule admits an access of `n` bytes at `a`. -/
def AvailRule.admits (r : AvailRule) (a n : Nat) : Bool :=
  decide (r.base ≤ a) && decide (a + n ≤ r.limit) && decide (r.minLen ≤ n) && decide (n ≤ r.maxLen)

/-- `MMIO_WINDOW`, decided `0x80` (R6, D4). -/
def mmioWindow : Nat := 0x80

/-- `QUEUE_CAP` (R5, R280). -/
def queueCap : Nat := 256

/-- `PHY_STATUS_REG`, decided 1 (R6, D21). -/
def phyStatusReg : BitVec 5 := 1

/-- `PHY_ANAR_REG`, decided 4 (R6, D21). -/
def phyAnarReg : BitVec 5 := 4

/-- `PHY_LINK_MASK`, decided `0x0004` (R6, D40). -/
def phyLinkMask : Half := 0x0004

/-- `INT_TX0` (R5, R106). -/
def intTx0 : Word := 0x00000004

/-- `INT_TX1` (R5, R106). -/
def intTx1 : Word := 0x00000008

/-- `INT_RX`, two bits (R5, R106). -/
def intRx : Word := 0x20000040

/-- `INT_LINK` (R5, R106). -/
def intLink : Word := 0x00000100

/-- The ISR bits the device can set: the union of the four causes (R25). -/
def intAll : Word := 0x2000014C

/-- The constraints R6, R193 and R196 put on the OPEN parameters. DEDUCED (log entry 12), unsafe: that the fix-up
does not aim at an identifier register, from R194 "for the life of the device". PRESUMED (log entry 12), unsafe:
the two bit numbers 8 and 5 behind the words "full duplex" and "auto-negotiation complete", from R7's own notes.
DESIGN CHOICE (log entry 12), safe: registers 2 and 3, of which R6 says that they "hold an "88E1111-compatible identifier""
and the spec gives no bits (N6), are left free. -/
structure Config.Valid (c : Config) : Prop where
  frameSize : 1 ≤ c.maxFrameSize ∧ c.maxFrameSize < 1600
  softReset : c.softResetMask ≠ 0
  fixupOneBit : ∃ k : Fin 16, c.anarFixupMask = 1#16 <<< k.val
  fixupNotIdentifier : c.anarFixupReg ≠ 2 ∧ c.anarFixupReg ≠ 3
  controlSelfClears : (c.phyDefault[0]).getLsbD 15 = false
  controlFullDuplex : (c.phyDefault[0]).getLsbD 8 = true
  statusLinkUp : c.phyDefault[1] &&& phyLinkMask = phyLinkMask
  statusAutoNegotiated : (c.phyDefault[1]).getLsbD 5 = true

/-- `PHY_DEFAULT` of the reference set P0 (R7). -/
def Config.phyDefaultP0 : Vector Half 32 :=
  #v[0x1140, 0x796D, 0x0141, 0x0CC2, 0, 0, 0, 0, 0, 0, 0, 0, 0, 0, 0, 0,
     0, 0, 0, 0, 0, 0, 0, 0, 0, 0, 0, 0, 0, 0, 0, 0]

/-- The reference parameter set P0 of R7, with the accessor of the conventions of spec/95_test_vectors.md
("`Avail(addr, n)` holds exactly when `addr + n <= 0x10000000`"). DESIGN CHOICE (log entry 2), unsafe: `irqTag` 0
for the symbolic tag `T` and `mmioBase` 0, which no rule reads. -/
def Config.p0 : Config where
  mmioBase := 0
  maxFrameSize := 1518
  softResetMask := 0x00008000
  mdioReadOp := 0x10
  phyDefault := Config.phyDefaultP0
  anarFixupReg := 1
  anarFixupMask := 0x0020
  irqTag := 0
  avail := [⟨0, 0x10000000, 0, 0x10000000⟩]

end Sys2Proof
end

