-- ==== Sys2Proof/Syntax.lean ====
section
/-! DEFINITION. What the hardware decodes and what it executes: register accesses, the PHYCTL command word,
descriptors and events (spec/30_encoding.md), and `Instr`, one constructor for each of the 78 rows of
spec/opcode_table.json. -/

namespace Sys2Proof

/-- A guest access to the register window (R70): `MmioRead(off, n)` or `MmioWrite(off, n, data)` with
`n` the length of `data`. `off` counts bytes from `MMIO_BASE`. -/
inductive Access where
  | read (off n : Nat)
  | write (off : Nat) (data : List Byte)
deriving DecidableEq, Repr

/-- The fields of a PHYCTL command word (R30, R105). -/
structure MdioWord where
  op : BitVec 5
  regnum : BitVec 5
  phyaddr : BitVec 5
  busy : Bool
  data : Half
deriving DecidableEq, Repr

/-- The fields of a TX descriptor other than OWN (R103). -/
structure TxDesc where
  length : Word
  statusRest : BitVec 31
  bufferAddress : Word
  wrap : Bool
  ignored : BitVec 31
deriving DecidableEq, Repr

/-- The fields of an RX descriptor other than OWN (R104). -/
structure RxDesc where
  receivedLength : Word
  statusRest : BitVec 31
  bufferAddress : Word
  wrap : Bool
  bufferSize : BitVec 31
deriving DecidableEq, Repr

/-- What the environment presents to the block as one operation: a register access, a command word written to
PHYCTL (the same as a 4-byte write at `0x44`), or an event with its code and operand bytes (R112). -/
inductive Input where
  | access (a : Access)
  | command (w : Word)
  | event (code : Byte) (operand : List Byte)
deriving DecidableEq, Repr

/-- The encoded inputs of spec/30_encoding.md: what the environment presents, and the 16 bytes of a descriptor,
which only the engine's own fetch brings in (R86). -/
inductive Encoded where
  | input (x : Input)
  | txDescriptor (d : List Byte)
  | rxDescriptor (d : List Byte)
deriving DecidableEq, Repr

/-- Why an encoded input is no operation. Register accesses and command words always decode. -/
inductive DecodeError where
  /-- The event code is no row of R112. -/
  | unknownEvent (code : Byte)
  /-- The event's operand bytes are not those its row takes. -/
  | badEventOperand (code : Byte)
  /-- A descriptor that is not 16 bytes long (R103, R104). -/
  | badDescriptorLength (n : Nat)
deriving DecidableEq, Repr

/-- The operations: one constructor per row of spec/opcode_table.json, in the table's order within each format. -/
inductive Instr where
  -- MMIO32
  | rdTxcfg
  | wrTxcfg (v : Word)
  | rdTxbase
  | wrTxbase (v : Word)
  | rdRxcfg
  | wrRxcfg (v : Word)
  | rdRxbase
  | wrRxbase (v : Word)
  | rdIsr
  | wrIsr (v : Word)
  | rdImr
  | wrImr (v : Word)
  | rdCfg0
  | wrCfg0 (v : Word)
  | rdPwr
  | wrPwr (v : Word)
  | rdPhycfg
  | wrPhycfg (v : Word)
  | rdPhyctl
  | wrPhyctl (v : Word)
  | rdCfg1
  | wrCfg1 (v : Word)
  | rdRetry
  | wrRetry (v : Word)
  -- MMIO16
  | rdMcctl
  | wrMcctl (v : Half)
  -- MMIOB
  | rdMac0Lo (off n : Nat)
  | wrMac0Lo (off : Nat) (data : List Byte)
  | rdMac0Hi (off n : Nat)
  | wrMac0Hi (off : Nat) (data : List Byte)
  | rdMchash0 (off n : Nat)
  | wrMchash0 (off : Nat) (data : List Byte)
  | rdMchash1 (off n : Nat)
  | wrMchash1 (off : Nat) (data : List Byte)
  -- MMIO16
  | rdMaxpkt
  | wrMaxpkt (v : Half)
  -- MMIOB
  | rdMac1Lo (off n : Nat)
  | wrMac1Lo (off : Nat) (data : List Byte)
  | rdMac1Hi (off n : Nat)
  | wrMac1Hi (off : Nat) (data : List Byte)
  -- MMIO_UNDEF
  | rdUndef08 (off n : Nat)
  | wrUndef08 (off : Nat) (data : List Byte)
  | rdUndef18 (off n : Nat)
  | wrUndef18 (off : Nat) (data : List Byte)
  | rdUndef2c (off n : Nat)
  | wrUndef2c (off : Nat) (data : List Byte)
  | rdUndef34 (off n : Nat)
  | wrUndef34 (off : Nat) (data : List Byte)
  | rdUndef38 (off n : Nat)
  | wrUndef38 (off : Nat) (data : List Byte)
  | rdUndef48 (off n : Nat)
  | wrUndef48 (off : Nat) (data : List Byte)
  | rdUndef58 (off n : Nat)
  | wrUndef58 (off : Nat) (data : List Byte)
  | rdUndef70 (off n : Nat)
  | wrUndef70 (off : Nat) (data : List Byte)
  -- MMIO_ANY
  | badAccess (a : Access)
  -- MMIO_OUTSIDE
  | rdUndefHigh (off n : Nat)
  | wrUndefHigh (off : Nat) (data : List Byte)
  -- PHYCTL_CMD
  | mdioRdaddr (regnum phyaddr : BitVec 5) (busy : Bool) (data : Half)
  | mdioWrCtrl (op phyaddr : BitVec 5) (busy : Bool) (data : Half)
  | mdioWrId1 (op phyaddr : BitVec 5) (busy : Bool) (data : Half)
  | mdioWrId2 (op phyaddr : BitVec 5) (busy : Bool) (data : Half)
  | mdioWrAnarPhy1 (op : BitVec 5) (busy : Bool) (data : Half)
  | mdioWr (op regnum phyaddr : BitVec 5) (busy : Bool) (data : Half)
  -- TXD, RXD
  | txdOwned (d : TxDesc)
  | txdNotOwned (d : TxDesc)
  | rxdOwned (d : RxDesc)
  | rxdNotOwned (d : RxDesc)
  -- EVT
  | engPassBegin
  | engTxStep
  | engRxStep
  | engPassEnd
  | engTxEmit (sendOk : Bool)
  | wireFrameArrive (f : Packet)
  | linkChange (up : Bool)
  | hostReset
  | hostShutdown
deriving DecidableEq, Repr

/-- The formats of spec/opcode_table.json (R101, R102, R112). -/
inductive Format where
  | mmio32 | mmio16 | mmiob | mmioUndef | mmioAny | mmioOutside | phyctlCmd | txd | rxd | evt
deriving DecidableEq, Repr

/-- The format of an operation's row. -/
def Instr.format : Instr → Format
  | .rdTxcfg => .mmio32
  | .wrTxcfg _ => .mmio32
  | .rdTxbase => .mmio32
  | .wrTxbase _ => .mmio32
  | .rdRxcfg => .mmio32
  | .wrRxcfg _ => .mmio32
  | .rdRxbase => .mmio32
  | .wrRxbase _ => .mmio32
  | .rdIsr => .mmio32
  | .wrIsr _ => .mmio32
  | .rdImr => .mmio32
  | .wrImr _ => .mmio32
  | .rdCfg0 => .mmio32
  | .wrCfg0 _ => .mmio32
  | .rdPwr => .mmio32
  | .wrPwr _ => .mmio32
  | .rdPhycfg => .mmio32
  | .wrPhycfg _ => .mmio32
  | .rdPhyctl => .mmio32
  | .wrPhyctl _ => .mmio32
  | .rdCfg1 => .mmio32
  | .wrCfg1 _ => .mmio32
  | .rdRetry => .mmio32
  | .wrRetry _ => .mmio32
  | .rdMcctl => .mmio16
  | .wrMcctl _ => .mmio16
  | .rdMac0Lo _ _ => .mmiob
  | .wrMac0Lo _ _ => .mmiob
  | .rdMac0Hi _ _ => .mmiob
  | .wrMac0Hi _ _ => .mmiob
  | .rdMchash0 _ _ => .mmiob
  | .wrMchash0 _ _ => .mmiob
  | .rdMchash1 _ _ => .mmiob
  | .wrMchash1 _ _ => .mmiob
  | .rdMaxpkt => .mmio16
  | .wrMaxpkt _ => .mmio16
  | .rdMac1Lo _ _ => .mmiob
  | .wrMac1Lo _ _ => .mmiob
  | .rdMac1Hi _ _ => .mmiob
  | .wrMac1Hi _ _ => .mmiob
  | .rdUndef08 _ _ => .mmioUndef
  | .wrUndef08 _ _ => .mmioUndef
  | .rdUndef18 _ _ => .mmioUndef
  | .wrUndef18 _ _ => .mmioUndef
  | .rdUndef2c _ _ => .mmioUndef
  | .wrUndef2c _ _ => .mmioUndef
  | .rdUndef34 _ _ => .mmioUndef
  | .wrUndef34 _ _ => .mmioUndef
  | .rdUndef38 _ _ => .mmioUndef
  | .wrUndef38 _ _ => .mmioUndef
  | .rdUndef48 _ _ => .mmioUndef
  | .wrUndef48 _ _ => .mmioUndef
  | .rdUndef58 _ _ => .mmioUndef
  | .wrUndef58 _ _ => .mmioUndef
  | .rdUndef70 _ _ => .mmioUndef
  | .wrUndef70 _ _ => .mmioUndef
  | .badAccess _ => .mmioAny
  | .rdUndefHigh _ _ => .mmioOutside
  | .wrUndefHigh _ _ => .mmioOutside
  | .mdioRdaddr _ _ _ _ => .phyctlCmd
  | .mdioWrCtrl _ _ _ _ => .phyctlCmd
  | .mdioWrId1 _ _ _ _ => .phyctlCmd
  | .mdioWrId2 _ _ _ _ => .phyctlCmd
  | .mdioWrAnarPhy1 _ _ _ => .phyctlCmd
  | .mdioWr _ _ _ _ _ => .phyctlCmd
  | .txdOwned _ => .txd
  | .txdNotOwned _ => .txd
  | .rxdOwned _ => .rxd
  | .rxdNotOwned _ => .rxd
  | .engPassBegin => .evt
  | .engTxStep => .evt
  | .engRxStep => .evt
  | .engPassEnd => .evt
  | .engTxEmit _ => .evt
  | .wireFrameArrive _ => .evt
  | .linkChange _ => .evt
  | .hostReset => .evt
  | .hostShutdown => .evt

end Sys2Proof
end

