-- ==== Sys2Proof/WellFormed.lean ====
section
/-! DEFINITION. Which register accesses are well-formed (spec/20_memory.md R73, R74), and which operations carry
operands their row of spec/opcode_table.json admits. -/

namespace Sys2Proof

/-- R74: a byte offset that belongs to no register. -/
def undefinedOffset (o : Nat) : Bool :=
  (decide (0x08 ≤ o) && decide (o ≤ 0x0F)) || (decide (0x18 ≤ o) && decide (o ≤ 0x1F)) ||
  (decide (0x2C ≤ o) && decide (o ≤ 0x2F)) || (decide (0x34 ≤ o) && decide (o ≤ 0x3F)) ||
  (decide (0x48 ≤ o) && decide (o ≤ 0x4F)) || (decide (0x58 ≤ o) && decide (o ≤ 0x5F)) ||
  (decide (0x70 ≤ o) && decide (o ≤ 0x77)) || decide (mmioWindow ≤ o)

/-- R73 a: offsets of the registers of width 4 that are accessed whole. -/
def wordOffset (o : Nat) : Bool :=
  [0x00, 0x04, 0x10, 0x14, 0x20, 0x24, 0x28, 0x30, 0x40, 0x44, 0x50, 0x54].contains o

/-- R73 a: offsets of the registers of width 2. -/
def halfOffset (o : Nat) : Bool := [0x60, 0x78].contains o

/-- `[off, off+n)` is not empty and lies inside `[lo, hi)` (R73 b). -/
def rangeInside (lo hi off n : Nat) : Bool :=
  decide (1 ≤ n) && decide (lo ≤ off) && decide (off + n ≤ hi)

/-- R73 b: the range lies wholly inside one byte-addressable field. -/
def insideByteField (off n : Nat) : Bool :=
  rangeInside 0x62 0x68 off n || rangeInside 0x7A 0x80 off n ||
  rangeInside 0x68 0x6C off n || rangeInside 0x6C 0x70 off n

/-- R73 c: every byte undefined, and 1, 2 or 4 of them. -/
def undefinedRange (off n : Nat) : Bool :=
  (n == 1 || n == 2 || n == 4) && (List.range n).all fun k => undefinedOffset (off + k)

/-- R73: the access `(off, n)` is well-formed. -/
def accessOk (off n : Nat) : Bool :=
  (wordOffset off && n == 4) || (halfOffset off && n == 2) || insideByteField off n || undefinedRange off n

/-- The size `n` of an access (R70). -/
def Access.size : Access → Nat
  | .read _ n => n
  | .write _ data => data.length

/-- The offset of an access (R70). -/
def Access.off : Access → Nat
  | .read off _ => off
  | .write off _ => off

/-- R73 for an access. -/
def Access.wellFormed (a : Access) : Bool := accessOk a.off a.size

/-- An undefined-offset row: the access starts in the row's range and R73 c holds of it (R102, R167). -/
def undefRow (lo hi off n : Nat) : Bool :=
  decide (lo ≤ off) && decide (off ≤ hi) && undefinedRange off n

/-- A byte-field row: the access starts in the row's part of the field and stays inside the field (R102, R157). -/
def byteRow (lo hi fieldEnd off n : Nat) : Bool :=
  decide (lo ≤ off) && decide (off ≤ hi) && decide (1 ≤ n) && decide (off + n ≤ fieldEnd)

/-- The operands of an operation are those its row of the opcode table admits. The MDIO rows depend on the OPEN
parameter `MDIO_READ_OP`; the default row `MDIO_WR` holds the commands no earlier row takes (R102, R105). -/
def Instr.wellFormed (c : Config) : Instr → Bool
  | .rdTxcfg => true
  | .wrTxcfg _ => true
  | .rdTxbase => true
  | .wrTxbase _ => true
  | .rdRxcfg => true
  | .wrRxcfg _ => true
  | .rdRxbase => true
  | .wrRxbase _ => true
  | .rdIsr => true
  | .wrIsr _ => true
  | .rdImr => true
  | .wrImr _ => true
  | .rdCfg0 => true
  | .wrCfg0 _ => true
  | .rdPwr => true
  | .wrPwr _ => true
  | .rdPhycfg => true
  | .wrPhycfg _ => true
  | .rdPhyctl => true
  | .wrPhyctl _ => true
  | .rdCfg1 => true
  | .wrCfg1 _ => true
  | .rdRetry => true
  | .wrRetry _ => true
  | .rdMcctl => true
  | .wrMcctl _ => true
  | .rdMac0Lo off n => byteRow 0x62 0x63 0x68 off n
  | .wrMac0Lo off data => byteRow 0x62 0x63 0x68 off data.length
  | .rdMac0Hi off n => byteRow 0x64 0x67 0x68 off n
  | .wrMac0Hi off data => byteRow 0x64 0x67 0x68 off data.length
  | .rdMchash0 off n => byteRow 0x68 0x6B 0x6C off n
  | .wrMchash0 off data => byteRow 0x68 0x6B 0x6C off data.length
  | .rdMchash1 off n => byteRow 0x6C 0x6F 0x70 off n
  | .wrMchash1 off data => byteRow 0x6C 0x6F 0x70 off data.length
  | .rdMaxpkt => true
  | .wrMaxpkt _ => true
  | .rdMac1Lo off n => byteRow 0x7A 0x7B 0x80 off n
  | .wrMac1Lo off data => byteRow 0x7A 0x7B 0x80 off data.length
  | .rdMac1Hi off n => byteRow 0x7C 0x7F 0x80 off n
  | .wrMac1Hi off data => byteRow 0x7C 0x7F 0x80 off data.length
  | .rdUndef08 off n => undefRow 0x08 0x0F off n
  | .wrUndef08 off data => undefRow 0x08 0x0F off data.length
  | .rdUndef18 off n => undefRow 0x18 0x1F off n
  | .wrUndef18 off data => undefRow 0x18 0x1F off data.length
  | .rdUndef2c off n => undefRow 0x2C 0x2F off n
  | .wrUndef2c off data => undefRow 0x2C 0x2F off data.length
  | .rdUndef34 off n => undefRow 0x34 0x37 off n
  | .wrUndef34 off data => undefRow 0x34 0x37 off data.length
  | .rdUndef38 off n => undefRow 0x38 0x3F off n
  | .wrUndef38 off data => undefRow 0x38 0x3F off data.length
  | .rdUndef48 off n => undefRow 0x48 0x4F off n
  | .wrUndef48 off data => undefRow 0x48 0x4F off data.length
  | .rdUndef58 off n => undefRow 0x58 0x5F off n
  | .wrUndef58 off data => undefRow 0x58 0x5F off data.length
  | .rdUndef70 off n => undefRow 0x70 0x77 off n
  | .wrUndef70 off data => undefRow 0x70 0x77 off data.length
  | .badAccess a => !a.wellFormed
  | .rdUndefHigh off n => decide (mmioWindow ≤ off) && (n == 1 || n == 2 || n == 4)
  | .wrUndefHigh off data =>
    decide (mmioWindow ≤ off) && (data.length == 1 || data.length == 2 || data.length == 4)
  | .mdioRdaddr _ _ _ _ => true
  | .mdioWrCtrl op _ _ _ => op != c.mdioReadOp
  | .mdioWrId1 op _ _ _ => op != c.mdioReadOp
  | .mdioWrId2 op _ _ _ => op != c.mdioReadOp
  | .mdioWrAnarPhy1 op _ _ => op != c.mdioReadOp
  | .mdioWr op regnum phyaddr _ _ =>
    op != c.mdioReadOp && regnum != 0 && regnum != 2 && regnum != 3 && !(phyaddr == 1 && regnum == phyAnarReg)
  | .txdOwned _ => true
  | .txdNotOwned _ => true
  | .rxdOwned _ => true
  | .rxdNotOwned _ => true
  | .engPassBegin => true
  | .engTxStep => true
  | .engRxStep => true
  | .engPassEnd => true
  | .engTxEmit _ => true
  | .wireFrameArrive _ => true
  | .linkChange _ => true
  | .hostReset => true
  | .hostShutdown => true

end Sys2Proof
end

