-- ==== Sys2Proof/Decode.lean ====
section
/-! DEFINITION. The decoder and the encoder of the four kinds of encoded input (spec/30_encoding.md), with the byte
order and bit-field helpers they and the machine use. -/

namespace Sys2Proof

/-! ### Byte order and bit fields (R8, R71, R72) -/

/-- `le32` of the four bytes from index `i` of a byte string (R8, R71); bytes beyond its end read 0. -/
def le32At (b : List Byte) (i : Nat) : Word :=
  b.getD (i + 3) 0 ++ b.getD (i + 2) 0 ++ b.getD (i + 1) 0 ++ b.getD i 0

/-- `le32` (R8). -/
def le32 (b : List Byte) : Word := le32At b 0

/-- `le32bytes`, the inverse of `le32` (R8). -/
def le32bytes (v : Word) : List Byte :=
  [v.extractLsb' 0 8, v.extractLsb' 8 8, v.extractLsb' 16 8, v.extractLsb' 24 8]

/-- The u16 of two bytes, low byte first (R72). -/
def le16 (b : List Byte) : Half := b.getD 1 0 ++ b.getD 0 0

/-- The two bytes of a u16, low byte first (R72). -/
def le16bytes (v : Half) : List Byte := [v.extractLsb' 0 8, v.extractLsb' 8 8]

/-! ### The PHYCTL command word (R105)

The positions are those of R30 and R105, the spec's decision D17. DESIGN CHOICE (log entry 23), unsafe: D17 advises "A model
should keep the positions as configuration", and the model has them as literals, here and in `phyctlFilled`. -/

/-- `OP = [4:0]`. -/
def mdioOp (v : Word) : BitVec 5 := v.extractLsb' 0 5

/-- `REGNUM = [9:5]`. -/
def mdioRegnum (v : Word) : BitVec 5 := v.extractLsb' 5 5

/-- `PHYADDR = [14:10]`. -/
def mdioPhyaddr (v : Word) : BitVec 5 := v.extractLsb' 10 5

/-- `BUSY = [15]`. -/
def mdioBusy (v : Word) : Bool := v.getLsbD 15

/-- `DATA = [31:16]`. -/
def mdioData (v : Word) : Half := v.extractLsb' 16 16

/-- The fields of a command word (R105), at D17's positions as literals: DESIGN CHOICE (log entry 23), unsafe. -/
def mdioSplit (v : Word) : MdioWord :=
  ⟨mdioOp v, mdioRegnum v, mdioPhyaddr v, mdioBusy v, mdioData v⟩

/-- The command word of its fields: `DATA<<16 | BUSY<<15 | PHYADDR<<10 | REGNUM<<5 | OP` (R105). -/
def mdioJoin (m : MdioWord) : Word :=
  m.data ++ (BitVec.ofBool m.busy ++ (m.phyaddr ++ (m.regnum ++ m.op)))

/-- The rows of format `PHYCTL_CMD` in table order, the first that matches (R102, R105, R192). -/
def decodeCommand (c : Config) (v : Word) : Instr :=
  let m := mdioSplit v
  if m.op = c.mdioReadOp then .mdioRdaddr m.regnum m.phyaddr m.busy m.data
  else if m.regnum = 0 then .mdioWrCtrl m.op m.phyaddr m.busy m.data
  else if m.regnum = 2 then .mdioWrId1 m.op m.phyaddr m.busy m.data
  else if m.regnum = 3 then .mdioWrId2 m.op m.phyaddr m.busy m.data
  else if m.phyaddr = 1 ∧ m.regnum = phyAnarReg then .mdioWrAnarPhy1 m.op m.busy m.data
  else .mdioWr m.op m.regnum m.phyaddr m.busy m.data

/-! ### Descriptors (R103, R104, R107) -/

/-- Word `i` of a descriptor's 16 bytes: `w_i = le32(d[4i .. 4i+3])` (R107 c). -/
def descWord (d : List Byte) (i : Nat) : Word := le32At d (4 * i)

/-- The OWN bit: bit 31 of word 1 (R103, R104). -/
def ownBit (d : List Byte) : Bool := (descWord d 1).getLsbD 31

/-- The fields of a TX descriptor (R103). -/
def txFields (d : List Byte) : TxDesc where
  length := descWord d 0
  statusRest := (descWord d 1).extractLsb' 0 31
  bufferAddress := descWord d 2
  wrap := (descWord d 3).getLsbD 31
  ignored := (descWord d 3).extractLsb' 0 31

/-- The fields of an RX descriptor (R104). -/
def rxFields (d : List Byte) : RxDesc where
  receivedLength := descWord d 0
  statusRest := (descWord d 1).extractLsb' 0 31
  bufferAddress := descWord d 2
  wrap := (descWord d 3).getLsbD 31
  bufferSize := (descWord d 3).extractLsb' 0 31

/-- A u32 from its bit 31 and its bits 30:0. -/
def topBit (b : Bool) (rest : BitVec 31) : Word := BitVec.ofBool b ++ rest

/-- The 16 bytes of a TX descriptor (R103). -/
def txBytes (own : Bool) (d : TxDesc) : List Byte :=
  le32bytes d.length ++ le32bytes (topBit own d.statusRest) ++ le32bytes d.bufferAddress ++
    le32bytes (topBit d.wrap d.ignored)

/-- The 16 bytes of an RX descriptor (R104). -/
def rxBytes (own : Bool) (d : RxDesc) : List Byte :=
  le32bytes d.receivedLength ++ le32bytes (topBit own d.statusRest) ++ le32bytes d.bufferAddress ++
    le32bytes (topBit d.wrap d.bufferSize)

/-- The rows of format `TXD`, split on OWN. -/
def decodeTxDescriptor (d : List Byte) : Instr :=
  if ownBit d then .txdOwned (txFields d) else .txdNotOwned (txFields d)

/-- The rows of format `RXD`, split on OWN. -/
def decodeRxDescriptor (d : List Byte) : Instr :=
  if ownBit d then .rxdOwned (rxFields d) else .rxdNotOwned (rxFields d)

/-! ### Register accesses (R100 to R102) -/

/-- The windows of the register map, one for each match and mask pair of R102. -/
inductive Window where
  | txcfg | txbase | rxcfg | rxbase | isr | imr | cfg0 | pwr | phycfg | phyctl | cfg1 | retry
  | mcctl | mac0Lo | mac0Hi | mchash0 | mchash1 | maxpkt | mac1Lo | mac1Hi
  | undef08 | undef18 | undef2c | undef34 | undef38 | undef48 | undef58 | undef70
deriving DecidableEq, Repr

/-- One row of the map: a pattern and a mask over `off[6:0]` (R102). -/
structure WindowRow where
  pattern : BitVec 7
  mask : BitVec 7
  window : Window
deriving DecidableEq, Repr

/-- The selector of R100: `{W, off[6:0]}`. -/
def selector (isWrite : Bool) (off : BitVec 7) : Byte := BitVec.ofBool isWrite ++ off

/-- The register map of R102 in the table's order. -/
def windowRows : List WindowRow :=
  [⟨0x00, 0x7F, .txcfg⟩, ⟨0x04, 0x7F, .txbase⟩, ⟨0x10, 0x7F, .rxcfg⟩, ⟨0x14, 0x7F, .rxbase⟩,
   ⟨0x20, 0x7F, .isr⟩, ⟨0x24, 0x7F, .imr⟩, ⟨0x28, 0x7F, .cfg0⟩, ⟨0x30, 0x7F, .pwr⟩,
   ⟨0x40, 0x7F, .phycfg⟩, ⟨0x44, 0x7F, .phyctl⟩, ⟨0x50, 0x7F, .cfg1⟩, ⟨0x54, 0x7F, .retry⟩] ++
  [⟨0x60, 0x7F, .mcctl⟩, ⟨0x62, 0x7E, .mac0Lo⟩, ⟨0x64, 0x7C, .mac0Hi⟩, ⟨0x68, 0x7C, .mchash0⟩,
   ⟨0x6C, 0x7C, .mchash1⟩, ⟨0x78, 0x7F, .maxpkt⟩, ⟨0x7A, 0x7E, .mac1Lo⟩, ⟨0x7C, 0x7C, .mac1Hi⟩] ++
  [⟨0x08, 0x78, .undef08⟩, ⟨0x18, 0x78, .undef18⟩, ⟨0x2C, 0x7C, .undef2c⟩, ⟨0x34, 0x7C, .undef34⟩,
   ⟨0x38, 0x78, .undef38⟩, ⟨0x48, 0x78, .undef48⟩, ⟨0x58, 0x78, .undef58⟩, ⟨0x70, 0x78, .undef70⟩]

/-- A row matches an offset (R102). -/
def WindowRow.hit (r : WindowRow) (off : BitVec 7) : Bool := off &&& r.mask == r.pattern

/-- "A decoder takes the first matching row" (R102); none: the interior of a word register. -/
def findWindow (off : BitVec 7) : Option Window := (windowRows.find? (·.hit off)).map (·.window)

/-- The bytes an undefined window shares with its undefined neighbours: where the undefined stretch that starts at or
before the offset ends (R74). -/
def undefEnd : Window → Nat
  | .undef08 => 0x10
  | .undef18 => 0x20
  | .undef2c => 0x30
  | .undef34 => 0x40
  | .undef38 => 0x40
  | .undef48 => 0x50
  | .undef58 => 0x60
  | .undef70 => 0x78
  | _ => 0

/-- 1, 2 or 4 bytes (R73 c). -/
def undefSize (n : Nat) : Bool := n == 1 || n == 2 || n == 4

/-- The size check of a matched row (R101, R73): MMIO32 exactly 4, MMIO16 exactly 2, MMIOB any range inside the field,
undefined 1, 2 or 4 bytes that are all undefined. -/
def Window.accepts (w : Window) (off n : Nat) : Bool :=
  match w with
  | .mcctl | .maxpkt => n == 2
  | .mac0Lo | .mac0Hi => decide (1 ≤ n) && decide (off + n ≤ 0x68)
  | .mchash0 => decide (1 ≤ n) && decide (off + n ≤ 0x6C)
  | .mchash1 => decide (1 ≤ n) && decide (off + n ≤ 0x70)
  | .mac1Lo | .mac1Hi => decide (1 ≤ n) && decide (off + n ≤ 0x80)
  | .undef08 | .undef18 | .undef2c | .undef34 | .undef38 | .undef48 | .undef58 | .undef70 =>
    undefSize n && decide (off + n ≤ undefEnd w)
  | _ => n == 4

/-- The read row of a window (R102). -/
def Window.readInstr (w : Window) (off n : Nat) : Instr :=
  match w with
  | .txcfg => .rdTxcfg
  | .txbase => .rdTxbase
  | .rxcfg => .rdRxcfg
  | .rxbase => .rdRxbase
  | .isr => .rdIsr
  | .imr => .rdImr
  | .cfg0 => .rdCfg0
  | .pwr => .rdPwr
  | .phycfg => .rdPhycfg
  | .phyctl => .rdPhyctl
  | .cfg1 => .rdCfg1
  | .retry => .rdRetry
  | .mcctl => .rdMcctl
  | .mac0Lo => .rdMac0Lo off n
  | .mac0Hi => .rdMac0Hi off n
  | .mchash0 => .rdMchash0 off n
  | .mchash1 => .rdMchash1 off n
  | .maxpkt => .rdMaxpkt
  | .mac1Lo => .rdMac1Lo off n
  | .mac1Hi => .rdMac1Hi off n
  | .undef08 => .rdUndef08 off n
  | .undef18 => .rdUndef18 off n
  | .undef2c => .rdUndef2c off n
  | .undef34 => .rdUndef34 off n
  | .undef38 => .rdUndef38 off n
  | .undef48 => .rdUndef48 off n
  | .undef58 => .rdUndef58 off n
  | .undef70 => .rdUndef70 off n

/-- The write row of a window, its value assembled from the data bytes (R102, R107 a). -/
def Window.writeInstr (w : Window) (off : Nat) (data : List Byte) : Instr :=
  match w with
  | .txcfg => .wrTxcfg (le32 data)
  | .txbase => .wrTxbase (le32 data)
  | .rxcfg => .wrRxcfg (le32 data)
  | .rxbase => .wrRxbase (le32 data)
  | .isr => .wrIsr (le32 data)
  | .imr => .wrImr (le32 data)
  | .cfg0 => .wrCfg0 (le32 data)
  | .pwr => .wrPwr (le32 data)
  | .phycfg => .wrPhycfg (le32 data)
  | .phyctl => .wrPhyctl (le32 data)
  | .cfg1 => .wrCfg1 (le32 data)
  | .retry => .wrRetry (le32 data)
  | .mcctl => .wrMcctl (le16 data)
  | .mac0Lo => .wrMac0Lo off data
  | .mac0Hi => .wrMac0Hi off data
  | .mchash0 => .wrMchash0 off data
  | .mchash1 => .wrMchash1 off data
  | .maxpkt => .wrMaxpkt (le16 data)
  | .mac1Lo => .wrMac1Lo off data
  | .mac1Hi => .wrMac1Hi off data
  | .undef08 => .wrUndef08 off data
  | .undef18 => .wrUndef18 off data
  | .undef2c => .wrUndef2c off data
  | .undef34 => .wrUndef34 off data
  | .undef38 => .wrUndef38 off data
  | .undef48 => .wrUndef48 off data
  | .undef58 => .wrUndef58 off data
  | .undef70 => .wrUndef70 off data

/-- The row an access decodes to once its window is known. -/
def Window.instr (w : Window) : Access → Instr
  | .read off n => w.readInstr off n
  | .write off data => w.writeInstr off data

/-- The rows of format `MMIO_OUTSIDE`: an access with `off >= 0x80` has no selector (R100, R102). -/
def decodeOutside : Access → Instr
  | .read off n => .rdUndefHigh off n
  | .write off data => .wrUndefHigh off data

/-- A register access always decodes: to the first row its selector matches if the row's size check passes, else to
`BAD_ACCESS` (R102, R73, R169). -/
def decodeAccess (a : Access) : Instr :=
  if mmioWindow ≤ a.off then
    if undefSize a.size then decodeOutside a else .badAccess a
  else
    match findWindow (BitVec.ofNat 7 a.off) with
    | some w => if w.accepts a.off a.size then w.instr a else .badAccess a
    | none => .badAccess a

/-! ### Events (R112) -/

/-- An event row that takes no operand bytes. -/
def noOperand (code : Byte) (i : Instr) : List Byte → Except DecodeError Instr
  | [] => .ok i
  | _ :: _ => .error (.badEventOperand code)

/-- An event row that takes one byte, 0 or 1. -/
def bitOperand (code : Byte) (i : Bool → Instr) : List Byte → Except DecodeError Instr
  | [b] => if b = 0 then .ok (i false) else if b = 1 then .ok (i true) else .error (.badEventOperand code)
  | _ => .error (.badEventOperand code)

/-- The event codes of R112. `LINK_CHANGE` takes the new link state, `WIRE_FRAME_ARRIVE` the frame; `ENG_TX_EMIT`
takes the environment's answer to `Send` (R301). DESIGN CHOICE (log entry 9), safe: the operand bytes. -/
def decodeEvent (code : Byte) (operand : List Byte) : Except DecodeError Instr :=
  if code = 0x01 then noOperand code .engPassBegin operand
  else if code = 0x02 then noOperand code .engTxStep operand
  else if code = 0x03 then noOperand code .engRxStep operand
  else if code = 0x04 then noOperand code .engPassEnd operand
  else if code = 0x05 then bitOperand code .engTxEmit operand
  else if code = 0x10 then .ok (.wireFrameArrive operand)
  else if code = 0x11 then bitOperand code .linkChange operand
  else if code = 0x20 then noOperand code .hostReset operand
  else if code = 0x21 then noOperand code .hostShutdown operand
  else .error (.unknownEvent code)

/-! ### The decoder and the encoder -/

/-- What the environment presents, decoded. -/
def decodeInput (c : Config) : Input → Except DecodeError Instr
  | .access a => .ok (decodeAccess a)
  | .command w => .ok (decodeCommand c w)
  | .event code operand => decodeEvent code operand

/-- The decoder: total, rejecting by name. -/
def decode (c : Config) : Encoded → Except DecodeError Instr
  | .input x => decodeInput c x
  | .txDescriptor d => if d.length = 16 then .ok (decodeTxDescriptor d) else .error (.badDescriptorLength d.length)
  | .rxDescriptor d => if d.length = 16 then .ok (decodeRxDescriptor d) else .error (.badDescriptorLength d.length)

/-- A register read as encoded. -/
def encRead (off n : Nat) : Encoded := .input (.access (.read off n))

/-- A register write as encoded. -/
def encWrite (off : Nat) (data : List Byte) : Encoded := .input (.access (.write off data))

/-- A command word as encoded. -/
def encCommand (m : MdioWord) : Encoded := .input (.command (mdioJoin m))

/-- An event as encoded. -/
def encEvent (code : Byte) (operand : List Byte) : Encoded := .input (.event code operand)

/-- An operand byte for one bit. -/
def bitByte (b : Bool) : Byte := if b then 1 else 0

/-- The encoder, written from the tables of spec/30_encoding.md: the triple (offset and direction, size, data bytes) of
R111, the command word of R105, the descriptors of R103 and R104, the event codes of R112. -/
def encode (c : Config) : Instr → Encoded
  | .rdTxcfg => encRead 0x00 4
  | .wrTxcfg v => encWrite 0x00 (le32bytes v)
  | .rdTxbase => encRead 0x04 4
  | .wrTxbase v => encWrite 0x04 (le32bytes v)
  | .rdRxcfg => encRead 0x10 4
  | .wrRxcfg v => encWrite 0x10 (le32bytes v)
  | .rdRxbase => encRead 0x14 4
  | .wrRxbase v => encWrite 0x14 (le32bytes v)
  | .rdIsr => encRead 0x20 4
  | .wrIsr v => encWrite 0x20 (le32bytes v)
  | .rdImr => encRead 0x24 4
  | .wrImr v => encWrite 0x24 (le32bytes v)
  | .rdCfg0 => encRead 0x28 4
  | .wrCfg0 v => encWrite 0x28 (le32bytes v)
  | .rdPwr => encRead 0x30 4
  | .wrPwr v => encWrite 0x30 (le32bytes v)
  | .rdPhycfg => encRead 0x40 4
  | .wrPhycfg v => encWrite 0x40 (le32bytes v)
  | .rdPhyctl => encRead 0x44 4
  | .wrPhyctl v => encWrite 0x44 (le32bytes v)
  | .rdCfg1 => encRead 0x50 4
  | .wrCfg1 v => encWrite 0x50 (le32bytes v)
  | .rdRetry => encRead 0x54 4
  | .wrRetry v => encWrite 0x54 (le32bytes v)
  | .rdMcctl => encRead 0x60 2
  | .wrMcctl v => encWrite 0x60 (le16bytes v)
  | .rdMac0Lo off n => encRead off n
  | .wrMac0Lo off data => encWrite off data
  | .rdMac0Hi off n => encRead off n
  | .wrMac0Hi off data => encWrite off data
  | .rdMchash0 off n => encRead off n
  | .wrMchash0 off data => encWrite off data
  | .rdMchash1 off n => encRead off n
  | .wrMchash1 off data => encWrite off data
  | .rdMaxpkt => encRead 0x78 2
  | .wrMaxpkt v => encWrite 0x78 (le16bytes v)
  | .rdMac1Lo off n => encRead off n
  | .wrMac1Lo off data => encWrite off data
  | .rdMac1Hi off n => encRead off n
  | .wrMac1Hi off data => encWrite off data
  | .rdUndef08 off n => encRead off n
  | .wrUndef08 off data => encWrite off data
  | .rdUndef18 off n => encRead off n
  | .wrUndef18 off data => encWrite off data
  | .rdUndef2c off n => encRead off n
  | .wrUndef2c off data => encWrite off data
  | .rdUndef34 off n => encRead off n
  | .wrUndef34 off data => encWrite off data
  | .rdUndef38 off n => encRead off n
  | .wrUndef38 off data => encWrite off data
  | .rdUndef48 off n => encRead off n
  | .wrUndef48 off data => encWrite off data
  | .rdUndef58 off n => encRead off n
  | .wrUndef58 off data => encWrite off data
  | .rdUndef70 off n => encRead off n
  | .wrUndef70 off data => encWrite off data
  | .badAccess a => .input (.access a)
  | .rdUndefHigh off n => encRead off n
  | .wrUndefHigh off data => encWrite off data
  | .mdioRdaddr regnum phyaddr busy data => encCommand ⟨c.mdioReadOp, regnum, phyaddr, busy, data⟩
  | .mdioWrCtrl op phyaddr busy data => encCommand ⟨op, 0, phyaddr, busy, data⟩
  | .mdioWrId1 op phyaddr busy data => encCommand ⟨op, 2, phyaddr, busy, data⟩
  | .mdioWrId2 op phyaddr busy data => encCommand ⟨op, 3, phyaddr, busy, data⟩
  | .mdioWrAnarPhy1 op busy data => encCommand ⟨op, phyAnarReg, 1, busy, data⟩
  | .mdioWr op regnum phyaddr busy data => encCommand ⟨op, regnum, phyaddr, busy, data⟩
  | .txdOwned d => .txDescriptor (txBytes true d)
  | .txdNotOwned d => .txDescriptor (txBytes false d)
  | .rxdOwned d => .rxDescriptor (rxBytes true d)
  | .rxdNotOwned d => .rxDescriptor (rxBytes false d)
  | .engPassBegin => encEvent 0x01 []
  | .engTxStep => encEvent 0x02 []
  | .engRxStep => encEvent 0x03 []
  | .engPassEnd => encEvent 0x04 []
  | .engTxEmit ok => encEvent 0x05 [bitByte ok]
  | .wireFrameArrive f => encEvent 0x10 f
  | .linkChange up => encEvent 0x11 [bitByte up]
  | .hostReset => encEvent 0x20 []
  | .hostShutdown => encEvent 0x21 []

/-! ### Words of the opcode table -/

/-- The size the table gives a selector's row: 4 or 2, or 1 as the least of a range (R101). -/
def tableSize (off : BitVec 7) : Nat :=
  match findWindow off with
  | some w => if w.accepts off.toNat 1 then 1 else if w.accepts off.toNat 2 then 2 else 4
  | none => 1

/-- The input a table word of 8 bits stands for. The table numbers selectors and events in one 8-bit space each: a code
some window row matches is read as the selector, any other as the event of that code if there is one, else as the
selector of an ill-formed access (log entry 10). Sizes come from the row; data and operand bytes are zeros. -/
def selectorInput (w : Byte) : Input :=
  let off : BitVec 7 := w.extractLsb' 0 7
  let n := tableSize off
  let access := if w.getLsbD 7 then Access.write off.toNat (List.replicate n 0) else Access.read off.toNat n
  if (findWindow off).isSome then .access access
  else if w = 0x05 ∨ w = 0x11 then .event w [0]
  else if w = 0x01 ∨ w = 0x02 ∨ w = 0x03 ∨ w = 0x21 then .event w []
  else .access access

/-- The input a table word stands for: up to 8 bits a selector or an event code, more a PHYCTL command word. -/
def tableInput (nbits w : Nat) : Input :=
  if nbits ≤ 8 then selectorInput (BitVec.ofNat 8 w) else .command (BitVec.ofNat 32 w)

/-- The instruction the decoder reads from a table word. The command rows of the table are printed under P0
("match is under P0"), so the word is decoded under P0. -/
def decodeTableWord (nbits w : Nat) : Option Instr :=
  match decodeInput Config.p0 (tableInput nbits w) with
  | .ok i => some i
  | .error _ => none

end Sys2Proof
end

