-- ==== Sys2Proof/Machine/State.lean ====
section
/-! DEFINITION. The state of the block (spec/10_state.md), the model's own fields beside it (INVENTORY.md "State"), the
reasons an operation can stop, and the state after reset (R50). -/

namespace Sys2Proof.Machine

/-- The three rings (R1, R40). -/
inductive Ring where
  | tx0
  | tx1
  | rx
deriving DecidableEq, Repr

/-- An open pass: the ring, the descriptor steps taken in it and the descriptors consumed in it (R40). -/
structure Pass where
  ring : Ring
  steps : Nat
  consumed : Nat
deriving DecidableEq, Repr

/-- The PHY register bank `phy[p][n]` (R44). -/
abbrev PhyBank := Vector (Vector Half 32) 32

/-- Guest memory: (address, byte) pairs, addresses strictly rising, none holding 0, which is what an unlisted address
reads as (log entry 5). `Memory.wf` in Machine/Ops.lean says so. -/
abbrev Memory := List Host.Cell

/-- An access of the guest CPU to guest memory: "ordinary guest-memory loads and stores" (R11, R47, R84). -/
inductive GuestOp where
  | store (addr : Word) (data : List Byte)
  | load (addr : Word) (n : Nat)
deriving DecidableEq, Repr

/-- The guest accesses that meet one memory access of the engine. A single-copy-atomic access (a descriptor fetch, a
write-back) comes before them all. Of a payload access, which "is not atomic: its bytes may be read or written in any
order and observed partly done by the guest" (R78), byte `k` comes after the first `seen[k]` of them, and before them all
where `seen` does not say (log entry 6). -/
structure RaceBatch where
  ops : List GuestOp
  seen : List Nat
deriving DecidableEq, Repr

/-- One turn of the schedule: an operation presented to the block, a guest access to memory between two operations, or
guest accesses that will meet the engine's next memory accesses, one batch for each (log entries 1 and 6). -/
inductive Turn where
  | input (x : Input)
  | guest (g : GuestOp)
  | guestRace (batches : List RaceBatch)
deriving DecidableEq, Repr

/-- What the outside sees: the data of a register read, `IrqRequest(tag)` (R323), `Send(f)` with its answer (R301), the
engine's memory accesses with their answers (R75, R283), and the bytes a load of the guest CPU returned (R11, R78). -/
inductive Event where
  | readData (off : Nat) (data : List Byte)
  | irqRequest (tag : Nat)
  | send (f : Packet) (ok : Bool)
  | memRead (addr : Word) (n : Nat) (ok : Bool)
  | memWrite (addr : Word) (data : List Byte) (ok : Bool)
  | guestLoad (addr : Word) (data : List Byte)
deriving DecidableEq, Repr

/-- Why an operation faults. -/
inductive Fault where
  /-- `BusFault`: an ill-formed register access (R73, R169, R320). Raised by `BAD_ACCESS` only. Safe: "A model treats
  `BusFault` as a fault of the access (toward unprovable), never as a value". -/
  | busFault
deriving DecidableEq, Repr

/-- Why an operation is refused. -/
inductive Refusal where
  /-- Raised by `exec` for an instruction without a meaning. No arm does. Safe. -/
  | notModelled (mnemonic : String)
  /-- A guest register access after `HOST_SHUTDOWN`: "Guest register accesses after shutdown are outside the spec"
  (R287), treatment "`refuse`" (93 U6). Raised by every register access and PHYCTL command. Safe. -/
  | accessAfterShutdown
  /-- The schedule presents an event that is no row of R112. Raised by `step`. Safe. -/
  | notAnOperation (why : DecodeError)
deriving DecidableEq, Repr

/-- The state. The register file and the hidden state are those of spec/10_state.md. `cfg`, `mem`, `schedule`, `race` and
`history` are the model's own: parameters, guest memory, and the block's inputs and outputs. -/
structure State where
  -- the register file (R20)
  txcfg : Word
  txbase0 : Word
  txbase1 : Word
  rxcfg : Word
  rxbase : Word
  isr : Word
  imr : Word
  cfg0 : Word
  pwr : Word
  phycfg : Word
  phyctl : Word
  cfg1 : Word
  retry : Word
  mcctl : Half
  mac0 : Vector Byte 6
  mchash0 : Word
  mchash1 : Word
  maxpkt : Half
  mac1 : Vector Byte 6
  -- armed flags (R38), cursors (R39), pass context and scheduler (R40)
  txArmed0 : Bool
  txArmed1 : Bool
  rxArmed : Bool
  txHead0 : Nat
  txHead1 : Nat
  rxHead : Nat
  pass : Option Pass
  nextRing : Ring
  -- queues (R41) and counters (R43)
  txQueue : List Packet
  rxQueue : List Packet
  txErrCount : Nat
  rxErrCount : Nat
  rxOverrunCount : Nat
  txDropCount : Nat
  rxDropCount : Nat
  txSendFailCount : Nat
  -- the PHY bank (R44), link and run state (R45)
  phy : PhyBank
  linkUp : Bool
  shutdown : Bool
  -- the model's own
  cfg : Config
  mem : Memory
  schedule : List Turn
  race : List RaceBatch
  history : List Event
deriving DecidableEq, Repr

/-- The block after reset under the parameters `c`: every item of R50 at its value, and nothing in guest memory, in the
schedule or in the history. -/
def State.resetWith (c : Config) : State where
  txcfg := 0
  txbase0 := 0
  txbase1 := 0
  rxcfg := 0
  rxbase := 0
  isr := 0
  imr := 0
  cfg0 := 0
  pwr := 0
  phycfg := 0
  phyctl := 0
  cfg1 := 0
  retry := 0
  mcctl := 0
  mac0 := Vector.replicate 6 0
  mchash0 := 0
  mchash1 := 0
  maxpkt := 0
  mac1 := Vector.replicate 6 0
  txArmed0 := false
  txArmed1 := false
  rxArmed := false
  txHead0 := 0
  txHead1 := 0
  rxHead := 0
  pass := none
  nextRing := .tx0
  txQueue := []
  rxQueue := []
  txErrCount := 0
  rxErrCount := 0
  rxOverrunCount := 0
  txDropCount := 0
  rxDropCount := 0
  txSendFailCount := 0
  phy := Vector.replicate 32 c.phyDefault
  linkUp := true
  shutdown := false
  cfg := c
  mem := []
  schedule := []
  race := []
  history := []

/-- The machine right after reset (R50), under the reference parameters P0. DESIGN CHOICE (log entry 2), unsafe: R6
leaves the parameters OPEN; one State needs one value of each. -/
def State.reset : State := State.resetWith Config.p0

end Sys2Proof.Machine
end

