-- ==== Sys2Proof/Machine/Operands.lean ====
section
/-! DEFINITION. Operand assembly: byte fields of the register window (R34, R35, R72), per-ring registers and cursors,
descriptor addresses (R107), the PHY bank's addressing (R44, R47). -/

namespace Sys2Proof.Machine

/-! ### Byte-addressable fields (R34, R35, R157, R159) -/

/-- Bytes `k .. k+n-1` of a byte field (R158). -/
def readField {m : Nat} (f : Vector Byte m) (k n : Nat) : List Byte := (f.toList.drop k).take n

/-- `for j in 0 .. n-1: field[k + j] <- data[j]` (R157). -/
def writeField {m : Nat} (f : Vector Byte m) (k : Nat) : List Byte → Vector Byte m
  | [] => f
  | b :: bs => writeField (f.setIfInBounds k b) (k + 1) bs

/-- The four byte lanes of a u32: byte `j` is bits `[8j+7:8j]` (R35, R72). -/
def wordLanes (v : Word) : Vector Byte 4 :=
  #v[v.extractLsb' 0 8, v.extractLsb' 8 8, v.extractLsb' 16 8, v.extractLsb' 24 8]

/-- The u32 of its four byte lanes (R35, R72). -/
def lanesWord (f : Vector Byte 4) : Word := f[3] ++ f[2] ++ f[1] ++ f[0]

/-- Bytes of a byte-addressable u32 (R160). -/
def readLanes (v : Word) (k n : Nat) : List Byte := readField (wordLanes v) k n

/-- Byte `j` of the access replaces bits `[8(k+j)+7 : 8(k+j)]` (R159). -/
def writeLanes (v : Word) (k : Nat) (data : List Byte) : Word := lanesWord (writeField (wordLanes v) k data)

/-- What a read of undefined offsets returns: `n` bytes `0xFF` (R74, R167). -/
def allOnes (n : Nat) : List Byte := List.replicate n 0xFF

/-! ### Per-ring registers (R5, R22, R38, R39, R107) -/

/-- `RING_LEN` (R5). -/
def ringLen : Ring → Nat
  | .tx0 => 32
  | .tx1 => 8
  | .rx => 64

/-- The cause of a ring's done interrupt (R5, R229). -/
def ringCause : Ring → Word
  | .tx0 => intTx0
  | .tx1 => intTx1
  | .rx => intRx

/-- The successor in TX0 → TX1 → RX → TX0 (R284). -/
def ringAfter : Ring → Ring
  | .tx0 => .tx1
  | .tx1 => .rx
  | .rx => .tx0

/-- The base register of a ring (R107 b). -/
def State.base (s : State) : Ring → Word
  | .tx0 => s.txbase0
  | .tx1 => s.txbase1
  | .rx => s.rxbase

/-- The cursor of a ring (R39). -/
def State.head (s : State) : Ring → Nat
  | .tx0 => s.txHead0
  | .tx1 => s.txHead1
  | .rx => s.rxHead

/-- `head(ring) <- i` (R10, R39). -/
def State.setHead (s : State) (r : Ring) (i : Nat) : State :=
  match r with
  | .tx0 => { s with txHead0 := i }
  | .tx1 => { s with txHead1 := i }
  | .rx => { s with rxHead := i }

/-- The armed flag of a ring (R38). -/
def State.armed (s : State) : Ring → Bool
  | .tx0 => s.txArmed0
  | .tx1 => s.txArmed1
  | .rx => s.rxArmed

/-- `descAddr(ring) = (base(ring) + 16 * head(ring)) mod 2^32` (R107 b). -/
def State.descAddr (s : State) (r : Ring) : Word := s.base r + 16 * BitVec.ofNat 32 (s.head r)

/-! ### The PHY bank (R44) -/

/-- `phy[p][n]`. -/
def phyGet (b : PhyBank) (p n : BitVec 5) : Half := (b.get p.toFin).get n.toFin

/-- `phy[p][n] <- d`. -/
def phySet (b : PhyBank) (p n : BitVec 5) (d : Half) : PhyBank :=
  b.set p.toNat ((b.get p.toFin).set n.toNat d n.isLt) p.isLt

end Sys2Proof.Machine
end

