-- ==== Sys2Proof/Machine/Flags.lean ====
section
/-! DEFINITION. Every status flag of R46: the armed flags (R132, R136), the ISR causes and the request test (R140, R322),
the soft-reset pattern (R27), the PHYCTL fill and busy bit (R191), the select bit (R21), OWN and WRAP (R227, R231). -/

namespace Sys2Proof.Machine

/-- `TXCFG_DMA_EN_BIT`, decided 0 (R21, D9). -/
def txDmaEn (v : Word) : Bool := v.getLsbD 0

/-- The TXCFG enable bit of ring `r`: bit 4, bit 5 (R21). There is none for RX. -/
def txEnable (v : Word) : Ring → Bool
  | .tx0 => v.getLsbD 4
  | .tx1 => v.getLsbD 5
  | .rx => false

/-- `TXCFG[16]`, `SEL1` (R21, R110). -/
def txSelect1 (v : Word) : Bool := v.getLsbD 16

/-- A TX ring's armed flag after a TXCFG write of `v` (R132). -/
def txArmedAfter (v : Word) (r : Ring) (was : Bool) : Bool :=
  if txEnable v r then true else if txDmaEn v then was else false

/-- `RXCFG_DMA_EN_BIT`, decided 0 (R23, D8). -/
def rxDmaEn (v : Word) : Bool := v.getLsbD 0

/-- `RXCFG_RX_EN_BIT`, decided 4 (R23, D8). -/
def rxEnable (v : Word) : Bool := v.getLsbD 4

/-- An RXCFG write of `v` arms RX (R136). -/
def rxArms (v : Word) : Bool := rxDmaEn v && rxEnable v

/-- RX's armed flag after an RXCFG write of `v` (R136). -/
def rxArmedAfter (v : Word) (was : Bool) : Bool :=
  if rxArms v then true else if rxDmaEn v then was else false

/-- `rxHead` after an RXCFG write of `v` (R136). -/
def rxHeadAfter (v : Word) (was : Nat) : Nat := if rxArms v then 0 else was

/-- ISR after an acknowledgment write of `v`: `ISR & ~v` (R140). -/
def isrAcknowledged (isr v : Word) : Word := isr &&& ~~~v

/-- The test of `RaiseInt`: `(IMR & ISR) != 0` over the whole of ISR (R322). -/
def requestDue (isr imr : Word) : Bool := (imr &&& isr) != 0

/-- `v & SOFT_RESET_MASK = SOFT_RESET_MASK` (R27, R144). -/
def softResetHit (c : Config) (v : Word) : Bool := v &&& c.softResetMask == c.softResetMask

/-- PHYCTL after a guest read that found the bank entry `d`: DATA filled, BUSY clear, bits 14:0 as stored (R191). The
positions of DATA and BUSY are D17's, as literals (log entry 23). -/
def phyctlFilled (v : Word) (d : Half) : Word := d ++ (0#1 ++ v.extractLsb' 0 15)

/-- `StatusDefault()` (R197). -/
def statusDefault (c : Config) (linkUp : Bool) : Half :=
  let v := c.phyDefault.get phyStatusReg.toFin
  if linkUp then v else v &&& ~~~phyLinkMask

/-- The status register after a link change (R302). -/
def statusLinked (up : Bool) (v : Half) : Half := if up then v ||| phyLinkMask else v &&& ~~~phyLinkMask

/-- `w1 & 0x7FFFFFFF`: the status word with OWN cleared (R231, R253). -/
def statusReturned (rest : BitVec 31) : Word := topBit false rest

/-- The cursor after a consumed descriptor (R227). -/
def cursorAfter (r : Ring) (wrap : Bool) (head : Nat) : Nat := if wrap then 0 else (head + 1) % ringLen r

end Sys2Proof.Machine
end

