-- ==== Sys2Proof/Machine/Ops.lean ====
section
/-! DEFINITION. The named operations the meanings are written with: guest memory (spec/20_memory.md), the history of
outputs, interrupts (spec/60_exceptions.md), queues, cursors and passes (spec/42, 44), the PHY bank's updates
(spec/41), resets. -/

namespace Sys2Proof.Machine

open Host (Outcome)

/-! ### Guest memory (R47, R75) -/

/-- The byte at an address; what is not listed reads 0. DESIGN CHOICE (log entry 5), unsafe: the spec says nothing of guest
memory that nothing has written; spec/95 starts its programs "with guest memory all zero". -/
def Memory.get : Memory → Nat → Byte
  | [], _ => 0
  | (x, v) :: m, a => if a = x then v else Memory.get m a

/-- An entry in front of a memory, unless it is what an unlisted address reads as. -/
def Memory.cons (a : Nat) (b : Byte) (m : Memory) : Memory := if b = 0 then m else (a, b) :: m

/-- Writes one byte and keeps the canonical form. -/
def Memory.set : Memory → Nat → Byte → Memory
  | [], a, b => Memory.cons a b []
  | (x, v) :: m, a, b =>
    if a < x then Memory.cons a b ((x, v) :: m)
    else if a = x then Memory.cons a b m
    else (x, v) :: Memory.set m a b

/-- Every address of `m` is at least `lo` and below `2^32`, addresses rise strictly, no byte is 0. -/
def Memory.wfFrom : Nat → Memory → Bool
  | _, [] => true
  | lo, (x, v) :: m => decide (lo ≤ x) && decide (x < 2 ^ 32) && v != 0 && Memory.wfFrom (x + 1) m

/-- The canonical form of guest memory. -/
def Memory.wf (m : Memory) : Bool := Memory.wfFrom 0 m

/-- `n` bytes in order of increasing address, addresses modulo `2^32` (R71, R77). -/
def Memory.getBytes (m : Memory) (a : Word) : Nat → List Byte
  | 0 => []
  | n + 1 => m.get a.toNat :: Memory.getBytes m (a + 1) n

/-- Writes bytes in order of increasing address, addresses modulo `2^32` (R71, R77). -/
def Memory.setBytes (m : Memory) (a : Word) : List Byte → Memory
  | [] => m
  | b :: bs => Memory.setBytes (m.set a.toNat b) (a + 1) bs

/-- Guest memory after an access of the guest CPU: a store writes, a load leaves memory as it is (R11). -/
def Memory.guestOp (m : Memory) : GuestOp → Memory
  | .store a b => m.setBytes a b
  | .load _ _ => m

/-- Guest memory after accesses of the guest CPU, in order (R11). -/
def Memory.guestOps (m : Memory) : List GuestOp → Memory
  | [] => m
  | g :: gs => Memory.guestOps (m.guestOp g) gs

/-- What a payload read of `n` bytes returns while the guest makes the accesses `gs`: byte `k` is read after the first
`seen[k]` of them (R78: "its bytes may be read or written in any order"). -/
def Memory.getBytesDuring (m : Memory) (a : Word) (gs : List GuestOp) : List Nat → Nat → List Byte
  | _, 0 => []
  | [], n + 1 => m.getBytes a (n + 1)
  | t :: ts, n + 1 => (m.guestOps (gs.take t)).get a.toNat :: Memory.getBytesDuring m (a + 1) gs ts n

/-- The bytes of a payload write that come after exactly `i` guest accesses, or, if none follows, after `i` or more. -/
def Memory.setPhase (m : Memory) (a : Word) (i : Nat) (last : Bool) : List Nat → List Byte → Memory
  | _, [] => m
  | seen, b :: bs =>
    let t := seen.headD 0
    Memory.setPhase (if t = i ∨ (last = true ∧ i ≤ t) then m.set a.toNat b else m) (a + 1) i last seen.tail bs

/-! ### History and the engine's memory accesses (R75, R78, R83) -/

/-- Appends an output. -/
def State.log (s : State) (e : Event) : State := { s with history := e :: s.history }

/-- An access of the guest CPU to guest memory; what a load returned is recorded (R11). It does not pass through the
block, so the oracle is not asked (R75: "Only the Engine agent uses this interface"). -/
def State.guestOp (s : State) : GuestOp → State
  | .store a b => { s with mem := s.mem.setBytes a b }
  | .load a n => s.log (.guestLoad a (s.mem.getBytes a n))

/-- Accesses of the guest CPU, in order. -/
def State.guestOps (s : State) : List GuestOp → State
  | [] => s
  | g :: gs => State.guestOps (s.guestOp g) gs

/-- The guest accesses that meet the engine's memory access just made (R82 O5, R83, R88; log entry 6). -/
def State.guestMeanwhile (s : State) : State :=
  match s.race with
  | [] => s
  | r :: rest => { s.guestOps r.ops with race := rest }

/-- `Avail(addr, n)`; a zero-length access cannot be unavailable (R75, D45). -/
def State.available (s : State) (a : Word) (n : Nat) : Bool :=
  n == 0 || s.cfg.avail.any fun r => r.admits a.toNat n

/-- What `MemRead(addr, n)` of a descriptor answers: the bytes, one snapshot, or none for `unavailable` (R75, R78). -/
def State.memReadAnswer (s : State) (a : Word) (n : Nat) : Option (List Byte) :=
  if s.available a n then some (s.mem.getBytes a n) else none

/-- The bytes a payload fetch returns; it is not atomic (R78). -/
def State.payload (s : State) (a : Word) (n : Nat) : List Byte :=
  match s.race with
  | [] => s.mem.getBytes a n
  | r :: _ => s.mem.getBytesDuring a r.ops r.seen n

/-- What `MemRead(addr, n)` of a payload answers (R75, R78, R225). -/
def State.payloadAnswer (s : State) (a : Word) (n : Nat) : Option (List Byte) :=
  if s.available a n then some (s.payload a n) else none

/-- The state after `MemRead(addr, n)`. A zero-length access is not performed (R75, D45). -/
def State.memRead (s : State) (a : Word) (n : Nat) : State :=
  if n = 0 then s else (s.log (.memRead a n (s.available a n))).guestMeanwhile

/-- A payload write with guest accesses in its midst: byte `k` is written after the first `seen[k]` of them, and a guest
load sees the bytes written so far (R78: "observed partly done by the guest"). `i` guest accesses have been made so far. -/
def State.storeDuring (s : State) (a : Word) (b : List Byte) (seen : List Nat) (i : Nat) : List GuestOp → State
  | [] => { s with mem := s.mem.setPhase a i true seen b }
  | g :: gs => State.storeDuring ({ s with mem := s.mem.setPhase a i false seen b }.guestOp g) a b seen (i + 1) gs

/-- The bytes of a payload write reach memory; the write is not atomic (R78). -/
def State.storePayload (s : State) (a : Word) (b : List Byte) : State :=
  match s.race with
  | [] => { s with mem := s.mem.setBytes a b }
  | r :: rest => { s.storeDuring a b r.seen 0 r.ops with race := rest }

/-- The state after `MemWrite(addr, n, b)` of a payload: an `unavailable` answer moves no byte (R75). A zero-length access
is not performed (D45). -/
def State.memWrite (s : State) (a : Word) (b : List Byte) : State :=
  if b.length = 0 then s
  else if s.available a b.length then (s.log (.memWrite a b true)).storePayload a b
  else (s.log (.memWrite a b false)).guestMeanwhile

/-- A 4-byte write-back into a descriptor fetched in the same step: "The write is `available` whenever the fetch of
the same 16 bytes was" (R231, U7), so the oracle is not asked again. -/
def State.writeBack (s : State) (a : Word) (w : Word) : State :=
  ({ s with mem := s.mem.setBytes a (le32bytes w) }.log (.memWrite a (le32bytes w) true)).guestMeanwhile

/-! ### Interrupts: entry and return (R322, R326, R327) -/

/-- `RaiseInt(c)`, the block's "trap entry": ISR takes the cause, and one `IrqRequest(IRQ_TAG)` is sent if the masked
status is not zero. Nothing else changes (R322, R326). -/
def State.raiseInt (s : State) (c : Word) : State :=
  let t := { s with isr := s.isr ||| c }
  if requestDue t.isr t.imr then t.log (.irqRequest t.cfg.irqTag) else t

/-- The acknowledgment write, the block's "trap return" (R140, R327). -/
def State.acknowledge (s : State) (v : Word) : State := { s with isr := isrAcknowledged s.isr v }

/-! ### Queues (R281, R282) -/

/-- `Enqueue(txQueue, f)`. -/
def State.enqueueTx (s : State) (f : Packet) : State :=
  if s.txQueue.length < queueCap then { s with txQueue := s.txQueue ++ [f] }
  else { s with txDropCount := s.txDropCount + 1 }

/-- `Enqueue(rxQueue, f)`. -/
def State.enqueueRx (s : State) (f : Packet) : State :=
  if s.rxQueue.length < queueCap then { s with rxQueue := s.rxQueue ++ [f] }
  else { s with rxDropCount := s.rxDropCount + 1 }

/-- `Dequeue(rxQueue)`: the packet at the front leaves. -/
def State.dequeueRx (s : State) : State := { s with rxQueue := s.rxQueue.tail }

/-! ### Cursors and passes (R227, R229, R283, R284) -/

/-- `AdvanceCursor(ring, wrap)` (R227). -/
def State.advanceCursor (s : State) (r : Ring) (wrap : Bool) : State :=
  s.setHead r (cursorAfter r wrap (s.head r))

/-- `pass.steps <- pass.steps + 1 ; pass.consumed <- pass.consumed + 1` (R222, R251). -/
def State.countConsumed (s : State) : State :=
  { s with pass := s.pass.map fun p => { p with steps := p.steps + 1, consumed := p.consumed + 1 } }

/-- `PassEnd()` (R229). -/
def State.passEnd (s : State) : State :=
  match s.pass with
  | none => s
  | some p =>
    let t := { s with pass := none }
    if 1 ≤ p.consumed then t.raiseInt (ringCause p.ring) else t

/-- `eligible(ring)` (R283). -/
def State.eligible (s : State) : Ring → Bool
  | .tx0 => s.txArmed0
  | .tx1 => s.txArmed1
  | .rx => s.rxArmed && !s.rxQueue.isEmpty

/-- The first eligible ring of the cyclic order TX0, TX1, RX starting at `nextRing` (R284). -/
def State.nextEligible (s : State) : Option Ring :=
  [s.nextRing, ringAfter s.nextRing, ringAfter (ringAfter s.nextRing)].find? s.eligible

/-! ### The PHY bank (R192 to R197, R302) -/

/-- `PHYCTL <- v` (R190). -/
def State.latchPhyctl (s : State) (v : Word) : State := { s with phyctl := v }

/-- `phy[p][n] <- d`. -/
def State.setPhy (s : State) (p n : BitVec 5) (d : Half) : State := { s with phy := phySet s.phy p n d }

/-- `PhyCtrlWrite(p, d)` (R193). -/
def State.phyCtrlWrite (s : State) (p : BitVec 5) (d : Half) : State :=
  if d.getLsbD 15 then
    (s.setPhy p 0 s.cfg.phyDefault[0]).setPhy p phyStatusReg (statusDefault s.cfg s.linkUp)
  else s.setPhy p 0 d

/-- `AnarFixup()` (R195). -/
def State.anarFixup (s : State) : State :=
  s.setPhy 1 s.cfg.anarFixupReg (phyGet s.phy 1 s.cfg.anarFixupReg ||| s.cfg.anarFixupMask)

/-- `PhyWrite(p, n, d)` (R192). -/
def State.phyWrite (s : State) (p n : BitVec 5) (d : Half) : State :=
  if n = 0 then s.phyCtrlWrite p d
  else if n = 2 ∨ n = 3 then s
  else
    let t := s.setPhy p n d
    if p = 1 ∧ n = phyAnarReg then t.anarFixup else t

/-- The registers of one PHY after a link change (R302). -/
def phyLinked (up : Bool) (regs : Vector Half 32) : Vector Half 32 :=
  regs.set phyStatusReg.toNat (statusLinked up (regs.get phyStatusReg.toFin)) phyStatusReg.isLt

/-- The bank after a link change: the status register of every PHY (R302). -/
def bankLinked (up : Bool) (b : PhyBank) : PhyBank := ⟨⟨b.toList.map (phyLinked up)⟩, by simp⟩

/-! ### Resets (R146, R360) -/

/-- `SoftReset()` (R146). -/
def State.softReset (s : State) : State :=
  { s with txHead0 := 0, txHead1 := 0, rxHead := 0, txQueue := [], rxQueue := [] }

/-- `HOST_RESET`: every item of R50; the parameters, guest memory, the schedule and the history stay (R360: "It touches
no guest memory and sends no `IrqRequest`"). -/
def State.hostReset (s : State) : State :=
  { State.resetWith s.cfg with mem := s.mem, schedule := s.schedule, race := s.race, history := s.history }

/-! ### Outcomes -/

/-- A guest register access that leaves `t`. After shutdown it is outside the spec and refused (R287, U6). -/
def guestAccess (s t : State) : Outcome State Fault Refusal :=
  if s.shutdown then .refused .accessAfterShutdown else .next t

/-- A guest read of the window at `off`: the bytes are delivered and nothing else changes (R131). -/
def guestRead (s : State) (off : Nat) (b : List Byte) : Outcome State Fault Refusal :=
  guestAccess s (s.log (.readData off b))

/-- A step that is not enabled: its agent waits and nothing changes. DESIGN CHOICE (log entry 8), safe: the spec's
"Enabled when" says when a step can be taken; a turn of the schedule that offers it at another time passes. -/
def waits (s : State) : Outcome State Fault Refusal := .next s

end Sys2Proof.Machine
end

