-- ==== Sys2Proof/Machine/Mdio.lean ====
section
/-! DEFINITION. The MDIO controller: PHYCTL and its commands (spec/41_mdio_phy.md). -/

namespace Sys2Proof.Machine

open Host (Outcome)

/-- `RD_PHYCTL`: DATA takes the bank entry of the latched address, BUSY is cleared, PHYCTL is returned (R191). -/
def execRdPhyctl (s : State) : Outcome State Fault Refusal :=
  let t := s.latchPhyctl (phyctlFilled s.phyctl (phyGet s.phy (mdioPhyaddr s.phyctl) (mdioRegnum s.phyctl)))
  guestRead t 0x44 (le32bytes t.phyctl)

/-- `WR_PHYCTL`: the value is stored; an opcode other than the read sentinel writes the bank (R190). -/
def execWrPhyctl (v : Word) (s : State) : Outcome State Fault Refusal :=
  let t := s.latchPhyctl v
  guestAccess s (if mdioOp v = s.cfg.mdioReadOp then t else t.phyWrite (mdioPhyaddr v) (mdioRegnum v) (mdioData v))

/-- `MDIO_RDADDR`: the address phase of a read: PHYCTL latches the command, the bank is unchanged (R190). -/
def execMdioRdaddr (regnum phyaddr : BitVec 5) (busy : Bool) (data : Half) (s : State) : Outcome State Fault Refusal :=
  guestAccess s (s.latchPhyctl (mdioJoin ⟨s.cfg.mdioReadOp, regnum, phyaddr, busy, data⟩))

/-- `MDIO_WR_CTRL`: a write to PHY register 0; `DATA[15]` set is the PHY reset (R193). -/
def execMdioWrCtrl (op phyaddr : BitVec 5) (busy : Bool) (data : Half) (s : State) : Outcome State Fault Refusal :=
  guestAccess s ((s.latchPhyctl (mdioJoin ⟨op, 0, phyaddr, busy, data⟩)).phyCtrlWrite phyaddr data)

/-- `MDIO_WR_ID1`: a write to identifier register 2 is ignored by the bank; PHYCTL stores the command (R190, R194). -/
def execMdioWrId1 (op phyaddr : BitVec 5) (busy : Bool) (data : Half) (s : State) : Outcome State Fault Refusal :=
  guestAccess s (s.latchPhyctl (mdioJoin ⟨op, 2, phyaddr, busy, data⟩))

/-- `MDIO_WR_ID2`: a write to identifier register 3 is ignored by the bank; PHYCTL stores the command (R190, R194). -/
def execMdioWrId2 (op phyaddr : BitVec 5) (busy : Bool) (data : Half) (s : State) : Outcome State Fault Refusal :=
  guestAccess s (s.latchPhyctl (mdioJoin ⟨op, 3, phyaddr, busy, data⟩))

/-- `MDIO_WR_ANAR_PHY1`: a write to the advertisement register of PHY 1 stores, then applies the fix-up (R192, R195). -/
def execMdioWrAnarPhy1 (op : BitVec 5) (busy : Bool) (data : Half) (s : State) : Outcome State Fault Refusal :=
  guestAccess s (((s.latchPhyctl (mdioJoin ⟨op, phyAnarReg, 1, busy, data⟩)).setPhy 1 phyAnarReg data).anarFixup)

/-- `MDIO_WR`: `PhyWrite(PHYADDR, REGNUM, DATA)`; for the commands of this row, plain storage (R192). -/
def execMdioWr (op regnum phyaddr : BitVec 5) (busy : Bool) (data : Half) (s : State) : Outcome State Fault Refusal :=
  guestAccess s ((s.latchPhyctl (mdioJoin ⟨op, regnum, phyaddr, busy, data⟩)).phyWrite phyaddr regnum data)

end Sys2Proof.Machine
end

