-- ==== Sys2Proof/Machine/RegisterBytes.lean ====
section
/-! DEFINITION. The byte-addressable registers (spec/40_mmio_registers.md R157 to R162, R165, R166). -/

namespace Sys2Proof.Machine

open Host (Outcome)

/-- `RD_MAC0_LO`: the addressed bytes of MAC0 (R158). -/
def execRdMac0Lo (off n : Nat) (s : State) : Outcome State Fault Refusal :=
  guestRead s off (readField s.mac0 (off - 0x62) n)

/-- `WR_MAC0_LO`: byte `k` of the data goes to byte `off - 0x62 + k` of MAC0, the others stay (R157). -/
def execWrMac0Lo (off : Nat) (data : List Byte) (s : State) : Outcome State Fault Refusal :=
  guestAccess s { s with mac0 := writeField s.mac0 (off - 0x62) data }

/-- `RD_MAC0_HI`: the addressed bytes of MAC0 (R158). -/
def execRdMac0Hi (off n : Nat) (s : State) : Outcome State Fault Refusal :=
  guestRead s off (readField s.mac0 (off - 0x62) n)

/-- `WR_MAC0_HI`: byte `k` of the data goes to byte `off - 0x62 + k` of MAC0, the others stay (R157). -/
def execWrMac0Hi (off : Nat) (data : List Byte) (s : State) : Outcome State Fault Refusal :=
  guestAccess s { s with mac0 := writeField s.mac0 (off - 0x62) data }

/-- `RD_MCHASH0`: the addressed bytes of MCHASH0 (R160). -/
def execRdMchash0 (off n : Nat) (s : State) : Outcome State Fault Refusal :=
  guestRead s off (readLanes s.mchash0 (off - 0x68) n)

/-- `WR_MCHASH0`: byte `k` of the data goes to byte `off - 0x68 + k` of MCHASH0, the others stay (R159). -/
def execWrMchash0 (off : Nat) (data : List Byte) (s : State) : Outcome State Fault Refusal :=
  guestAccess s { s with mchash0 := writeLanes s.mchash0 (off - 0x68) data }

/-- `RD_MCHASH1`: the addressed bytes of MCHASH1 (R162). -/
def execRdMchash1 (off n : Nat) (s : State) : Outcome State Fault Refusal :=
  guestRead s off (readLanes s.mchash1 (off - 0x6C) n)

/-- `WR_MCHASH1`: byte `k` of the data goes to byte `off - 0x6C + k` of MCHASH1, the others stay (R161). -/
def execWrMchash1 (off : Nat) (data : List Byte) (s : State) : Outcome State Fault Refusal :=
  guestAccess s { s with mchash1 := writeLanes s.mchash1 (off - 0x6C) data }

/-- `RD_MAC1_LO`: the addressed bytes of MAC1 (R166). -/
def execRdMac1Lo (off n : Nat) (s : State) : Outcome State Fault Refusal :=
  guestRead s off (readField s.mac1 (off - 0x7A) n)

/-- `WR_MAC1_LO`: byte `k` of the data goes to byte `off - 0x7A + k` of MAC1, the others stay (R165). -/
def execWrMac1Lo (off : Nat) (data : List Byte) (s : State) : Outcome State Fault Refusal :=
  guestAccess s { s with mac1 := writeField s.mac1 (off - 0x7A) data }

/-- `RD_MAC1_HI`: the addressed bytes of MAC1 (R166). -/
def execRdMac1Hi (off n : Nat) (s : State) : Outcome State Fault Refusal :=
  guestRead s off (readField s.mac1 (off - 0x7A) n)

/-- `WR_MAC1_HI`: byte `k` of the data goes to byte `off - 0x7A + k` of MAC1, the others stay (R165). -/
def execWrMac1Hi (off : Nat) (data : List Byte) (s : State) : Outcome State Fault Refusal :=
  guestAccess s { s with mac1 := writeField s.mac1 (off - 0x7A) data }

end Sys2Proof.Machine
end

