-- ==== Sys2Proof/Machine/RegisterUndef.lean ====
section
/-! DEFINITION. Undefined offsets and ill-formed accesses (spec/40_mmio_registers.md R167 to R169). -/

namespace Sys2Proof.Machine

open Host (Outcome)

/-- `RD_UNDEF_08`: `n` bytes `0xFF` (R167). -/
def execRdUndef08 (off n : Nat) (s : State) : Outcome State Fault Refusal :=
  guestRead s off (allOnes n)

/-- `WR_UNDEF_08`: ignored (R168). The log is not state (R74). -/
def execWrUndef08 (_off : Nat) (_data : List Byte) (s : State) : Outcome State Fault Refusal :=
  guestAccess s s

/-- `RD_UNDEF_18`: `n` bytes `0xFF` (R167). -/
def execRdUndef18 (off n : Nat) (s : State) : Outcome State Fault Refusal :=
  guestRead s off (allOnes n)

/-- `WR_UNDEF_18`: ignored (R168). The log is not state (R74). -/
def execWrUndef18 (_off : Nat) (_data : List Byte) (s : State) : Outcome State Fault Refusal :=
  guestAccess s s

/-- `RD_UNDEF_2C`: `n` bytes `0xFF` (R167). -/
def execRdUndef2c (off n : Nat) (s : State) : Outcome State Fault Refusal :=
  guestRead s off (allOnes n)

/-- `WR_UNDEF_2C`: ignored (R168). The log is not state (R74). -/
def execWrUndef2c (_off : Nat) (_data : List Byte) (s : State) : Outcome State Fault Refusal :=
  guestAccess s s

/-- `RD_UNDEF_34`: `n` bytes `0xFF` (R167). -/
def execRdUndef34 (off n : Nat) (s : State) : Outcome State Fault Refusal :=
  guestRead s off (allOnes n)

/-- `WR_UNDEF_34`: ignored (R168). The log is not state (R74). -/
def execWrUndef34 (_off : Nat) (_data : List Byte) (s : State) : Outcome State Fault Refusal :=
  guestAccess s s

/-- `RD_UNDEF_38`: `n` bytes `0xFF` (R167). -/
def execRdUndef38 (off n : Nat) (s : State) : Outcome State Fault Refusal :=
  guestRead s off (allOnes n)

/-- `WR_UNDEF_38`: ignored (R168). The log is not state (R74). -/
def execWrUndef38 (_off : Nat) (_data : List Byte) (s : State) : Outcome State Fault Refusal :=
  guestAccess s s

/-- `RD_UNDEF_48`: `n` bytes `0xFF` (R167). -/
def execRdUndef48 (off n : Nat) (s : State) : Outcome State Fault Refusal :=
  guestRead s off (allOnes n)

/-- `WR_UNDEF_48`: ignored (R168). The log is not state (R74). -/
def execWrUndef48 (_off : Nat) (_data : List Byte) (s : State) : Outcome State Fault Refusal :=
  guestAccess s s

/-- `RD_UNDEF_58`: `n` bytes `0xFF` (R167). -/
def execRdUndef58 (off n : Nat) (s : State) : Outcome State Fault Refusal :=
  guestRead s off (allOnes n)

/-- `WR_UNDEF_58`: ignored (R168). The log is not state (R74). -/
def execWrUndef58 (_off : Nat) (_data : List Byte) (s : State) : Outcome State Fault Refusal :=
  guestAccess s s

/-- `RD_UNDEF_70`: `n` bytes `0xFF` (R167). -/
def execRdUndef70 (off n : Nat) (s : State) : Outcome State Fault Refusal :=
  guestRead s off (allOnes n)

/-- `WR_UNDEF_70`: ignored (R168). The log is not state (R74). -/
def execWrUndef70 (_off : Nat) (_data : List Byte) (s : State) : Outcome State Fault Refusal :=
  guestAccess s s

/-- `RD_UNDEF_HIGH`: `n` bytes `0xFF` (R167). -/
def execRdUndefHigh (off n : Nat) (s : State) : Outcome State Fault Refusal :=
  guestRead s off (allOnes n)

/-- `WR_UNDEF_HIGH`: ignored (R168). The log is not state (R74). -/
def execWrUndefHigh (_off : Nat) (_data : List Byte) (s : State) : Outcome State Fault Refusal :=
  guestAccess s s

/-- `BAD_ACCESS`: outcome `BusFault`; no state of the block changes and a read delivers no data (R169, R73). -/
def execBadAccess (_a : Access) (s : State) : Outcome State Fault Refusal :=
  if s.shutdown then .refused .accessAfterShutdown else .fault .busFault

end Sys2Proof.Machine
end

