-- ==== Sys2Proof/Machine/RegisterWords.lean ====
section
/-! DEFINITION. The word registers of the register window but PHYCTL (spec/40_mmio_registers.md R132 to R156, R163, R164). -/

namespace Sys2Proof.Machine

open Host (Outcome)

/-- `RD_TXCFG`: returns TXCFG (R133). -/
def execRdTxcfg (s : State) : Outcome State Fault Refusal :=
  guestRead s 0x00 (le32bytes s.txcfg)

/-- `WR_TXCFG`: stores the value, arms and disarms each TX ring by its own enable bit (R132). Cursors, queues and ISR
are untouched. -/
def execWrTxcfg (v : Word) (s : State) : Outcome State Fault Refusal :=
  guestAccess s { s with
    txcfg := v
    txArmed0 := txArmedAfter v .tx0 s.txArmed0
    txArmed1 := txArmedAfter v .tx1 s.txArmed1 }

/-- `RD_TXBASE`: the base that `TXCFG[16]` selects (R135, R110). -/
def execRdTxbase (s : State) : Outcome State Fault Refusal :=
  guestRead s 0x04 (le32bytes (if txSelect1 s.txcfg then s.txbase1 else s.txbase0))

/-- `WR_TXBASE`: stores into the base that `TXCFG[16]` selects (R134). No cursor and no armed flag moves. -/
def execWrTxbase (v : Word) (s : State) : Outcome State Fault Refusal :=
  guestAccess s (if txSelect1 s.txcfg then { s with txbase1 := v } else { s with txbase0 := v })

/-- `RD_RXCFG`: returns RXCFG (R137). -/
def execRdRxcfg (s : State) : Outcome State Fault Refusal :=
  guestRead s 0x10 (le32bytes s.rxcfg)

/-- `WR_RXCFG`: stores the value; both enable bits set arm RX and put `rxHead` to 0; DMA-enable clear disarms (R136). -/
def execWrRxcfg (v : Word) (s : State) : Outcome State Fault Refusal :=
  guestAccess s { s with
    rxcfg := v
    rxArmed := rxArmedAfter v s.rxArmed
    rxHead := rxHeadAfter v s.rxHead }

/-- `RD_RXBASE`: returns RXBASE (R139). -/
def execRdRxbase (s : State) : Outcome State Fault Refusal :=
  guestRead s 0x14 (le32bytes s.rxbase)

/-- `WR_RXBASE`: stores RXBASE, no other effect (R138). -/
def execWrRxbase (v : Word) (s : State) : Outcome State Fault Refusal :=
  guestAccess s { s with rxbase := v }

/-- `RD_ISR`: returns ISR; a read does not acknowledge (R141). -/
def execRdIsr (s : State) : Outcome State Fault Refusal :=
  guestRead s 0x20 (le32bytes s.isr)

/-- `WR_ISR`: the acknowledgment write, write-one-to-clear (R140, R327). No request is sent (R328). -/
def execWrIsr (v : Word) (s : State) : Outcome State Fault Refusal :=
  guestAccess s (s.acknowledge v)

/-- `RD_IMR`: returns IMR (R143). -/
def execRdImr (s : State) : Outcome State Fault Refusal :=
  guestRead s 0x24 (le32bytes s.imr)

/-- `WR_IMR`: replaces the mask and sends no request (R142). -/
def execWrImr (v : Word) (s : State) : Outcome State Fault Refusal :=
  guestAccess s { s with imr := v }

/-- `RD_CFG0`: returns CFG0 (R145). -/
def execRdCfg0 (s : State) : Outcome State Fault Refusal :=
  guestRead s 0x28 (le32bytes s.cfg0)

/-- `WR_CFG0`: stores the value and performs the soft reset if it carries the pattern (R144, R146). -/
def execWrCfg0 (v : Word) (s : State) : Outcome State Fault Refusal :=
  let t := { s with cfg0 := v }
  guestAccess s (if softResetHit s.cfg v then t.softReset else t)

/-- `RD_PWR`: returns PWR (R148). -/
def execRdPwr (s : State) : Outcome State Fault Refusal :=
  guestRead s 0x30 (le32bytes s.pwr)

/-- `WR_PWR`: plain storage (R147). -/
def execWrPwr (v : Word) (s : State) : Outcome State Fault Refusal :=
  guestAccess s { s with pwr := v }

/-- `RD_PHYCFG`: returns PHYCFG (R150). -/
def execRdPhycfg (s : State) : Outcome State Fault Refusal :=
  guestRead s 0x40 (le32bytes s.phycfg)

/-- `WR_PHYCFG`: plain storage (R149). -/
def execWrPhycfg (v : Word) (s : State) : Outcome State Fault Refusal :=
  guestAccess s { s with phycfg := v }

/-- `RD_CFG1`: returns CFG1 (R152). -/
def execRdCfg1 (s : State) : Outcome State Fault Refusal :=
  guestRead s 0x50 (le32bytes s.cfg1)

/-- `WR_CFG1`: plain storage (R151). -/
def execWrCfg1 (v : Word) (s : State) : Outcome State Fault Refusal :=
  guestAccess s { s with cfg1 := v }

/-- `RD_RETRY`: returns RETRY (R154). -/
def execRdRetry (s : State) : Outcome State Fault Refusal :=
  guestRead s 0x54 (le32bytes s.retry)

/-- `WR_RETRY`: plain storage (R153). -/
def execWrRetry (v : Word) (s : State) : Outcome State Fault Refusal :=
  guestAccess s { s with retry := v }

/-- `RD_MCCTL`: returns MCCTL (R156). -/
def execRdMcctl (s : State) : Outcome State Fault Refusal :=
  guestRead s 0x60 (le16bytes s.mcctl)

/-- `WR_MCCTL`: plain storage (R155). -/
def execWrMcctl (v : Half) (s : State) : Outcome State Fault Refusal :=
  guestAccess s { s with mcctl := v }

/-- `RD_MAXPKT`: returns MAXPKT (R164). -/
def execRdMaxpkt (s : State) : Outcome State Fault Refusal :=
  guestRead s 0x78 (le16bytes s.maxpkt)

/-- `WR_MAXPKT`: plain storage (R163). -/
def execWrMaxpkt (v : Half) (s : State) : Outcome State Fault Refusal :=
  guestAccess s { s with maxpkt := v }

end Sys2Proof.Machine
end

