-- ==== Sys2Proof/Machine/RxRing.lean ====
section
/-! DEFINITION. The receive ring engine (spec/43_rx_engine.md). -/

namespace Sys2Proof.Machine

open Host (Outcome)

/-- The end both consuming paths share: the frame leaves the queue, `receivedLength` and then the status are written back,
the cursor advances (R253, R255). -/
def State.rxReturn (s : State) (a : Word) (d : RxDesc) (received : Nat) : State :=
  ((s.dequeueRx.writeBack a (BitVec.ofNat 32 received)).writeBack (a + 4)
    (statusReturned d.statusRest)).advanceCursor .rx d.wrap

/-- `RxBufError(A, w1, w3)` (R255). -/
def State.rxBufError (s : State) (a : Word) (d : RxDesc) : State :=
  { s with rxErrCount := s.rxErrCount + 1 }.rxReturn a d 0

/-- The overrun counter takes a truncated frame (R254). -/
def State.countOverrun (s : State) (truncated : Bool) : State :=
  if truncated then { s with rxOverrunCount := s.rxOverrunCount + 1 } else s

/-- `RxDeposit(A, w1, w2, w3, f)`: payload, length, status, in this order (R253). -/
def State.rxDeposit (s : State) (a : Word) (d : RxDesc) (f : Packet) : State :=
  let size := d.bufferSize.toNat
  let n := min f.length size
  let t := s.memWrite d.bufferAddress (f.take n)
  if s.available d.bufferAddress n then (t.countOverrun (decide (n < f.length))).rxReturn a d n
  else t.rxBufError a d

/-- A descriptor fetched with OWN set takes the frame at the front of `rxQueue`, and the pass counts it (R251). -/
def State.rxConsume (s : State) (d : RxDesc) (f : Packet) : State :=
  (s.rxDeposit (s.descAddr .rx) d f).countConsumed

/-- A descriptor is acted on by its OWN bit: it takes the frame, or the pass ends and the frame stays (R251, R252). -/
def State.rxAct (s : State) (d : List Byte) (f : Packet) : State :=
  if ownBit d then s.rxConsume (rxFields d) f else s.passEnd

/-- One receive descriptor step (R251). -/
def State.rxStep (s : State) : State :=
  match s.rxQueue with
  | [] => s.passEnd
  | f :: _ =>
    if s.rxArmed = false then s.passEnd
    else
      let a := s.descAddr .rx
      match s.memReadAnswer a 16 with
      | none => (s.memRead a 16).passEnd
      | some d => (s.memRead a 16).rxAct d f

/-- A receive descriptor step would find a stop condition: no frame queued, RX disarmed, the descriptor unavailable or not
owned (R251, R229). -/
def State.rxStops (s : State) : Bool :=
  s.rxQueue.isEmpty || !s.rxArmed || ((s.memReadAnswer (s.descAddr .rx) 16).all fun d => !ownBit d)

/-- An RX pass is open and the engine runs (R251: "Enabled when `pass.ring = RX`, `shutdown = 0`"). -/
def State.rxPassOpen (s : State) : Bool :=
  if s.shutdown then false
  else
    match s.pass with
    | some ⟨.rx, _, _⟩ => true
    | _ => false

/-- `ENG_RX_STEP` (R251). -/
def execEngRxStep (s : State) : Outcome State Fault Refusal :=
  if s.rxPassOpen then .next s.rxStep else waits s

/-- `RXD_OWNED`: what the open RX pass does with a fetched descriptor whose OWN bit is set (R251, R253 to R255). It needs a
frame: `ENG_RX_STEP` fetches no descriptor while `rxQueue` is empty. -/
def execRxdOwned (d : RxDesc) (s : State) : Outcome State Fault Refusal :=
  match s.rxPassOpen, s.rxQueue with
  | true, f :: _ => .next (s.rxConsume d f)
  | _, _ => waits s

/-- `RXD_NOT_OWNED`: ring full, the pass ends and the frame stays queued (R252). -/
def execRxdNotOwned (_d : RxDesc) (s : State) : Outcome State Fault Refusal :=
  if s.rxPassOpen then .next s.passEnd else waits s

end Sys2Proof.Machine
end

