-- ==== Sys2Proof/Machine/TxRing.lean ====
section
/-! DEFINITION. The transmit ring engine (spec/42_tx_engine.md). `r` is TX0 or TX1 throughout. -/

namespace Sys2Proof.Machine

open Host (Outcome)

/-- `TxError(A, w1, w3)`: the error counter, the status write-back, the cursor (R224). -/
def State.txError (s : State) (r : Ring) (a : Word) (d : TxDesc) : State :=
  ({ s with txErrCount := s.txErrCount + 1 }.writeBack (a + 4) (statusReturned d.statusRest)).advanceCursor r d.wrap

/-- `TxDeliver(A, w1, w3, b)`: enqueue, the status write-back, the cursor (R226). -/
def State.txDeliver (s : State) (r : Ring) (a : Word) (d : TxDesc) (b : Packet) : State :=
  ((s.enqueueTx b).writeBack (a + 4) (statusReturned d.statusRest)).advanceCursor r d.wrap

/-- `0 < length <= MAX_FRAME_SIZE` fails (R224). -/
def txBadLength (c : Config) (d : TxDesc) : Bool := d.length == 0 || decide (c.maxFrameSize < d.length.toNat)

/-- A descriptor fetched with OWN set is consumed: length check, payload fetch, `TxDeliver` or `TxError`, and the pass
counts it (R222, R224, R225). -/
def State.txConsume (s : State) (r : Ring) (d : TxDesc) : State :=
  let a := s.descAddr r
  let t :=
    if txBadLength s.cfg d then s.txError r a d
    else
      match s.payloadAnswer d.bufferAddress d.length.toNat with
      | none => (s.memRead d.bufferAddress d.length.toNat).txError r a d
      | some b => (s.memRead d.bufferAddress d.length.toNat).txDeliver r a d b
  t.countConsumed

/-- A descriptor is acted on by its OWN bit: consumed, or the pass ends with nothing written (R222, R223). -/
def State.txAct (s : State) (r : Ring) (d : List Byte) : State :=
  if ownBit d then s.txConsume r (txFields d) else s.passEnd

/-- One transmit descriptor step of ring `r` with `steps` taken so far (R222). -/
def State.txStep (s : State) (r : Ring) (steps : Nat) : State :=
  if s.armed r = false ∨ steps = ringLen r then s.passEnd
  else
    let a := s.descAddr r
    match s.memReadAnswer a 16 with
    | none => (s.memRead a 16).passEnd
    | some d => (s.memRead a 16).txAct r d

/-- A transmit descriptor step would find a stop condition: the ring disarmed, the bound reached, the descriptor
unavailable or not owned (R222, R229). -/
def State.txStops (s : State) (r : Ring) (steps : Nat) : Bool :=
  !s.armed r || steps == ringLen r || ((s.memReadAnswer (s.descAddr r) 16).all fun d => !ownBit d)

/-- The TX ring whose pass is open, with its context, while the engine runs (R222: "Enabled when `pass.ring = TXr`,
`shutdown = 0`"). -/
def State.txPass (s : State) : Option Pass :=
  if s.shutdown then none
  else
    match s.pass with
    | some ⟨.tx0, steps, consumed⟩ => some ⟨.tx0, steps, consumed⟩
    | some ⟨.tx1, steps, consumed⟩ => some ⟨.tx1, steps, consumed⟩
    | _ => none

/-- `ENG_TX_STEP` (R222). -/
def execEngTxStep (s : State) : Outcome State Fault Refusal :=
  match s.txPass with
  | some p => .next (s.txStep p.ring p.steps)
  | none => waits s

/-- `TXD_OWNED`: what the open TX pass does with a fetched descriptor whose OWN bit is set (R222, R224 to R226). -/
def execTxdOwned (d : TxDesc) (s : State) : Outcome State Fault Refusal :=
  match s.txPass with
  | some p => .next (s.txConsume p.ring d)
  | none => waits s

/-- `TXD_NOT_OWNED`: the pass ends, nothing is written (R223). -/
def execTxdNotOwned (_d : TxDesc) (s : State) : Outcome State Fault Refusal :=
  match s.txPass with
  | some _ => .next s.passEnd
  | none => waits s

end Sys2Proof.Machine
end

