-- ==== Sys2Proof/Machine/Scheduler.lean ====
section
/-! DEFINITION. The engine scheduler and the transmit drain (spec/44_queues_and_scheduler.md, spec/42_tx_engine.md R229). -/

namespace Sys2Proof.Machine

open Host (Outcome)

/-- `ENG_PASS_BEGIN`: enabled when no pass is open, the block runs and some ring is eligible; opens the pass of the first
eligible ring from `nextRing` on (R284, R221, R250). -/
def execEngPassBegin (s : State) : Outcome State Fault Refusal :=
  if s.shutdown || s.pass.isSome then waits s
  else
    match s.nextEligible with
    | none => waits s
    | some r => .next { s with pass := some ⟨r, 0, 0⟩, nextRing := ringAfter r }

/-- `ENG_PASS_END`: "It runs inside the step that found the stop condition" (R229). So the event is that descriptor step
where it finds one, its fetch included, and is not enabled elsewhere. DEDUCED (log entry 13), safe. -/
def execEngPassEnd (s : State) : Outcome State Fault Refusal :=
  match s.txPass with
  | some p => if s.txStops p.ring p.steps then .next (s.txStep p.ring p.steps) else waits s
  | none => if s.rxPassOpen && s.rxStops then .next s.rxStep else waits s

/-- `ENG_TX_EMIT`: the packet at the front of `txQueue` is handed to the wire; a failed `Send` is counted and the frame is
lost (R286, R301). `sendOk` is the environment's answer. -/
def execEngTxEmit (sendOk : Bool) (s : State) : Outcome State Fault Refusal :=
  match s.shutdown, s.txQueue with
  | false, f :: rest =>
    let t := { s with txQueue := rest }.log (.send f sendOk)
    .next (if sendOk then t else { t with txSendFailCount := t.txSendFailCount + 1 })
  | _, _ => waits s

end Sys2Proof.Machine
end

