-- ==== Sys2Proof/Machine/Wire.lean ====
section
/-! DEFINITION. Wire-side and host events (spec/45_wire_interface.md, spec/70_reset_and_hazards.md R360,
spec/44_queues_and_scheduler.md R287). -/

namespace Sys2Proof.Machine

open Host (Outcome)

/-- `WIRE_FRAME_ARRIVE(f)`: `Enqueue(rxQueue, f)`, armed or not, whatever the frame (R300, R303). -/
def execWireFrameArrive (f : Packet) (s : State) : Outcome State Fault Refusal :=
  if s.shutdown then waits s else .next (s.enqueueRx f)

/-- `LINK_CHANGE(up)`: on a change, `linkUp`, the link bit in the status register of every PHY, and `RaiseInt(INT_LINK)`; a
repeat does nothing (R302). After shutdown "no agent of the block steps" (R45). -/
def execLinkChange (up : Bool) (s : State) : Outcome State Fault Refusal :=
  if s.shutdown then waits s
  else if up = s.linkUp then .next s
  else .next ({ s with linkUp := up, phy := bankLinked up s.phy }.raiseInt intLink)

/-- `HOST_RESET` (R360). Not enabled after shutdown: "A state with `shutdown = 1` is final for the block" (R287, D47). DESIGN
CHOICE (log entry 11), safe: before shutdown it may come at any time, where R360 has it once, before any other step. -/
def execHostReset (s : State) : Outcome State Fault Refusal :=
  if s.shutdown then waits s else .next s.hostReset

/-- `HOST_SHUTDOWN`: an open pass and queued packets are left as they are (R287). -/
def execHostShutdown (s : State) : Outcome State Fault Refusal := .next { s with shutdown := true }

end Sys2Proof.Machine
end

