-- ==== Sys2Proof/Machine/Dispatch.lean ====
section
/-! DEFINITION. One arm per row of spec/opcode_table.json, each a direct call of its meaning. -/

namespace Sys2Proof.Machine

def exec (i : Instr) (s : State) : Host.Outcome State Fault Refusal :=
  match i with
  | .rdTxcfg => Sys2Proof.Machine.execRdTxcfg s
  | .wrTxcfg v => Sys2Proof.Machine.execWrTxcfg v s
  | .rdTxbase => Sys2Proof.Machine.execRdTxbase s
  | .wrTxbase v => Sys2Proof.Machine.execWrTxbase v s
  | .rdRxcfg => Sys2Proof.Machine.execRdRxcfg s
  | .wrRxcfg v => Sys2Proof.Machine.execWrRxcfg v s
  | .rdRxbase => Sys2Proof.Machine.execRdRxbase s
  | .wrRxbase v => Sys2Proof.Machine.execWrRxbase v s
  | .rdIsr => Sys2Proof.Machine.execRdIsr s
  | .wrIsr v => Sys2Proof.Machine.execWrIsr v s
  | .rdImr => Sys2Proof.Machine.execRdImr s
  | .wrImr v => Sys2Proof.Machine.execWrImr v s
  | .rdCfg0 => Sys2Proof.Machine.execRdCfg0 s
  | .wrCfg0 v => Sys2Proof.Machine.execWrCfg0 v s
  | .rdPwr => Sys2Proof.Machine.execRdPwr s
  | .wrPwr v => Sys2Proof.Machine.execWrPwr v s
  | .rdPhycfg => Sys2Proof.Machine.execRdPhycfg s
  | .wrPhycfg v => Sys2Proof.Machine.execWrPhycfg v s
  | .rdPhyctl => Sys2Proof.Machine.execRdPhyctl s
  | .wrPhyctl v => Sys2Proof.Machine.execWrPhyctl v s
  | .rdCfg1 => Sys2Proof.Machine.execRdCfg1 s
  | .wrCfg1 v => Sys2Proof.Machine.execWrCfg1 v s
  | .rdRetry => Sys2Proof.Machine.execRdRetry s
  | .wrRetry v => Sys2Proof.Machine.execWrRetry v s
  | .rdMcctl => Sys2Proof.Machine.execRdMcctl s
  | .wrMcctl v => Sys2Proof.Machine.execWrMcctl v s
  | .rdMac0Lo off n => Sys2Proof.Machine.execRdMac0Lo off n s
  | .wrMac0Lo off data => Sys2Proof.Machine.execWrMac0Lo off data s
  | .rdMac0Hi off n => Sys2Proof.Machine.execRdMac0Hi off n s
  | .wrMac0Hi off data => Sys2Proof.Machine.execWrMac0Hi off data s
  | .rdMchash0 off n => Sys2Proof.Machine.execRdMchash0 off n s
  | .wrMchash0 off data => Sys2Proof.Machine.execWrMchash0 off data s
  | .rdMchash1 off n => Sys2Proof.Machine.execRdMchash1 off n s
  | .wrMchash1 off data => Sys2Proof.Machine.execWrMchash1 off data s
  | .rdMaxpkt => Sys2Proof.Machine.execRdMaxpkt s
  | .wrMaxpkt v => Sys2Proof.Machine.execWrMaxpkt v s
  | .rdMac1Lo off n => Sys2Proof.Machine.execRdMac1Lo off n s
  | .wrMac1Lo off data => Sys2Proof.Machine.execWrMac1Lo off data s
  | .rdMac1Hi off n => Sys2Proof.Machine.execRdMac1Hi off n s
  | .wrMac1Hi off data => Sys2Proof.Machine.execWrMac1Hi off data s
  | .rdUndef08 off n => Sys2Proof.Machine.execRdUndef08 off n s
  | .wrUndef08 off data => Sys2Proof.Machine.execWrUndef08 off data s
  | .rdUndef18 off n => Sys2Proof.Machine.execRdUndef18 off n s
  | .wrUndef18 off data => Sys2Proof.Machine.execWrUndef18 off data s
  | .rdUndef2c off n => Sys2Proof.Machine.execRdUndef2c off n s
  | .wrUndef2c off data => Sys2Proof.Machine.execWrUndef2c off data s
  | .rdUndef34 off n => Sys2Proof.Machine.execRdUndef34 off n s
  | .wrUndef34 off data => Sys2Proof.Machine.execWrUndef34 off data s
  | .rdUndef38 off n => Sys2Proof.Machine.execRdUndef38 off n s
  | .wrUndef38 off data => Sys2Proof.Machine.execWrUndef38 off data s
  | .rdUndef48 off n => Sys2Proof.Machine.execRdUndef48 off n s
  | .wrUndef48 off data => Sys2Proof.Machine.execWrUndef48 off data s
  | .rdUndef58 off n => Sys2Proof.Machine.execRdUndef58 off n s
  | .wrUndef58 off data => Sys2Proof.Machine.execWrUndef58 off data s
  | .rdUndef70 off n => Sys2Proof.Machine.execRdUndef70 off n s
  | .wrUndef70 off data => Sys2Proof.Machine.execWrUndef70 off data s
  | .badAccess a => Sys2Proof.Machine.execBadAccess a s
  | .rdUndefHigh off n => Sys2Proof.Machine.execRdUndefHigh off n s
  | .wrUndefHigh off data => Sys2Proof.Machine.execWrUndefHigh off data s
  | .mdioRdaddr regnum phyaddr busy data => Sys2Proof.Machine.execMdioRdaddr regnum phyaddr busy data s
  | .mdioWrCtrl op phyaddr busy data => Sys2Proof.Machine.execMdioWrCtrl op phyaddr busy data s
  | .mdioWrId1 op phyaddr busy data => Sys2Proof.Machine.execMdioWrId1 op phyaddr busy data s
  | .mdioWrId2 op phyaddr busy data => Sys2Proof.Machine.execMdioWrId2 op phyaddr busy data s
  | .mdioWrAnarPhy1 op busy data => Sys2Proof.Machine.execMdioWrAnarPhy1 op busy data s
  | .mdioWr op regnum phyaddr busy data => Sys2Proof.Machine.execMdioWr op regnum phyaddr busy data s
  | .txdOwned d => Sys2Proof.Machine.execTxdOwned d s
  | .txdNotOwned d => Sys2Proof.Machine.execTxdNotOwned d s
  | .rxdOwned d => Sys2Proof.Machine.execRxdOwned d s
  | .rxdNotOwned d => Sys2Proof.Machine.execRxdNotOwned d s
  | .engPassBegin => Sys2Proof.Machine.execEngPassBegin s
  | .engTxStep => Sys2Proof.Machine.execEngTxStep s
  | .engRxStep => Sys2Proof.Machine.execEngRxStep s
  | .engPassEnd => Sys2Proof.Machine.execEngPassEnd s
  | .engTxEmit sendOk => Sys2Proof.Machine.execEngTxEmit sendOk s
  | .wireFrameArrive f => Sys2Proof.Machine.execWireFrameArrive f s
  | .linkChange up => Sys2Proof.Machine.execLinkChange up s
  | .hostReset => Sys2Proof.Machine.execHostReset s
  | .hostShutdown => Sys2Proof.Machine.execHostShutdown s

end Sys2Proof.Machine
end

