-- ==== Sys2Proof/Machine/Step.lean ====
section
/-! DEFINITION. The step: the next turn of the schedule (log entry 1). -/

namespace Sys2Proof.Machine

open Host (Outcome)

/-- One step. An input is decoded and executed; a guest access reaches guest memory; a race arms the guest accesses that
will fall inside the engine's next steps; with nothing scheduled no agent acts. DESIGN CHOICE (log entry 1), safe: R82 leaves the
order of the agents free, so it is data that no rule constrains. -/
def step (s : State) : Outcome State Fault Refusal :=
  match s.schedule with
  | [] => .next s
  | .guest g :: rest => .next ({ s with schedule := rest }.guestOp g)
  | .guestRace batches :: rest => .next { s with schedule := rest, race := s.race ++ batches }
  | .input x :: rest =>
    match decodeInput s.cfg x with
    | .ok i => exec i { s with schedule := rest }
    | .error e => .refused (.notAnOperation e)

/-- `s` with the operation of a table word as its next turn (log entry 10). -/
def State.withFetchWord (s : State) (nbits w : Nat) : State :=
  { s with schedule := .input (tableInput nbits w) :: s.schedule }

end Sys2Proof.Machine
end

