-- ==== Sys2Proof/Safety.lean ====
section
/-! DEFINITION. The terms statements are made in: what a run has done (its outputs), which operations are which, the
invariant of every run, memory after stores, runs and their fairness. -/

namespace Sys2Proof.Machine

open Host (Outcome)

/-- An engine access to guest memory (R75). -/
def Event.isMemAccess : Event → Bool
  | .memRead _ _ _ => true
  | .memWrite _ _ _ => true
  | .readData _ _ => false
  | .irqRequest _ => false
  | .send _ _ => false
  | .guestLoad _ _ => false

/-- An `IrqRequest` (R323). -/
def Event.isRequest : Event → Bool
  | .irqRequest _ => true
  | .readData _ _ => false
  | .send _ _ => false
  | .memRead _ _ _ => false
  | .memWrite _ _ _ => false
  | .guestLoad _ _ => false

/-- The engine's memory accesses so far, newest first. -/
def State.memAccesses (s : State) : List Event := s.history.filter Event.isMemAccess

/-- How many `IrqRequest` events the block has sent. -/
def State.requests (s : State) : Nat := s.history.countP Event.isRequest

/-- An operation is a register read (R131). -/
def isGuestRead (c : Config) (i : Instr) : Bool :=
  match encode c i with
  | .input (.access (.read _ _)) => true
  | _ => false

/-- An operation is a register write or a PHYCTL command, which is a register write too (R130, R190). -/
def isGuestWrite (c : Config) (i : Instr) : Bool :=
  match encode c i with
  | .input (.access (.write _ _)) => true
  | .input (.command _) => true
  | _ => false

/-- The operations that consume TX descriptors (R222). -/
def consumesTx : Instr → Bool
  | .engTxStep | .txdOwned _ => true
  | _ => false

/-- The operations that consume RX descriptors (R251). -/
def consumesRx : Instr → Bool
  | .engRxStep | .rxdOwned _ => true
  | _ => false

/-- The operations that consume descriptors, the only ones with which the engine stores to guest memory (R78). -/
def consumesDescriptors (i : Instr) : Bool := consumesTx i || consumesRx i

/-- Operations one after the other, stopping at the first that does not complete. -/
def execAll : List Instr → State → Outcome State Fault Refusal
  | [], s => .next s
  | i :: rest, s =>
    match exec i s with
    | .next t => execAll rest t
    | .fault f => .fault f
    | .refused r => .refused r

/-- The byte a store of `b` at `a` leaves at the address `x`, if `x` is one of the stored bytes: byte `j` goes to
`(a + j) mod 2^32` (R71, R77). -/
def storedByte (a : Word) (b : List Byte) (x : Nat) : Option Byte :=
  if x < 2 ^ 32 then b[(BitVec.ofNat 32 x - a).toNat]? else none

/-! ### Guest memory as a function of the address, for accesses of the guest CPU -/

/-- The bytes of `f` after a store of `b` at `a` (R71, R77). -/
def afterStore (f : Nat → Byte) (a : Word) (b : List Byte) (x : Nat) : Byte := (storedByte a b x).getD (f x)

/-- The bytes of `f` after accesses of the guest CPU (R11). -/
def afterGuest (f : Nat → Byte) : List GuestOp → Nat → Byte
  | [] => f
  | .store a b :: gs => afterGuest (afterStore f a b) gs
  | .load _ _ :: gs => afterGuest f gs

/-- What the guest sees after its first `i` accesses `gs` to memory with the bytes `f`. -/
def guestView (f : Nat → Byte) (gs : List GuestOp) (i : Nat) : Nat → Byte := afterGuest f (gs.take i)

/-- What the guest sees after its first `i` accesses `gs` while the engine writes the payload `b` at `a` to memory with the
bytes `f`: byte `k` is in place once the first `seen[k]` accesses, or all of them, are done, and what the guest stored
before that is overwritten (R78). -/
def partialView (f : Nat → Byte) (a : Word) (b : List Byte) (seen : List Nat) (gs : List GuestOp) (i x : Nat) : Byte :=
  let k := (BitVec.ofNat 32 x - a).toNat
  let at_ := min (seen.getD k 0) gs.length
  if x < 2 ^ 32 ∧ k < b.length ∧ at_ ≤ i then afterGuest (fun _ => b.getD k 0) ((gs.take i).drop at_) x
  else guestView f gs i x

/-- What the loads among the guest's accesses return, newest first, where the guest sees `view i` after its first `i`
accesses (R11, R77). -/
def guestLoads (view : Nat → Nat → Byte) : Nat → List GuestOp → List Event
  | _, [] => []
  | i, .store _ _ :: gs => guestLoads view (i + 1) gs
  | i, .load a n :: gs =>
    guestLoads view (i + 1) gs ++ [.guestLoad a ((List.range n).map fun j => view i (a + BitVec.ofNat 32 j).toNat)]

/-- A guest store is shorter than the address space, so that no two of its bytes go to one address. -/
def GuestOp.fits : GuestOp → Bool
  | .store _ b => decide (b.length < 2 ^ 32)
  | .load _ _ => true

/-- The guest accesses that will meet the `k`-th next memory access of the engine. -/
def State.raceOps (s : State) (k : Nat) : List GuestOp := (s.race.getD k ⟨[], []⟩).ops

/-- Where the bytes of the `k`-th next memory access of the engine, a payload access, stand among them. -/
def State.raceSeen (s : State) (k : Nat) : List Nat := (s.race.getD k ⟨[], []⟩).seen

/-! ### Descriptor steps -/

/-- A TX pass of ring `r` is open with `n` steps taken and `k` descriptors consumed, the engine runs, no guest access falls
inside its next step, and guest memory is in canonical form (`Inv.memory`). -/
structure TxReady (s : State) (r : Ring) (n k : Nat) : Prop where
  running : s.shutdown = false
  quiet : s.race = []
  canonical : s.mem.wf = true
  open_ : s.pass = some ⟨r, n, k⟩
  tx : r = .tx0 ∨ r = .tx1

/-- An RX pass is open with `n` steps taken and `k` descriptors consumed, the engine runs, no guest access falls inside its
next step, and guest memory is in canonical form (`Inv.memory`). -/
structure RxReady (s : State) (n k : Nat) : Prop where
  running : s.shutdown = false
  quiet : s.race = []
  canonical : s.mem.wf = true
  open_ : s.pass = some ⟨.rx, n, k⟩

/-- What every run keeps, from any state that has it: the parameters meet their constraints (R6), guest memory is canonical,
the queues hold at most 256 packets (R41), the cursors stay on their rings (R39), ISR has cause bits only (R25), an open
pass consumed what it stepped and a TX pass stays within the ring's length (R40, R228), the identifier registers of every
PHY hold their defaults (R194). -/
structure Inv (s : State) : Prop where
  parameters : s.cfg.Valid
  memory : s.mem.wf = true
  txQueue : s.txQueue.length ≤ 256
  rxQueue : s.rxQueue.length ≤ 256
  txHead0 : s.txHead0 < 32
  txHead1 : s.txHead1 < 8
  rxHead : s.rxHead < 64
  causes : s.isr &&& ~~~intAll = 0
  passCounts : ∀ p, s.pass = some p → p.consumed = p.steps ∧ (p.ring ≠ .rx → p.steps ≤ ringLen p.ring)
  identifiers : ∀ p : BitVec 5,
    phyGet s.phy p 2 = s.cfg.phyDefault[2] ∧ phyGet s.phy p 3 = s.cfg.phyDefault[3]

/-! ### Runs and fairness (R285) -/

/-- The Engine steps that R285 names. -/
inductive EngineStep where
  | passBegin
  | txStep
  | rxStep
  | txEmit
deriving DecidableEq, Repr

/-- The step is enabled (R284, R222, R251, R286). -/
def EngineStep.enabled (s : State) : EngineStep → Bool
  | .passBegin => !s.shutdown && s.pass.isNone && s.nextEligible.isSome
  | .txStep => s.txPass.isSome
  | .rxStep => s.rxPassOpen
  | .txEmit => !s.shutdown && !s.txQueue.isEmpty

/-- The operation is that step. -/
def EngineStep.isStep : EngineStep → Instr → Bool
  | .passBegin, .engPassBegin => true
  | .txStep, .engTxStep => true
  | .rxStep, .engRxStep => true
  | .txEmit, .engTxEmit _ => true
  | _, _ => false

/-- An endless run: the states it goes through, and the turns the outside appends to the schedule before each step. -/
structure Run where
  state : Nat → State
  turns : Nat → List Turn
  advances : ∀ n, step { state n with schedule := (state n).schedule ++ turns n } = .next (state (n + 1))

/-- The next turn of the run's `n`-th step is the operation `i`. -/
def Run.runs (r : Run) (n : Nat) (i : Instr) : Prop :=
  ∃ x rest, (r.state n).schedule ++ r.turns n = .input x :: rest ∧ decode (r.state n).cfg (.input x) = .ok i

/-- The run takes the Engine step `e` at `n`. -/
def Run.takes (r : Run) (n : Nat) (e : EngineStep) : Prop := ∃ i, e.isStep i = true ∧ r.runs n i

/-- "if an Engine step ... stays enabled, it is taken in the end" (R285). -/
def Run.WeaklyFair (r : Run) : Prop :=
  ∀ (e : EngineStep) (n : Nat), (∀ m, n ≤ m → e.enabled (r.state m) = true) → ∃ m, n ≤ m ∧ r.takes m e

end Sys2Proof.Machine
end

