-- ==== Sys2Proof/Certificates/Slice0/Obligations.lean ====
section
/-! DEFINITION. The statements for the provers. Each docstring names the rules of spec/ it formalises or, where it rests on
the model's own choice, the log entry. -/

open Sys2Proof Sys2Proof.Machine

/-! ### Encoding -/

/-- Decoding the encoding of a well-formed operation gives the operation back, for every row of the table, every operand
and every parameter set (spec/30_encoding.md). Log entry 9: the operand bytes of an event. -/
def Obligations.DecodeEncodeRoundTrip : Prop :=
  ∀ (c : Config) (i : Instr), i.wellFormed c = true → decode c (encode c i) = .ok i

/-- What decodes is well-formed, and its encoding is the input it was decoded from: no bit of an input is dropped
(spec/30_encoding.md). -/
def Obligations.EncodeDecodeRoundTrip : Prop :=
  ∀ (c : Config) (e : Encoded) (i : Instr), decode c e = .ok i → i.wellFormed c = true ∧ encode c i = e

/-- Exactly the accesses that R73 does not call well-formed decode to `BAD_ACCESS`, and `BAD_ACCESS` is a `BusFault`: no next
state, no data (R73, R169). -/
def Obligations.IllFormedAccessFaults : Prop :=
  ∀ (c : Config) (a : Access) (s : State),
    (decode c (.input (.access a)) = .ok (.badAccess a) ↔ a.wellFormed = false) ∧
    (s.shutdown = false → exec (.badAccess a) s = .fault .busFault)

/-- A few encodings written out, one per format, and the rows of the register map do not overlap (R102 to R105, R111, R112;
the command words are under P0; the operand byte of the event is log entry 9). -/
def Obligations.SampleWordsDecode : Prop :=
  decode Config.p0 (.input (.access (.write 0x10 [0x11, 0x1c, 0x10, 0x00]))) = .ok (.wrRxcfg 0x00101c11) ∧
  decode Config.p0 (.input (.access (.read 0x20 4))) = .ok .rdIsr ∧
  decode Config.p0 (.input (.access (.write 0x78 [0x00, 0x06]))) = .ok (.wrMaxpkt 0x0600) ∧
  decode Config.p0 (.input (.access (.write 0x66 [0xAA]))) = .ok (.wrMac0Hi 0x66 [0xAA]) ∧
  decode Config.p0 (.input (.access (.read 0x70 4))) = .ok (.rdUndef70 0x70 4) ∧
  decode Config.p0 (.input (.access (.read 0x66 4))) = .ok (.badAccess (.read 0x66 4)) ∧
  decode Config.p0 (.input (.command 0x01E10491)) = .ok (.mdioWrAnarPhy1 0x11 false 0x01E1) ∧
  decode Config.p0 (.input (.command 0x00008050)) = .ok (.mdioRdaddr 2 0 true 0) ∧
  decode Config.p0 (.txDescriptor [0x3C, 0, 0, 0, 0, 0, 0, 0x80, 0, 0, 0x10, 0x01, 0, 0, 0, 0x80]) =
    .ok (.txdOwned ⟨60, 0, 0x01100000, true, 0⟩) ∧
  decode Config.p0 (.rxDescriptor [0, 0, 0, 0, 0xBC, 0x0A, 0, 0, 0, 0, 0x10, 0x02, 0, 0x06, 0, 0]) =
    .ok (.rxdNotOwned ⟨0, 0xABC, 0x02100000, false, 0x600⟩) ∧
  decode Config.p0 (.input (.event 0x11 [0])) = .ok (.linkChange false) ∧
  ∀ off : BitVec 7, (windowRows.filter (·.hit off)).length ≤ 1

/-! ### The step -/

/-- An operation the schedule presents next is decoded and executed with the rest of the schedule; one that is no operation is
refused. `withFetchWord` puts an operation in front. The schedule is the model's form of the free interleaving of R82 (log
entry 1). -/
def Obligations.StepRunsScheduledOperation : Prop :=
  (∀ (s : State) (x : Input) (rest : List Turn) (i : Instr),
    s.schedule = .input x :: rest → decode s.cfg (.input x) = .ok i → step s = exec i { s with schedule := rest }) ∧
  (∀ (s : State) (x : Input) (rest : List Turn) (e : DecodeError),
    s.schedule = .input x :: rest → decode s.cfg (.input x) = .error e → step s = .refused (.notAnOperation e)) ∧
  (∀ (s : State) (nbits w : Nat) (i : Instr),
    decode s.cfg (.input (tableInput nbits w)) = .ok i → step (s.withFetchWord nbits w) = exec i s)

/-- The turns that are no operation of the block: with nothing scheduled nothing happens, a guest store changes the bytes it
stores and nothing else, a guest load returns the bytes it reads and changes nothing, a race arms the guest accesses of the
engine's next memory accesses (log entries 1 and 6). -/
def Obligations.StepGuestTurns : Prop :=
  ∀ s : State,
    (s.schedule = [] → step s = .next s) ∧
    (∀ (a : Word) (b : List Byte) (rest : List Turn), s.schedule = .guest (.store a b) :: rest → s.mem.wf = true →
      b.length < 2 ^ 32 →
      ∃ t, step s = .next t ∧ t = { s with schedule := rest, mem := t.mem } ∧
        ∀ x, t.mem.get x = (storedByte a b x).getD (s.mem.get x)) ∧
    (∀ (a : Word) (n : Nat) (rest : List Turn), s.schedule = .guest (.load a n) :: rest →
      ∃ b, step s = .next { s with schedule := rest, history := .guestLoad a b :: s.history } ∧ b.length = n ∧
        ∀ k, k < n → b[k]? = some (s.mem.get (a + BitVec.ofNat 32 k).toNat)) ∧
    (∀ (batches : List RaceBatch) (rest : List Turn), s.schedule = .guestRace batches :: rest →
      step s = .next { s with schedule := rest, race := s.race ++ batches })

/-! ### The machine as a whole -/

/-- Every step keeps the invariant: legal parameters, canonical guest memory, queues of at most 256 packets, cursors on their
rings, ISR of cause bits only, a pass within its bound, identifier registers at their defaults (R25, R39, R40, R41, R194, R228).
Log entry 12: two of the parameter constraints. -/
def Obligations.InvariantKeptByStep : Prop :=
  ∀ s t : State, Inv s → step s = .next t → Inv t

/-- The invariant holds after reset, for every legal parameter set; P0 is one, and `State.reset` is the reset under P0 (log
entries 2 and 12). -/
def Obligations.ResetMeetsInvariant : Prop :=
  (∀ c : Config, c.Valid → Inv (State.resetWith c)) ∧ Config.p0.Valid ∧ State.reset = State.resetWith Config.p0 ∧
    Inv State.reset

/-- The state after reset, item by item (R50). Log entry 18: the zeros of the registers are the spec's decision D39, where U1
offers any value. -/
def Obligations.ResetValues : Prop :=
  ∀ c : Config,
    let s := State.resetWith c
    (s.txcfg = 0 ∧ s.txbase0 = 0 ∧ s.txbase1 = 0 ∧ s.rxcfg = 0 ∧ s.rxbase = 0 ∧ s.cfg0 = 0 ∧ s.pwr = 0 ∧ s.phycfg = 0 ∧
      s.phyctl = 0 ∧ s.cfg1 = 0 ∧ s.retry = 0 ∧ s.mcctl = 0 ∧ s.mchash0 = 0 ∧ s.mchash1 = 0 ∧ s.maxpkt = 0) ∧
    (∀ k (h : k < 6), s.mac0[k] = 0 ∧ s.mac1[k] = 0) ∧
    s.isr = 0 ∧ s.imr = 0 ∧
    (s.txArmed0 = false ∧ s.txArmed1 = false ∧ s.rxArmed = false) ∧
    (s.txHead0 = 0 ∧ s.txHead1 = 0 ∧ s.rxHead = 0) ∧
    s.pass = none ∧ s.nextRing = .tx0 ∧ s.txQueue = [] ∧ s.rxQueue = [] ∧
    (s.txErrCount = 0 ∧ s.rxErrCount = 0 ∧ s.rxOverrunCount = 0 ∧ s.txDropCount = 0 ∧ s.rxDropCount = 0 ∧
      s.txSendFailCount = 0) ∧
    (∀ p n : BitVec 5, phyGet s.phy p n = c.phyDefault.get n.toFin) ∧
    s.linkUp = true ∧ s.shutdown = false

/-- `HOST_RESET` puts every item of R50 back; the parameters, guest memory, the pending turns and the history of outputs are not
the block's and stay (R360, R361; log entry 11: it may come at any time before shutdown). -/
def Obligations.HostResetRestores : Prop :=
  ∀ s : State, s.shutdown = false → exec .hostReset s =
    .next { State.resetWith s.cfg with mem := s.mem, schedule := s.schedule, race := s.race, history := s.history }

/-- No operation changes the parameters or the schedule, an output once made stays made, and no counter is ever decremented but
by reset (R6, R43, R323). -/
def Obligations.OutputsAndCountersOnlyGrow : Prop :=
  ∀ (i : Instr) (s t : State), exec i s = .next t →
    t.cfg = s.cfg ∧ t.schedule = s.schedule ∧ s.history <:+ t.history ∧
    (i ≠ .hostReset →
      s.txErrCount ≤ t.txErrCount ∧ s.rxErrCount ≤ t.rxErrCount ∧ s.rxOverrunCount ≤ t.rxOverrunCount ∧
      s.txDropCount ≤ t.txDropCount ∧ s.rxDropCount ≤ t.rxDropCount ∧ s.txSendFailCount ≤ t.txSendFailCount)

/-- ISR bits are set only within the four causes, and cleared only by the acknowledgment write and by reset (R25, R321). -/
def Obligations.CausesChangeOnlyAsStated : Prop :=
  ∀ (i : Instr) (s t : State), exec i s = .next t → i ≠ .hostReset →
    t.isr &&& ~~~(s.isr ||| 0x2000014C) = 0 ∧ ((∀ v, i ≠ .wrIsr v) → s.isr &&& ~~~t.isr = 0)

/-- A value written to TXCFG, RXCFG, IMR or CFG0 is what a later read of the register returns, whatever happened in between, as
long as the register was not written again and the block was not reset (R133, R137, R143, R145). -/
def Obligations.WrittenValueReadsBack : Prop :=
  ∀ (s t u : State) (is : List Instr) (v : Word), execAll is t = .next u → u.shutdown = false → .hostReset ∉ is →
    (exec (.wrTxcfg v) s = .next t → (∀ w, .wrTxcfg w ∉ is) →
      decode u.cfg (encRead 0x00 4) = .ok .rdTxcfg ∧ exec .rdTxcfg u = .next (u.log (.readData 0x00 (le32bytes v)))) ∧
    (exec (.wrRxcfg v) s = .next t → (∀ w, .wrRxcfg w ∉ is) →
      decode u.cfg (encRead 0x10 4) = .ok .rdRxcfg ∧ exec .rdRxcfg u = .next (u.log (.readData 0x10 (le32bytes v)))) ∧
    (exec (.wrImr v) s = .next t → (∀ w, .wrImr w ∉ is) →
      decode u.cfg (encRead 0x24 4) = .ok .rdImr ∧ exec .rdImr u = .next (u.log (.readData 0x24 (le32bytes v)))) ∧
    (exec (.wrCfg0 v) s = .next t → (∀ w, .wrCfg0 w ∉ is) →
      decode u.cfg (encRead 0x28 4) = .ok .rdCfg0 ∧ exec .rdCfg0 u = .next (u.log (.readData 0x28 (le32bytes v))))

/-- Every register read but that of PHYCTL completes, delivers as many bytes as were asked for and changes nothing (R79, R131). -/
def Obligations.RegisterReadsArePure : Prop :=
  ∀ (i : Instr) (s : State), isGuestRead s.cfg i = true → i.wellFormed s.cfg = true → i ≠ .rdPhyctl →
    (∀ a, i ≠ .badAccess a) → s.shutdown = false →
    ∃ off n b, encode s.cfg i = encRead off n ∧ b.length = n ∧ exec i s = .next (s.log (.readData off b))

/-- Every register write and PHYCTL command completes, touches no guest memory, makes no output (so no `IrqRequest`), moves no
counter and leaves the pass, the scheduler, the link and the run state alone (R130). -/
def Obligations.RegisterWritesMakeNoOutput : Prop :=
  ∀ (i : Instr) (s : State), isGuestWrite s.cfg i = true → (∀ a, i ≠ .badAccess a) → s.shutdown = false →
    ∃ t, exec i s = .next t ∧ t.mem = s.mem ∧ t.race = s.race ∧ t.history = s.history ∧
      t.txErrCount = s.txErrCount ∧ t.rxErrCount = s.rxErrCount ∧ t.rxOverrunCount = s.rxOverrunCount ∧
      t.txDropCount = s.txDropCount ∧ t.rxDropCount = s.rxDropCount ∧ t.txSendFailCount = s.txSendFailCount ∧
      t.pass = s.pass ∧ t.nextRing = s.nextRing ∧ t.linkUp = s.linkUp ∧ t.shutdown = s.shutdown

/-- Only guest register writes change the registers and the armed flags, but for ISR, which the device sets, PHYCTL, which its
read rewrites, and reset (R20, R38, R334). -/
def Obligations.RegistersChangeOnlyByGuestWrites : Prop :=
  ∀ (i : Instr) (s t : State), exec i s = .next t → isGuestWrite s.cfg i = false → i ≠ .hostReset →
    t.txcfg = s.txcfg ∧ t.txbase0 = s.txbase0 ∧ t.txbase1 = s.txbase1 ∧ t.rxcfg = s.rxcfg ∧ t.rxbase = s.rxbase ∧
    t.imr = s.imr ∧ t.cfg0 = s.cfg0 ∧ t.pwr = s.pwr ∧ t.phycfg = s.phycfg ∧ t.cfg1 = s.cfg1 ∧ t.retry = s.retry ∧
    t.mcctl = s.mcctl ∧ t.mac0 = s.mac0 ∧ t.mchash0 = s.mchash0 ∧ t.mchash1 = s.mchash1 ∧ t.maxpkt = s.maxpkt ∧
    t.mac1 = s.mac1 ∧ (i ≠ .rdPhyctl → t.phyctl = s.phyctl) ∧
    t.txArmed0 = s.txArmed0 ∧ t.txArmed1 = s.txArmed1 ∧ t.rxArmed = s.rxArmed

/-- A step makes a memory access only for an open pass of a ring that is armed, in a block that is not shut down; and a disarmed
ring becomes armed only by the register write that sets its enable bit (for RX: both enable bits) (R38, R82 O3, R221). -/
def Obligations.DisarmedRingsNeverRead : Prop :=
  ∀ s t : State, step s = .next t →
    (t.memAccesses ≠ s.memAccesses → s.shutdown = false ∧ ∃ p, s.pass = some p ∧ s.armed p.ring = true) ∧
    (∀ r, s.armed r = false → t.armed r = true →
      ∃ x rest v, s.schedule = .input x :: rest ∧
        ((decode s.cfg (.input x) = .ok (.wrTxcfg v) ∧ (r = .tx0 ∧ v.getLsbD 4 = true ∨ r = .tx1 ∧ v.getLsbD 5 = true)) ∨
          (decode s.cfg (.input x) = .ok (.wrRxcfg v) ∧ r = .rx ∧ v.getLsbD 0 = true ∧ v.getLsbD 4 = true)))

/-- Only steps that consume a descriptor store to guest memory. Every operation but the descriptor steps and `ENG_PASS_END`
leaves memory alone. A descriptor step that finds a stop condition, or `ENG_PASS_END` as that step, stores nothing: if it came
to the fetch, what the guest does right after the fetch is all that happens to memory; if not, nothing happens. With no stop
condition `ENG_PASS_END` changes nothing (R75, R78, R82, R223, R252; log entries 6, 8 and 13). -/
def Obligations.StoresOnlyByDescriptorSteps : Prop :=
  let quiet (s t : State) : Prop := t.mem = s.mem ∧ t.race = s.race
  let fetched (s t : State) : Prop := t.mem = s.mem.guestOps (s.raceOps 0) ∧ t.race = s.race.drop 1
  (∀ (i : Instr) (s t : State), exec i s = .next t → consumesDescriptors i = false → i ≠ .engPassEnd → quiet s t) ∧
  (∀ (i : Instr) (s : State) (p : Pass), (i = .engTxStep ∨ i = .engPassEnd) → s.txPass = some p →
    s.txStops p.ring p.steps = true → ∃ t, exec i s = .next t ∧
      (s.armed p.ring = true ∧ p.steps ≠ ringLen p.ring → fetched s t) ∧
      (s.armed p.ring = false ∨ p.steps = ringLen p.ring → quiet s t)) ∧
  (∀ (i : Instr) (s : State), (i = .engRxStep ∨ i = .engPassEnd) → s.rxPassOpen = true → s.rxStops = true →
    ∃ t, exec i s = .next t ∧
      (s.rxArmed = true ∧ s.rxQueue ≠ [] → fetched s t) ∧
      (s.rxArmed = false ∨ s.rxQueue = [] → quiet s t)) ∧
  (∀ s : State, (∀ p, s.txPass = some p → s.txStops p.ring p.steps = false) → (s.rxPassOpen = true → s.rxStops = false) →
    exec .engPassEnd s = .next s)

/-- `HOST_SHUTDOWN` sets `shutdown` and leaves an open pass and the queues as they are; the state is final: no operation
does anything, and guest register accesses are outside the spec and refused (R45, R287; log entry 14). -/
def Obligations.ShutdownIsFinal : Prop :=
  ∀ s : State,
    exec .hostShutdown s = .next { s with shutdown := true } ∧
    (s.shutdown = true → ∀ i,
      ((isGuestRead s.cfg i = true ∨ isGuestWrite s.cfg i = true) → exec i s = .refused .accessAfterShutdown) ∧
      (isGuestRead s.cfg i = false → isGuestWrite s.cfg i = false → exec i s = .next s))

/-- Before shutdown every operation but an ill-formed access completes, whatever its operands and whatever the state (R12). That a
step which is not enabled completes, and passes with no effect, is log entry 8, and for the descriptor rows entry 17. -/
def Obligations.EveryOperationCompletes : Prop :=
  ∀ (i : Instr) (s : State), s.shutdown = false → (∀ a, i ≠ .badAccess a) → ∃ t, exec i s = .next t

/-- An operation sends at most one `IrqRequest`, only the end of a pass and a link change send one, and when one is sent some
unmasked cause is pending (R321, R322, R323). -/
def Obligations.RequestsOnlyAtRaises : Prop :=
  ∀ (i : Instr) (s t : State), exec i s = .next t →
    t.requests = s.requests ∨
    (t.requests = s.requests + 1 ∧ t.imr &&& t.isr ≠ 0 ∧
      ((∃ p, s.pass = some p ∧ 1 ≤ p.consumed ∧ t.pass = none ∧ t.isr = s.isr ||| ringCause p.ring) ∨
        (∃ up, i = .linkChange up ∧ up ≠ s.linkUp ∧ t.isr = s.isr ||| intLink)))

/-- In every state a run can reach, an MDIO read of an identifier register of any PHY returns the startup constant, whatever was
written before (R194). -/
def Obligations.IdentifierReads : Prop :=
  ∀ (s : State) (p n : BitVec 5) (busy : Bool) (data : Half), Inv s → s.shutdown = false → (n = 2 ∨ n = 3) →
    let w := mdioJoin ⟨s.cfg.mdioReadOp, n, p, false, s.cfg.phyDefault.get n.toFin⟩
    execAll [.mdioRdaddr n p busy data, .rdPhyctl] s =
      .next { s with phyctl := w, history := .readData 0x44 (le32bytes w) :: s.history }

/-! ### Register writes and reads -/

/-- The plain storage registers: the write stores the value and does nothing else; a 4-byte write at `0x60` or `0x78` is a
`BusFault` (R138, R142, R147, R149, R151, R153, R155, R163). -/
def Obligations.PlainStorageWrites : Prop :=
  ∀ (s : State) (v : Word) (h : Half), s.shutdown = false →
    (decode s.cfg (encWrite 0x14 (le32bytes v)) = .ok (.wrRxbase v) ∧ exec (.wrRxbase v) s = .next { s with rxbase := v }) ∧
    (decode s.cfg (encWrite 0x24 (le32bytes v)) = .ok (.wrImr v) ∧ exec (.wrImr v) s = .next { s with imr := v }) ∧
    (decode s.cfg (encWrite 0x30 (le32bytes v)) = .ok (.wrPwr v) ∧ exec (.wrPwr v) s = .next { s with pwr := v }) ∧
    (decode s.cfg (encWrite 0x40 (le32bytes v)) = .ok (.wrPhycfg v) ∧ exec (.wrPhycfg v) s = .next { s with phycfg := v }) ∧
    (decode s.cfg (encWrite 0x50 (le32bytes v)) = .ok (.wrCfg1 v) ∧ exec (.wrCfg1 v) s = .next { s with cfg1 := v }) ∧
    (decode s.cfg (encWrite 0x54 (le32bytes v)) = .ok (.wrRetry v) ∧ exec (.wrRetry v) s = .next { s with retry := v }) ∧
    (decode s.cfg (encWrite 0x60 (le16bytes h)) = .ok (.wrMcctl h) ∧ exec (.wrMcctl h) s = .next { s with mcctl := h }) ∧
    (decode s.cfg (encWrite 0x78 (le16bytes h)) = .ok (.wrMaxpkt h) ∧ exec (.wrMaxpkt h) s = .next { s with maxpkt := h }) ∧
    (∀ b : List Byte, b.length = 4 →
      decode s.cfg (encWrite 0x60 b) = .ok (.badAccess (.write 0x60 b)) ∧ exec (.badAccess (.write 0x60 b)) s = .fault .busFault ∧
      decode s.cfg (encWrite 0x78 b) = .ok (.badAccess (.write 0x78 b)) ∧ exec (.badAccess (.write 0x78 b)) s = .fault .busFault)

/-- The whole-register reads: the register's bytes, little-endian, and no side effect; `0x04` reads the base that `TXCFG[16]`
selects; ISR is not acknowledged (R72, R133 to R156, R164). -/
def Obligations.RegisterReads : Prop :=
  ∀ s : State, s.shutdown = false →
    (decode s.cfg (encRead 0x00 4) = .ok .rdTxcfg ∧ exec .rdTxcfg s = .next (s.log (.readData 0x00 (le32bytes s.txcfg)))) ∧
    (decode s.cfg (encRead 0x04 4) = .ok .rdTxbase ∧ exec .rdTxbase s =
      .next (s.log (.readData 0x04 (le32bytes (if s.txcfg.getLsbD 16 then s.txbase1 else s.txbase0))))) ∧
    (decode s.cfg (encRead 0x10 4) = .ok .rdRxcfg ∧ exec .rdRxcfg s = .next (s.log (.readData 0x10 (le32bytes s.rxcfg)))) ∧
    (decode s.cfg (encRead 0x14 4) = .ok .rdRxbase ∧ exec .rdRxbase s = .next (s.log (.readData 0x14 (le32bytes s.rxbase)))) ∧
    (decode s.cfg (encRead 0x20 4) = .ok .rdIsr ∧ exec .rdIsr s = .next (s.log (.readData 0x20 (le32bytes s.isr)))) ∧
    (decode s.cfg (encRead 0x24 4) = .ok .rdImr ∧ exec .rdImr s = .next (s.log (.readData 0x24 (le32bytes s.imr)))) ∧
    (decode s.cfg (encRead 0x28 4) = .ok .rdCfg0 ∧ exec .rdCfg0 s = .next (s.log (.readData 0x28 (le32bytes s.cfg0)))) ∧
    (decode s.cfg (encRead 0x30 4) = .ok .rdPwr ∧ exec .rdPwr s = .next (s.log (.readData 0x30 (le32bytes s.pwr)))) ∧
    (decode s.cfg (encRead 0x40 4) = .ok .rdPhycfg ∧ exec .rdPhycfg s = .next (s.log (.readData 0x40 (le32bytes s.phycfg)))) ∧
    (decode s.cfg (encRead 0x50 4) = .ok .rdCfg1 ∧ exec .rdCfg1 s = .next (s.log (.readData 0x50 (le32bytes s.cfg1)))) ∧
    (decode s.cfg (encRead 0x54 4) = .ok .rdRetry ∧ exec .rdRetry s = .next (s.log (.readData 0x54 (le32bytes s.retry)))) ∧
    (decode s.cfg (encRead 0x60 2) = .ok .rdMcctl ∧ exec .rdMcctl s = .next (s.log (.readData 0x60 (le16bytes s.mcctl)))) ∧
    (decode s.cfg (encRead 0x78 2) = .ok .rdMaxpkt ∧ exec .rdMaxpkt s = .next (s.log (.readData 0x78 (le16bytes s.maxpkt))))

/-- `WR_TXCFG`: the value is stored; for each TX ring, enable set arms it, enable and DMA-enable clear disarm it, otherwise it
stays; cursors, queues and ISR are untouched (R132). -/
def Obligations.TxcfgWrite : Prop :=
  ∀ (s : State) (v : Word), s.shutdown = false →
    decode s.cfg (encWrite 0x00 (le32bytes v)) = .ok (.wrTxcfg v) ∧
    exec (.wrTxcfg v) s = .next { s with
      txcfg := v
      txArmed0 := if v.getLsbD 4 then true else if v.getLsbD 0 then s.txArmed0 else false
      txArmed1 := if v.getLsbD 5 then true else if v.getLsbD 0 then s.txArmed1 else false }

/-- `WR_TXBASE`: the value goes to TXBASE1 if `TXCFG[16]` is set, else to TXBASE0, and nowhere else (R134). -/
def Obligations.TxbaseWrite : Prop :=
  ∀ (s : State) (v : Word), s.shutdown = false →
    decode s.cfg (encWrite 0x04 (le32bytes v)) = .ok (.wrTxbase v) ∧
    exec (.wrTxbase v) s = .next { s with
      txbase0 := if s.txcfg.getLsbD 16 then s.txbase0 else v
      txbase1 := if s.txcfg.getLsbD 16 then v else s.txbase1 }

/-- `WR_RXCFG`: the value is stored; both enable bits arm RX and put `rxHead` to 0, DMA-enable clear disarms, otherwise both stay;
`rxQueue` is not touched (R136). -/
def Obligations.RxcfgWrite : Prop :=
  ∀ (s : State) (v : Word), s.shutdown = false →
    decode s.cfg (encWrite 0x10 (le32bytes v)) = .ok (.wrRxcfg v) ∧
    exec (.wrRxcfg v) s = .next { s with
      rxcfg := v
      rxArmed := if v.getLsbD 0 && v.getLsbD 4 then true else if v.getLsbD 0 then s.rxArmed else false
      rxHead := if v.getLsbD 0 && v.getLsbD 4 then 0 else s.rxHead }

/-- `WR_ISR`: write-one-to-clear; nothing else changes, so IMR stays and no request is sent (R140). -/
def Obligations.IsrAcknowledge : Prop :=
  ∀ (s : State) (v : Word), s.shutdown = false →
    decode s.cfg (encWrite 0x20 (le32bytes v)) = .ok (.wrIsr v) ∧
    ∃ t, exec (.wrIsr v) s = .next t ∧ t = { s with isr := t.isr } ∧
      ∀ k, t.isr.getLsbD k = (s.isr.getLsbD k && !v.getLsbD k)

/-- `WR_CFG0`: the value is stored in both cases; if all bits of the soft-reset pattern are set, the three cursors go to 0 and
both queues are emptied, and nothing else changes (R144, R146). -/
def Obligations.Cfg0Write : Prop :=
  ∀ (s : State) (v : Word), s.shutdown = false →
    decode s.cfg (encWrite 0x28 (le32bytes v)) = .ok (.wrCfg0 v) ∧
    ((∀ k, s.cfg.softResetMask.getLsbD k = true → v.getLsbD k = true) →
      exec (.wrCfg0 v) s =
        .next { s with cfg0 := v, txHead0 := 0, txHead1 := 0, rxHead := 0, txQueue := [], rxQueue := [] }) ∧
    ((∃ k, s.cfg.softResetMask.getLsbD k = true ∧ v.getLsbD k = false) → exec (.wrCfg0 v) s = .next { s with cfg0 := v })

/-- The writes of the byte-addressable fields: the addressed bytes take the data, the other bytes of the field and everything else
stay; an access that leaves the field is a `BusFault`. MAC0 and MAC1 have two rows of the table each, split at `0x64` and `0x7C`
(R157, R159, R161, R165). -/
def Obligations.ByteFieldWrites : Prop :=
  ∀ (s : State) (off : Nat) (data : List Byte), s.shutdown = false → 1 ≤ data.length →
    (0x62 ≤ off → off + data.length ≤ 0x68 →
      ∃ i t, i = (if off < 0x64 then .wrMac0Lo off data else .wrMac0Hi off data) ∧
        decode s.cfg (encWrite off data) = .ok i ∧ exec i s = .next t ∧ t = { s with mac0 := t.mac0 } ∧
        ∀ k (h : k < 6), t.mac0[k] =
          if off - 0x62 ≤ k ∧ k < off - 0x62 + data.length then data.getD (k - (off - 0x62)) 0 else s.mac0[k]) ∧
    (0x7A ≤ off → off + data.length ≤ 0x80 →
      ∃ i t, i = (if off < 0x7C then .wrMac1Lo off data else .wrMac1Hi off data) ∧
        decode s.cfg (encWrite off data) = .ok i ∧ exec i s = .next t ∧ t = { s with mac1 := t.mac1 } ∧
        ∀ k (h : k < 6), t.mac1[k] =
          if off - 0x7A ≤ k ∧ k < off - 0x7A + data.length then data.getD (k - (off - 0x7A)) 0 else s.mac1[k]) ∧
    (0x68 ≤ off → off + data.length ≤ 0x6C →
      decode s.cfg (encWrite off data) = .ok (.wrMchash0 off data) ∧
      ∃ t, exec (.wrMchash0 off data) s = .next t ∧ t = { s with mchash0 := t.mchash0 } ∧
        ∀ k, k < 4 → t.mchash0.extractLsb' (8 * k) 8 =
          if off - 0x68 ≤ k ∧ k < off - 0x68 + data.length then data.getD (k - (off - 0x68)) 0
          else s.mchash0.extractLsb' (8 * k) 8) ∧
    (0x6C ≤ off → off + data.length ≤ 0x70 →
      decode s.cfg (encWrite off data) = .ok (.wrMchash1 off data) ∧
      ∃ t, exec (.wrMchash1 off data) s = .next t ∧ t = { s with mchash1 := t.mchash1 } ∧
        ∀ k, k < 4 → t.mchash1.extractLsb' (8 * k) 8 =
          if off - 0x6C ≤ k ∧ k < off - 0x6C + data.length then data.getD (k - (off - 0x6C)) 0
          else s.mchash1.extractLsb' (8 * k) 8) ∧
    ((0x62 ≤ off ∧ off < 0x68 ∧ 0x68 < off + data.length ∨ 0x68 ≤ off ∧ off < 0x6C ∧ 0x6C < off + data.length ∨
        0x6C ≤ off ∧ off < 0x70 ∧ 0x70 < off + data.length ∨ 0x7A ≤ off ∧ off < 0x80 ∧ 0x80 < off + data.length) →
      decode s.cfg (encWrite off data) = .ok (.badAccess (.write off data)) ∧
      exec (.badAccess (.write off data)) s = .fault .busFault)

/-- The reads of the byte-addressable fields: the addressed bytes, in order, and no side effect (R158, R160, R162, R166). -/
def Obligations.ByteFieldReads : Prop :=
  ∀ (s : State) (off n : Nat), s.shutdown = false → 1 ≤ n →
    (0x62 ≤ off → off + n ≤ 0x68 →
      ∃ i b, i = (if off < 0x64 then .rdMac0Lo off n else .rdMac0Hi off n) ∧
        decode s.cfg (encRead off n) = .ok i ∧ exec i s = .next (s.log (.readData off b)) ∧ b.length = n ∧
        ∀ k, k < n → b[k]? = s.mac0[off - 0x62 + k]?) ∧
    (0x7A ≤ off → off + n ≤ 0x80 →
      ∃ i b, i = (if off < 0x7C then .rdMac1Lo off n else .rdMac1Hi off n) ∧
        decode s.cfg (encRead off n) = .ok i ∧ exec i s = .next (s.log (.readData off b)) ∧ b.length = n ∧
        ∀ k, k < n → b[k]? = s.mac1[off - 0x7A + k]?) ∧
    (0x68 ≤ off → off + n ≤ 0x6C →
      decode s.cfg (encRead off n) = .ok (.rdMchash0 off n) ∧
      ∃ b, exec (.rdMchash0 off n) s = .next (s.log (.readData off b)) ∧ b.length = n ∧
        ∀ k, k < n → b[k]? = some (s.mchash0.extractLsb' (8 * (off - 0x68 + k)) 8)) ∧
    (0x6C ≤ off → off + n ≤ 0x70 →
      decode s.cfg (encRead off n) = .ok (.rdMchash1 off n) ∧
      ∃ b, exec (.rdMchash1 off n) s = .next (s.log (.readData off b)) ∧ b.length = n ∧
        ∀ k, k < n → b[k]? = some (s.mchash1.extractLsb' (8 * (off - 0x6C + k)) 8))

/-- An access of 1, 2 or 4 bytes that all lie at undefined offsets, inside the window or above it, is no fault: the read returns
all-ones, the write changes no state; and each of the 18 rows of such offsets does so (R74, R167, R168). -/
def Obligations.UndefinedOffsetAccess : Prop :=
  (∀ (s : State) (off n : Nat) (data : List Byte), s.shutdown = false → (n = 1 ∨ n = 2 ∨ n = 4) → data.length = n →
    (∀ k, k < n → undefinedOffset (off + k) = true) →
    (∃ i, decode s.cfg (encRead off n) = .ok i ∧ exec i s = .next (s.log (.readData off (List.replicate n 0xFF)))) ∧
    (∃ i, decode s.cfg (encWrite off data) = .ok i ∧ exec i s = .next s)) ∧
  (∀ (s : State) (off n : Nat) (data : List Byte), s.shutdown = false →
    let ones := Host.Outcome.next (s.log (.readData off (List.replicate n 0xFF)))
    (exec (.rdUndef08 off n) s = ones ∧ exec (.rdUndef18 off n) s = ones ∧ exec (.rdUndef2c off n) s = ones ∧
      exec (.rdUndef34 off n) s = ones ∧ exec (.rdUndef38 off n) s = ones ∧ exec (.rdUndef48 off n) s = ones ∧
      exec (.rdUndef58 off n) s = ones ∧ exec (.rdUndef70 off n) s = ones ∧ exec (.rdUndefHigh off n) s = ones) ∧
    (exec (.wrUndef08 off data) s = .next s ∧ exec (.wrUndef18 off data) s = .next s ∧
      exec (.wrUndef2c off data) s = .next s ∧ exec (.wrUndef34 off data) s = .next s ∧
      exec (.wrUndef38 off data) s = .next s ∧ exec (.wrUndef48 off data) s = .next s ∧
      exec (.wrUndef58 off data) s = .next s ∧ exec (.wrUndef70 off data) s = .next s ∧
      exec (.wrUndefHigh off data) s = .next s))

/-! ### MDIO -/

/-- `WR_PHYCTL`: the value is stored verbatim in both cases; the bank changes only if the opcode is not the read sentinel, and
then only at PHY `v[14:10]` (R190). -/
def Obligations.PhyctlWrite : Prop :=
  ∀ (s : State) (v : Word), s.shutdown = false →
    decode s.cfg (encWrite 0x44 (le32bytes v)) = .ok (.wrPhyctl v) ∧
    ∃ t, exec (.wrPhyctl v) s = .next t ∧ t = { s with phyctl := v, phy := t.phy } ∧
      (v.extractLsb' 0 5 = s.cfg.mdioReadOp → t.phy = s.phy) ∧
      (∀ p n : BitVec 5, p ≠ v.extractLsb' 10 5 → phyGet t.phy p n = phyGet s.phy p n)

/-- A write of PHYCTL is the command its word decodes to (R190, R192, R199). -/
def Obligations.PhyctlWriteRunsCommand : Prop :=
  ∀ (s : State) (v : Word) (i : Instr), decode s.cfg (.input (.command v)) = .ok i → exec (.wrPhyctl v) s = exec i s

/-- A write to PHY register 0: stored if bit 15 is clear; with bit 15 set, registers 0 and 1 of that PHY take their defaults (the
status without the link bit if the link is down), and bit 15 of register 0 reads clear. Every other bank entry and all else stay
(R193, R197). -/
def Obligations.MdioControlWrite : Prop :=
  ∀ (s : State) (op p : BitVec 5) (busy : Bool) (d : Half), s.shutdown = false →
    ∃ t, exec (.mdioWrCtrl op p busy d) s = .next t ∧
      t = { s with phyctl := mdioJoin ⟨op, 0, p, busy, d⟩, phy := t.phy } ∧
      phyGet t.phy p 0 = (if d.getLsbD 15 then s.cfg.phyDefault[0] else d) ∧
      phyGet t.phy p 1 = (if d.getLsbD 15 then
        (if s.linkUp then s.cfg.phyDefault[1] else s.cfg.phyDefault[1] &&& ~~~0x0004) else phyGet s.phy p 1) ∧
      (∀ p' n', (p' ≠ p ∨ n' ≠ 0 ∧ n' ≠ 1) → phyGet t.phy p' n' = phyGet s.phy p' n') ∧
      (s.cfg.Valid → d.getLsbD 15 = true → (phyGet t.phy p 0).getLsbD 15 = false)

/-- A write to the advertisement register of PHY 1 stores the value and then forces the fix-up bit on in the fix-up register,
which may be the same register; for any other PHY it stores the value only. Every other bank entry and all else stay (R192,
R195). -/
def Obligations.MdioAdvertisementWrite : Prop :=
  ∀ (s : State) (op : BitVec 5) (busy : Bool) (d : Half), s.shutdown = false →
    ∃ t, exec (.mdioWrAnarPhy1 op busy d) s = .next t ∧
      t = { s with phyctl := mdioJoin ⟨op, 4, 1, busy, d⟩, phy := t.phy } ∧
      (∀ p n, phyGet t.phy p n =
        if p = 1 ∧ n = s.cfg.anarFixupReg then (if n = 4 then d else phyGet s.phy 1 n) ||| s.cfg.anarFixupMask
        else if p = 1 ∧ n = 4 then d else phyGet s.phy p n) ∧
      (∀ p : BitVec 5, p ≠ 1 → ∃ u, exec (.mdioWr op 4 p busy d) s = .next u ∧
        u = { s with phyctl := mdioJoin ⟨op, 4, p, busy, d⟩, phy := u.phy } ∧
        ∀ p' n, phyGet u.phy p' n = if p' = p ∧ n = 4 then d else phyGet s.phy p' n)

/-- `MDIO_WR` to any register but 0, 2, 3 and the advertisement register of PHY 1 is plain 16-bit storage; the address phase of
a read, and writes to the identifier registers, store the command in PHYCTL and leave the bank and all else (R190, R192,
R194). -/
def Obligations.MdioPlainWrite : Prop :=
  (∀ (s : State) (op n p : BitVec 5) (busy : Bool) (d : Half), s.shutdown = false →
    (Instr.mdioWr op n p busy d).wellFormed s.cfg = true →
    ∃ t, exec (.mdioWr op n p busy d) s = .next t ∧
      t = { s with phyctl := mdioJoin ⟨op, n, p, busy, d⟩, phy := t.phy } ∧
      (∀ p' n', phyGet t.phy p' n' = if p' = p ∧ n' = n then d else phyGet s.phy p' n')) ∧
  (∀ (s : State) (op n p : BitVec 5) (busy : Bool) (d : Half), s.shutdown = false →
    exec (.mdioRdaddr n p busy d) s = .next { s with phyctl := mdioJoin ⟨s.cfg.mdioReadOp, n, p, busy, d⟩ } ∧
    exec (.mdioWrId1 op p busy d) s = .next { s with phyctl := mdioJoin ⟨op, 2, p, busy, d⟩ } ∧
    exec (.mdioWrId2 op p busy d) s = .next { s with phyctl := mdioJoin ⟨op, 3, p, busy, d⟩ })

/-- `RD_PHYCTL`: DATA takes the bank entry PHYCTL addresses, BUSY is cleared, bits 14:0 stay, and the result is returned; a
second read returns the same and changes nothing more (R79, R191). -/
def Obligations.PhyctlRead : Prop :=
  ∀ s : State, s.shutdown = false →
    decode s.cfg (encRead 0x44 4) = .ok .rdPhyctl ∧
    ∃ w : Word,
      w.extractLsb' 16 16 = phyGet s.phy (s.phyctl.extractLsb' 10 5) (s.phyctl.extractLsb' 5 5) ∧
      w.getLsbD 15 = false ∧ w.extractLsb' 0 15 = s.phyctl.extractLsb' 0 15 ∧
      exec .rdPhyctl s = .next { s with phyctl := w, history := .readData 0x44 (le32bytes w) :: s.history } ∧
      execAll [.rdPhyctl, .rdPhyctl] s = .next { s with
        phyctl := w
        history := .readData 0x44 (le32bytes w) :: .readData 0x44 (le32bytes w) :: s.history }

/-- What an MDIO write stored in a plain register an MDIO read returns: `MDIO.WR p, n, d` then `MDIO.RD p, n` (R111, R192, R199). -/
def Obligations.MdioWriteThenRead : Prop :=
  ∀ (s : State) (op n p : BitVec 5) (busy busy' : Bool) (d d' : Half), s.shutdown = false →
    (Instr.mdioWr op n p busy d).wellFormed s.cfg = true →
    let w := mdioJoin ⟨s.cfg.mdioReadOp, n, p, false, d⟩
    ∃ t, execAll [.mdioWr op n p busy d, .mdioRdaddr n p busy' d', .rdPhyctl] s = .next t ∧
      t = { s with phyctl := w, phy := t.phy, history := .readData 0x44 (le32bytes w) :: s.history } ∧
      (∀ p' n', phyGet t.phy p' n' = if p' = p ∧ n' = n then d else phyGet s.phy p' n')

/-- The device never sets `PHYCTL.BUSY`: if it is set after an operation it was set before or the guest wrote it set (R198). -/
def Obligations.BusyOnlyFromGuest : Prop :=
  ∀ (i : Instr) (s t : State), exec i s = .next t → t.phyctl.getLsbD 15 = true →
    (s.phyctl.getLsbD 15 = true ∧ i ≠ .rdPhyctl) ∨
    ∃ v : Word, v.getLsbD 15 = true ∧ t.phyctl = v ∧
      (encode s.cfg i = encWrite 0x44 (le32bytes v) ∨ encode s.cfg i = .input (.command v))

/-! ### Passes -/

/-- `ENG_PASS_BEGIN`: with no pass open and some ring eligible, the first eligible ring of the cyclic order from `nextRing` on gets
the pass; otherwise the step is not enabled and nothing happens (R221, R250, R283, R284; log entry 8). -/
def Obligations.PassBegins : Prop :=
  ∀ s : State, s.shutdown = false →
    let r0 := s.nextRing
    let r1 := ringAfter r0
    let r2 := ringAfter r1
    let begins (r : Ring) : Host.Outcome State Fault Refusal :=
      .next { s with pass := some ⟨r, 0, 0⟩, nextRing := ringAfter r }
    (s.eligible .tx0 = s.txArmed0 ∧ s.eligible .tx1 = s.txArmed1 ∧
      (s.eligible .rx = true ↔ s.rxArmed = true ∧ s.rxQueue ≠ [])) ∧
    (ringAfter .tx0 = .tx1 ∧ ringAfter .tx1 = .rx ∧ ringAfter .rx = .tx0) ∧
    decode s.cfg (encEvent 0x01 []) = .ok .engPassBegin ∧
    (s.pass = none → s.eligible r0 = true → exec .engPassBegin s = begins r0) ∧
    (s.pass = none → s.eligible r0 = false → s.eligible r1 = true → exec .engPassBegin s = begins r1) ∧
    (s.pass = none → s.eligible r0 = false → s.eligible r1 = false → s.eligible r2 = true →
      exec .engPassBegin s = begins r2) ∧
    ((s.pass ≠ none ∨ (s.eligible .tx0 = false ∧ s.eligible .tx1 = false ∧ s.eligible .rx = false)) →
      exec .engPassBegin s = .next s)

/-- `PassEnd`, where it runs with no fetch: in the rows of descriptors that are not owned, and in `ENG_PASS_END` of a pass whose
ring is disarmed, whose bound is reached, or whose queue is empty. The pass closes; if it consumed at least one descriptor its
ring's cause is raised once, with one request if the masked status is not zero (R223, R229, R252, R322; log entry 17). -/
def Obligations.PassEnds : Prop :=
  ∀ (s : State) (ring : Ring) (n k : Nat) (i : Instr), s.shutdown = false → s.pass = some ⟨ring, n, k⟩ →
    ((i = .engPassEnd ∧ (s.armed ring = false ∨ ring ≠ .rx ∧ n = ringLen ring ∨ ring = .rx ∧ s.rxQueue = [])) ∨
      (ring ≠ .rx ∧ ∃ d, i = .txdNotOwned d) ∨ (ring = .rx ∧ ∃ d, i = .rxdNotOwned d)) →
    let cause : Word := if ring = .tx0 then 0x00000004 else if ring = .tx1 then 0x00000008 else 0x20000040
    exec i s = .next s.passEnd ∧
    (k = 0 → s.passEnd = { s with pass := none }) ∧
    (1 ≤ k → s.passEnd = { s with
      pass := none
      isr := s.isr ||| cause
      history := if s.imr &&& (s.isr ||| cause) = 0 then s.history else .irqRequest s.cfg.irqTag :: s.history })

/-! ### Transmit -/

/-- When a TX pass ends: ring disarmed or bound reached (no memory access), descriptor unavailable, descriptor not owned. In each
case nothing is written, the cursor stays, and `PassEnd` follows; `ENG_PASS_END` is that same step, and with no stop condition
it is not enabled (R222, R223, R228, R229; log entries 8 and 13). -/
def Obligations.TxStepEndsPass : Prop :=
  ∀ (s : State) (r : Ring) (n k : Nat), TxReady s r n k →
    let a := s.base r + 16 * BitVec.ofNat 32 (s.head r)
    ((s.armed r = false ∨ n = ringLen r) →
      exec .engTxStep s = .next s.passEnd ∧ exec .engPassEnd s = .next s.passEnd) ∧
    (s.armed r = true → n ≠ ringLen r → s.available a 16 = false →
      exec .engTxStep s = .next (s.log (.memRead a 16 false)).passEnd ∧
      exec .engPassEnd s = .next (s.log (.memRead a 16 false)).passEnd) ∧
    (s.armed r = true → n ≠ ringLen r → s.available a 16 = true → ownBit (s.mem.getBytes a 16) = false →
      exec .engTxStep s = .next (s.log (.memRead a 16 true)).passEnd ∧
      exec .engPassEnd s = .next (s.log (.memRead a 16 true)).passEnd) ∧
    (s.armed r = true → n ≠ ringLen r → s.available a 16 = true → ownBit (s.mem.getBytes a 16) = true →
      exec .engPassEnd s = .next s)

/-- An `ENG_TX_STEP` of an armed ring within its bound whose descriptor is available completes, and it is the 16-byte fetch
followed by the row the fetched bytes decode to (R86, R107, R222). -/
def Obligations.TxStepFetches : Prop :=
  ∀ (s : State) (r : Ring) (n k : Nat), TxReady s r n k → s.armed r = true → n ≠ ringLen r →
    let a := s.base r + 16 * BitVec.ofNat 32 (s.head r)
    s.available a 16 = true →
    ∃ i t, decode s.cfg (.txDescriptor (s.mem.getBytes a 16)) = .ok i ∧ exec .engTxStep s = .next t ∧
      exec i (s.log (.memRead a 16 true)) = .next t

/-- A good TX slot: the payload is fetched and joins `txQueue` (or is dropped and counted if 256 are queued), the status is
written back with OWN clear, the cursor advances, the pass counts it. Nothing else changes (R222, R225, R226, R227, R231; log
entries 17 and 22; guest accesses inside the step are in `StatusWriteBackIsNotAtomic`). -/
def Obligations.TxdOwnedDelivers : Prop :=
  ∀ (s : State) (r : Ring) (n k : Nat) (d : TxDesc), TxReady s r n k → d.length ≠ 0 →
    d.length.toNat ≤ s.cfg.maxFrameSize → s.available d.bufferAddress d.length.toNat = true →
    let a := s.base r + 16 * BitVec.ofNat 32 (s.head r) + 4
    let b := s.mem.getBytes d.bufferAddress d.length.toNat
    let status := le32bytes (topBit false d.statusRest)
    ∃ t, exec (.txdOwned d) s = .next t ∧
      t = { s with
        txQueue := if s.txQueue.length < 256 then s.txQueue ++ [b] else s.txQueue
        txDropCount := if s.txQueue.length < 256 then s.txDropCount else s.txDropCount + 1
        pass := some ⟨r, n + 1, k + 1⟩
        mem := t.mem
        history := .memWrite a status true :: .memRead d.bufferAddress d.length.toNat true :: s.history }.setHead r
          (if d.wrap then 0 else (s.head r + 1) % ringLen r) ∧
      ∀ x, t.mem.get x = (storedByte a status x).getD (s.mem.get x)

/-- A TX slot that cannot be sent, by its length (no payload access) or by an unavailable buffer: the error is counted, nothing is
queued, OWN is cleared, the cursor advances, the pass counts it. Nothing else changes (R224, R225, R227, R231; log
entries 17 and 22; guest accesses inside the step are in `StatusWriteBackIsNotAtomic`). -/
def Obligations.TxdOwnedErrors : Prop :=
  ∀ (s : State) (r : Ring) (n k : Nat) (d : TxDesc), TxReady s r n k →
    let a := s.base r + 16 * BitVec.ofNat 32 (s.head r) + 4
    let status := le32bytes (topBit false d.statusRest)
    let badLength := d.length = 0 ∨ s.cfg.maxFrameSize < d.length.toNat
    (badLength ∨ s.available d.bufferAddress d.length.toNat = false) →
    ∃ t, exec (.txdOwned d) s = .next t ∧
      t = { s with
        txErrCount := s.txErrCount + 1
        pass := some ⟨r, n + 1, k + 1⟩
        mem := t.mem
        history := t.history }.setHead r (if d.wrap then 0 else (s.head r + 1) % ringLen r) ∧
      (badLength → t.history = .memWrite a status true :: s.history) ∧
      (¬ badLength → t.history =
        .memWrite a status true :: .memRead d.bufferAddress d.length.toNat false :: s.history) ∧
      ∀ x, t.mem.get x = (storedByte a status x).getD (s.mem.get x)

/-- One drain pass (R227 "after one drain pass", R228, R229, R324). A TX pass starts on an armed ring; `cursor` lists the slots it
meets, each found owned, each reached from the one before by WRAP or by the next index; then it meets a slot that is not owned
(or one it consumed itself), or the ring's length is reached. Then every consumed slot has OWN clear and the rest of its bytes as
they were, the cursor stands after the last consumed slot, every slot is accounted for once (error, queued or dropped), and the
ring's cause is raised exactly once, with at most one request. Log entry 22: the write-backs land. Passes that a disarming or an
unavailable descriptor ends are in `TxStepEndsPass`. -/
def Obligations.TxDrainPass : Prop :=
  ∀ (s : State) (r : Ring) (k : Nat) (cursor : Nat → Nat), TxReady s r 0 0 → s.armed r = true → 1 ≤ k → k ≤ ringLen r →
    (∀ j, j ≤ k → cursor j < ringLen r) → cursor 0 = s.head r →
    let a (j : Nat) := s.base r + 16 * BitVec.ofNat 32 (cursor j)
    let d (j : Nat) := s.mem.getBytes (a j) 16
    (∀ j, j ≤ k → s.available (a j) 16 = true) →
    (∀ j, j < k → ownBit (d j) = true ∧ cursor (j + 1) = if (txFields (d j)).wrap then 0 else (cursor j + 1) % ringLen r) →
    (∀ i j, i < j → j < k → cursor i ≠ cursor j) →
    (k = ringLen r ∨ ownBit (d k) = false ∨ ∃ j, j < k ∧ cursor j = cursor k) →
    ∃ t, execAll (List.replicate (k + 1) .engTxStep) s = .next t ∧
      t.pass = none ∧ t.head r = cursor k ∧ (∀ r', r' ≠ r → t.head r' = s.head r') ∧
      t.txErrCount + t.txQueue.length + t.txDropCount = s.txErrCount + s.txQueue.length + s.txDropCount + k ∧
      s.txQueue <+: t.txQueue ∧ t.rxQueue = s.rxQueue ∧
      (∀ j, j < k → t.mem.getBytes (a j) 16 = txBytes false (txFields (d j))) ∧
      t.isr = s.isr ||| ringCause r ∧
      t.requests = s.requests + (if s.imr &&& (s.isr ||| ringCause r) = 0 then 0 else 1)

/-! ### Receive -/

/-- When an RX pass ends: RX disarmed or no frame queued (no memory access), descriptor unavailable, descriptor not owned.
Nothing is written, the cursor stays, the frame stays queued, and `PassEnd` follows; `ENG_PASS_END` is that same step, and with
no stop condition it is not enabled (R229, R251, R252; log entries 8 and 13). -/
def Obligations.RxStepEndsPass : Prop :=
  ∀ (s : State) (n k : Nat), RxReady s n k →
    let a := s.rxbase + 16 * BitVec.ofNat 32 s.rxHead
    ((s.rxArmed = false ∨ s.rxQueue = []) →
      exec .engRxStep s = .next s.passEnd ∧ exec .engPassEnd s = .next s.passEnd) ∧
    (s.rxArmed = true → s.rxQueue ≠ [] → s.available a 16 = false →
      exec .engRxStep s = .next (s.log (.memRead a 16 false)).passEnd ∧
      exec .engPassEnd s = .next (s.log (.memRead a 16 false)).passEnd) ∧
    (s.rxArmed = true → s.rxQueue ≠ [] → s.available a 16 = true → ownBit (s.mem.getBytes a 16) = false →
      exec .engRxStep s = .next (s.log (.memRead a 16 true)).passEnd ∧
      exec .engPassEnd s = .next (s.log (.memRead a 16 true)).passEnd) ∧
    (s.rxArmed = true → s.rxQueue ≠ [] → s.available a 16 = true → ownBit (s.mem.getBytes a 16) = true →
      exec .engPassEnd s = .next s)

/-- An `ENG_RX_STEP` with RX armed, a frame queued and the descriptor available completes, and it is the 16-byte fetch followed by
the row the fetched bytes decode to (R86, R107, R251). -/
def Obligations.RxStepFetches : Prop :=
  ∀ (s : State) (n k : Nat), RxReady s n k → s.rxArmed = true → s.rxQueue ≠ [] →
    let a := s.rxbase + 16 * BitVec.ofNat 32 s.rxHead
    s.available a 16 = true →
    ∃ i t, decode s.cfg (.rxDescriptor (s.mem.getBytes a 16)) = .ok i ∧ exec .engRxStep s = .next t ∧
      exec i (s.log (.memRead a 16 true)) = .next t

/-- A deposit: min(frame length, buffer size) bytes go to the buffer (no access if that is 0), then the length, then the status
with OWN clear; the frame leaves the queue, a truncated one is counted, the cursor advances. Nothing else changes (R227, R251,
R253, R254; log entries 17 and 22; guest accesses inside the step are in `GuestAccessesInsideRxStep`). -/
def Obligations.RxdOwnedDeposits : Prop :=
  ∀ (s : State) (n k : Nat) (d : RxDesc) (f : Packet) (rest : List Packet), RxReady s n k → s.rxQueue = f :: rest →
    let a := s.rxbase + 16 * BitVec.ofNat 32 s.rxHead
    let m := min f.length d.bufferSize.toNat
    let received := le32bytes (BitVec.ofNat 32 m)
    let status := le32bytes (topBit false d.statusRest)
    s.available d.bufferAddress m = true →
    ∃ t, exec (.rxdOwned d) s = .next t ∧
      t = { s with
        rxQueue := rest
        rxOverrunCount := if d.bufferSize.toNat < f.length then s.rxOverrunCount + 1 else s.rxOverrunCount
        rxHead := if d.wrap then 0 else (s.rxHead + 1) % 64
        pass := some ⟨.rx, n + 1, k + 1⟩
        mem := t.mem
        history := .memWrite (a + 4) status true :: .memWrite a received true ::
          if m = 0 then s.history else .memWrite d.bufferAddress (f.take m) true :: s.history } ∧
      ∀ x, t.mem.get x = (storedByte (a + 4) status x).getD ((storedByte a received x).getD
        ((storedByte d.bufferAddress (f.take m) x).getD (s.mem.get x)))

/-- A receive buffer that is unavailable: the error is counted, the frame is lost, the length is written 0 and OWN clear, the
cursor advances, no overrun. Nothing else changes (R227, R251, R255; log entries 17 and 22; guest accesses inside the step are in
`GuestAccessesInsideRxStep`). -/
def Obligations.RxdOwnedBufferError : Prop :=
  ∀ (s : State) (n k : Nat) (d : RxDesc) (f : Packet) (rest : List Packet), RxReady s n k → s.rxQueue = f :: rest →
    let a := s.rxbase + 16 * BitVec.ofNat 32 s.rxHead
    let m := min f.length d.bufferSize.toNat
    let status := le32bytes (topBit false d.statusRest)
    s.available d.bufferAddress m = false →
    ∃ t, exec (.rxdOwned d) s = .next t ∧
      t = { s with
        rxQueue := rest
        rxErrCount := s.rxErrCount + 1
        rxHead := if d.wrap then 0 else (s.rxHead + 1) % 64
        pass := some ⟨.rx, n + 1, k + 1⟩
        mem := t.mem
        history := .memWrite (a + 4) status true :: .memWrite a (le32bytes 0) true ::
          .memWrite d.bufferAddress (f.take m) false :: s.history } ∧
      ∀ x, t.mem.get x = (storedByte (a + 4) status x).getD ((storedByte a (le32bytes 0) x).getD (s.mem.get x))

/-! ### Wire side and scheduler -/

/-- `ENG_TX_EMIT`: the front of `txQueue` is handed to the wire; a failed send is counted and the frame is lost. Not enabled on an
empty queue (R286; log entry 8 for the step that is not enabled). -/
def Obligations.EmitHandsOver : Prop :=
  ∀ (s : State) (ok : Bool), s.shutdown = false →
    (∀ f rest, s.txQueue = f :: rest → exec (.engTxEmit ok) s = .next { s with
      txQueue := rest
      txSendFailCount := if ok then s.txSendFailCount else s.txSendFailCount + 1
      history := .send f ok :: s.history }) ∧
    (s.txQueue = [] → exec (.engTxEmit ok) s = .next s)

/-- `WIRE_FRAME_ARRIVE`: a frame of any length joins the back of `rxQueue`, armed or not; with 256 queued the new frame is dropped
and counted. Nothing else changes (R281, R300; the operand bytes of the event are log entry 9). -/
def Obligations.FrameArrives : Prop :=
  ∀ (s : State) (f : Packet), s.shutdown = false →
    decode s.cfg (encEvent 0x10 f) = .ok (.wireFrameArrive f) ∧
    (s.rxQueue.length < 256 → exec (.wireFrameArrive f) s = .next { s with rxQueue := s.rxQueue ++ [f] }) ∧
    (256 ≤ s.rxQueue.length → exec (.wireFrameArrive f) s = .next { s with rxDropCount := s.rxDropCount + 1 })

/-- `LINK_CHANGE`: on a change, `linkUp`, the link bit in register 1 of every PHY and a raise of the link cause; a repeat does
nothing (R197, R302, R322). -/
def Obligations.LinkChanges : Prop :=
  ∀ (s : State) (up : Bool), s.shutdown = false →
    (up = s.linkUp → exec (.linkChange up) s = .next s) ∧
    (up ≠ s.linkUp → ∃ t, exec (.linkChange up) s = .next t ∧
      t = { s with
        linkUp := up
        phy := t.phy
        isr := s.isr ||| 0x00000100
        history := if s.imr &&& (s.isr ||| 0x00000100) = 0 then s.history
          else .irqRequest s.cfg.irqTag :: s.history } ∧
      ∀ p n, phyGet t.phy p n =
        if n = 1 then (if up then phyGet s.phy p 1 ||| 0x0004 else phyGet s.phy p 1 &&& ~~~0x0004)
        else phyGet s.phy p n)

/-- Guest accesses inside a TX descriptor step that consumes a descriptor, good or bad, wherever they fall between and inside the
engine's memory accesses: the payload is read byte by byte among them, the status write-back is a plain store of the fetched
word that overwrites what they stored there before it, and their loads return what is then in memory (R78, R83, R88, R364; log
entries 6, 7 and 22). -/
def Obligations.StatusWriteBackIsNotAtomic : Prop :=
  ∀ (s : State) (r : Ring) (n k : Nat), s.shutdown = false → s.mem.wf = true → s.pass = some ⟨r, n, k⟩ →
    (r = .tx0 ∨ r = .tx1) → (∀ b ∈ s.race, ∀ g ∈ b.ops, g.fits = true) → s.armed r = true → n ≠ ringLen r →
    let a := s.base r + 16 * BitVec.ofNat 32 (s.head r)
    let d := txFields (s.mem.getBytes a 16)
    let len := d.length.toNat
    let status := le32bytes (topBit false d.statusRest)
    s.available a 16 = true → ownBit (s.mem.getBytes a 16) = true →
    let fetched := afterGuest s.mem.get (s.raceOps 0)
    let history0 := guestLoads (guestView s.mem.get (s.raceOps 0)) 0 (s.raceOps 0) ++ .memRead a 16 true :: s.history
    ∃ t, exec .engTxStep s = .next t ∧
      (len = 0 ∨ s.cfg.maxFrameSize < len →
        let returned := afterStore fetched (a + 4) status
        t.race = s.race.drop 2 ∧ (∀ x, t.mem.get x = afterGuest returned (s.raceOps 1) x) ∧
        t.history = guestLoads (guestView returned (s.raceOps 1)) 0 (s.raceOps 1) ++
          .memWrite (a + 4) status true :: history0) ∧
      (len ≠ 0 → len ≤ s.cfg.maxFrameSize →
        let ok := s.available d.bufferAddress len
        let returned := afterStore (afterGuest fetched (s.raceOps 1)) (a + 4) status
        t.race = s.race.drop 3 ∧ (∀ x, t.mem.get x = afterGuest returned (s.raceOps 2) x) ∧
        t.history = guestLoads (guestView returned (s.raceOps 2)) 0 (s.raceOps 2) ++ .memWrite (a + 4) status true ::
          (guestLoads (guestView fetched (s.raceOps 1)) 0 (s.raceOps 1) ++ .memRead d.bufferAddress len ok :: history0) ∧
        (ok = true → s.txQueue.length < 256 →
          ∃ b, t.txQueue = s.txQueue ++ [b] ∧ b.length = len ∧ ∀ j, j < len →
            b[j]? = some (guestView fetched (s.raceOps 1) ((s.raceSeen 1).getD j 0)
              (d.bufferAddress + BitVec.ofNat 32 j).toNat)))

/-- Guest accesses inside an RX descriptor step that consumes a descriptor, wherever they fall between and inside the engine's
memory accesses: the deposit is written byte by byte among them and their loads see it partly done, both write-backs are plain
stores that overwrite what they stored there before, and an unavailable buffer takes no byte (R78, R83, R88, R364; log entries
6, 7 and 22). -/
def Obligations.GuestAccessesInsideRxStep : Prop :=
  ∀ (s : State) (n k : Nat) (f : Packet) (rest : List Packet), s.shutdown = false → s.mem.wf = true →
    s.pass = some ⟨.rx, n, k⟩ → s.rxQueue = f :: rest → (∀ b ∈ s.race, ∀ g ∈ b.ops, g.fits = true) → s.rxArmed = true →
    let a := s.rxbase + 16 * BitVec.ofNat 32 s.rxHead
    let d := rxFields (s.mem.getBytes a 16)
    let m := min f.length d.bufferSize.toNat
    let ok := s.available d.bufferAddress m
    let received := le32bytes (if ok = true then BitVec.ofNat 32 m else 0)
    let status := le32bytes (topBit false d.statusRest)
    s.available a 16 = true → ownBit (s.mem.getBytes a 16) = true →
    let fetched := afterGuest s.mem.get (s.raceOps 0)
    let history0 := guestLoads (guestView s.mem.get (s.raceOps 0)) 0 (s.raceOps 0) ++ .memRead a 16 true :: s.history
    let view := if ok = true then partialView fetched d.bufferAddress (f.take m) (s.raceSeen 1) (s.raceOps 1)
      else guestView fetched (s.raceOps 1)
    let deposited := if m = 0 then fetched else view (s.raceOps 1).length
    let history1 := if m = 0 then history0
      else guestLoads view 0 (s.raceOps 1) ++ .memWrite d.bufferAddress (f.take m) ok :: history0
    let j := if m = 0 then 1 else 2
    let counted := afterStore deposited a received
    let returned := afterStore (afterGuest counted (s.raceOps j)) (a + 4) status
    ∃ t, exec .engRxStep s = .next t ∧ t.race = s.race.drop (j + 2) ∧
      (∀ x, t.mem.get x = afterGuest returned (s.raceOps (j + 1)) x) ∧
      t.history = guestLoads (guestView returned (s.raceOps (j + 1))) 0 (s.raceOps (j + 1)) ++ .memWrite (a + 4) status true ::
        (guestLoads (guestView counted (s.raceOps j)) 0 (s.raceOps j) ++ .memWrite a received true :: history1)

/-- Both queues are first in, first out, with one producer and one consumer each: apart from reset and the soft reset an operation
leaves a queue, takes its front, or appends at its back; TX descriptors enter `txQueue` and only `ENG_TX_EMIT` takes from it;
arriving frames enter `rxQueue` and only RX descriptors take from it (R280, R281, R288). -/
def Obligations.QueuesAreFifos : Prop :=
  ∀ (i : Instr) (s t : State), exec i s = .next t → i ≠ .hostReset → (∀ v, i = .wrCfg0 v → softResetHit s.cfg v = false) →
    (t.txQueue = s.txQueue ∨ ((∃ ok, i = .engTxEmit ok) ∧ t.txQueue = s.txQueue.tail) ∨
      (consumesTx i = true ∧ s.txQueue.length < 256 ∧ ∃ f, t.txQueue = s.txQueue ++ [f])) ∧
    (t.rxQueue = s.rxQueue ∨ (consumesRx i = true ∧ t.rxQueue = s.rxQueue.tail) ∨
      (s.rxQueue.length < 256 ∧ ∃ f, i = .wireFrameArrive f ∧ t.rxQueue = s.rxQueue ++ [f]))

/-- A cursor moves only by a descriptor step of its own ring's pass, by the arming RXCFG write (RX), by the soft reset and by reset
(R39, R227, R256). -/
def Obligations.CursorsMoveOnlyAsStated : Prop :=
  ∀ (i : Instr) (s t : State) (r : Ring), exec i s = .next t → t.head r ≠ s.head r →
    (consumesDescriptors i = true ∧ ∃ p, s.pass = some p ∧ p.ring = r ∧ (t.head r = 0 ∨ t.head r = (s.head r + 1) % ringLen r)) ∨
    (r = .rx ∧ t.head r = 0 ∧ ∃ v, i = .wrRxcfg v ∧ v.getLsbD 0 = true ∧ v.getLsbD 4 = true) ∨
    (t.head r = 0 ∧ ∃ v, i = .wrCfg0 v ∧ softResetHit s.cfg v = true) ∨
    (t.head r = 0 ∧ i = .hostReset)

/-- The engine and the wire side never read the storage registers: the MAC, hash, multicast and packet-size registers (no
filtering), and not TXCFG, RXCFG or CFG0 either (the armed flags are latches of their own); and the link state gates nothing. An
operation of theirs does the same whatever those hold (R38, R258, R302, R303). -/
def Obligations.StorageRegistersAreNeverRead : Prop :=
  ∀ (i : Instr) (s t : State), isGuestRead s.cfg i = false → isGuestWrite s.cfg i = false → i ≠ .hostReset →
    (∀ up, i ≠ .linkChange up) → exec i s = .next t →
    ∀ (w : Fin 10 → Word) (h0 h1 : Half) (m0 m1 : Vector Byte 6) (up : Bool),
      exec i { s with
        txcfg := w 0, rxcfg := w 1, cfg0 := w 2, pwr := w 3, phycfg := w 4, phyctl := w 5, cfg1 := w 6, retry := w 7
        mchash0 := w 8, mchash1 := w 9, mcctl := h0, maxpkt := h1, mac0 := m0, mac1 := m1, linkUp := up } =
      .next { t with
        txcfg := w 0, rxcfg := w 1, cfg0 := w 2, pwr := w 3, phycfg := w 4, phyctl := w 5, cfg1 := w 6, retry := w 7
        mchash0 := w 8, mchash1 := w 9, mcctl := h0, maxpkt := h1, mac0 := m0, mac1 := m1, linkUp := up }

/-! ### Fair runs -/

/-- Progress in a weakly fair run that is never shut down (log entry 16): a queued packet leaves (by `ENG_TX_EMIT`, or the
queue is emptied by a reset); an open TX pass ends; and a ring that stays eligible, which for a TX ring is to stay armed, gets a
pass of its own from its start, if no RX pass stays open for ever (R251 and D33 give an RX pass no bound) and an open TX pass is
within its bound (R228, kept by `Inv`) (R230, R284, R285). -/
def Obligations.FairRunsProgress : Prop :=
  ∀ r : Run, r.WeaklyFair → (∀ n, (r.state n).shutdown = false) → ∀ n,
    ((r.state n).txQueue ≠ [] → ∃ m, n ≤ m ∧ (r.takes m .txEmit ∨ (r.state m).txQueue = [])) ∧
    (∀ (ring : Ring) (steps consumed : Nat), (r.state n).pass = some ⟨ring, steps, consumed⟩ → ring ≠ .rx →
      steps ≤ ringLen ring → ∃ m, n ≤ m ∧ (r.state m).pass = none) ∧
    (∀ ring : Ring, (∀ p, (r.state n).pass = some p → p.ring ≠ .rx → p.steps ≤ ringLen p.ring) →
      (∀ k, n ≤ k → ∃ m, k ≤ m ∧ ∀ p, (r.state m).pass = some p → p.ring ≠ .rx) →
      (∀ m, n ≤ m → (r.state m).eligible ring = true) →
      ∃ m, n ≤ m ∧ (r.state m).pass = none ∧ (r.state (m + 1)).pass = some ⟨ring, 0, 0⟩)
end

