-- ==== Sys2Proof/Laws/Fields.lean ====
section
/-! SUPPORT. Laws of the byte-order and bit-field helpers, of the byte-addressable fields and of the PHY bank. -/

namespace Sys2Proof

/-! ### Byte order -/

@[simp] theorem length_le32bytes (v : Word) : (le32bytes v).length = 4 := rfl

@[simp] theorem length_le16bytes (v : Half) : (le16bytes v).length = 2 := rfl

/-- The four bytes of a word from anywhere in a byte string. -/
theorem le32At_eq (b : List Byte) (i : Nat) (v : Word) (h0 : b.getD i 0 = v.extractLsb' 0 8)
    (h1 : b.getD (i + 1) 0 = v.extractLsb' 8 8) (h2 : b.getD (i + 2) 0 = v.extractLsb' 16 8)
    (h3 : b.getD (i + 3) 0 = v.extractLsb' 24 8) : le32At b i = v := by
  rw [le32At, h0, h1, h2, h3]
  ext i hi
  simp only [BitVec.getElem_append, BitVec.getElem_extractLsb', BitVec.getLsbD_eq_getElem?_getD]
  split
  · simp [BitVec.getElem?_eq_getElem (show i < 32 from hi)]
  · split
    · rw [show 8 + (i - 8) = i by omega]; simp [BitVec.getElem?_eq_getElem (show i < 32 from hi)]
    · split
      · rw [show 16 + (i - 8 - 8) = i by omega]; simp [BitVec.getElem?_eq_getElem (show i < 32 from hi)]
      · rw [show 24 + (i - 8 - 8 - 8) = i by omega]; simp [BitVec.getElem?_eq_getElem (show i < 32 from hi)]

@[simp] theorem le32_le32bytes (v : Word) : le32 (le32bytes v) = v := le32At_eq _ 0 v rfl rfl rfl rfl

/-- Byte `k` of an appended bit vector. -/
theorem extract_append_low {w : Nat} (a : BitVec w) (b : Byte) : (a ++ b).extractLsb' 0 8 = b := by
  ext i hi
  simp only [BitVec.getElem_extractLsb', BitVec.getLsbD_append]
  simp [hi]

theorem extract_append_high {w : Nat} (a : BitVec w) (b : Byte) (k : Nat) :
    (a ++ b).extractLsb' (8 + k) 8 = a.extractLsb' k 8 := by
  ext i hi
  simp only [BitVec.getElem_extractLsb', BitVec.getLsbD_append]
  rw [if_neg (by omega)]
  congr 1
  omega

theorem le32bytes_le32 (b : List Byte) (h : b.length = 4) : le32bytes (le32 b) = b := by
  match b, h with
  | [b0, b1, b2, b3], _ =>
    simp only [le32, le32At, le32bytes, List.getD_cons_succ, List.getD_cons_zero]
    rw [extract_append_low, extract_append_high _ _ 0, extract_append_low, extract_append_high _ _ 8,
      extract_append_high _ _ 0, extract_append_low, extract_append_high _ _ 16, extract_append_high _ _ 8,
      extract_append_high _ _ 0]
    congr 3
    rw [BitVec.extractLsb'_eq_self]

@[simp] theorem le16_le16bytes (v : Half) : le16 (le16bytes v) = v := by
  simp only [le16, le16bytes, List.getD_cons_succ, List.getD_cons_zero]
  ext i hi
  simp only [BitVec.getElem_append, BitVec.getElem_extractLsb']
  split
  · simp [BitVec.getLsbD_eq_getElem (show i < 16 from hi)]
  · rw [show 8 + (i - 8) = i by omega, BitVec.getLsbD_eq_getElem (show i < 16 from hi)]

theorem le16bytes_le16 (b : List Byte) (h : b.length = 2) : le16bytes (le16 b) = b := by
  match b, h with
  | [b0, b1], _ =>
    simp only [le16, le16bytes, List.getD_cons_succ, List.getD_cons_zero]
    rw [extract_append_low, extract_append_high _ _ 0]
    rw [BitVec.extractLsb'_eq_self]

/-! ### The PHYCTL command word -/

/-- The fields of a joined command word are the fields it was joined from (R105). -/
@[simp] theorem mdioSplit_mdioJoin (m : MdioWord) : mdioSplit (mdioJoin m) = m := by
  obtain ⟨op, regnum, phyaddr, busy, data⟩ := m
  simp only [mdioSplit, mdioJoin, mdioOp, mdioRegnum, mdioPhyaddr, mdioBusy, mdioData, MdioWord.mk.injEq]
  refine ⟨?_, ?_, ?_, ?_, ?_⟩
  · ext i hi
    simp only [BitVec.getElem_extractLsb', BitVec.getLsbD_append]
    rw [if_pos (by omega), if_pos (by omega), if_pos (by omega), if_pos (by omega), Nat.zero_add,
      BitVec.getLsbD_eq_getElem hi]
  · ext i hi
    simp only [BitVec.getElem_extractLsb', BitVec.getLsbD_append]
    rw [if_pos (by omega), if_pos (by omega), if_pos (by omega), if_neg (by omega), show 5 + i - 5 = i by omega,
      BitVec.getLsbD_eq_getElem hi]
  · ext i hi
    simp only [BitVec.getElem_extractLsb', BitVec.getLsbD_append]
    rw [if_pos (by omega), if_pos (by omega), if_neg (by omega), show 10 + i - (5 + 5) = i by omega,
      BitVec.getLsbD_eq_getElem hi]
  · rw [BitVec.getLsbD_append, if_pos (by omega), BitVec.getLsbD_append, if_neg (by omega), BitVec.getLsbD_ofBool]
    simp
  · ext i hi
    simp only [BitVec.getElem_extractLsb', BitVec.getLsbD_append]
    rw [if_neg (by omega), show 16 + i - (1 + (5 + (5 + 5))) = i by omega, BitVec.getLsbD_eq_getElem hi]

/-- A command word is the word of its fields (R105). -/
@[simp] theorem mdioJoin_mdioSplit (v : Word) : mdioJoin (mdioSplit v) = v := by
  simp only [mdioSplit, mdioJoin, mdioOp, mdioRegnum, mdioPhyaddr, mdioBusy, mdioData]
  ext i hi
  simp only [BitVec.getElem_append, BitVec.getElem_extractLsb']
  rw [← BitVec.getLsbD_eq_getElem (show i < 32 from hi)]
  split
  · split
    · split
      · split
        · simp
        · congr 1; omega
      · congr 1; omega
    · simp only [BitVec.getElem_ofBool]
      have : i = 15 := by omega
      subst this; rfl
  · congr 1; omega

/-! ### Descriptors -/

/-- The bits of a u32 given by its bit 31 and its bits 30:0. -/
theorem getLsbD_topBit (b : Bool) (r : BitVec 31) (i : Nat) :
    (topBit b r).getLsbD i = if i < 31 then r.getLsbD i else (decide (i = 31) && b) := by
  show (BitVec.ofBool b ++ r).getLsbD i = _
  rw [BitVec.getLsbD_append, BitVec.getLsbD_ofBool]
  split
  · rfl
  · congr 2
    rw [eq_iff_iff]
    omega

/-- A u32 is its bit 31 over its bits 30:0. -/
theorem topBit_split (v : Word) : topBit (v.getLsbD 31) (v.extractLsb' 0 31) = v := by
  apply BitVec.eq_of_getLsbD_eq
  intro i hi
  rw [getLsbD_topBit, BitVec.getLsbD_extractLsb']
  split
  · rename_i h; rw [decide_eq_true h, Bool.true_and, Nat.zero_add]
  · have : i = 31 := by omega
    subst this; rfl

theorem topBit_top (b : Bool) (r : BitVec 31) : (topBit b r).getLsbD 31 = b := by
  rw [getLsbD_topBit]; rfl

@[simp] theorem topBit_rest (b : Bool) (r : BitVec 31) : (topBit b r).extractLsb' 0 31 = r := by
  apply BitVec.eq_of_getLsbD_eq
  intro i hi
  rw [BitVec.getLsbD_extractLsb', Nat.zero_add, getLsbD_topBit, if_pos hi, decide_eq_true hi, Bool.true_and]

/-- The words of four words written out as 16 bytes. -/
theorem descWord_words (w0 w1 w2 w3 : Word) :
    descWord (le32bytes w0 ++ le32bytes w1 ++ le32bytes w2 ++ le32bytes w3) 0 = w0 ∧
    descWord (le32bytes w0 ++ le32bytes w1 ++ le32bytes w2 ++ le32bytes w3) 1 = w1 ∧
    descWord (le32bytes w0 ++ le32bytes w1 ++ le32bytes w2 ++ le32bytes w3) 2 = w2 ∧
    descWord (le32bytes w0 ++ le32bytes w1 ++ le32bytes w2 ++ le32bytes w3) 3 = w3 :=
  ⟨le32At_eq _ _ _ rfl rfl rfl rfl, le32At_eq _ _ _ rfl rfl rfl rfl, le32At_eq _ _ _ rfl rfl rfl rfl,
    le32At_eq _ _ _ rfl rfl rfl rfl⟩

/-- Sixteen bytes are the bytes of their four words. -/
theorem words_descWord (d : List Byte) (h : d.length = 16) :
    le32bytes (descWord d 0) ++ le32bytes (descWord d 1) ++ le32bytes (descWord d 2) ++ le32bytes (descWord d 3) = d := by
  match d, h with
  | [a0, a1, a2, a3, b0, b1, b2, b3, c0, c1, c2, c3, e0, e1, e2, e3], _ =>
    have h0 := le32bytes_le32 [a0, a1, a2, a3] rfl
    have h1 := le32bytes_le32 [b0, b1, b2, b3] rfl
    have h2 := le32bytes_le32 [c0, c1, c2, c3] rfl
    have h3 := le32bytes_le32 [e0, e1, e2, e3] rfl
    simp only [le32, le32At, descWord, List.getD_cons_succ, List.getD_cons_zero, Nat.mul_zero, Nat.zero_add, Nat.mul_one,
      Nat.reduceMul, Nat.reduceAdd] at h0 h1 h2 h3 ⊢
    rw [h0, h1, h2, h3]
    rfl

@[simp] theorem length_txBytes (own : Bool) (d : TxDesc) : (txBytes own d).length = 16 := rfl

@[simp] theorem length_rxBytes (own : Bool) (d : RxDesc) : (rxBytes own d).length = 16 := rfl

@[simp] theorem ownBit_txBytes (own : Bool) (d : TxDesc) : ownBit (txBytes own d) = own := by
  rw [ownBit, txBytes, (descWord_words _ _ _ _).2.1, topBit_top]

@[simp] theorem ownBit_rxBytes (own : Bool) (d : RxDesc) : ownBit (rxBytes own d) = own := by
  rw [ownBit, rxBytes, (descWord_words _ _ _ _).2.1, topBit_top]

@[simp] theorem txFields_txBytes (own : Bool) (d : TxDesc) : txFields (txBytes own d) = d := by
  obtain ⟨h0, h1, h2, h3⟩ := descWord_words d.length (topBit own d.statusRest) d.bufferAddress (topBit d.wrap d.ignored)
  rw [txFields, txBytes, h0, h1, h2, h3, topBit_top, topBit_rest, topBit_rest]

@[simp] theorem rxFields_rxBytes (own : Bool) (d : RxDesc) : rxFields (rxBytes own d) = d := by
  obtain ⟨h0, h1, h2, h3⟩ :=
    descWord_words d.receivedLength (topBit own d.statusRest) d.bufferAddress (topBit d.wrap d.bufferSize)
  rw [rxFields, rxBytes, h0, h1, h2, h3, topBit_top, topBit_rest, topBit_rest]

theorem txBytes_txFields (d : List Byte) (h : d.length = 16) : txBytes (ownBit d) (txFields d) = d := by
  simp only [txBytes, txFields, ownBit, topBit_split]
  exact words_descWord d h

theorem rxBytes_rxFields (d : List Byte) (h : d.length = 16) : rxBytes (ownBit d) (rxFields d) = d := by
  simp only [rxBytes, rxFields, ownBit, topBit_split]
  exact words_descWord d h

namespace Machine

/-! ### Byte-addressable fields -/

/-- Byte `j` of a field after a write at `k`: a data byte inside the written range, else as before (R157). -/
theorem getElem_writeField {m : Nat} : ∀ (data : List Byte) (f : Vector Byte m) (k j : Nat) (hj : j < m),
    (writeField f k data)[j] = if k ≤ j ∧ j < k + data.length then data.getD (j - k) 0 else f[j]
  | [], f, k, j, hj => by
    rw [writeField, if_neg (by simp)]
  | b :: data, f, k, j, hj => by
    rw [writeField, getElem_writeField data _ (k + 1) j hj, Vector.getElem_setIfInBounds]
    simp only [List.length_cons]
    by_cases h : k + 1 ≤ j ∧ j < k + 1 + data.length
    · rw [if_pos h, if_pos (by omega), show j - k = (j - (k + 1)) + 1 by omega, List.getD_cons_succ]
    · rw [if_neg h]
      by_cases hk : k = j
      · subst hk; simp
      · rw [if_neg hk, if_neg (by omega)]

/-- Byte `j` of a range read from a field (R158). -/
theorem getElem?_readField {m : Nat} (f : Vector Byte m) (k n j : Nat) (hj : j < n) (hm : k + j < m) :
    (readField f k n)[j]? = some f[k + j] := by
  simp [readField, hj, List.getElem?_drop, hm]

theorem length_readField {m : Nat} (f : Vector Byte m) (k n : Nat) (h : k + n ≤ m) : (readField f k n).length = n := by
  simp [readField]; omega

@[simp] theorem wordLanes_lanesWord (f : Vector Byte 4) : wordLanes (lanesWord f) = f := by
  have h := le32bytes_le32 [f[0], f[1], f[2], f[3]] rfl
  simp only [le32, le32At, le32bytes, List.getD_cons_succ, List.getD_cons_zero, List.cons.injEq, and_true,
    Nat.zero_add] at h
  obtain ⟨h0, h1, h2, h3⟩ := h
  apply Vector.ext
  intro j hj
  have : j = 0 ∨ j = 1 ∨ j = 2 ∨ j = 3 := by omega
  rcases this with rfl | rfl | rfl | rfl
  · simpa [wordLanes, lanesWord] using h0
  · simpa [wordLanes, lanesWord] using h1
  · simpa [wordLanes, lanesWord] using h2
  · simpa [wordLanes, lanesWord] using h3

@[simp] theorem lanesWord_wordLanes (v : Word) : lanesWord (wordLanes v) = v := le32_le32bytes v

/-- Byte lane `j` of a word after a write at `k` (R159). -/
theorem wordLanes_writeLanes (v : Word) (k : Nat) (data : List Byte) (j : Nat) (hj : j < 4) :
    (wordLanes (writeLanes v k data))[j] =
      if k ≤ j ∧ j < k + data.length then data.getD (j - k) 0 else (wordLanes v)[j] := by
  simp only [writeLanes, wordLanes_lanesWord, getElem_writeField]

/-! ### The PHY bank -/

theorem phyGet_eq (b : PhyBank) (p n : BitVec 5) : phyGet b p n = (b[p.toNat]'p.isLt)[n.toNat]'n.isLt := rfl

theorem toNat_ne {w : Nat} {x y : BitVec w} (h : x ≠ y) : y.toNat ≠ x.toNat := fun e => h (BitVec.eq_of_toNat_eq e.symm)

/-- Read after write in the PHY bank (R44, R192: "Writes to one PHY never change another PHY's registers"). -/
theorem phyGet_phySet (b : PhyBank) (p n : BitVec 5) (d : Half) (p' n' : BitVec 5) :
    phyGet (phySet b p n d) p' n' = if p' = p ∧ n' = n then d else phyGet b p' n' := by
  have h1 : (phySet b p n d)[p'.toNat]'p'.isLt =
      if p.toNat = p'.toNat then (b.get p.toFin).set n.toNat d n.isLt else b[p'.toNat]'p'.isLt :=
    Vector.getElem_set p.isLt p'.isLt
  by_cases hp : p' = p
  · subst hp
    rw [if_pos rfl] at h1
    rw [phyGet_eq, h1, Vector.getElem_set]
    by_cases hn : n' = n
    · subst hn; rw [if_pos rfl, if_pos ⟨rfl, rfl⟩]
    · rw [if_neg (toNat_ne hn), if_neg (fun h => hn h.2)]; rfl
  · rw [if_neg (toNat_ne hp)] at h1
    rw [phyGet_eq, h1, if_neg (fun h => hp h.1)]
    rfl

/-- The bank after a link change: the status register of every PHY, nothing else (R302). -/
theorem phyGet_bankLinked (up : Bool) (b : PhyBank) (p n : BitVec 5) :
    phyGet (bankLinked up b) p n = if n = phyStatusReg then statusLinked up (phyGet b p n) else phyGet b p n := by
  have h1 : (bankLinked up b)[p.toNat]'p.isLt = phyLinked up (b[p.toNat]'p.isLt) := by
    simp [bankLinked, Vector.getElem_mk]
  rw [phyGet_eq, h1, phyLinked, Vector.getElem_set]
  by_cases hn : n = phyStatusReg
  · subst hn; rw [if_pos rfl, if_pos rfl]; rfl
  · rw [if_neg (toNat_ne hn), if_neg hn]; rfl

/-- The bank after reset: every PHY holds the defaults (R196). -/
theorem phyGet_reset (c : Config) (p n : BitVec 5) :
    phyGet (State.resetWith c).phy p n = c.phyDefault.get n.toFin := by
  rw [phyGet_eq]
  simp only [State.resetWith, Vector.getElem_replicate]
  rfl

end Machine

end Sys2Proof
end

