-- ==== Sys2Proof/Laws/Decode.lean ====
section
/-! SUPPORT. Laws of the decoder of register accesses: the row an access decodes to, and the accesses each row admits. -/

namespace Sys2Proof

/-- An access inside the window whose selector matches a row decodes to that row, or to `BAD_ACCESS` if the row's size check
fails (R102). -/
theorem decodeAccess_window {a : Access} {w : Window} (ho : a.off < 0x80)
    (hw : findWindow (BitVec.ofNat 7 a.off) = some w) :
    decodeAccess a = if w.accepts a.off a.size then w.instr a else .badAccess a := by
  unfold decodeAccess mmioWindow
  rw [if_neg (by omega), hw]

/-- An access inside the window whose selector matches no row is `BAD_ACCESS` (R102). -/
theorem decodeAccess_none {a : Access} (ho : a.off < 0x80) (hw : findWindow (BitVec.ofNat 7 a.off) = none) :
    decodeAccess a = .badAccess a := by
  unfold decodeAccess mmioWindow
  rw [if_neg (by omega), hw]

/-- An access at `0x80` or above is undefined, of 1, 2 or 4 bytes (R74, R100). -/
theorem decodeAccess_outside {a : Access} (ho : 0x80 ≤ a.off) :
    decodeAccess a = if undefSize a.size then decodeOutside a else .badAccess a := by
  unfold decodeAccess mmioWindow
  rw [if_pos ho]

/-- A 4-byte write at a row that takes 4 bytes. -/
theorem decode_wordWrite {c : Config} {off : Nat} {w : Window} (v : Word) (ho : off < 0x80)
    (hw : findWindow (BitVec.ofNat 7 off) = some w) (h4 : w.accepts off 4 = true) :
    decode c (encWrite off (le32bytes v)) = .ok (w.writeInstr off (le32bytes v)) := by
  show Except.ok (decodeAccess (.write off (le32bytes v))) = _
  rw [decodeAccess_window (a := .write off (le32bytes v)) ho hw]
  exact congrArg Except.ok (if_pos h4)

/-- A 2-byte write at a row that takes 2 bytes. -/
theorem decode_halfWrite {c : Config} {off : Nat} {w : Window} (v : Half) (ho : off < 0x80)
    (hw : findWindow (BitVec.ofNat 7 off) = some w) (h2 : w.accepts off 2 = true) :
    decode c (encWrite off (le16bytes v)) = .ok (w.writeInstr off (le16bytes v)) := by
  show Except.ok (decodeAccess (.write off (le16bytes v))) = _
  rw [decodeAccess_window (a := .write off (le16bytes v)) ho hw]
  exact congrArg Except.ok (if_pos h2)

/-- Any write at a row that takes as many bytes. -/
theorem decode_write {c : Config} {off : Nat} {w : Window} {data : List Byte} (ho : off < 0x80)
    (hw : findWindow (BitVec.ofNat 7 off) = some w) (hn : w.accepts off data.length = true) :
    decode c (encWrite off data) = .ok (w.writeInstr off data) := by
  show Except.ok (decodeAccess (.write off data)) = _
  rw [decodeAccess_window (a := .write off data) ho hw]
  exact congrArg Except.ok (if_pos hn)

/-- Any read at a row that takes as many bytes. -/
theorem decode_read {c : Config} {off n : Nat} {w : Window} (ho : off < 0x80)
    (hw : findWindow (BitVec.ofNat 7 off) = some w) (hn : w.accepts off n = true) :
    decode c (encRead off n) = .ok (w.readInstr off n) := by
  show Except.ok (decodeAccess (.read off n)) = _
  rw [decodeAccess_window (a := .read off n) ho hw]
  exact congrArg Except.ok (if_pos hn)

/-- A write at a row that does not take as many bytes is `BAD_ACCESS` (R73, R169). -/
theorem decode_write_bad {c : Config} {off : Nat} {w : Window} {data : List Byte} (ho : off < 0x80)
    (hw : findWindow (BitVec.ofNat 7 off) = some w) (hn : w.accepts off data.length = false) :
    decode c (encWrite off data) = .ok (.badAccess (.write off data)) := by
  show Except.ok (decodeAccess (.write off data)) = _
  rw [decodeAccess_window (a := .write off data) ho hw, if_neg (by simpa [Access.size, Access.off] using hn)]

/-! ### Which offsets a row has (R102) -/

/-- The first offset of a row. -/
def rowLo : Window → Nat
  | .txcfg => 0x00
  | .txbase => 0x04
  | .rxcfg => 0x10
  | .rxbase => 0x14
  | .isr => 0x20
  | .imr => 0x24
  | .cfg0 => 0x28
  | .pwr => 0x30
  | .phycfg => 0x40
  | .phyctl => 0x44
  | .cfg1 => 0x50
  | .retry => 0x54
  | .mcctl => 0x60
  | .mac0Lo => 0x62
  | .mac0Hi => 0x64
  | .mchash0 => 0x68
  | .mchash1 => 0x6C
  | .maxpkt => 0x78
  | .mac1Lo => 0x7A
  | .mac1Hi => 0x7C
  | .undef08 => 0x08
  | .undef18 => 0x18
  | .undef2c => 0x2C
  | .undef34 => 0x34
  | .undef38 => 0x38
  | .undef48 => 0x48
  | .undef58 => 0x58
  | .undef70 => 0x70

/-- The last offset of a row. -/
def rowHi : Window → Nat
  | .mac0Lo => 0x63
  | .mac0Hi => 0x67
  | .mchash0 => 0x6B
  | .mchash1 => 0x6F
  | .mac1Lo => 0x7B
  | .mac1Hi => 0x7F
  | .undef08 => 0x0F
  | .undef18 => 0x1F
  | .undef2c => 0x2F
  | .undef34 => 0x37
  | .undef38 => 0x3F
  | .undef48 => 0x4F
  | .undef58 => 0x5F
  | .undef70 => 0x77
  | w => rowLo w

/-- A row matches the offsets of its range only. -/
theorem row_range {off : Nat} {w : Window} (ho : off < 0x80) (h : findWindow (BitVec.ofNat 7 off) = some w) : rowLo w ≤ off ∧ off ≤ rowHi w := by
  have key : ∀ k : Fin 128, (match findWindow (BitVec.ofNat 7 k.val) with | some w => decide (rowLo w ≤ k.val ∧ k.val ≤ rowHi w) | none => true) = true := by decide +kernel
  have := key ⟨off, ho⟩
  simp only [h] at this
  simpa using this

/-- A row is the first match of every offset of its range. -/
theorem row_find {off : Nat} {w : Window} (h : rowLo w ≤ off ∧ off ≤ rowHi w) : findWindow (BitVec.ofNat 7 off) = some w := by
  have hb : off < 0x80 := by cases w <;> simp [rowLo, rowHi] at h <;> omega
  have key : ∀ k : Fin 128, ∀ w ∈ windowRows.map (·.window), (rowLo w ≤ k.val ∧ k.val ≤ rowHi w) → findWindow (BitVec.ofNat 7 k.val) = some w := by decide +kernel
  exact key ⟨off, hb⟩ w (by cases w <;> decide) h

/-! ### The size checks are R73 -/

/-- The size check of an undefined row is R73 c. -/
theorem undefRange_iff {w : Window} {off n : Nat} (hw : undefEnd w ≠ 0) (h : rowLo w ≤ off ∧ off ≤ rowHi w) :
   (undefSize n && decide (off + n ≤ undefEnd w)) = undefinedRange off n := by
  have hb : off < 0x80 := by cases w <;> simp [rowLo, rowHi] at h <;> omega
  have key : ∀ w ∈ windowRows.map (·.window), ∀ k : Fin 128, (rowLo w ≤ k.val ∧ k.val ≤ rowHi w) → undefEnd w ≠ 0 →
     ∀ n ∈ [1,2,4], (undefSize n && decide (k.val + n ≤ undefEnd w)) = undefinedRange k.val n := by decide +kernel
  by_cases hn : n = 1 ∨ n = 2 ∨ n = 4
  · exact key w (by cases w <;> decide) ⟨off, hb⟩ h hw n (by rcases hn with rfl|rfl|rfl <;> simp)
  · have h1 : undefSize n = false := by simp [undefSize]; omega
    have h2 : (n == 1 || n == 2 || n == 4) = false := h1
    rw [undefinedRange, h1, h2]; rfl

/-- The size check of a row is R73. -/
theorem wf_row {w : Window} {off n : Nat} (hr : rowLo w ≤ off ∧ off ≤ rowHi w) : accessOk off n = w.accepts off n := by
  have ho : off < 0x80 := by cases w <;> simp [rowLo, rowHi] at hr <;> omega
  have key : ∀ w ∈ windowRows.map (·.window), ∀ k : Fin 128, (rowLo w ≤ k.val ∧ k.val ≤ rowHi w) → 
     ∀ n : Fin 10, accessOk k.val n.val = w.accepts k.val n.val := by decide +kernel
  by_cases hn : n < 10
  · exact key w (by cases w <;> decide) ⟨off, ho⟩ hr ⟨n, hn⟩
  · have h4 : (n == 4) = false := by simp; omega
    have h2 : (n == 2) = false := by simp; omega
    have hus : undefSize n = false := by simp [undefSize]; omega
    have hu : undefinedRange off n = false := by
      have : (n == 1 || n == 2 || n == 4) = false := hus
      rw [undefinedRange, this]; rfl
    have hbf : insideByteField off n = false := by
      simp [insideByteField, rangeInside]; omega
    rw [accessOk, hu, h4, h2, hbf]
    simp only [Bool.and_false, Bool.or_false]
    symm
    cases w <;> simp only [Window.accepts, h4, h2, hus, Bool.false_and] <;> (simp only [rowLo, rowHi] at hr; simp; omega)

/-- No access that matches no row is well-formed. -/
theorem none_row {off n : Nat} (ho : off < 0x80) (hw : findWindow (BitVec.ofNat 7 off) = none) : accessOk off n = false := by
  have key : ∀ k : Fin 128, findWindow (BitVec.ofNat 7 k.val) = none → wordOffset k.val = false ∧ halfOffset k.val = false ∧ undefinedOffset k.val = false ∧
     ¬ (0x62 ≤ k.val ∧ k.val < 0x70) ∧ ¬ (0x7A ≤ k.val ∧ k.val < 0x80) := by decide +kernel
  obtain ⟨h1, h2, h3, h4, h5⟩ := key ⟨off, ho⟩ hw
  simp only at h1 h2 h3 h4 h5
  have hub : undefinedRange off n = false := by
    by_contra hx
    simp only [undefinedRange, Bool.not_eq_false, Bool.and_eq_true, List.all_eq_true, List.mem_range] at hx
    have h0 : 0 < n := by simp at hx; omega
    have := hx.2 0 h0
    rw [Nat.add_zero, h3] at this; cases this
  rw [accessOk, h1, h2, hub, insideByteField]
  simp [rangeInside]
  omega

/-- Above the window an access is well-formed if it has 1, 2 or 4 bytes. -/
theorem high_row {off n : Nat} (ho : 0x80 ≤ off) : accessOk off n = undefSize n := by
  have hund : ∀ k, undefinedOffset (off + k) = true := by intro k; unfold undefinedOffset; rw [decide_eq_true (show mmioWindow ≤ off + k by show 128 ≤ _; omega), Bool.or_true]
  have hw0 : wordOffset off = false := by simp [wordOffset]; omega
  have hh0 : halfOffset off = false := by simp [halfOffset]; omega
  have hb0 : insideByteField off n = false := by simp [insideByteField, rangeInside]; omega
  have hu : undefinedRange off n = undefSize n := by
    unfold undefinedRange undefSize
    have : ((List.range n).all fun k => undefinedOffset (off + k)) = true := by simp [hund]
    rw [this, Bool.and_true]
  rw [accessOk, hw0, hh0, hb0, hu]; simp

end Sys2Proof
end

