-- ==== Sys2Proof/Laws/Memory.lean ====
section
/-! SUPPORT. Laws of guest memory: reading after writing, and the canonical form that every operation keeps. -/

namespace Sys2Proof.Machine

@[simp] theorem Memory.get_nil (x : Nat) : Memory.get [] x = 0 := rfl

theorem Memory.get_cons (x : Nat) (v : Byte) (m : Memory) (a : Nat) :
    Memory.get ((x, v) :: m) a = if a = x then v else Memory.get m a := rfl

/-- A memory whose addresses are all at least `lo` reads 0 below `lo`. -/
theorem Memory.get_below : ∀ (m : Memory) (lo a : Nat), m.wfFrom lo = true → a < lo → m.get a = 0
  | [], _, _, _, _ => rfl
  | (x, v) :: m, lo, a, h, ha => by
    simp only [Memory.wfFrom, Bool.and_eq_true, decide_eq_true_eq] at h
    rw [Memory.get_cons, if_neg (by omega)]
    exact Memory.get_below m (x + 1) a h.2 (by omega)

theorem Memory.wfFrom_mono {m : Memory} {lo lo' : Nat} (h : m.wfFrom lo' = true) (hle : lo ≤ lo') :
    m.wfFrom lo = true := by
  cases m with
  | nil => rfl
  | cons e m =>
    obtain ⟨x, v⟩ := e
    simp only [Memory.wfFrom, Bool.and_eq_true, decide_eq_true_eq] at h ⊢
    exact ⟨⟨⟨by omega, h.1.1.2⟩, h.1.2⟩, h.2⟩

theorem Memory.get_consEntry {m : Memory} {a : Nat} (b : Byte) (h : m.wfFrom (a + 1) = true) (x : Nat) :
    (Memory.cons a b m).get x = if x = a then b else m.get x := by
  unfold Memory.cons
  by_cases hb : b = 0
  · rw [if_pos hb]
    by_cases hx : x = a
    · rw [if_pos hx, hb, hx]; exact Memory.get_below m (a + 1) a h (by omega)
    · rw [if_neg hx]
  · rw [if_neg hb]; rfl

theorem Memory.wfFrom_consEntry {m : Memory} {lo a : Nat} (b : Byte) (hlo : lo ≤ a) (ha : a < 2 ^ 32)
    (h : m.wfFrom (a + 1) = true) : (Memory.cons a b m).wfFrom lo = true := by
  unfold Memory.cons
  by_cases hb : b = 0
  · rw [if_pos hb]; exact Memory.wfFrom_mono h (by omega)
  · rw [if_neg hb]
    simp only [Memory.wfFrom, Bool.and_eq_true, decide_eq_true_eq, bne_iff_ne]
    exact ⟨⟨⟨hlo, ha⟩, hb⟩, h⟩

/-- Read after write, in a memory whose addresses rise. -/
theorem Memory.get_set_from : ∀ (m : Memory) (lo a : Nat) (b : Byte) (x : Nat), m.wfFrom lo = true →
    (m.set a b).get x = if x = a then b else m.get x
  | [], _, a, b, x, _ => by
    simpa [Memory.set] using Memory.get_consEntry (m := []) (a := a) b rfl x
  | (y, v) :: m, lo, a, b, x, h => by
    have h' := h
    simp only [Memory.wfFrom, Bool.and_eq_true, decide_eq_true_eq] at h
    unfold Memory.set
    by_cases h1 : a < y
    · rw [if_pos h1]
      refine Memory.get_consEntry b ?_ x
      simp only [Memory.wfFrom, Bool.and_eq_true, decide_eq_true_eq]
      exact ⟨⟨⟨by omega, h.1.1.2⟩, h.1.2⟩, h.2⟩
    · rw [if_neg h1]
      by_cases h2 : a = y
      · subst h2
        rw [if_pos rfl, Memory.get_consEntry b h.2 x, Memory.get_cons]
        by_cases hx : x = a <;> simp [hx]
      · rw [if_neg h2, Memory.get_cons, Memory.get_set_from m (y + 1) a b x h.2, Memory.get_cons]
        by_cases hx : x = y
        · subst hx; simp [Ne.symm h2]
        · simp [hx]

/-- A write keeps the canonical form. -/
theorem Memory.wfFrom_set : ∀ (m : Memory) (lo a : Nat) (b : Byte), m.wfFrom lo = true → lo ≤ a → a < 2 ^ 32 →
    (m.set a b).wfFrom lo = true
  | [], lo, a, b, _, hlo, ha => Memory.wfFrom_consEntry b hlo ha rfl
  | (y, v) :: m, lo, a, b, h, hlo, ha => by
    simp only [Memory.wfFrom, Bool.and_eq_true, decide_eq_true_eq] at h
    unfold Memory.set
    by_cases h1 : a < y
    · rw [if_pos h1]
      refine Memory.wfFrom_consEntry b hlo ha ?_
      simp only [Memory.wfFrom, Bool.and_eq_true, decide_eq_true_eq]
      exact ⟨⟨⟨by omega, h.1.1.2⟩, h.1.2⟩, h.2⟩
    · rw [if_neg h1]
      by_cases h2 : a = y
      · subst h2
        rw [if_pos rfl]
        exact Memory.wfFrom_consEntry b hlo ha h.2
      · rw [if_neg h2]
        simp only [Memory.wfFrom, Bool.and_eq_true, decide_eq_true_eq]
        exact ⟨h.1, Memory.wfFrom_set m (y + 1) a b h.2 (by omega) ha⟩

/-- Read after write of one byte. -/
theorem Memory.get_set {m : Memory} (h : m.wf = true) (a : Nat) (b : Byte) (x : Nat) :
    (m.set a b).get x = if x = a then b else m.get x := Memory.get_set_from m 0 a b x h

theorem Memory.wf_set {m : Memory} (h : m.wf = true) (a : Word) (b : Byte) : (m.set a.toNat b).wf = true :=
  Memory.wfFrom_set m 0 a.toNat b h (Nat.zero_le _) a.isLt

/-- A store of bytes keeps the canonical form. -/
theorem Memory.wf_setBytes : ∀ (b : List Byte) (m : Memory) (a : Word), m.wf = true → (m.setBytes a b).wf = true
  | [], _, _, h => h
  | x :: b, m, a, h => Memory.wf_setBytes b (m.set a.toNat x) (a + 1) (Memory.wf_set h a x)

/-- Guest accesses keep the canonical form. -/
theorem Memory.wf_guestOps : ∀ (gs : List GuestOp) (m : Memory), m.wf = true → (m.guestOps gs).wf = true
  | [], _, h => h
  | .store a b :: gs, m, h => Memory.wf_guestOps gs (m.setBytes a b) (Memory.wf_setBytes b m a h)
  | .load _ _ :: gs, m, h => Memory.wf_guestOps gs m h

theorem Memory.wf_setPhase : ∀ (b : List Byte) (m : Memory) (a : Word) (i : Nat) (last : Bool) (seen : List Nat), m.wf = true →
    (m.setPhase a i last seen b).wf = true
  | [], m, _, _, _, seen, h => by cases seen <;> exact h
  | v :: b, m, a, i, last, seen, h => by
    rw [Memory.setPhase]
    refine Memory.wf_setPhase b _ _ _ _ _ ?_
    split
    · exact Memory.wf_set h a v
    · exact h

/-- A payload write keeps the canonical form, whatever guest accesses fall into it. -/
theorem wf_storeDuring (a : Word) (b : List Byte) (seen : List Nat) : ∀ (gs : List GuestOp) (s : State) (i : Nat),
    s.mem.wf = true → (s.storeDuring a b seen i gs).mem.wf = true
  | [], _, _, h => Memory.wf_setPhase b _ _ _ _ _ h
  | .store _ d :: gs, _, _, h =>
    wf_storeDuring a b seen gs _ _ (Memory.wf_setBytes d _ _ (Memory.wf_setPhase b _ _ _ _ _ h))
  | .load _ _ :: gs, _, _, h => wf_storeDuring a b seen gs _ _ (Memory.wf_setPhase b _ _ _ _ _ h)

theorem Memory.wf_reset (c : Config) : (State.resetWith c).mem.wf = true := rfl

theorem storedByte_nil (a : Word) (x : Nat) : storedByte a [] x = none := by simp [storedByte]

/-- Where the bytes after the first of a store go. -/
theorem storedByte_cons (a : Word) (v : Byte) (b : List Byte) (x : Nat) :
    storedByte a (v :: b) x = if x = a.toNat then some v else storedByte (a + 1) b x := by
  unfold storedByte
  by_cases hx : x < 2 ^ 32
  · simp only [if_pos hx]
    by_cases he : x = a.toNat
    · subst he; simp
    · rw [if_neg he]
      have hne : (BitVec.ofNat 32 x - a).toNat = (BitVec.ofNat 32 x - (a + 1)).toNat + 1 := by
        have := a.isLt
        bv_omega
      rw [hne]; rfl
  · have hne : x ≠ a.toNat := by have := a.isLt; omega
    rw [if_neg hx, if_neg hne, if_neg hx]

/-- Memory after a store, byte by byte. -/
theorem Memory.get_setBytes : ∀ (b : List Byte) (m : Memory) (a : Word) (x : Nat), m.wf = true → b.length < 2 ^ 32 →
    (m.setBytes a b).get x = (storedByte a b x).getD (m.get x)
  | [], _, _, _, _, _ => by simp [Memory.setBytes, storedByte_nil]
  | v :: b, m, a, x, h, hb => by
    have hb' : b.length < 2 ^ 32 := by simp at hb; omega
    have hin : x = a.toNat → storedByte (a + 1) b x = none := by
      intro hx
      unfold storedByte
      have hlt : x < 2 ^ 32 := by have := a.isLt; omega
      rw [if_pos hlt, List.getElem?_eq_none_iff]
      have h1 : (BitVec.ofNat 32 x - (a + 1)).toNat = 2 ^ 32 - 1 := by
        subst hx; bv_omega
      simp at hb
      omega
    rw [Memory.setBytes, Memory.get_setBytes b _ (a + 1) x (Memory.wf_set h a v) hb', Memory.get_set h,
      storedByte_cons a v b x]
    by_cases hx : x = a.toNat
    · rw [hin hx, if_pos hx, if_pos hx]; rfl
    · rw [if_neg hx, if_neg hx]

@[simp] theorem Memory.length_getBytes (m : Memory) : ∀ (n : Nat) (a : Word), (m.getBytes a n).length = n
  | 0, _ => rfl
  | n + 1, a => by rw [Memory.getBytes, List.length_cons, Memory.length_getBytes m n (a + 1)]

/-- Byte `j` of what a read returns. -/
theorem Memory.getElem?_getBytes (m : Memory) : ∀ (n : Nat) (a : Word) (j : Nat), j < n →
    (m.getBytes a n)[j]? = some (m.get (a + BitVec.ofNat 32 j).toNat)
  | 0, _, _, h => absurd h (Nat.not_lt_zero _)
  | n + 1, a, 0, _ => by simp [Memory.getBytes]
  | n + 1, a, j + 1, h => by
    rw [Memory.getBytes, List.getElem?_cons_succ, Memory.getElem?_getBytes m n (a + 1) j (by omega)]
    congr 3
    bv_omega

/-- Two memories that agree on the bytes read give the same bytes. -/
theorem Memory.getBytes_congr {m m' : Memory} (n : Nat) (a : Word)
    (h : ∀ j, j < n → m.get (a + BitVec.ofNat 32 j).toNat = m'.get (a + BitVec.ofNat 32 j).toNat) :
    m.getBytes a n = m'.getBytes a n := by
  apply List.ext_getElem?
  intro j
  by_cases hj : j < n
  · rw [Memory.getElem?_getBytes m n a j hj, Memory.getElem?_getBytes m' n a j hj, h j hj]
  · rw [List.getElem?_eq_none (by simp; omega), List.getElem?_eq_none (by simp; omega)]

end Sys2Proof.Machine
end

