-- ==== Sys2Proof/Laws/State.lean ====
section
/-! SUPPORT. One lemma per field per update of the state: the field's value if the update writes it, else that it stays. -/

namespace Sys2Proof.Machine

/-! ### `State.log` -/

@[simp] theorem log_txcfg (s : State) (e : Event) : (s.log e).txcfg = s.txcfg := rfl
@[simp] theorem log_txbase0 (s : State) (e : Event) : (s.log e).txbase0 = s.txbase0 := rfl
@[simp] theorem log_txbase1 (s : State) (e : Event) : (s.log e).txbase1 = s.txbase1 := rfl
@[simp] theorem log_rxcfg (s : State) (e : Event) : (s.log e).rxcfg = s.rxcfg := rfl
@[simp] theorem log_rxbase (s : State) (e : Event) : (s.log e).rxbase = s.rxbase := rfl
@[simp] theorem log_isr (s : State) (e : Event) : (s.log e).isr = s.isr := rfl
@[simp] theorem log_imr (s : State) (e : Event) : (s.log e).imr = s.imr := rfl
@[simp] theorem log_cfg0 (s : State) (e : Event) : (s.log e).cfg0 = s.cfg0 := rfl
@[simp] theorem log_pwr (s : State) (e : Event) : (s.log e).pwr = s.pwr := rfl
@[simp] theorem log_phycfg (s : State) (e : Event) : (s.log e).phycfg = s.phycfg := rfl
@[simp] theorem log_phyctl (s : State) (e : Event) : (s.log e).phyctl = s.phyctl := rfl
@[simp] theorem log_cfg1 (s : State) (e : Event) : (s.log e).cfg1 = s.cfg1 := rfl
@[simp] theorem log_retry (s : State) (e : Event) : (s.log e).retry = s.retry := rfl
@[simp] theorem log_mcctl (s : State) (e : Event) : (s.log e).mcctl = s.mcctl := rfl
@[simp] theorem log_mac0 (s : State) (e : Event) : (s.log e).mac0 = s.mac0 := rfl
@[simp] theorem log_mchash0 (s : State) (e : Event) : (s.log e).mchash0 = s.mchash0 := rfl
@[simp] theorem log_mchash1 (s : State) (e : Event) : (s.log e).mchash1 = s.mchash1 := rfl
@[simp] theorem log_maxpkt (s : State) (e : Event) : (s.log e).maxpkt = s.maxpkt := rfl
@[simp] theorem log_mac1 (s : State) (e : Event) : (s.log e).mac1 = s.mac1 := rfl
@[simp] theorem log_txArmed0 (s : State) (e : Event) : (s.log e).txArmed0 = s.txArmed0 := rfl
@[simp] theorem log_txArmed1 (s : State) (e : Event) : (s.log e).txArmed1 = s.txArmed1 := rfl
@[simp] theorem log_rxArmed (s : State) (e : Event) : (s.log e).rxArmed = s.rxArmed := rfl
@[simp] theorem log_txHead0 (s : State) (e : Event) : (s.log e).txHead0 = s.txHead0 := rfl
@[simp] theorem log_txHead1 (s : State) (e : Event) : (s.log e).txHead1 = s.txHead1 := rfl
@[simp] theorem log_rxHead (s : State) (e : Event) : (s.log e).rxHead = s.rxHead := rfl
@[simp] theorem log_pass (s : State) (e : Event) : (s.log e).pass = s.pass := rfl
@[simp] theorem log_nextRing (s : State) (e : Event) : (s.log e).nextRing = s.nextRing := rfl
@[simp] theorem log_txQueue (s : State) (e : Event) : (s.log e).txQueue = s.txQueue := rfl
@[simp] theorem log_rxQueue (s : State) (e : Event) : (s.log e).rxQueue = s.rxQueue := rfl
@[simp] theorem log_txErrCount (s : State) (e : Event) : (s.log e).txErrCount = s.txErrCount := rfl
@[simp] theorem log_rxErrCount (s : State) (e : Event) : (s.log e).rxErrCount = s.rxErrCount := rfl
@[simp] theorem log_rxOverrunCount (s : State) (e : Event) : (s.log e).rxOverrunCount = s.rxOverrunCount := rfl
@[simp] theorem log_txDropCount (s : State) (e : Event) : (s.log e).txDropCount = s.txDropCount := rfl
@[simp] theorem log_rxDropCount (s : State) (e : Event) : (s.log e).rxDropCount = s.rxDropCount := rfl
@[simp] theorem log_txSendFailCount (s : State) (e : Event) : (s.log e).txSendFailCount = s.txSendFailCount := rfl
@[simp] theorem log_phy (s : State) (e : Event) : (s.log e).phy = s.phy := rfl
@[simp] theorem log_linkUp (s : State) (e : Event) : (s.log e).linkUp = s.linkUp := rfl
@[simp] theorem log_shutdown (s : State) (e : Event) : (s.log e).shutdown = s.shutdown := rfl
@[simp] theorem log_cfg (s : State) (e : Event) : (s.log e).cfg = s.cfg := rfl
@[simp] theorem log_mem (s : State) (e : Event) : (s.log e).mem = s.mem := rfl
@[simp] theorem log_schedule (s : State) (e : Event) : (s.log e).schedule = s.schedule := rfl
@[simp] theorem log_race (s : State) (e : Event) : (s.log e).race = s.race := rfl
@[simp] theorem log_history (s : State) (e : Event) : (s.log e).history = e :: s.history := rfl

/-! ### `State.latchPhyctl` -/

@[simp] theorem latchPhyctl_txcfg (s : State) (v : Word) : (s.latchPhyctl v).txcfg = s.txcfg := rfl
@[simp] theorem latchPhyctl_txbase0 (s : State) (v : Word) : (s.latchPhyctl v).txbase0 = s.txbase0 := rfl
@[simp] theorem latchPhyctl_txbase1 (s : State) (v : Word) : (s.latchPhyctl v).txbase1 = s.txbase1 := rfl
@[simp] theorem latchPhyctl_rxcfg (s : State) (v : Word) : (s.latchPhyctl v).rxcfg = s.rxcfg := rfl
@[simp] theorem latchPhyctl_rxbase (s : State) (v : Word) : (s.latchPhyctl v).rxbase = s.rxbase := rfl
@[simp] theorem latchPhyctl_isr (s : State) (v : Word) : (s.latchPhyctl v).isr = s.isr := rfl
@[simp] theorem latchPhyctl_imr (s : State) (v : Word) : (s.latchPhyctl v).imr = s.imr := rfl
@[simp] theorem latchPhyctl_cfg0 (s : State) (v : Word) : (s.latchPhyctl v).cfg0 = s.cfg0 := rfl
@[simp] theorem latchPhyctl_pwr (s : State) (v : Word) : (s.latchPhyctl v).pwr = s.pwr := rfl
@[simp] theorem latchPhyctl_phycfg (s : State) (v : Word) : (s.latchPhyctl v).phycfg = s.phycfg := rfl
@[simp] theorem latchPhyctl_phyctl (s : State) (v : Word) : (s.latchPhyctl v).phyctl = v := rfl
@[simp] theorem latchPhyctl_cfg1 (s : State) (v : Word) : (s.latchPhyctl v).cfg1 = s.cfg1 := rfl
@[simp] theorem latchPhyctl_retry (s : State) (v : Word) : (s.latchPhyctl v).retry = s.retry := rfl
@[simp] theorem latchPhyctl_mcctl (s : State) (v : Word) : (s.latchPhyctl v).mcctl = s.mcctl := rfl
@[simp] theorem latchPhyctl_mac0 (s : State) (v : Word) : (s.latchPhyctl v).mac0 = s.mac0 := rfl
@[simp] theorem latchPhyctl_mchash0 (s : State) (v : Word) : (s.latchPhyctl v).mchash0 = s.mchash0 := rfl
@[simp] theorem latchPhyctl_mchash1 (s : State) (v : Word) : (s.latchPhyctl v).mchash1 = s.mchash1 := rfl
@[simp] theorem latchPhyctl_maxpkt (s : State) (v : Word) : (s.latchPhyctl v).maxpkt = s.maxpkt := rfl
@[simp] theorem latchPhyctl_mac1 (s : State) (v : Word) : (s.latchPhyctl v).mac1 = s.mac1 := rfl
@[simp] theorem latchPhyctl_txArmed0 (s : State) (v : Word) : (s.latchPhyctl v).txArmed0 = s.txArmed0 := rfl
@[simp] theorem latchPhyctl_txArmed1 (s : State) (v : Word) : (s.latchPhyctl v).txArmed1 = s.txArmed1 := rfl
@[simp] theorem latchPhyctl_rxArmed (s : State) (v : Word) : (s.latchPhyctl v).rxArmed = s.rxArmed := rfl
@[simp] theorem latchPhyctl_txHead0 (s : State) (v : Word) : (s.latchPhyctl v).txHead0 = s.txHead0 := rfl
@[simp] theorem latchPhyctl_txHead1 (s : State) (v : Word) : (s.latchPhyctl v).txHead1 = s.txHead1 := rfl
@[simp] theorem latchPhyctl_rxHead (s : State) (v : Word) : (s.latchPhyctl v).rxHead = s.rxHead := rfl
@[simp] theorem latchPhyctl_pass (s : State) (v : Word) : (s.latchPhyctl v).pass = s.pass := rfl
@[simp] theorem latchPhyctl_nextRing (s : State) (v : Word) : (s.latchPhyctl v).nextRing = s.nextRing := rfl
@[simp] theorem latchPhyctl_txQueue (s : State) (v : Word) : (s.latchPhyctl v).txQueue = s.txQueue := rfl
@[simp] theorem latchPhyctl_rxQueue (s : State) (v : Word) : (s.latchPhyctl v).rxQueue = s.rxQueue := rfl
@[simp] theorem latchPhyctl_txErrCount (s : State) (v : Word) : (s.latchPhyctl v).txErrCount = s.txErrCount := rfl
@[simp] theorem latchPhyctl_rxErrCount (s : State) (v : Word) : (s.latchPhyctl v).rxErrCount = s.rxErrCount := rfl
@[simp] theorem latchPhyctl_rxOverrunCount (s : State) (v : Word) : (s.latchPhyctl v).rxOverrunCount = s.rxOverrunCount := rfl
@[simp] theorem latchPhyctl_txDropCount (s : State) (v : Word) : (s.latchPhyctl v).txDropCount = s.txDropCount := rfl
@[simp] theorem latchPhyctl_rxDropCount (s : State) (v : Word) : (s.latchPhyctl v).rxDropCount = s.rxDropCount := rfl
@[simp] theorem latchPhyctl_txSendFailCount (s : State) (v : Word) : (s.latchPhyctl v).txSendFailCount = s.txSendFailCount := rfl
@[simp] theorem latchPhyctl_phy (s : State) (v : Word) : (s.latchPhyctl v).phy = s.phy := rfl
@[simp] theorem latchPhyctl_linkUp (s : State) (v : Word) : (s.latchPhyctl v).linkUp = s.linkUp := rfl
@[simp] theorem latchPhyctl_shutdown (s : State) (v : Word) : (s.latchPhyctl v).shutdown = s.shutdown := rfl
@[simp] theorem latchPhyctl_cfg (s : State) (v : Word) : (s.latchPhyctl v).cfg = s.cfg := rfl
@[simp] theorem latchPhyctl_mem (s : State) (v : Word) : (s.latchPhyctl v).mem = s.mem := rfl
@[simp] theorem latchPhyctl_schedule (s : State) (v : Word) : (s.latchPhyctl v).schedule = s.schedule := rfl
@[simp] theorem latchPhyctl_race (s : State) (v : Word) : (s.latchPhyctl v).race = s.race := rfl
@[simp] theorem latchPhyctl_history (s : State) (v : Word) : (s.latchPhyctl v).history = s.history := rfl

/-! ### `State.setPhy` -/

@[simp] theorem setPhy_txcfg (s : State) (p n : BitVec 5) (d : Half) : (s.setPhy p n d).txcfg = s.txcfg := rfl
@[simp] theorem setPhy_txbase0 (s : State) (p n : BitVec 5) (d : Half) : (s.setPhy p n d).txbase0 = s.txbase0 := rfl
@[simp] theorem setPhy_txbase1 (s : State) (p n : BitVec 5) (d : Half) : (s.setPhy p n d).txbase1 = s.txbase1 := rfl
@[simp] theorem setPhy_rxcfg (s : State) (p n : BitVec 5) (d : Half) : (s.setPhy p n d).rxcfg = s.rxcfg := rfl
@[simp] theorem setPhy_rxbase (s : State) (p n : BitVec 5) (d : Half) : (s.setPhy p n d).rxbase = s.rxbase := rfl
@[simp] theorem setPhy_isr (s : State) (p n : BitVec 5) (d : Half) : (s.setPhy p n d).isr = s.isr := rfl
@[simp] theorem setPhy_imr (s : State) (p n : BitVec 5) (d : Half) : (s.setPhy p n d).imr = s.imr := rfl
@[simp] theorem setPhy_cfg0 (s : State) (p n : BitVec 5) (d : Half) : (s.setPhy p n d).cfg0 = s.cfg0 := rfl
@[simp] theorem setPhy_pwr (s : State) (p n : BitVec 5) (d : Half) : (s.setPhy p n d).pwr = s.pwr := rfl
@[simp] theorem setPhy_phycfg (s : State) (p n : BitVec 5) (d : Half) : (s.setPhy p n d).phycfg = s.phycfg := rfl
@[simp] theorem setPhy_phyctl (s : State) (p n : BitVec 5) (d : Half) : (s.setPhy p n d).phyctl = s.phyctl := rfl
@[simp] theorem setPhy_cfg1 (s : State) (p n : BitVec 5) (d : Half) : (s.setPhy p n d).cfg1 = s.cfg1 := rfl
@[simp] theorem setPhy_retry (s : State) (p n : BitVec 5) (d : Half) : (s.setPhy p n d).retry = s.retry := rfl
@[simp] theorem setPhy_mcctl (s : State) (p n : BitVec 5) (d : Half) : (s.setPhy p n d).mcctl = s.mcctl := rfl
@[simp] theorem setPhy_mac0 (s : State) (p n : BitVec 5) (d : Half) : (s.setPhy p n d).mac0 = s.mac0 := rfl
@[simp] theorem setPhy_mchash0 (s : State) (p n : BitVec 5) (d : Half) : (s.setPhy p n d).mchash0 = s.mchash0 := rfl
@[simp] theorem setPhy_mchash1 (s : State) (p n : BitVec 5) (d : Half) : (s.setPhy p n d).mchash1 = s.mchash1 := rfl
@[simp] theorem setPhy_maxpkt (s : State) (p n : BitVec 5) (d : Half) : (s.setPhy p n d).maxpkt = s.maxpkt := rfl
@[simp] theorem setPhy_mac1 (s : State) (p n : BitVec 5) (d : Half) : (s.setPhy p n d).mac1 = s.mac1 := rfl
@[simp] theorem setPhy_txArmed0 (s : State) (p n : BitVec 5) (d : Half) : (s.setPhy p n d).txArmed0 = s.txArmed0 := rfl
@[simp] theorem setPhy_txArmed1 (s : State) (p n : BitVec 5) (d : Half) : (s.setPhy p n d).txArmed1 = s.txArmed1 := rfl
@[simp] theorem setPhy_rxArmed (s : State) (p n : BitVec 5) (d : Half) : (s.setPhy p n d).rxArmed = s.rxArmed := rfl
@[simp] theorem setPhy_txHead0 (s : State) (p n : BitVec 5) (d : Half) : (s.setPhy p n d).txHead0 = s.txHead0 := rfl
@[simp] theorem setPhy_txHead1 (s : State) (p n : BitVec 5) (d : Half) : (s.setPhy p n d).txHead1 = s.txHead1 := rfl
@[simp] theorem setPhy_rxHead (s : State) (p n : BitVec 5) (d : Half) : (s.setPhy p n d).rxHead = s.rxHead := rfl
@[simp] theorem setPhy_pass (s : State) (p n : BitVec 5) (d : Half) : (s.setPhy p n d).pass = s.pass := rfl
@[simp] theorem setPhy_nextRing (s : State) (p n : BitVec 5) (d : Half) : (s.setPhy p n d).nextRing = s.nextRing := rfl
@[simp] theorem setPhy_txQueue (s : State) (p n : BitVec 5) (d : Half) : (s.setPhy p n d).txQueue = s.txQueue := rfl
@[simp] theorem setPhy_rxQueue (s : State) (p n : BitVec 5) (d : Half) : (s.setPhy p n d).rxQueue = s.rxQueue := rfl
@[simp] theorem setPhy_txErrCount (s : State) (p n : BitVec 5) (d : Half) : (s.setPhy p n d).txErrCount = s.txErrCount := rfl
@[simp] theorem setPhy_rxErrCount (s : State) (p n : BitVec 5) (d : Half) : (s.setPhy p n d).rxErrCount = s.rxErrCount := rfl
@[simp] theorem setPhy_rxOverrunCount (s : State) (p n : BitVec 5) (d : Half) : (s.setPhy p n d).rxOverrunCount = s.rxOverrunCount := rfl
@[simp] theorem setPhy_txDropCount (s : State) (p n : BitVec 5) (d : Half) : (s.setPhy p n d).txDropCount = s.txDropCount := rfl
@[simp] theorem setPhy_rxDropCount (s : State) (p n : BitVec 5) (d : Half) : (s.setPhy p n d).rxDropCount = s.rxDropCount := rfl
@[simp] theorem setPhy_txSendFailCount (s : State) (p n : BitVec 5) (d : Half) : (s.setPhy p n d).txSendFailCount = s.txSendFailCount := rfl
@[simp] theorem setPhy_phy (s : State) (p n : BitVec 5) (d : Half) : (s.setPhy p n d).phy = phySet s.phy p n d := rfl
@[simp] theorem setPhy_linkUp (s : State) (p n : BitVec 5) (d : Half) : (s.setPhy p n d).linkUp = s.linkUp := rfl
@[simp] theorem setPhy_shutdown (s : State) (p n : BitVec 5) (d : Half) : (s.setPhy p n d).shutdown = s.shutdown := rfl
@[simp] theorem setPhy_cfg (s : State) (p n : BitVec 5) (d : Half) : (s.setPhy p n d).cfg = s.cfg := rfl
@[simp] theorem setPhy_mem (s : State) (p n : BitVec 5) (d : Half) : (s.setPhy p n d).mem = s.mem := rfl
@[simp] theorem setPhy_schedule (s : State) (p n : BitVec 5) (d : Half) : (s.setPhy p n d).schedule = s.schedule := rfl
@[simp] theorem setPhy_race (s : State) (p n : BitVec 5) (d : Half) : (s.setPhy p n d).race = s.race := rfl
@[simp] theorem setPhy_history (s : State) (p n : BitVec 5) (d : Half) : (s.setPhy p n d).history = s.history := rfl

/-! ### `State.acknowledge` -/

@[simp] theorem acknowledge_txcfg (s : State) (v : Word) : (s.acknowledge v).txcfg = s.txcfg := rfl
@[simp] theorem acknowledge_txbase0 (s : State) (v : Word) : (s.acknowledge v).txbase0 = s.txbase0 := rfl
@[simp] theorem acknowledge_txbase1 (s : State) (v : Word) : (s.acknowledge v).txbase1 = s.txbase1 := rfl
@[simp] theorem acknowledge_rxcfg (s : State) (v : Word) : (s.acknowledge v).rxcfg = s.rxcfg := rfl
@[simp] theorem acknowledge_rxbase (s : State) (v : Word) : (s.acknowledge v).rxbase = s.rxbase := rfl
@[simp] theorem acknowledge_isr (s : State) (v : Word) : (s.acknowledge v).isr = isrAcknowledged s.isr v := rfl
@[simp] theorem acknowledge_imr (s : State) (v : Word) : (s.acknowledge v).imr = s.imr := rfl
@[simp] theorem acknowledge_cfg0 (s : State) (v : Word) : (s.acknowledge v).cfg0 = s.cfg0 := rfl
@[simp] theorem acknowledge_pwr (s : State) (v : Word) : (s.acknowledge v).pwr = s.pwr := rfl
@[simp] theorem acknowledge_phycfg (s : State) (v : Word) : (s.acknowledge v).phycfg = s.phycfg := rfl
@[simp] theorem acknowledge_phyctl (s : State) (v : Word) : (s.acknowledge v).phyctl = s.phyctl := rfl
@[simp] theorem acknowledge_cfg1 (s : State) (v : Word) : (s.acknowledge v).cfg1 = s.cfg1 := rfl
@[simp] theorem acknowledge_retry (s : State) (v : Word) : (s.acknowledge v).retry = s.retry := rfl
@[simp] theorem acknowledge_mcctl (s : State) (v : Word) : (s.acknowledge v).mcctl = s.mcctl := rfl
@[simp] theorem acknowledge_mac0 (s : State) (v : Word) : (s.acknowledge v).mac0 = s.mac0 := rfl
@[simp] theorem acknowledge_mchash0 (s : State) (v : Word) : (s.acknowledge v).mchash0 = s.mchash0 := rfl
@[simp] theorem acknowledge_mchash1 (s : State) (v : Word) : (s.acknowledge v).mchash1 = s.mchash1 := rfl
@[simp] theorem acknowledge_maxpkt (s : State) (v : Word) : (s.acknowledge v).maxpkt = s.maxpkt := rfl
@[simp] theorem acknowledge_mac1 (s : State) (v : Word) : (s.acknowledge v).mac1 = s.mac1 := rfl
@[simp] theorem acknowledge_txArmed0 (s : State) (v : Word) : (s.acknowledge v).txArmed0 = s.txArmed0 := rfl
@[simp] theorem acknowledge_txArmed1 (s : State) (v : Word) : (s.acknowledge v).txArmed1 = s.txArmed1 := rfl
@[simp] theorem acknowledge_rxArmed (s : State) (v : Word) : (s.acknowledge v).rxArmed = s.rxArmed := rfl
@[simp] theorem acknowledge_txHead0 (s : State) (v : Word) : (s.acknowledge v).txHead0 = s.txHead0 := rfl
@[simp] theorem acknowledge_txHead1 (s : State) (v : Word) : (s.acknowledge v).txHead1 = s.txHead1 := rfl
@[simp] theorem acknowledge_rxHead (s : State) (v : Word) : (s.acknowledge v).rxHead = s.rxHead := rfl
@[simp] theorem acknowledge_pass (s : State) (v : Word) : (s.acknowledge v).pass = s.pass := rfl
@[simp] theorem acknowledge_nextRing (s : State) (v : Word) : (s.acknowledge v).nextRing = s.nextRing := rfl
@[simp] theorem acknowledge_txQueue (s : State) (v : Word) : (s.acknowledge v).txQueue = s.txQueue := rfl
@[simp] theorem acknowledge_rxQueue (s : State) (v : Word) : (s.acknowledge v).rxQueue = s.rxQueue := rfl
@[simp] theorem acknowledge_txErrCount (s : State) (v : Word) : (s.acknowledge v).txErrCount = s.txErrCount := rfl
@[simp] theorem acknowledge_rxErrCount (s : State) (v : Word) : (s.acknowledge v).rxErrCount = s.rxErrCount := rfl
@[simp] theorem acknowledge_rxOverrunCount (s : State) (v : Word) : (s.acknowledge v).rxOverrunCount = s.rxOverrunCount := rfl
@[simp] theorem acknowledge_txDropCount (s : State) (v : Word) : (s.acknowledge v).txDropCount = s.txDropCount := rfl
@[simp] theorem acknowledge_rxDropCount (s : State) (v : Word) : (s.acknowledge v).rxDropCount = s.rxDropCount := rfl
@[simp] theorem acknowledge_txSendFailCount (s : State) (v : Word) : (s.acknowledge v).txSendFailCount = s.txSendFailCount := rfl
@[simp] theorem acknowledge_phy (s : State) (v : Word) : (s.acknowledge v).phy = s.phy := rfl
@[simp] theorem acknowledge_linkUp (s : State) (v : Word) : (s.acknowledge v).linkUp = s.linkUp := rfl
@[simp] theorem acknowledge_shutdown (s : State) (v : Word) : (s.acknowledge v).shutdown = s.shutdown := rfl
@[simp] theorem acknowledge_cfg (s : State) (v : Word) : (s.acknowledge v).cfg = s.cfg := rfl
@[simp] theorem acknowledge_mem (s : State) (v : Word) : (s.acknowledge v).mem = s.mem := rfl
@[simp] theorem acknowledge_schedule (s : State) (v : Word) : (s.acknowledge v).schedule = s.schedule := rfl
@[simp] theorem acknowledge_race (s : State) (v : Word) : (s.acknowledge v).race = s.race := rfl
@[simp] theorem acknowledge_history (s : State) (v : Word) : (s.acknowledge v).history = s.history := rfl

/-! ### `State.dequeueRx` -/

@[simp] theorem dequeueRx_txcfg (s : State) : s.dequeueRx.txcfg = s.txcfg := rfl
@[simp] theorem dequeueRx_txbase0 (s : State) : s.dequeueRx.txbase0 = s.txbase0 := rfl
@[simp] theorem dequeueRx_txbase1 (s : State) : s.dequeueRx.txbase1 = s.txbase1 := rfl
@[simp] theorem dequeueRx_rxcfg (s : State) : s.dequeueRx.rxcfg = s.rxcfg := rfl
@[simp] theorem dequeueRx_rxbase (s : State) : s.dequeueRx.rxbase = s.rxbase := rfl
@[simp] theorem dequeueRx_isr (s : State) : s.dequeueRx.isr = s.isr := rfl
@[simp] theorem dequeueRx_imr (s : State) : s.dequeueRx.imr = s.imr := rfl
@[simp] theorem dequeueRx_cfg0 (s : State) : s.dequeueRx.cfg0 = s.cfg0 := rfl
@[simp] theorem dequeueRx_pwr (s : State) : s.dequeueRx.pwr = s.pwr := rfl
@[simp] theorem dequeueRx_phycfg (s : State) : s.dequeueRx.phycfg = s.phycfg := rfl
@[simp] theorem dequeueRx_phyctl (s : State) : s.dequeueRx.phyctl = s.phyctl := rfl
@[simp] theorem dequeueRx_cfg1 (s : State) : s.dequeueRx.cfg1 = s.cfg1 := rfl
@[simp] theorem dequeueRx_retry (s : State) : s.dequeueRx.retry = s.retry := rfl
@[simp] theorem dequeueRx_mcctl (s : State) : s.dequeueRx.mcctl = s.mcctl := rfl
@[simp] theorem dequeueRx_mac0 (s : State) : s.dequeueRx.mac0 = s.mac0 := rfl
@[simp] theorem dequeueRx_mchash0 (s : State) : s.dequeueRx.mchash0 = s.mchash0 := rfl
@[simp] theorem dequeueRx_mchash1 (s : State) : s.dequeueRx.mchash1 = s.mchash1 := rfl
@[simp] theorem dequeueRx_maxpkt (s : State) : s.dequeueRx.maxpkt = s.maxpkt := rfl
@[simp] theorem dequeueRx_mac1 (s : State) : s.dequeueRx.mac1 = s.mac1 := rfl
@[simp] theorem dequeueRx_txArmed0 (s : State) : s.dequeueRx.txArmed0 = s.txArmed0 := rfl
@[simp] theorem dequeueRx_txArmed1 (s : State) : s.dequeueRx.txArmed1 = s.txArmed1 := rfl
@[simp] theorem dequeueRx_rxArmed (s : State) : s.dequeueRx.rxArmed = s.rxArmed := rfl
@[simp] theorem dequeueRx_txHead0 (s : State) : s.dequeueRx.txHead0 = s.txHead0 := rfl
@[simp] theorem dequeueRx_txHead1 (s : State) : s.dequeueRx.txHead1 = s.txHead1 := rfl
@[simp] theorem dequeueRx_rxHead (s : State) : s.dequeueRx.rxHead = s.rxHead := rfl
@[simp] theorem dequeueRx_pass (s : State) : s.dequeueRx.pass = s.pass := rfl
@[simp] theorem dequeueRx_nextRing (s : State) : s.dequeueRx.nextRing = s.nextRing := rfl
@[simp] theorem dequeueRx_txQueue (s : State) : s.dequeueRx.txQueue = s.txQueue := rfl
@[simp] theorem dequeueRx_rxQueue (s : State) : s.dequeueRx.rxQueue = s.rxQueue.tail := rfl
@[simp] theorem dequeueRx_txErrCount (s : State) : s.dequeueRx.txErrCount = s.txErrCount := rfl
@[simp] theorem dequeueRx_rxErrCount (s : State) : s.dequeueRx.rxErrCount = s.rxErrCount := rfl
@[simp] theorem dequeueRx_rxOverrunCount (s : State) : s.dequeueRx.rxOverrunCount = s.rxOverrunCount := rfl
@[simp] theorem dequeueRx_txDropCount (s : State) : s.dequeueRx.txDropCount = s.txDropCount := rfl
@[simp] theorem dequeueRx_rxDropCount (s : State) : s.dequeueRx.rxDropCount = s.rxDropCount := rfl
@[simp] theorem dequeueRx_txSendFailCount (s : State) : s.dequeueRx.txSendFailCount = s.txSendFailCount := rfl
@[simp] theorem dequeueRx_phy (s : State) : s.dequeueRx.phy = s.phy := rfl
@[simp] theorem dequeueRx_linkUp (s : State) : s.dequeueRx.linkUp = s.linkUp := rfl
@[simp] theorem dequeueRx_shutdown (s : State) : s.dequeueRx.shutdown = s.shutdown := rfl
@[simp] theorem dequeueRx_cfg (s : State) : s.dequeueRx.cfg = s.cfg := rfl
@[simp] theorem dequeueRx_mem (s : State) : s.dequeueRx.mem = s.mem := rfl
@[simp] theorem dequeueRx_schedule (s : State) : s.dequeueRx.schedule = s.schedule := rfl
@[simp] theorem dequeueRx_race (s : State) : s.dequeueRx.race = s.race := rfl
@[simp] theorem dequeueRx_history (s : State) : s.dequeueRx.history = s.history := rfl

/-! ### `State.countConsumed` -/

@[simp] theorem countConsumed_txcfg (s : State) : s.countConsumed.txcfg = s.txcfg := rfl
@[simp] theorem countConsumed_txbase0 (s : State) : s.countConsumed.txbase0 = s.txbase0 := rfl
@[simp] theorem countConsumed_txbase1 (s : State) : s.countConsumed.txbase1 = s.txbase1 := rfl
@[simp] theorem countConsumed_rxcfg (s : State) : s.countConsumed.rxcfg = s.rxcfg := rfl
@[simp] theorem countConsumed_rxbase (s : State) : s.countConsumed.rxbase = s.rxbase := rfl
@[simp] theorem countConsumed_isr (s : State) : s.countConsumed.isr = s.isr := rfl
@[simp] theorem countConsumed_imr (s : State) : s.countConsumed.imr = s.imr := rfl
@[simp] theorem countConsumed_cfg0 (s : State) : s.countConsumed.cfg0 = s.cfg0 := rfl
@[simp] theorem countConsumed_pwr (s : State) : s.countConsumed.pwr = s.pwr := rfl
@[simp] theorem countConsumed_phycfg (s : State) : s.countConsumed.phycfg = s.phycfg := rfl
@[simp] theorem countConsumed_phyctl (s : State) : s.countConsumed.phyctl = s.phyctl := rfl
@[simp] theorem countConsumed_cfg1 (s : State) : s.countConsumed.cfg1 = s.cfg1 := rfl
@[simp] theorem countConsumed_retry (s : State) : s.countConsumed.retry = s.retry := rfl
@[simp] theorem countConsumed_mcctl (s : State) : s.countConsumed.mcctl = s.mcctl := rfl
@[simp] theorem countConsumed_mac0 (s : State) : s.countConsumed.mac0 = s.mac0 := rfl
@[simp] theorem countConsumed_mchash0 (s : State) : s.countConsumed.mchash0 = s.mchash0 := rfl
@[simp] theorem countConsumed_mchash1 (s : State) : s.countConsumed.mchash1 = s.mchash1 := rfl
@[simp] theorem countConsumed_maxpkt (s : State) : s.countConsumed.maxpkt = s.maxpkt := rfl
@[simp] theorem countConsumed_mac1 (s : State) : s.countConsumed.mac1 = s.mac1 := rfl
@[simp] theorem countConsumed_txArmed0 (s : State) : s.countConsumed.txArmed0 = s.txArmed0 := rfl
@[simp] theorem countConsumed_txArmed1 (s : State) : s.countConsumed.txArmed1 = s.txArmed1 := rfl
@[simp] theorem countConsumed_rxArmed (s : State) : s.countConsumed.rxArmed = s.rxArmed := rfl
@[simp] theorem countConsumed_txHead0 (s : State) : s.countConsumed.txHead0 = s.txHead0 := rfl
@[simp] theorem countConsumed_txHead1 (s : State) : s.countConsumed.txHead1 = s.txHead1 := rfl
@[simp] theorem countConsumed_rxHead (s : State) : s.countConsumed.rxHead = s.rxHead := rfl
@[simp] theorem countConsumed_pass (s : State) : s.countConsumed.pass = s.pass.map fun p => { p with steps := p.steps + 1, consumed := p.consumed + 1 } := rfl
@[simp] theorem countConsumed_nextRing (s : State) : s.countConsumed.nextRing = s.nextRing := rfl
@[simp] theorem countConsumed_txQueue (s : State) : s.countConsumed.txQueue = s.txQueue := rfl
@[simp] theorem countConsumed_rxQueue (s : State) : s.countConsumed.rxQueue = s.rxQueue := rfl
@[simp] theorem countConsumed_txErrCount (s : State) : s.countConsumed.txErrCount = s.txErrCount := rfl
@[simp] theorem countConsumed_rxErrCount (s : State) : s.countConsumed.rxErrCount = s.rxErrCount := rfl
@[simp] theorem countConsumed_rxOverrunCount (s : State) : s.countConsumed.rxOverrunCount = s.rxOverrunCount := rfl
@[simp] theorem countConsumed_txDropCount (s : State) : s.countConsumed.txDropCount = s.txDropCount := rfl
@[simp] theorem countConsumed_rxDropCount (s : State) : s.countConsumed.rxDropCount = s.rxDropCount := rfl
@[simp] theorem countConsumed_txSendFailCount (s : State) : s.countConsumed.txSendFailCount = s.txSendFailCount := rfl
@[simp] theorem countConsumed_phy (s : State) : s.countConsumed.phy = s.phy := rfl
@[simp] theorem countConsumed_linkUp (s : State) : s.countConsumed.linkUp = s.linkUp := rfl
@[simp] theorem countConsumed_shutdown (s : State) : s.countConsumed.shutdown = s.shutdown := rfl
@[simp] theorem countConsumed_cfg (s : State) : s.countConsumed.cfg = s.cfg := rfl
@[simp] theorem countConsumed_mem (s : State) : s.countConsumed.mem = s.mem := rfl
@[simp] theorem countConsumed_schedule (s : State) : s.countConsumed.schedule = s.schedule := rfl
@[simp] theorem countConsumed_race (s : State) : s.countConsumed.race = s.race := rfl
@[simp] theorem countConsumed_history (s : State) : s.countConsumed.history = s.history := rfl

/-! ### `State.softReset` -/

@[simp] theorem softReset_txcfg (s : State) : s.softReset.txcfg = s.txcfg := rfl
@[simp] theorem softReset_txbase0 (s : State) : s.softReset.txbase0 = s.txbase0 := rfl
@[simp] theorem softReset_txbase1 (s : State) : s.softReset.txbase1 = s.txbase1 := rfl
@[simp] theorem softReset_rxcfg (s : State) : s.softReset.rxcfg = s.rxcfg := rfl
@[simp] theorem softReset_rxbase (s : State) : s.softReset.rxbase = s.rxbase := rfl
@[simp] theorem softReset_isr (s : State) : s.softReset.isr = s.isr := rfl
@[simp] theorem softReset_imr (s : State) : s.softReset.imr = s.imr := rfl
@[simp] theorem softReset_cfg0 (s : State) : s.softReset.cfg0 = s.cfg0 := rfl
@[simp] theorem softReset_pwr (s : State) : s.softReset.pwr = s.pwr := rfl
@[simp] theorem softReset_phycfg (s : State) : s.softReset.phycfg = s.phycfg := rfl
@[simp] theorem softReset_phyctl (s : State) : s.softReset.phyctl = s.phyctl := rfl
@[simp] theorem softReset_cfg1 (s : State) : s.softReset.cfg1 = s.cfg1 := rfl
@[simp] theorem softReset_retry (s : State) : s.softReset.retry = s.retry := rfl
@[simp] theorem softReset_mcctl (s : State) : s.softReset.mcctl = s.mcctl := rfl
@[simp] theorem softReset_mac0 (s : State) : s.softReset.mac0 = s.mac0 := rfl
@[simp] theorem softReset_mchash0 (s : State) : s.softReset.mchash0 = s.mchash0 := rfl
@[simp] theorem softReset_mchash1 (s : State) : s.softReset.mchash1 = s.mchash1 := rfl
@[simp] theorem softReset_maxpkt (s : State) : s.softReset.maxpkt = s.maxpkt := rfl
@[simp] theorem softReset_mac1 (s : State) : s.softReset.mac1 = s.mac1 := rfl
@[simp] theorem softReset_txArmed0 (s : State) : s.softReset.txArmed0 = s.txArmed0 := rfl
@[simp] theorem softReset_txArmed1 (s : State) : s.softReset.txArmed1 = s.txArmed1 := rfl
@[simp] theorem softReset_rxArmed (s : State) : s.softReset.rxArmed = s.rxArmed := rfl
@[simp] theorem softReset_txHead0 (s : State) : s.softReset.txHead0 = 0 := rfl
@[simp] theorem softReset_txHead1 (s : State) : s.softReset.txHead1 = 0 := rfl
@[simp] theorem softReset_rxHead (s : State) : s.softReset.rxHead = 0 := rfl
@[simp] theorem softReset_pass (s : State) : s.softReset.pass = s.pass := rfl
@[simp] theorem softReset_nextRing (s : State) : s.softReset.nextRing = s.nextRing := rfl
@[simp] theorem softReset_txQueue (s : State) : s.softReset.txQueue = [] := rfl
@[simp] theorem softReset_rxQueue (s : State) : s.softReset.rxQueue = [] := rfl
@[simp] theorem softReset_txErrCount (s : State) : s.softReset.txErrCount = s.txErrCount := rfl
@[simp] theorem softReset_rxErrCount (s : State) : s.softReset.rxErrCount = s.rxErrCount := rfl
@[simp] theorem softReset_rxOverrunCount (s : State) : s.softReset.rxOverrunCount = s.rxOverrunCount := rfl
@[simp] theorem softReset_txDropCount (s : State) : s.softReset.txDropCount = s.txDropCount := rfl
@[simp] theorem softReset_rxDropCount (s : State) : s.softReset.rxDropCount = s.rxDropCount := rfl
@[simp] theorem softReset_txSendFailCount (s : State) : s.softReset.txSendFailCount = s.txSendFailCount := rfl
@[simp] theorem softReset_phy (s : State) : s.softReset.phy = s.phy := rfl
@[simp] theorem softReset_linkUp (s : State) : s.softReset.linkUp = s.linkUp := rfl
@[simp] theorem softReset_shutdown (s : State) : s.softReset.shutdown = s.shutdown := rfl
@[simp] theorem softReset_cfg (s : State) : s.softReset.cfg = s.cfg := rfl
@[simp] theorem softReset_mem (s : State) : s.softReset.mem = s.mem := rfl
@[simp] theorem softReset_schedule (s : State) : s.softReset.schedule = s.schedule := rfl
@[simp] theorem softReset_race (s : State) : s.softReset.race = s.race := rfl
@[simp] theorem softReset_history (s : State) : s.softReset.history = s.history := rfl

/-! ### `State.setHead` -/

@[simp] theorem setHead_txcfg (s : State) (r : Ring) (i : Nat) : (s.setHead r i).txcfg = s.txcfg := by cases r <;> rfl
@[simp] theorem setHead_txbase0 (s : State) (r : Ring) (i : Nat) : (s.setHead r i).txbase0 = s.txbase0 := by cases r <;> rfl
@[simp] theorem setHead_txbase1 (s : State) (r : Ring) (i : Nat) : (s.setHead r i).txbase1 = s.txbase1 := by cases r <;> rfl
@[simp] theorem setHead_rxcfg (s : State) (r : Ring) (i : Nat) : (s.setHead r i).rxcfg = s.rxcfg := by cases r <;> rfl
@[simp] theorem setHead_rxbase (s : State) (r : Ring) (i : Nat) : (s.setHead r i).rxbase = s.rxbase := by cases r <;> rfl
@[simp] theorem setHead_isr (s : State) (r : Ring) (i : Nat) : (s.setHead r i).isr = s.isr := by cases r <;> rfl
@[simp] theorem setHead_imr (s : State) (r : Ring) (i : Nat) : (s.setHead r i).imr = s.imr := by cases r <;> rfl
@[simp] theorem setHead_cfg0 (s : State) (r : Ring) (i : Nat) : (s.setHead r i).cfg0 = s.cfg0 := by cases r <;> rfl
@[simp] theorem setHead_pwr (s : State) (r : Ring) (i : Nat) : (s.setHead r i).pwr = s.pwr := by cases r <;> rfl
@[simp] theorem setHead_phycfg (s : State) (r : Ring) (i : Nat) : (s.setHead r i).phycfg = s.phycfg := by cases r <;> rfl
@[simp] theorem setHead_phyctl (s : State) (r : Ring) (i : Nat) : (s.setHead r i).phyctl = s.phyctl := by cases r <;> rfl
@[simp] theorem setHead_cfg1 (s : State) (r : Ring) (i : Nat) : (s.setHead r i).cfg1 = s.cfg1 := by cases r <;> rfl
@[simp] theorem setHead_retry (s : State) (r : Ring) (i : Nat) : (s.setHead r i).retry = s.retry := by cases r <;> rfl
@[simp] theorem setHead_mcctl (s : State) (r : Ring) (i : Nat) : (s.setHead r i).mcctl = s.mcctl := by cases r <;> rfl
@[simp] theorem setHead_mac0 (s : State) (r : Ring) (i : Nat) : (s.setHead r i).mac0 = s.mac0 := by cases r <;> rfl
@[simp] theorem setHead_mchash0 (s : State) (r : Ring) (i : Nat) : (s.setHead r i).mchash0 = s.mchash0 := by cases r <;> rfl
@[simp] theorem setHead_mchash1 (s : State) (r : Ring) (i : Nat) : (s.setHead r i).mchash1 = s.mchash1 := by cases r <;> rfl
@[simp] theorem setHead_maxpkt (s : State) (r : Ring) (i : Nat) : (s.setHead r i).maxpkt = s.maxpkt := by cases r <;> rfl
@[simp] theorem setHead_mac1 (s : State) (r : Ring) (i : Nat) : (s.setHead r i).mac1 = s.mac1 := by cases r <;> rfl
@[simp] theorem setHead_txArmed0 (s : State) (r : Ring) (i : Nat) : (s.setHead r i).txArmed0 = s.txArmed0 := by cases r <;> rfl
@[simp] theorem setHead_txArmed1 (s : State) (r : Ring) (i : Nat) : (s.setHead r i).txArmed1 = s.txArmed1 := by cases r <;> rfl
@[simp] theorem setHead_rxArmed (s : State) (r : Ring) (i : Nat) : (s.setHead r i).rxArmed = s.rxArmed := by cases r <;> rfl
@[simp] theorem setHead_pass (s : State) (r : Ring) (i : Nat) : (s.setHead r i).pass = s.pass := by cases r <;> rfl
@[simp] theorem setHead_nextRing (s : State) (r : Ring) (i : Nat) : (s.setHead r i).nextRing = s.nextRing := by cases r <;> rfl
@[simp] theorem setHead_txQueue (s : State) (r : Ring) (i : Nat) : (s.setHead r i).txQueue = s.txQueue := by cases r <;> rfl
@[simp] theorem setHead_rxQueue (s : State) (r : Ring) (i : Nat) : (s.setHead r i).rxQueue = s.rxQueue := by cases r <;> rfl
@[simp] theorem setHead_txErrCount (s : State) (r : Ring) (i : Nat) : (s.setHead r i).txErrCount = s.txErrCount := by cases r <;> rfl
@[simp] theorem setHead_rxErrCount (s : State) (r : Ring) (i : Nat) : (s.setHead r i).rxErrCount = s.rxErrCount := by cases r <;> rfl
@[simp] theorem setHead_rxOverrunCount (s : State) (r : Ring) (i : Nat) : (s.setHead r i).rxOverrunCount = s.rxOverrunCount := by cases r <;> rfl
@[simp] theorem setHead_txDropCount (s : State) (r : Ring) (i : Nat) : (s.setHead r i).txDropCount = s.txDropCount := by cases r <;> rfl
@[simp] theorem setHead_rxDropCount (s : State) (r : Ring) (i : Nat) : (s.setHead r i).rxDropCount = s.rxDropCount := by cases r <;> rfl
@[simp] theorem setHead_txSendFailCount (s : State) (r : Ring) (i : Nat) : (s.setHead r i).txSendFailCount = s.txSendFailCount := by cases r <;> rfl
@[simp] theorem setHead_phy (s : State) (r : Ring) (i : Nat) : (s.setHead r i).phy = s.phy := by cases r <;> rfl
@[simp] theorem setHead_linkUp (s : State) (r : Ring) (i : Nat) : (s.setHead r i).linkUp = s.linkUp := by cases r <;> rfl
@[simp] theorem setHead_shutdown (s : State) (r : Ring) (i : Nat) : (s.setHead r i).shutdown = s.shutdown := by cases r <;> rfl
@[simp] theorem setHead_cfg (s : State) (r : Ring) (i : Nat) : (s.setHead r i).cfg = s.cfg := by cases r <;> rfl
@[simp] theorem setHead_mem (s : State) (r : Ring) (i : Nat) : (s.setHead r i).mem = s.mem := by cases r <;> rfl
@[simp] theorem setHead_schedule (s : State) (r : Ring) (i : Nat) : (s.setHead r i).schedule = s.schedule := by cases r <;> rfl
@[simp] theorem setHead_race (s : State) (r : Ring) (i : Nat) : (s.setHead r i).race = s.race := by cases r <;> rfl
@[simp] theorem setHead_history (s : State) (r : Ring) (i : Nat) : (s.setHead r i).history = s.history := by cases r <;> rfl

/-! ### `State.advanceCursor` -/

@[simp] theorem advanceCursor_txcfg (s : State) (r : Ring) (w : Bool) : (s.advanceCursor r w).txcfg = s.txcfg := by cases r <;> rfl
@[simp] theorem advanceCursor_txbase0 (s : State) (r : Ring) (w : Bool) : (s.advanceCursor r w).txbase0 = s.txbase0 := by cases r <;> rfl
@[simp] theorem advanceCursor_txbase1 (s : State) (r : Ring) (w : Bool) : (s.advanceCursor r w).txbase1 = s.txbase1 := by cases r <;> rfl
@[simp] theorem advanceCursor_rxcfg (s : State) (r : Ring) (w : Bool) : (s.advanceCursor r w).rxcfg = s.rxcfg := by cases r <;> rfl
@[simp] theorem advanceCursor_rxbase (s : State) (r : Ring) (w : Bool) : (s.advanceCursor r w).rxbase = s.rxbase := by cases r <;> rfl
@[simp] theorem advanceCursor_isr (s : State) (r : Ring) (w : Bool) : (s.advanceCursor r w).isr = s.isr := by cases r <;> rfl
@[simp] theorem advanceCursor_imr (s : State) (r : Ring) (w : Bool) : (s.advanceCursor r w).imr = s.imr := by cases r <;> rfl
@[simp] theorem advanceCursor_cfg0 (s : State) (r : Ring) (w : Bool) : (s.advanceCursor r w).cfg0 = s.cfg0 := by cases r <;> rfl
@[simp] theorem advanceCursor_pwr (s : State) (r : Ring) (w : Bool) : (s.advanceCursor r w).pwr = s.pwr := by cases r <;> rfl
@[simp] theorem advanceCursor_phycfg (s : State) (r : Ring) (w : Bool) : (s.advanceCursor r w).phycfg = s.phycfg := by cases r <;> rfl
@[simp] theorem advanceCursor_phyctl (s : State) (r : Ring) (w : Bool) : (s.advanceCursor r w).phyctl = s.phyctl := by cases r <;> rfl
@[simp] theorem advanceCursor_cfg1 (s : State) (r : Ring) (w : Bool) : (s.advanceCursor r w).cfg1 = s.cfg1 := by cases r <;> rfl
@[simp] theorem advanceCursor_retry (s : State) (r : Ring) (w : Bool) : (s.advanceCursor r w).retry = s.retry := by cases r <;> rfl
@[simp] theorem advanceCursor_mcctl (s : State) (r : Ring) (w : Bool) : (s.advanceCursor r w).mcctl = s.mcctl := by cases r <;> rfl
@[simp] theorem advanceCursor_mac0 (s : State) (r : Ring) (w : Bool) : (s.advanceCursor r w).mac0 = s.mac0 := by cases r <;> rfl
@[simp] theorem advanceCursor_mchash0 (s : State) (r : Ring) (w : Bool) : (s.advanceCursor r w).mchash0 = s.mchash0 := by cases r <;> rfl
@[simp] theorem advanceCursor_mchash1 (s : State) (r : Ring) (w : Bool) : (s.advanceCursor r w).mchash1 = s.mchash1 := by cases r <;> rfl
@[simp] theorem advanceCursor_maxpkt (s : State) (r : Ring) (w : Bool) : (s.advanceCursor r w).maxpkt = s.maxpkt := by cases r <;> rfl
@[simp] theorem advanceCursor_mac1 (s : State) (r : Ring) (w : Bool) : (s.advanceCursor r w).mac1 = s.mac1 := by cases r <;> rfl
@[simp] theorem advanceCursor_txArmed0 (s : State) (r : Ring) (w : Bool) : (s.advanceCursor r w).txArmed0 = s.txArmed0 := by cases r <;> rfl
@[simp] theorem advanceCursor_txArmed1 (s : State) (r : Ring) (w : Bool) : (s.advanceCursor r w).txArmed1 = s.txArmed1 := by cases r <;> rfl
@[simp] theorem advanceCursor_rxArmed (s : State) (r : Ring) (w : Bool) : (s.advanceCursor r w).rxArmed = s.rxArmed := by cases r <;> rfl
@[simp] theorem advanceCursor_pass (s : State) (r : Ring) (w : Bool) : (s.advanceCursor r w).pass = s.pass := by cases r <;> rfl
@[simp] theorem advanceCursor_nextRing (s : State) (r : Ring) (w : Bool) : (s.advanceCursor r w).nextRing = s.nextRing := by cases r <;> rfl
@[simp] theorem advanceCursor_txQueue (s : State) (r : Ring) (w : Bool) : (s.advanceCursor r w).txQueue = s.txQueue := by cases r <;> rfl
@[simp] theorem advanceCursor_rxQueue (s : State) (r : Ring) (w : Bool) : (s.advanceCursor r w).rxQueue = s.rxQueue := by cases r <;> rfl
@[simp] theorem advanceCursor_txErrCount (s : State) (r : Ring) (w : Bool) : (s.advanceCursor r w).txErrCount = s.txErrCount := by cases r <;> rfl
@[simp] theorem advanceCursor_rxErrCount (s : State) (r : Ring) (w : Bool) : (s.advanceCursor r w).rxErrCount = s.rxErrCount := by cases r <;> rfl
@[simp] theorem advanceCursor_rxOverrunCount (s : State) (r : Ring) (w : Bool) : (s.advanceCursor r w).rxOverrunCount = s.rxOverrunCount := by cases r <;> rfl
@[simp] theorem advanceCursor_txDropCount (s : State) (r : Ring) (w : Bool) : (s.advanceCursor r w).txDropCount = s.txDropCount := by cases r <;> rfl
@[simp] theorem advanceCursor_rxDropCount (s : State) (r : Ring) (w : Bool) : (s.advanceCursor r w).rxDropCount = s.rxDropCount := by cases r <;> rfl
@[simp] theorem advanceCursor_txSendFailCount (s : State) (r : Ring) (w : Bool) : (s.advanceCursor r w).txSendFailCount = s.txSendFailCount := by cases r <;> rfl
@[simp] theorem advanceCursor_phy (s : State) (r : Ring) (w : Bool) : (s.advanceCursor r w).phy = s.phy := by cases r <;> rfl
@[simp] theorem advanceCursor_linkUp (s : State) (r : Ring) (w : Bool) : (s.advanceCursor r w).linkUp = s.linkUp := by cases r <;> rfl
@[simp] theorem advanceCursor_shutdown (s : State) (r : Ring) (w : Bool) : (s.advanceCursor r w).shutdown = s.shutdown := by cases r <;> rfl
@[simp] theorem advanceCursor_cfg (s : State) (r : Ring) (w : Bool) : (s.advanceCursor r w).cfg = s.cfg := by cases r <;> rfl
@[simp] theorem advanceCursor_mem (s : State) (r : Ring) (w : Bool) : (s.advanceCursor r w).mem = s.mem := by cases r <;> rfl
@[simp] theorem advanceCursor_schedule (s : State) (r : Ring) (w : Bool) : (s.advanceCursor r w).schedule = s.schedule := by cases r <;> rfl
@[simp] theorem advanceCursor_race (s : State) (r : Ring) (w : Bool) : (s.advanceCursor r w).race = s.race := by cases r <;> rfl
@[simp] theorem advanceCursor_history (s : State) (r : Ring) (w : Bool) : (s.advanceCursor r w).history = s.history := by cases r <;> rfl

/-! ### Accesses of the guest CPU, and the engine's memory accesses

Each writes guest memory, the pending guest accesses and the history, and nothing else. -/

/-- Guest accesses write guest memory and the history only. -/
theorem guestOps_eq : ∀ (gs : List GuestOp) (s : State),
    s.guestOps gs = { s with mem := s.mem.guestOps gs, history := (s.guestOps gs).history }
  | [], _ => rfl
  | .store a b :: gs, s => guestOps_eq gs { s with mem := s.mem.setBytes a b }
  | .load a n :: gs, s => guestOps_eq gs (s.log (.guestLoad a (s.mem.getBytes a n)))

/-- So does a payload write with guest accesses in its midst. -/
theorem storeDuring_eq (a : Word) (b : List Byte) (seen : List Nat) : ∀ (gs : List GuestOp) (s : State) (i : Nat),
    s.storeDuring a b seen i gs =
      { s with mem := (s.storeDuring a b seen i gs).mem, history := (s.storeDuring a b seen i gs).history }
  | [], _, _ => rfl
  | .store _ _ :: gs, _, _ => storeDuring_eq a b seen gs _ _
  | .load _ _ :: gs, _, _ => storeDuring_eq a b seen gs _ _

theorem guestMeanwhile_eq (s : State) :
    s.guestMeanwhile = { s with
      mem := s.guestMeanwhile.mem, race := s.guestMeanwhile.race, history := s.guestMeanwhile.history } := by
  unfold State.guestMeanwhile
  split
  · rfl
  · rw [guestOps_eq]

theorem storePayload_eq (s : State) (a : Word) (b : List Byte) :
    s.storePayload a b = { s with
      mem := (s.storePayload a b).mem, race := (s.storePayload a b).race, history := (s.storePayload a b).history } := by
  unfold State.storePayload
  split
  · rfl
  · rw [storeDuring_eq]

theorem memRead_eq (s : State) (a : Word) (n : Nat) :
    s.memRead a n = { s with
      mem := (s.memRead a n).mem, race := (s.memRead a n).race, history := (s.memRead a n).history } := by
  unfold State.memRead
  split
  · rfl
  · rw [guestMeanwhile_eq]; rfl

theorem memWrite_eq (s : State) (a : Word) (b : List Byte) :
    s.memWrite a b = { s with
      mem := (s.memWrite a b).mem, race := (s.memWrite a b).race, history := (s.memWrite a b).history } := by
  unfold State.memWrite
  split
  · rfl
  · split
    · rw [storePayload_eq]; rfl
    · rw [guestMeanwhile_eq]; rfl

theorem writeBack_eq (s : State) (a w : Word) :
    s.writeBack a w = { s with
      mem := (s.writeBack a w).mem, race := (s.writeBack a w).race, history := (s.writeBack a w).history } := by
  unfold State.writeBack
  rw [guestMeanwhile_eq]; rfl

/-! ### `State.guestMeanwhile` -/

@[simp] theorem guestMeanwhile_txcfg (s : State) : s.guestMeanwhile.txcfg = s.txcfg := by rw [guestMeanwhile_eq]
@[simp] theorem guestMeanwhile_txbase0 (s : State) : s.guestMeanwhile.txbase0 = s.txbase0 := by rw [guestMeanwhile_eq]
@[simp] theorem guestMeanwhile_txbase1 (s : State) : s.guestMeanwhile.txbase1 = s.txbase1 := by rw [guestMeanwhile_eq]
@[simp] theorem guestMeanwhile_rxcfg (s : State) : s.guestMeanwhile.rxcfg = s.rxcfg := by rw [guestMeanwhile_eq]
@[simp] theorem guestMeanwhile_rxbase (s : State) : s.guestMeanwhile.rxbase = s.rxbase := by rw [guestMeanwhile_eq]
@[simp] theorem guestMeanwhile_isr (s : State) : s.guestMeanwhile.isr = s.isr := by rw [guestMeanwhile_eq]
@[simp] theorem guestMeanwhile_imr (s : State) : s.guestMeanwhile.imr = s.imr := by rw [guestMeanwhile_eq]
@[simp] theorem guestMeanwhile_cfg0 (s : State) : s.guestMeanwhile.cfg0 = s.cfg0 := by rw [guestMeanwhile_eq]
@[simp] theorem guestMeanwhile_pwr (s : State) : s.guestMeanwhile.pwr = s.pwr := by rw [guestMeanwhile_eq]
@[simp] theorem guestMeanwhile_phycfg (s : State) : s.guestMeanwhile.phycfg = s.phycfg := by rw [guestMeanwhile_eq]
@[simp] theorem guestMeanwhile_phyctl (s : State) : s.guestMeanwhile.phyctl = s.phyctl := by rw [guestMeanwhile_eq]
@[simp] theorem guestMeanwhile_cfg1 (s : State) : s.guestMeanwhile.cfg1 = s.cfg1 := by rw [guestMeanwhile_eq]
@[simp] theorem guestMeanwhile_retry (s : State) : s.guestMeanwhile.retry = s.retry := by rw [guestMeanwhile_eq]
@[simp] theorem guestMeanwhile_mcctl (s : State) : s.guestMeanwhile.mcctl = s.mcctl := by rw [guestMeanwhile_eq]
@[simp] theorem guestMeanwhile_mac0 (s : State) : s.guestMeanwhile.mac0 = s.mac0 := by rw [guestMeanwhile_eq]
@[simp] theorem guestMeanwhile_mchash0 (s : State) : s.guestMeanwhile.mchash0 = s.mchash0 := by rw [guestMeanwhile_eq]
@[simp] theorem guestMeanwhile_mchash1 (s : State) : s.guestMeanwhile.mchash1 = s.mchash1 := by rw [guestMeanwhile_eq]
@[simp] theorem guestMeanwhile_maxpkt (s : State) : s.guestMeanwhile.maxpkt = s.maxpkt := by rw [guestMeanwhile_eq]
@[simp] theorem guestMeanwhile_mac1 (s : State) : s.guestMeanwhile.mac1 = s.mac1 := by rw [guestMeanwhile_eq]
@[simp] theorem guestMeanwhile_txArmed0 (s : State) : s.guestMeanwhile.txArmed0 = s.txArmed0 := by rw [guestMeanwhile_eq]
@[simp] theorem guestMeanwhile_txArmed1 (s : State) : s.guestMeanwhile.txArmed1 = s.txArmed1 := by rw [guestMeanwhile_eq]
@[simp] theorem guestMeanwhile_rxArmed (s : State) : s.guestMeanwhile.rxArmed = s.rxArmed := by rw [guestMeanwhile_eq]
@[simp] theorem guestMeanwhile_txHead0 (s : State) : s.guestMeanwhile.txHead0 = s.txHead0 := by rw [guestMeanwhile_eq]
@[simp] theorem guestMeanwhile_txHead1 (s : State) : s.guestMeanwhile.txHead1 = s.txHead1 := by rw [guestMeanwhile_eq]
@[simp] theorem guestMeanwhile_rxHead (s : State) : s.guestMeanwhile.rxHead = s.rxHead := by rw [guestMeanwhile_eq]
@[simp] theorem guestMeanwhile_pass (s : State) : s.guestMeanwhile.pass = s.pass := by rw [guestMeanwhile_eq]
@[simp] theorem guestMeanwhile_nextRing (s : State) : s.guestMeanwhile.nextRing = s.nextRing := by rw [guestMeanwhile_eq]
@[simp] theorem guestMeanwhile_txQueue (s : State) : s.guestMeanwhile.txQueue = s.txQueue := by rw [guestMeanwhile_eq]
@[simp] theorem guestMeanwhile_rxQueue (s : State) : s.guestMeanwhile.rxQueue = s.rxQueue := by rw [guestMeanwhile_eq]
@[simp] theorem guestMeanwhile_txErrCount (s : State) : s.guestMeanwhile.txErrCount = s.txErrCount := by rw [guestMeanwhile_eq]
@[simp] theorem guestMeanwhile_rxErrCount (s : State) : s.guestMeanwhile.rxErrCount = s.rxErrCount := by rw [guestMeanwhile_eq]
@[simp] theorem guestMeanwhile_rxOverrunCount (s : State) : s.guestMeanwhile.rxOverrunCount = s.rxOverrunCount := by rw [guestMeanwhile_eq]
@[simp] theorem guestMeanwhile_txDropCount (s : State) : s.guestMeanwhile.txDropCount = s.txDropCount := by rw [guestMeanwhile_eq]
@[simp] theorem guestMeanwhile_rxDropCount (s : State) : s.guestMeanwhile.rxDropCount = s.rxDropCount := by rw [guestMeanwhile_eq]
@[simp] theorem guestMeanwhile_txSendFailCount (s : State) : s.guestMeanwhile.txSendFailCount = s.txSendFailCount := by rw [guestMeanwhile_eq]
@[simp] theorem guestMeanwhile_phy (s : State) : s.guestMeanwhile.phy = s.phy := by rw [guestMeanwhile_eq]
@[simp] theorem guestMeanwhile_linkUp (s : State) : s.guestMeanwhile.linkUp = s.linkUp := by rw [guestMeanwhile_eq]
@[simp] theorem guestMeanwhile_shutdown (s : State) : s.guestMeanwhile.shutdown = s.shutdown := by rw [guestMeanwhile_eq]
@[simp] theorem guestMeanwhile_cfg (s : State) : s.guestMeanwhile.cfg = s.cfg := by rw [guestMeanwhile_eq]
@[simp] theorem guestMeanwhile_schedule (s : State) : s.guestMeanwhile.schedule = s.schedule := by rw [guestMeanwhile_eq]

/-! ### `State.memRead` -/

@[simp] theorem memRead_txcfg (s : State) (a : Word) (n : Nat) : (s.memRead a n).txcfg = s.txcfg := by rw [memRead_eq]
@[simp] theorem memRead_txbase0 (s : State) (a : Word) (n : Nat) : (s.memRead a n).txbase0 = s.txbase0 := by rw [memRead_eq]
@[simp] theorem memRead_txbase1 (s : State) (a : Word) (n : Nat) : (s.memRead a n).txbase1 = s.txbase1 := by rw [memRead_eq]
@[simp] theorem memRead_rxcfg (s : State) (a : Word) (n : Nat) : (s.memRead a n).rxcfg = s.rxcfg := by rw [memRead_eq]
@[simp] theorem memRead_rxbase (s : State) (a : Word) (n : Nat) : (s.memRead a n).rxbase = s.rxbase := by rw [memRead_eq]
@[simp] theorem memRead_isr (s : State) (a : Word) (n : Nat) : (s.memRead a n).isr = s.isr := by rw [memRead_eq]
@[simp] theorem memRead_imr (s : State) (a : Word) (n : Nat) : (s.memRead a n).imr = s.imr := by rw [memRead_eq]
@[simp] theorem memRead_cfg0 (s : State) (a : Word) (n : Nat) : (s.memRead a n).cfg0 = s.cfg0 := by rw [memRead_eq]
@[simp] theorem memRead_pwr (s : State) (a : Word) (n : Nat) : (s.memRead a n).pwr = s.pwr := by rw [memRead_eq]
@[simp] theorem memRead_phycfg (s : State) (a : Word) (n : Nat) : (s.memRead a n).phycfg = s.phycfg := by rw [memRead_eq]
@[simp] theorem memRead_phyctl (s : State) (a : Word) (n : Nat) : (s.memRead a n).phyctl = s.phyctl := by rw [memRead_eq]
@[simp] theorem memRead_cfg1 (s : State) (a : Word) (n : Nat) : (s.memRead a n).cfg1 = s.cfg1 := by rw [memRead_eq]
@[simp] theorem memRead_retry (s : State) (a : Word) (n : Nat) : (s.memRead a n).retry = s.retry := by rw [memRead_eq]
@[simp] theorem memRead_mcctl (s : State) (a : Word) (n : Nat) : (s.memRead a n).mcctl = s.mcctl := by rw [memRead_eq]
@[simp] theorem memRead_mac0 (s : State) (a : Word) (n : Nat) : (s.memRead a n).mac0 = s.mac0 := by rw [memRead_eq]
@[simp] theorem memRead_mchash0 (s : State) (a : Word) (n : Nat) : (s.memRead a n).mchash0 = s.mchash0 := by rw [memRead_eq]
@[simp] theorem memRead_mchash1 (s : State) (a : Word) (n : Nat) : (s.memRead a n).mchash1 = s.mchash1 := by rw [memRead_eq]
@[simp] theorem memRead_maxpkt (s : State) (a : Word) (n : Nat) : (s.memRead a n).maxpkt = s.maxpkt := by rw [memRead_eq]
@[simp] theorem memRead_mac1 (s : State) (a : Word) (n : Nat) : (s.memRead a n).mac1 = s.mac1 := by rw [memRead_eq]
@[simp] theorem memRead_txArmed0 (s : State) (a : Word) (n : Nat) : (s.memRead a n).txArmed0 = s.txArmed0 := by rw [memRead_eq]
@[simp] theorem memRead_txArmed1 (s : State) (a : Word) (n : Nat) : (s.memRead a n).txArmed1 = s.txArmed1 := by rw [memRead_eq]
@[simp] theorem memRead_rxArmed (s : State) (a : Word) (n : Nat) : (s.memRead a n).rxArmed = s.rxArmed := by rw [memRead_eq]
@[simp] theorem memRead_txHead0 (s : State) (a : Word) (n : Nat) : (s.memRead a n).txHead0 = s.txHead0 := by rw [memRead_eq]
@[simp] theorem memRead_txHead1 (s : State) (a : Word) (n : Nat) : (s.memRead a n).txHead1 = s.txHead1 := by rw [memRead_eq]
@[simp] theorem memRead_rxHead (s : State) (a : Word) (n : Nat) : (s.memRead a n).rxHead = s.rxHead := by rw [memRead_eq]
@[simp] theorem memRead_pass (s : State) (a : Word) (n : Nat) : (s.memRead a n).pass = s.pass := by rw [memRead_eq]
@[simp] theorem memRead_nextRing (s : State) (a : Word) (n : Nat) : (s.memRead a n).nextRing = s.nextRing := by rw [memRead_eq]
@[simp] theorem memRead_txQueue (s : State) (a : Word) (n : Nat) : (s.memRead a n).txQueue = s.txQueue := by rw [memRead_eq]
@[simp] theorem memRead_rxQueue (s : State) (a : Word) (n : Nat) : (s.memRead a n).rxQueue = s.rxQueue := by rw [memRead_eq]
@[simp] theorem memRead_txErrCount (s : State) (a : Word) (n : Nat) : (s.memRead a n).txErrCount = s.txErrCount := by rw [memRead_eq]
@[simp] theorem memRead_rxErrCount (s : State) (a : Word) (n : Nat) : (s.memRead a n).rxErrCount = s.rxErrCount := by rw [memRead_eq]
@[simp] theorem memRead_rxOverrunCount (s : State) (a : Word) (n : Nat) : (s.memRead a n).rxOverrunCount = s.rxOverrunCount := by rw [memRead_eq]
@[simp] theorem memRead_txDropCount (s : State) (a : Word) (n : Nat) : (s.memRead a n).txDropCount = s.txDropCount := by rw [memRead_eq]
@[simp] theorem memRead_rxDropCount (s : State) (a : Word) (n : Nat) : (s.memRead a n).rxDropCount = s.rxDropCount := by rw [memRead_eq]
@[simp] theorem memRead_txSendFailCount (s : State) (a : Word) (n : Nat) : (s.memRead a n).txSendFailCount = s.txSendFailCount := by rw [memRead_eq]
@[simp] theorem memRead_phy (s : State) (a : Word) (n : Nat) : (s.memRead a n).phy = s.phy := by rw [memRead_eq]
@[simp] theorem memRead_linkUp (s : State) (a : Word) (n : Nat) : (s.memRead a n).linkUp = s.linkUp := by rw [memRead_eq]
@[simp] theorem memRead_shutdown (s : State) (a : Word) (n : Nat) : (s.memRead a n).shutdown = s.shutdown := by rw [memRead_eq]
@[simp] theorem memRead_cfg (s : State) (a : Word) (n : Nat) : (s.memRead a n).cfg = s.cfg := by rw [memRead_eq]
@[simp] theorem memRead_schedule (s : State) (a : Word) (n : Nat) : (s.memRead a n).schedule = s.schedule := by rw [memRead_eq]

/-! ### `State.memWrite` -/

@[simp] theorem memWrite_txcfg (s : State) (a : Word) (b : List Byte) : (s.memWrite a b).txcfg = s.txcfg := by rw [memWrite_eq]
@[simp] theorem memWrite_txbase0 (s : State) (a : Word) (b : List Byte) : (s.memWrite a b).txbase0 = s.txbase0 := by rw [memWrite_eq]
@[simp] theorem memWrite_txbase1 (s : State) (a : Word) (b : List Byte) : (s.memWrite a b).txbase1 = s.txbase1 := by rw [memWrite_eq]
@[simp] theorem memWrite_rxcfg (s : State) (a : Word) (b : List Byte) : (s.memWrite a b).rxcfg = s.rxcfg := by rw [memWrite_eq]
@[simp] theorem memWrite_rxbase (s : State) (a : Word) (b : List Byte) : (s.memWrite a b).rxbase = s.rxbase := by rw [memWrite_eq]
@[simp] theorem memWrite_isr (s : State) (a : Word) (b : List Byte) : (s.memWrite a b).isr = s.isr := by rw [memWrite_eq]
@[simp] theorem memWrite_imr (s : State) (a : Word) (b : List Byte) : (s.memWrite a b).imr = s.imr := by rw [memWrite_eq]
@[simp] theorem memWrite_cfg0 (s : State) (a : Word) (b : List Byte) : (s.memWrite a b).cfg0 = s.cfg0 := by rw [memWrite_eq]
@[simp] theorem memWrite_pwr (s : State) (a : Word) (b : List Byte) : (s.memWrite a b).pwr = s.pwr := by rw [memWrite_eq]
@[simp] theorem memWrite_phycfg (s : State) (a : Word) (b : List Byte) : (s.memWrite a b).phycfg = s.phycfg := by rw [memWrite_eq]
@[simp] theorem memWrite_phyctl (s : State) (a : Word) (b : List Byte) : (s.memWrite a b).phyctl = s.phyctl := by rw [memWrite_eq]
@[simp] theorem memWrite_cfg1 (s : State) (a : Word) (b : List Byte) : (s.memWrite a b).cfg1 = s.cfg1 := by rw [memWrite_eq]
@[simp] theorem memWrite_retry (s : State) (a : Word) (b : List Byte) : (s.memWrite a b).retry = s.retry := by rw [memWrite_eq]
@[simp] theorem memWrite_mcctl (s : State) (a : Word) (b : List Byte) : (s.memWrite a b).mcctl = s.mcctl := by rw [memWrite_eq]
@[simp] theorem memWrite_mac0 (s : State) (a : Word) (b : List Byte) : (s.memWrite a b).mac0 = s.mac0 := by rw [memWrite_eq]
@[simp] theorem memWrite_mchash0 (s : State) (a : Word) (b : List Byte) : (s.memWrite a b).mchash0 = s.mchash0 := by rw [memWrite_eq]
@[simp] theorem memWrite_mchash1 (s : State) (a : Word) (b : List Byte) : (s.memWrite a b).mchash1 = s.mchash1 := by rw [memWrite_eq]
@[simp] theorem memWrite_maxpkt (s : State) (a : Word) (b : List Byte) : (s.memWrite a b).maxpkt = s.maxpkt := by rw [memWrite_eq]
@[simp] theorem memWrite_mac1 (s : State) (a : Word) (b : List Byte) : (s.memWrite a b).mac1 = s.mac1 := by rw [memWrite_eq]
@[simp] theorem memWrite_txArmed0 (s : State) (a : Word) (b : List Byte) : (s.memWrite a b).txArmed0 = s.txArmed0 := by rw [memWrite_eq]
@[simp] theorem memWrite_txArmed1 (s : State) (a : Word) (b : List Byte) : (s.memWrite a b).txArmed1 = s.txArmed1 := by rw [memWrite_eq]
@[simp] theorem memWrite_rxArmed (s : State) (a : Word) (b : List Byte) : (s.memWrite a b).rxArmed = s.rxArmed := by rw [memWrite_eq]
@[simp] theorem memWrite_txHead0 (s : State) (a : Word) (b : List Byte) : (s.memWrite a b).txHead0 = s.txHead0 := by rw [memWrite_eq]
@[simp] theorem memWrite_txHead1 (s : State) (a : Word) (b : List Byte) : (s.memWrite a b).txHead1 = s.txHead1 := by rw [memWrite_eq]
@[simp] theorem memWrite_rxHead (s : State) (a : Word) (b : List Byte) : (s.memWrite a b).rxHead = s.rxHead := by rw [memWrite_eq]
@[simp] theorem memWrite_pass (s : State) (a : Word) (b : List Byte) : (s.memWrite a b).pass = s.pass := by rw [memWrite_eq]
@[simp] theorem memWrite_nextRing (s : State) (a : Word) (b : List Byte) : (s.memWrite a b).nextRing = s.nextRing := by rw [memWrite_eq]
@[simp] theorem memWrite_txQueue (s : State) (a : Word) (b : List Byte) : (s.memWrite a b).txQueue = s.txQueue := by rw [memWrite_eq]
@[simp] theorem memWrite_rxQueue (s : State) (a : Word) (b : List Byte) : (s.memWrite a b).rxQueue = s.rxQueue := by rw [memWrite_eq]
@[simp] theorem memWrite_txErrCount (s : State) (a : Word) (b : List Byte) : (s.memWrite a b).txErrCount = s.txErrCount := by rw [memWrite_eq]
@[simp] theorem memWrite_rxErrCount (s : State) (a : Word) (b : List Byte) : (s.memWrite a b).rxErrCount = s.rxErrCount := by rw [memWrite_eq]
@[simp] theorem memWrite_rxOverrunCount (s : State) (a : Word) (b : List Byte) : (s.memWrite a b).rxOverrunCount = s.rxOverrunCount := by rw [memWrite_eq]
@[simp] theorem memWrite_txDropCount (s : State) (a : Word) (b : List Byte) : (s.memWrite a b).txDropCount = s.txDropCount := by rw [memWrite_eq]
@[simp] theorem memWrite_rxDropCount (s : State) (a : Word) (b : List Byte) : (s.memWrite a b).rxDropCount = s.rxDropCount := by rw [memWrite_eq]
@[simp] theorem memWrite_txSendFailCount (s : State) (a : Word) (b : List Byte) : (s.memWrite a b).txSendFailCount = s.txSendFailCount := by rw [memWrite_eq]
@[simp] theorem memWrite_phy (s : State) (a : Word) (b : List Byte) : (s.memWrite a b).phy = s.phy := by rw [memWrite_eq]
@[simp] theorem memWrite_linkUp (s : State) (a : Word) (b : List Byte) : (s.memWrite a b).linkUp = s.linkUp := by rw [memWrite_eq]
@[simp] theorem memWrite_shutdown (s : State) (a : Word) (b : List Byte) : (s.memWrite a b).shutdown = s.shutdown := by rw [memWrite_eq]
@[simp] theorem memWrite_cfg (s : State) (a : Word) (b : List Byte) : (s.memWrite a b).cfg = s.cfg := by rw [memWrite_eq]
@[simp] theorem memWrite_schedule (s : State) (a : Word) (b : List Byte) : (s.memWrite a b).schedule = s.schedule := by rw [memWrite_eq]

/-! ### `State.writeBack` -/

@[simp] theorem writeBack_txcfg (s : State) (a w : Word) : (s.writeBack a w).txcfg = s.txcfg := by rw [writeBack_eq]
@[simp] theorem writeBack_txbase0 (s : State) (a w : Word) : (s.writeBack a w).txbase0 = s.txbase0 := by rw [writeBack_eq]
@[simp] theorem writeBack_txbase1 (s : State) (a w : Word) : (s.writeBack a w).txbase1 = s.txbase1 := by rw [writeBack_eq]
@[simp] theorem writeBack_rxcfg (s : State) (a w : Word) : (s.writeBack a w).rxcfg = s.rxcfg := by rw [writeBack_eq]
@[simp] theorem writeBack_rxbase (s : State) (a w : Word) : (s.writeBack a w).rxbase = s.rxbase := by rw [writeBack_eq]
@[simp] theorem writeBack_isr (s : State) (a w : Word) : (s.writeBack a w).isr = s.isr := by rw [writeBack_eq]
@[simp] theorem writeBack_imr (s : State) (a w : Word) : (s.writeBack a w).imr = s.imr := by rw [writeBack_eq]
@[simp] theorem writeBack_cfg0 (s : State) (a w : Word) : (s.writeBack a w).cfg0 = s.cfg0 := by rw [writeBack_eq]
@[simp] theorem writeBack_pwr (s : State) (a w : Word) : (s.writeBack a w).pwr = s.pwr := by rw [writeBack_eq]
@[simp] theorem writeBack_phycfg (s : State) (a w : Word) : (s.writeBack a w).phycfg = s.phycfg := by rw [writeBack_eq]
@[simp] theorem writeBack_phyctl (s : State) (a w : Word) : (s.writeBack a w).phyctl = s.phyctl := by rw [writeBack_eq]
@[simp] theorem writeBack_cfg1 (s : State) (a w : Word) : (s.writeBack a w).cfg1 = s.cfg1 := by rw [writeBack_eq]
@[simp] theorem writeBack_retry (s : State) (a w : Word) : (s.writeBack a w).retry = s.retry := by rw [writeBack_eq]
@[simp] theorem writeBack_mcctl (s : State) (a w : Word) : (s.writeBack a w).mcctl = s.mcctl := by rw [writeBack_eq]
@[simp] theorem writeBack_mac0 (s : State) (a w : Word) : (s.writeBack a w).mac0 = s.mac0 := by rw [writeBack_eq]
@[simp] theorem writeBack_mchash0 (s : State) (a w : Word) : (s.writeBack a w).mchash0 = s.mchash0 := by rw [writeBack_eq]
@[simp] theorem writeBack_mchash1 (s : State) (a w : Word) : (s.writeBack a w).mchash1 = s.mchash1 := by rw [writeBack_eq]
@[simp] theorem writeBack_maxpkt (s : State) (a w : Word) : (s.writeBack a w).maxpkt = s.maxpkt := by rw [writeBack_eq]
@[simp] theorem writeBack_mac1 (s : State) (a w : Word) : (s.writeBack a w).mac1 = s.mac1 := by rw [writeBack_eq]
@[simp] theorem writeBack_txArmed0 (s : State) (a w : Word) : (s.writeBack a w).txArmed0 = s.txArmed0 := by rw [writeBack_eq]
@[simp] theorem writeBack_txArmed1 (s : State) (a w : Word) : (s.writeBack a w).txArmed1 = s.txArmed1 := by rw [writeBack_eq]
@[simp] theorem writeBack_rxArmed (s : State) (a w : Word) : (s.writeBack a w).rxArmed = s.rxArmed := by rw [writeBack_eq]
@[simp] theorem writeBack_txHead0 (s : State) (a w : Word) : (s.writeBack a w).txHead0 = s.txHead0 := by rw [writeBack_eq]
@[simp] theorem writeBack_txHead1 (s : State) (a w : Word) : (s.writeBack a w).txHead1 = s.txHead1 := by rw [writeBack_eq]
@[simp] theorem writeBack_rxHead (s : State) (a w : Word) : (s.writeBack a w).rxHead = s.rxHead := by rw [writeBack_eq]
@[simp] theorem writeBack_pass (s : State) (a w : Word) : (s.writeBack a w).pass = s.pass := by rw [writeBack_eq]
@[simp] theorem writeBack_nextRing (s : State) (a w : Word) : (s.writeBack a w).nextRing = s.nextRing := by rw [writeBack_eq]
@[simp] theorem writeBack_txQueue (s : State) (a w : Word) : (s.writeBack a w).txQueue = s.txQueue := by rw [writeBack_eq]
@[simp] theorem writeBack_rxQueue (s : State) (a w : Word) : (s.writeBack a w).rxQueue = s.rxQueue := by rw [writeBack_eq]
@[simp] theorem writeBack_txErrCount (s : State) (a w : Word) : (s.writeBack a w).txErrCount = s.txErrCount := by rw [writeBack_eq]
@[simp] theorem writeBack_rxErrCount (s : State) (a w : Word) : (s.writeBack a w).rxErrCount = s.rxErrCount := by rw [writeBack_eq]
@[simp] theorem writeBack_rxOverrunCount (s : State) (a w : Word) : (s.writeBack a w).rxOverrunCount = s.rxOverrunCount := by rw [writeBack_eq]
@[simp] theorem writeBack_txDropCount (s : State) (a w : Word) : (s.writeBack a w).txDropCount = s.txDropCount := by rw [writeBack_eq]
@[simp] theorem writeBack_rxDropCount (s : State) (a w : Word) : (s.writeBack a w).rxDropCount = s.rxDropCount := by rw [writeBack_eq]
@[simp] theorem writeBack_txSendFailCount (s : State) (a w : Word) : (s.writeBack a w).txSendFailCount = s.txSendFailCount := by rw [writeBack_eq]
@[simp] theorem writeBack_phy (s : State) (a w : Word) : (s.writeBack a w).phy = s.phy := by rw [writeBack_eq]
@[simp] theorem writeBack_linkUp (s : State) (a w : Word) : (s.writeBack a w).linkUp = s.linkUp := by rw [writeBack_eq]
@[simp] theorem writeBack_shutdown (s : State) (a w : Word) : (s.writeBack a w).shutdown = s.shutdown := by rw [writeBack_eq]
@[simp] theorem writeBack_cfg (s : State) (a w : Word) : (s.writeBack a w).cfg = s.cfg := by rw [writeBack_eq]
@[simp] theorem writeBack_schedule (s : State) (a w : Word) : (s.writeBack a w).schedule = s.schedule := by rw [writeBack_eq]

/-! ### `State.raiseInt` -/

@[simp] theorem raiseInt_txcfg (s : State) (c : Word) : (s.raiseInt c).txcfg = s.txcfg := by unfold State.raiseInt; dsimp only; split <;> rfl
@[simp] theorem raiseInt_txbase0 (s : State) (c : Word) : (s.raiseInt c).txbase0 = s.txbase0 := by unfold State.raiseInt; dsimp only; split <;> rfl
@[simp] theorem raiseInt_txbase1 (s : State) (c : Word) : (s.raiseInt c).txbase1 = s.txbase1 := by unfold State.raiseInt; dsimp only; split <;> rfl
@[simp] theorem raiseInt_rxcfg (s : State) (c : Word) : (s.raiseInt c).rxcfg = s.rxcfg := by unfold State.raiseInt; dsimp only; split <;> rfl
@[simp] theorem raiseInt_rxbase (s : State) (c : Word) : (s.raiseInt c).rxbase = s.rxbase := by unfold State.raiseInt; dsimp only; split <;> rfl
@[simp] theorem raiseInt_isr (s : State) (c : Word) : (s.raiseInt c).isr = s.isr ||| c := by unfold State.raiseInt; dsimp only; split <;> rfl
@[simp] theorem raiseInt_imr (s : State) (c : Word) : (s.raiseInt c).imr = s.imr := by unfold State.raiseInt; dsimp only; split <;> rfl
@[simp] theorem raiseInt_cfg0 (s : State) (c : Word) : (s.raiseInt c).cfg0 = s.cfg0 := by unfold State.raiseInt; dsimp only; split <;> rfl
@[simp] theorem raiseInt_pwr (s : State) (c : Word) : (s.raiseInt c).pwr = s.pwr := by unfold State.raiseInt; dsimp only; split <;> rfl
@[simp] theorem raiseInt_phycfg (s : State) (c : Word) : (s.raiseInt c).phycfg = s.phycfg := by unfold State.raiseInt; dsimp only; split <;> rfl
@[simp] theorem raiseInt_phyctl (s : State) (c : Word) : (s.raiseInt c).phyctl = s.phyctl := by unfold State.raiseInt; dsimp only; split <;> rfl
@[simp] theorem raiseInt_cfg1 (s : State) (c : Word) : (s.raiseInt c).cfg1 = s.cfg1 := by unfold State.raiseInt; dsimp only; split <;> rfl
@[simp] theorem raiseInt_retry (s : State) (c : Word) : (s.raiseInt c).retry = s.retry := by unfold State.raiseInt; dsimp only; split <;> rfl
@[simp] theorem raiseInt_mcctl (s : State) (c : Word) : (s.raiseInt c).mcctl = s.mcctl := by unfold State.raiseInt; dsimp only; split <;> rfl
@[simp] theorem raiseInt_mac0 (s : State) (c : Word) : (s.raiseInt c).mac0 = s.mac0 := by unfold State.raiseInt; dsimp only; split <;> rfl
@[simp] theorem raiseInt_mchash0 (s : State) (c : Word) : (s.raiseInt c).mchash0 = s.mchash0 := by unfold State.raiseInt; dsimp only; split <;> rfl
@[simp] theorem raiseInt_mchash1 (s : State) (c : Word) : (s.raiseInt c).mchash1 = s.mchash1 := by unfold State.raiseInt; dsimp only; split <;> rfl
@[simp] theorem raiseInt_maxpkt (s : State) (c : Word) : (s.raiseInt c).maxpkt = s.maxpkt := by unfold State.raiseInt; dsimp only; split <;> rfl
@[simp] theorem raiseInt_mac1 (s : State) (c : Word) : (s.raiseInt c).mac1 = s.mac1 := by unfold State.raiseInt; dsimp only; split <;> rfl
@[simp] theorem raiseInt_txArmed0 (s : State) (c : Word) : (s.raiseInt c).txArmed0 = s.txArmed0 := by unfold State.raiseInt; dsimp only; split <;> rfl
@[simp] theorem raiseInt_txArmed1 (s : State) (c : Word) : (s.raiseInt c).txArmed1 = s.txArmed1 := by unfold State.raiseInt; dsimp only; split <;> rfl
@[simp] theorem raiseInt_rxArmed (s : State) (c : Word) : (s.raiseInt c).rxArmed = s.rxArmed := by unfold State.raiseInt; dsimp only; split <;> rfl
@[simp] theorem raiseInt_txHead0 (s : State) (c : Word) : (s.raiseInt c).txHead0 = s.txHead0 := by unfold State.raiseInt; dsimp only; split <;> rfl
@[simp] theorem raiseInt_txHead1 (s : State) (c : Word) : (s.raiseInt c).txHead1 = s.txHead1 := by unfold State.raiseInt; dsimp only; split <;> rfl
@[simp] theorem raiseInt_rxHead (s : State) (c : Word) : (s.raiseInt c).rxHead = s.rxHead := by unfold State.raiseInt; dsimp only; split <;> rfl
@[simp] theorem raiseInt_pass (s : State) (c : Word) : (s.raiseInt c).pass = s.pass := by unfold State.raiseInt; dsimp only; split <;> rfl
@[simp] theorem raiseInt_nextRing (s : State) (c : Word) : (s.raiseInt c).nextRing = s.nextRing := by unfold State.raiseInt; dsimp only; split <;> rfl
@[simp] theorem raiseInt_txQueue (s : State) (c : Word) : (s.raiseInt c).txQueue = s.txQueue := by unfold State.raiseInt; dsimp only; split <;> rfl
@[simp] theorem raiseInt_rxQueue (s : State) (c : Word) : (s.raiseInt c).rxQueue = s.rxQueue := by unfold State.raiseInt; dsimp only; split <;> rfl
@[simp] theorem raiseInt_txErrCount (s : State) (c : Word) : (s.raiseInt c).txErrCount = s.txErrCount := by unfold State.raiseInt; dsimp only; split <;> rfl
@[simp] theorem raiseInt_rxErrCount (s : State) (c : Word) : (s.raiseInt c).rxErrCount = s.rxErrCount := by unfold State.raiseInt; dsimp only; split <;> rfl
@[simp] theorem raiseInt_rxOverrunCount (s : State) (c : Word) : (s.raiseInt c).rxOverrunCount = s.rxOverrunCount := by unfold State.raiseInt; dsimp only; split <;> rfl
@[simp] theorem raiseInt_txDropCount (s : State) (c : Word) : (s.raiseInt c).txDropCount = s.txDropCount := by unfold State.raiseInt; dsimp only; split <;> rfl
@[simp] theorem raiseInt_rxDropCount (s : State) (c : Word) : (s.raiseInt c).rxDropCount = s.rxDropCount := by unfold State.raiseInt; dsimp only; split <;> rfl
@[simp] theorem raiseInt_txSendFailCount (s : State) (c : Word) : (s.raiseInt c).txSendFailCount = s.txSendFailCount := by unfold State.raiseInt; dsimp only; split <;> rfl
@[simp] theorem raiseInt_phy (s : State) (c : Word) : (s.raiseInt c).phy = s.phy := by unfold State.raiseInt; dsimp only; split <;> rfl
@[simp] theorem raiseInt_linkUp (s : State) (c : Word) : (s.raiseInt c).linkUp = s.linkUp := by unfold State.raiseInt; dsimp only; split <;> rfl
@[simp] theorem raiseInt_shutdown (s : State) (c : Word) : (s.raiseInt c).shutdown = s.shutdown := by unfold State.raiseInt; dsimp only; split <;> rfl
@[simp] theorem raiseInt_cfg (s : State) (c : Word) : (s.raiseInt c).cfg = s.cfg := by unfold State.raiseInt; dsimp only; split <;> rfl
@[simp] theorem raiseInt_mem (s : State) (c : Word) : (s.raiseInt c).mem = s.mem := by unfold State.raiseInt; dsimp only; split <;> rfl
@[simp] theorem raiseInt_schedule (s : State) (c : Word) : (s.raiseInt c).schedule = s.schedule := by unfold State.raiseInt; dsimp only; split <;> rfl
@[simp] theorem raiseInt_race (s : State) (c : Word) : (s.raiseInt c).race = s.race := by unfold State.raiseInt; dsimp only; split <;> rfl

/-! ### `State.passEnd` -/

@[simp] theorem passEnd_txcfg (s : State) : s.passEnd.txcfg = s.txcfg := by unfold State.passEnd; split; rfl; (dsimp only; split <;> simp)
@[simp] theorem passEnd_txbase0 (s : State) : s.passEnd.txbase0 = s.txbase0 := by unfold State.passEnd; split; rfl; (dsimp only; split <;> simp)
@[simp] theorem passEnd_txbase1 (s : State) : s.passEnd.txbase1 = s.txbase1 := by unfold State.passEnd; split; rfl; (dsimp only; split <;> simp)
@[simp] theorem passEnd_rxcfg (s : State) : s.passEnd.rxcfg = s.rxcfg := by unfold State.passEnd; split; rfl; (dsimp only; split <;> simp)
@[simp] theorem passEnd_rxbase (s : State) : s.passEnd.rxbase = s.rxbase := by unfold State.passEnd; split; rfl; (dsimp only; split <;> simp)
@[simp] theorem passEnd_imr (s : State) : s.passEnd.imr = s.imr := by unfold State.passEnd; split; rfl; (dsimp only; split <;> simp)
@[simp] theorem passEnd_cfg0 (s : State) : s.passEnd.cfg0 = s.cfg0 := by unfold State.passEnd; split; rfl; (dsimp only; split <;> simp)
@[simp] theorem passEnd_pwr (s : State) : s.passEnd.pwr = s.pwr := by unfold State.passEnd; split; rfl; (dsimp only; split <;> simp)
@[simp] theorem passEnd_phycfg (s : State) : s.passEnd.phycfg = s.phycfg := by unfold State.passEnd; split; rfl; (dsimp only; split <;> simp)
@[simp] theorem passEnd_phyctl (s : State) : s.passEnd.phyctl = s.phyctl := by unfold State.passEnd; split; rfl; (dsimp only; split <;> simp)
@[simp] theorem passEnd_cfg1 (s : State) : s.passEnd.cfg1 = s.cfg1 := by unfold State.passEnd; split; rfl; (dsimp only; split <;> simp)
@[simp] theorem passEnd_retry (s : State) : s.passEnd.retry = s.retry := by unfold State.passEnd; split; rfl; (dsimp only; split <;> simp)
@[simp] theorem passEnd_mcctl (s : State) : s.passEnd.mcctl = s.mcctl := by unfold State.passEnd; split; rfl; (dsimp only; split <;> simp)
@[simp] theorem passEnd_mac0 (s : State) : s.passEnd.mac0 = s.mac0 := by unfold State.passEnd; split; rfl; (dsimp only; split <;> simp)
@[simp] theorem passEnd_mchash0 (s : State) : s.passEnd.mchash0 = s.mchash0 := by unfold State.passEnd; split; rfl; (dsimp only; split <;> simp)
@[simp] theorem passEnd_mchash1 (s : State) : s.passEnd.mchash1 = s.mchash1 := by unfold State.passEnd; split; rfl; (dsimp only; split <;> simp)
@[simp] theorem passEnd_maxpkt (s : State) : s.passEnd.maxpkt = s.maxpkt := by unfold State.passEnd; split; rfl; (dsimp only; split <;> simp)
@[simp] theorem passEnd_mac1 (s : State) : s.passEnd.mac1 = s.mac1 := by unfold State.passEnd; split; rfl; (dsimp only; split <;> simp)
@[simp] theorem passEnd_txArmed0 (s : State) : s.passEnd.txArmed0 = s.txArmed0 := by unfold State.passEnd; split; rfl; (dsimp only; split <;> simp)
@[simp] theorem passEnd_txArmed1 (s : State) : s.passEnd.txArmed1 = s.txArmed1 := by unfold State.passEnd; split; rfl; (dsimp only; split <;> simp)
@[simp] theorem passEnd_rxArmed (s : State) : s.passEnd.rxArmed = s.rxArmed := by unfold State.passEnd; split; rfl; (dsimp only; split <;> simp)
@[simp] theorem passEnd_txHead0 (s : State) : s.passEnd.txHead0 = s.txHead0 := by unfold State.passEnd; split; rfl; (dsimp only; split <;> simp)
@[simp] theorem passEnd_txHead1 (s : State) : s.passEnd.txHead1 = s.txHead1 := by unfold State.passEnd; split; rfl; (dsimp only; split <;> simp)
@[simp] theorem passEnd_rxHead (s : State) : s.passEnd.rxHead = s.rxHead := by unfold State.passEnd; split; rfl; (dsimp only; split <;> simp)
@[simp] theorem passEnd_pass (s : State) : s.passEnd.pass = none := by unfold State.passEnd; split; assumption; (dsimp only; split <;> simp)
@[simp] theorem passEnd_nextRing (s : State) : s.passEnd.nextRing = s.nextRing := by unfold State.passEnd; split; rfl; (dsimp only; split <;> simp)
@[simp] theorem passEnd_txQueue (s : State) : s.passEnd.txQueue = s.txQueue := by unfold State.passEnd; split; rfl; (dsimp only; split <;> simp)
@[simp] theorem passEnd_rxQueue (s : State) : s.passEnd.rxQueue = s.rxQueue := by unfold State.passEnd; split; rfl; (dsimp only; split <;> simp)
@[simp] theorem passEnd_txErrCount (s : State) : s.passEnd.txErrCount = s.txErrCount := by unfold State.passEnd; split; rfl; (dsimp only; split <;> simp)
@[simp] theorem passEnd_rxErrCount (s : State) : s.passEnd.rxErrCount = s.rxErrCount := by unfold State.passEnd; split; rfl; (dsimp only; split <;> simp)
@[simp] theorem passEnd_rxOverrunCount (s : State) : s.passEnd.rxOverrunCount = s.rxOverrunCount := by unfold State.passEnd; split; rfl; (dsimp only; split <;> simp)
@[simp] theorem passEnd_txDropCount (s : State) : s.passEnd.txDropCount = s.txDropCount := by unfold State.passEnd; split; rfl; (dsimp only; split <;> simp)
@[simp] theorem passEnd_rxDropCount (s : State) : s.passEnd.rxDropCount = s.rxDropCount := by unfold State.passEnd; split; rfl; (dsimp only; split <;> simp)
@[simp] theorem passEnd_txSendFailCount (s : State) : s.passEnd.txSendFailCount = s.txSendFailCount := by unfold State.passEnd; split; rfl; (dsimp only; split <;> simp)
@[simp] theorem passEnd_phy (s : State) : s.passEnd.phy = s.phy := by unfold State.passEnd; split; rfl; (dsimp only; split <;> simp)
@[simp] theorem passEnd_linkUp (s : State) : s.passEnd.linkUp = s.linkUp := by unfold State.passEnd; split; rfl; (dsimp only; split <;> simp)
@[simp] theorem passEnd_shutdown (s : State) : s.passEnd.shutdown = s.shutdown := by unfold State.passEnd; split; rfl; (dsimp only; split <;> simp)
@[simp] theorem passEnd_cfg (s : State) : s.passEnd.cfg = s.cfg := by unfold State.passEnd; split; rfl; (dsimp only; split <;> simp)
@[simp] theorem passEnd_mem (s : State) : s.passEnd.mem = s.mem := by unfold State.passEnd; split; rfl; (dsimp only; split <;> simp)
@[simp] theorem passEnd_schedule (s : State) : s.passEnd.schedule = s.schedule := by unfold State.passEnd; split; rfl; (dsimp only; split <;> simp)
@[simp] theorem passEnd_race (s : State) : s.passEnd.race = s.race := by unfold State.passEnd; split; rfl; (dsimp only; split <;> simp)

/-! ### `State.enqueueTx` -/

@[simp] theorem enqueueTx_txcfg (s : State) (f : Packet) : (s.enqueueTx f).txcfg = s.txcfg := by unfold State.enqueueTx; split <;> rfl
@[simp] theorem enqueueTx_txbase0 (s : State) (f : Packet) : (s.enqueueTx f).txbase0 = s.txbase0 := by unfold State.enqueueTx; split <;> rfl
@[simp] theorem enqueueTx_txbase1 (s : State) (f : Packet) : (s.enqueueTx f).txbase1 = s.txbase1 := by unfold State.enqueueTx; split <;> rfl
@[simp] theorem enqueueTx_rxcfg (s : State) (f : Packet) : (s.enqueueTx f).rxcfg = s.rxcfg := by unfold State.enqueueTx; split <;> rfl
@[simp] theorem enqueueTx_rxbase (s : State) (f : Packet) : (s.enqueueTx f).rxbase = s.rxbase := by unfold State.enqueueTx; split <;> rfl
@[simp] theorem enqueueTx_isr (s : State) (f : Packet) : (s.enqueueTx f).isr = s.isr := by unfold State.enqueueTx; split <;> rfl
@[simp] theorem enqueueTx_imr (s : State) (f : Packet) : (s.enqueueTx f).imr = s.imr := by unfold State.enqueueTx; split <;> rfl
@[simp] theorem enqueueTx_cfg0 (s : State) (f : Packet) : (s.enqueueTx f).cfg0 = s.cfg0 := by unfold State.enqueueTx; split <;> rfl
@[simp] theorem enqueueTx_pwr (s : State) (f : Packet) : (s.enqueueTx f).pwr = s.pwr := by unfold State.enqueueTx; split <;> rfl
@[simp] theorem enqueueTx_phycfg (s : State) (f : Packet) : (s.enqueueTx f).phycfg = s.phycfg := by unfold State.enqueueTx; split <;> rfl
@[simp] theorem enqueueTx_phyctl (s : State) (f : Packet) : (s.enqueueTx f).phyctl = s.phyctl := by unfold State.enqueueTx; split <;> rfl
@[simp] theorem enqueueTx_cfg1 (s : State) (f : Packet) : (s.enqueueTx f).cfg1 = s.cfg1 := by unfold State.enqueueTx; split <;> rfl
@[simp] theorem enqueueTx_retry (s : State) (f : Packet) : (s.enqueueTx f).retry = s.retry := by unfold State.enqueueTx; split <;> rfl
@[simp] theorem enqueueTx_mcctl (s : State) (f : Packet) : (s.enqueueTx f).mcctl = s.mcctl := by unfold State.enqueueTx; split <;> rfl
@[simp] theorem enqueueTx_mac0 (s : State) (f : Packet) : (s.enqueueTx f).mac0 = s.mac0 := by unfold State.enqueueTx; split <;> rfl
@[simp] theorem enqueueTx_mchash0 (s : State) (f : Packet) : (s.enqueueTx f).mchash0 = s.mchash0 := by unfold State.enqueueTx; split <;> rfl
@[simp] theorem enqueueTx_mchash1 (s : State) (f : Packet) : (s.enqueueTx f).mchash1 = s.mchash1 := by unfold State.enqueueTx; split <;> rfl
@[simp] theorem enqueueTx_maxpkt (s : State) (f : Packet) : (s.enqueueTx f).maxpkt = s.maxpkt := by unfold State.enqueueTx; split <;> rfl
@[simp] theorem enqueueTx_mac1 (s : State) (f : Packet) : (s.enqueueTx f).mac1 = s.mac1 := by unfold State.enqueueTx; split <;> rfl
@[simp] theorem enqueueTx_txArmed0 (s : State) (f : Packet) : (s.enqueueTx f).txArmed0 = s.txArmed0 := by unfold State.enqueueTx; split <;> rfl
@[simp] theorem enqueueTx_txArmed1 (s : State) (f : Packet) : (s.enqueueTx f).txArmed1 = s.txArmed1 := by unfold State.enqueueTx; split <;> rfl
@[simp] theorem enqueueTx_rxArmed (s : State) (f : Packet) : (s.enqueueTx f).rxArmed = s.rxArmed := by unfold State.enqueueTx; split <;> rfl
@[simp] theorem enqueueTx_txHead0 (s : State) (f : Packet) : (s.enqueueTx f).txHead0 = s.txHead0 := by unfold State.enqueueTx; split <;> rfl
@[simp] theorem enqueueTx_txHead1 (s : State) (f : Packet) : (s.enqueueTx f).txHead1 = s.txHead1 := by unfold State.enqueueTx; split <;> rfl
@[simp] theorem enqueueTx_rxHead (s : State) (f : Packet) : (s.enqueueTx f).rxHead = s.rxHead := by unfold State.enqueueTx; split <;> rfl
@[simp] theorem enqueueTx_pass (s : State) (f : Packet) : (s.enqueueTx f).pass = s.pass := by unfold State.enqueueTx; split <;> rfl
@[simp] theorem enqueueTx_nextRing (s : State) (f : Packet) : (s.enqueueTx f).nextRing = s.nextRing := by unfold State.enqueueTx; split <;> rfl
@[simp] theorem enqueueTx_rxQueue (s : State) (f : Packet) : (s.enqueueTx f).rxQueue = s.rxQueue := by unfold State.enqueueTx; split <;> rfl
@[simp] theorem enqueueTx_txErrCount (s : State) (f : Packet) : (s.enqueueTx f).txErrCount = s.txErrCount := by unfold State.enqueueTx; split <;> rfl
@[simp] theorem enqueueTx_rxErrCount (s : State) (f : Packet) : (s.enqueueTx f).rxErrCount = s.rxErrCount := by unfold State.enqueueTx; split <;> rfl
@[simp] theorem enqueueTx_rxOverrunCount (s : State) (f : Packet) : (s.enqueueTx f).rxOverrunCount = s.rxOverrunCount := by unfold State.enqueueTx; split <;> rfl
@[simp] theorem enqueueTx_rxDropCount (s : State) (f : Packet) : (s.enqueueTx f).rxDropCount = s.rxDropCount := by unfold State.enqueueTx; split <;> rfl
@[simp] theorem enqueueTx_txSendFailCount (s : State) (f : Packet) : (s.enqueueTx f).txSendFailCount = s.txSendFailCount := by unfold State.enqueueTx; split <;> rfl
@[simp] theorem enqueueTx_phy (s : State) (f : Packet) : (s.enqueueTx f).phy = s.phy := by unfold State.enqueueTx; split <;> rfl
@[simp] theorem enqueueTx_linkUp (s : State) (f : Packet) : (s.enqueueTx f).linkUp = s.linkUp := by unfold State.enqueueTx; split <;> rfl
@[simp] theorem enqueueTx_shutdown (s : State) (f : Packet) : (s.enqueueTx f).shutdown = s.shutdown := by unfold State.enqueueTx; split <;> rfl
@[simp] theorem enqueueTx_cfg (s : State) (f : Packet) : (s.enqueueTx f).cfg = s.cfg := by unfold State.enqueueTx; split <;> rfl
@[simp] theorem enqueueTx_mem (s : State) (f : Packet) : (s.enqueueTx f).mem = s.mem := by unfold State.enqueueTx; split <;> rfl
@[simp] theorem enqueueTx_schedule (s : State) (f : Packet) : (s.enqueueTx f).schedule = s.schedule := by unfold State.enqueueTx; split <;> rfl
@[simp] theorem enqueueTx_race (s : State) (f : Packet) : (s.enqueueTx f).race = s.race := by unfold State.enqueueTx; split <;> rfl
@[simp] theorem enqueueTx_history (s : State) (f : Packet) : (s.enqueueTx f).history = s.history := by unfold State.enqueueTx; split <;> rfl

/-! ### `State.enqueueRx` -/

@[simp] theorem enqueueRx_txcfg (s : State) (f : Packet) : (s.enqueueRx f).txcfg = s.txcfg := by unfold State.enqueueRx; split <;> rfl
@[simp] theorem enqueueRx_txbase0 (s : State) (f : Packet) : (s.enqueueRx f).txbase0 = s.txbase0 := by unfold State.enqueueRx; split <;> rfl
@[simp] theorem enqueueRx_txbase1 (s : State) (f : Packet) : (s.enqueueRx f).txbase1 = s.txbase1 := by unfold State.enqueueRx; split <;> rfl
@[simp] theorem enqueueRx_rxcfg (s : State) (f : Packet) : (s.enqueueRx f).rxcfg = s.rxcfg := by unfold State.enqueueRx; split <;> rfl
@[simp] theorem enqueueRx_rxbase (s : State) (f : Packet) : (s.enqueueRx f).rxbase = s.rxbase := by unfold State.enqueueRx; split <;> rfl
@[simp] theorem enqueueRx_isr (s : State) (f : Packet) : (s.enqueueRx f).isr = s.isr := by unfold State.enqueueRx; split <;> rfl
@[simp] theorem enqueueRx_imr (s : State) (f : Packet) : (s.enqueueRx f).imr = s.imr := by unfold State.enqueueRx; split <;> rfl
@[simp] theorem enqueueRx_cfg0 (s : State) (f : Packet) : (s.enqueueRx f).cfg0 = s.cfg0 := by unfold State.enqueueRx; split <;> rfl
@[simp] theorem enqueueRx_pwr (s : State) (f : Packet) : (s.enqueueRx f).pwr = s.pwr := by unfold State.enqueueRx; split <;> rfl
@[simp] theorem enqueueRx_phycfg (s : State) (f : Packet) : (s.enqueueRx f).phycfg = s.phycfg := by unfold State.enqueueRx; split <;> rfl
@[simp] theorem enqueueRx_phyctl (s : State) (f : Packet) : (s.enqueueRx f).phyctl = s.phyctl := by unfold State.enqueueRx; split <;> rfl
@[simp] theorem enqueueRx_cfg1 (s : State) (f : Packet) : (s.enqueueRx f).cfg1 = s.cfg1 := by unfold State.enqueueRx; split <;> rfl
@[simp] theorem enqueueRx_retry (s : State) (f : Packet) : (s.enqueueRx f).retry = s.retry := by unfold State.enqueueRx; split <;> rfl
@[simp] theorem enqueueRx_mcctl (s : State) (f : Packet) : (s.enqueueRx f).mcctl = s.mcctl := by unfold State.enqueueRx; split <;> rfl
@[simp] theorem enqueueRx_mac0 (s : State) (f : Packet) : (s.enqueueRx f).mac0 = s.mac0 := by unfold State.enqueueRx; split <;> rfl
@[simp] theorem enqueueRx_mchash0 (s : State) (f : Packet) : (s.enqueueRx f).mchash0 = s.mchash0 := by unfold State.enqueueRx; split <;> rfl
@[simp] theorem enqueueRx_mchash1 (s : State) (f : Packet) : (s.enqueueRx f).mchash1 = s.mchash1 := by unfold State.enqueueRx; split <;> rfl
@[simp] theorem enqueueRx_maxpkt (s : State) (f : Packet) : (s.enqueueRx f).maxpkt = s.maxpkt := by unfold State.enqueueRx; split <;> rfl
@[simp] theorem enqueueRx_mac1 (s : State) (f : Packet) : (s.enqueueRx f).mac1 = s.mac1 := by unfold State.enqueueRx; split <;> rfl
@[simp] theorem enqueueRx_txArmed0 (s : State) (f : Packet) : (s.enqueueRx f).txArmed0 = s.txArmed0 := by unfold State.enqueueRx; split <;> rfl
@[simp] theorem enqueueRx_txArmed1 (s : State) (f : Packet) : (s.enqueueRx f).txArmed1 = s.txArmed1 := by unfold State.enqueueRx; split <;> rfl
@[simp] theorem enqueueRx_rxArmed (s : State) (f : Packet) : (s.enqueueRx f).rxArmed = s.rxArmed := by unfold State.enqueueRx; split <;> rfl
@[simp] theorem enqueueRx_txHead0 (s : State) (f : Packet) : (s.enqueueRx f).txHead0 = s.txHead0 := by unfold State.enqueueRx; split <;> rfl
@[simp] theorem enqueueRx_txHead1 (s : State) (f : Packet) : (s.enqueueRx f).txHead1 = s.txHead1 := by unfold State.enqueueRx; split <;> rfl
@[simp] theorem enqueueRx_rxHead (s : State) (f : Packet) : (s.enqueueRx f).rxHead = s.rxHead := by unfold State.enqueueRx; split <;> rfl
@[simp] theorem enqueueRx_pass (s : State) (f : Packet) : (s.enqueueRx f).pass = s.pass := by unfold State.enqueueRx; split <;> rfl
@[simp] theorem enqueueRx_nextRing (s : State) (f : Packet) : (s.enqueueRx f).nextRing = s.nextRing := by unfold State.enqueueRx; split <;> rfl
@[simp] theorem enqueueRx_txQueue (s : State) (f : Packet) : (s.enqueueRx f).txQueue = s.txQueue := by unfold State.enqueueRx; split <;> rfl
@[simp] theorem enqueueRx_txErrCount (s : State) (f : Packet) : (s.enqueueRx f).txErrCount = s.txErrCount := by unfold State.enqueueRx; split <;> rfl
@[simp] theorem enqueueRx_rxErrCount (s : State) (f : Packet) : (s.enqueueRx f).rxErrCount = s.rxErrCount := by unfold State.enqueueRx; split <;> rfl
@[simp] theorem enqueueRx_rxOverrunCount (s : State) (f : Packet) : (s.enqueueRx f).rxOverrunCount = s.rxOverrunCount := by unfold State.enqueueRx; split <;> rfl
@[simp] theorem enqueueRx_txDropCount (s : State) (f : Packet) : (s.enqueueRx f).txDropCount = s.txDropCount := by unfold State.enqueueRx; split <;> rfl
@[simp] theorem enqueueRx_txSendFailCount (s : State) (f : Packet) : (s.enqueueRx f).txSendFailCount = s.txSendFailCount := by unfold State.enqueueRx; split <;> rfl
@[simp] theorem enqueueRx_phy (s : State) (f : Packet) : (s.enqueueRx f).phy = s.phy := by unfold State.enqueueRx; split <;> rfl
@[simp] theorem enqueueRx_linkUp (s : State) (f : Packet) : (s.enqueueRx f).linkUp = s.linkUp := by unfold State.enqueueRx; split <;> rfl
@[simp] theorem enqueueRx_shutdown (s : State) (f : Packet) : (s.enqueueRx f).shutdown = s.shutdown := by unfold State.enqueueRx; split <;> rfl
@[simp] theorem enqueueRx_cfg (s : State) (f : Packet) : (s.enqueueRx f).cfg = s.cfg := by unfold State.enqueueRx; split <;> rfl
@[simp] theorem enqueueRx_mem (s : State) (f : Packet) : (s.enqueueRx f).mem = s.mem := by unfold State.enqueueRx; split <;> rfl
@[simp] theorem enqueueRx_schedule (s : State) (f : Packet) : (s.enqueueRx f).schedule = s.schedule := by unfold State.enqueueRx; split <;> rfl
@[simp] theorem enqueueRx_race (s : State) (f : Packet) : (s.enqueueRx f).race = s.race := by unfold State.enqueueRx; split <;> rfl
@[simp] theorem enqueueRx_history (s : State) (f : Packet) : (s.enqueueRx f).history = s.history := by unfold State.enqueueRx; split <;> rfl

end Sys2Proof.Machine
end

