-- ==== Sys2Proof/Laws/Ops.lean ====
section
/-! SUPPORT. What each shared operation can do, said once: memory accesses, interrupts, queues, cursors, passes, the PHY
bank. Later proofs cite these and do not unfold the operations. -/

namespace Sys2Proof.Machine

/-! ### Per-ring accessors -/

@[simp] theorem head_setHead (s : State) (r : Ring) (i : Nat) (r' : Ring) :
    (s.setHead r i).head r' = if r' = r then i else s.head r' := by cases r <;> cases r' <;> rfl

theorem head_advanceCursor (s : State) (r : Ring) (w : Bool) (r' : Ring) :
    (s.advanceCursor r w).head r' = if r' = r then cursorAfter r w (s.head r) else s.head r' := head_setHead _ _ _ _

/-- The cursor stays on its ring (R39, R227). -/
theorem cursorAfter_lt (r : Ring) (w : Bool) (i : Nat) : cursorAfter r w i < ringLen r := by
  unfold cursorAfter
  split
  · cases r <;> decide
  · exact Nat.mod_lt _ (by cases r <;> decide)

/-- The per-ring accessors read the fields of their ring only. -/
theorem base_congr {s t : State} (h0 : t.txbase0 = s.txbase0) (h1 : t.txbase1 = s.txbase1) (h2 : t.rxbase = s.rxbase)
    (r : Ring) : t.base r = s.base r := by cases r <;> assumption

theorem head_congr {s t : State} (h0 : t.txHead0 = s.txHead0) (h1 : t.txHead1 = s.txHead1) (h2 : t.rxHead = s.rxHead)
    (r : Ring) : t.head r = s.head r := by cases r <;> assumption

theorem armed_congr {s t : State} (h0 : t.txArmed0 = s.txArmed0) (h1 : t.txArmed1 = s.txArmed1)
    (h2 : t.rxArmed = s.rxArmed) (r : Ring) : t.armed r = s.armed r := by cases r <;> assumption

@[simp] theorem armed_memRead (s : State) (a : Word) (n : Nat) (r : Ring) : (s.memRead a n).armed r = s.armed r :=
  armed_congr (by simp) (by simp) (by simp) r

@[simp] theorem base_memRead (s : State) (a : Word) (n : Nat) (r : Ring) : (s.memRead a n).base r = s.base r :=
  base_congr (by simp) (by simp) (by simp) r

@[simp] theorem head_memRead (s : State) (a : Word) (n : Nat) (r : Ring) : (s.memRead a n).head r = s.head r :=
  head_congr (by simp) (by simp) (by simp) r

@[simp] theorem descAddr_memRead (s : State) (a : Word) (n : Nat) (r : Ring) :
    (s.memRead a n).descAddr r = s.descAddr r := by simp [State.descAddr]

/-! ### Memory accesses -/

@[simp] theorem available_memRead (s : State) (a : Word) (n : Nat) (a' : Word) (n' : Nat) :
    (s.memRead a n).available a' n' = s.available a' n' := by simp [State.available]

theorem memReadAnswer_eq_some {s : State} {a : Word} {n : Nat} {b : List Byte} (h : s.memReadAnswer a n = some b) :
    s.available a n = true ∧ b = s.mem.getBytes a n ∧ b.length = n := by
  unfold State.memReadAnswer at h
  split at h
  · rename_i ha
    have hb := Option.some.inj h
    exact ⟨ha, hb.symm, by rw [← hb, Memory.length_getBytes]⟩
  · cases h

theorem memReadAnswer_eq_none {s : State} {a : Word} {n : Nat} (h : s.memReadAnswer a n = none) :
    s.available a n = false := by
  unfold State.memReadAnswer at h
  split at h
  · cases h
  · rename_i ha; simpa using ha

theorem payloadAnswer_eq_some {s : State} {a : Word} {n : Nat} {b : List Byte} (h : s.payloadAnswer a n = some b) :
    s.available a n = true ∧ b = s.payload a n := by
  unfold State.payloadAnswer at h
  split at h
  · exact ⟨‹_›, (Option.some.inj h).symm⟩
  · cases h

/-- With no guest access pending, a payload fetch returns the bytes in memory (R225). -/
theorem payload_quiet {s : State} {a : Word} {n : Nat} (h : s.race = []) : s.payload a n = s.mem.getBytes a n := by
  unfold State.payload; rw [h]

theorem payloadAnswer_quiet {s : State} {a : Word} {n : Nat} (h : s.race = []) : s.payloadAnswer a n = s.memReadAnswer a n := by
  unfold State.payloadAnswer State.memReadAnswer; rw [payload_quiet h]

/-- With no guest access pending, nothing happens between two accesses. -/
theorem guestMeanwhile_quiet {s : State} (h : s.race = []) : s.guestMeanwhile = s := by
  unfold State.guestMeanwhile; rw [h]

/-- With guest accesses pending, the next batch is made (R83, R88). -/
theorem guestMeanwhile_race {s : State} {r : RaceBatch} {rest : List RaceBatch} (h : s.race = r :: rest) :
    s.guestMeanwhile = { s.guestOps r.ops with race := rest } := by
  unfold State.guestMeanwhile; rw [h]

/-- What a read does to memory: the guest accesses that meet it (R82, R83). -/
theorem mem_memRead (s : State) (a : Word) {n : Nat} (hn : n ≠ 0) :
    (s.memRead a n).mem = s.mem.guestOps (s.raceOps 0) ∧ (s.memRead a n).race = s.race.drop 1 := by
  unfold State.memRead State.raceOps
  rw [if_neg hn]
  cases hr : s.race with
  | nil => rw [guestMeanwhile_quiet (by exact hr)]; exact ⟨rfl, hr⟩
  | cons r rest => rw [guestMeanwhile_race (r := r) (rest := rest) (by exact hr), guestOps_eq]; exact ⟨rfl, rfl⟩

/-- A quiet read only records itself. -/
theorem memRead_quiet {s : State} {a : Word} {n : Nat} (hn : n ≠ 0) (h : s.race = []) :
    s.memRead a n = s.log (.memRead a n (s.available a n)) := by
  rw [State.memRead, if_neg hn, guestMeanwhile_quiet (by simpa using h)]

/-- A quiet write-back stores four bytes and records itself (R231). -/
theorem writeBack_quiet {s : State} {a w : Word} (h : s.race = []) :
    s.writeBack a w =
      { s with mem := s.mem.setBytes a (le32bytes w), history := .memWrite a (le32bytes w) true :: s.history } := by
  rw [State.writeBack, guestMeanwhile_quiet (by simpa using h)]
  rfl

/-- A quiet write of an available range stores its bytes and records itself (R75). -/
theorem memWrite_quiet {s : State} {a : Word} {b : List Byte} (hb : b.length ≠ 0) (ha : s.available a b.length = true)
    (h : s.race = []) :
    s.memWrite a b = { s with mem := s.mem.setBytes a b, history := .memWrite a b true :: s.history } := by
  rw [State.memWrite, if_neg hb, if_pos ha, State.storePayload, log_race, h]
  rfl

/-- A quiet write of an unavailable range moves no byte (R75). -/
theorem memWrite_unavailable {s : State} {a : Word} {b : List Byte} (hb : b.length ≠ 0)
    (ha : s.available a b.length = false) (h : s.race = []) : s.memWrite a b = s.log (.memWrite a b false) := by
  rw [State.memWrite, if_neg hb, ha, if_neg (by simp), guestMeanwhile_quiet (by simpa using h)]

/-- A zero-length write is not performed (R75, D45). -/
theorem memWrite_nil {s : State} {a : Word} : s.memWrite a [] = s := rfl

theorem wf_guestMeanwhile {s : State} (h : s.mem.wf = true) : s.guestMeanwhile.mem.wf = true := by
  unfold State.guestMeanwhile
  split
  · exact h
  · rw [guestOps_eq]; exact Memory.wf_guestOps _ _ h

theorem wf_memRead {s : State} (a : Word) (n : Nat) (h : s.mem.wf = true) : (s.memRead a n).mem.wf = true := by
  unfold State.memRead
  split
  · exact h
  · exact wf_guestMeanwhile h

theorem wf_memWrite {s : State} (a : Word) (b : List Byte) (h : s.mem.wf = true) : (s.memWrite a b).mem.wf = true := by
  unfold State.memWrite
  split
  · exact h
  · split
    · unfold State.storePayload
      split
      · exact Memory.wf_setBytes b _ a h
      · exact wf_storeDuring a b _ _ _ _ h
    · exact wf_guestMeanwhile h

theorem wf_writeBack {s : State} (a w : Word) (h : s.mem.wf = true) : (s.writeBack a w).mem.wf = true :=
  wf_guestMeanwhile (Memory.wf_setBytes (le32bytes w) _ a h)

/-! ### What memory accesses add to the history -/

/-- `l` are loads of the guest CPU. -/
def OnlyLoads (l : List Event) : Prop := ∀ e ∈ l, ∃ a b, e = .guestLoad a b

theorem onlyLoads_nil : OnlyLoads [] := nofun

theorem onlyLoads_append {l l' : List Event} (h : OnlyLoads l) (h' : OnlyLoads l') : OnlyLoads (l ++ l') :=
  fun e he => (List.mem_append.mp he).elim (h e) (h' e)

theorem onlyLoads_one (a : Word) (b : List Byte) : OnlyLoads [.guestLoad a b] := by
  intro e he; rw [List.mem_singleton.mp he]; exact ⟨a, b, rfl⟩

/-- Guest loads are no engine accesses and no requests. -/
theorem OnlyLoads.filter {l : List Event} (h : OnlyLoads l) : l.filter Event.isMemAccess = [] := by
  rw [List.filter_eq_nil_iff]
  intro e he; obtain ⟨a, b, rfl⟩ := h e he; exact Bool.false_ne_true

theorem OnlyLoads.countP {l : List Event} (h : OnlyLoads l) : l.countP Event.isRequest = 0 := by
  rw [List.countP_eq_zero]
  intro e he; obtain ⟨a, b, rfl⟩ := h e he; exact Bool.false_ne_true

theorem history_guestOps : ∀ (gs : List GuestOp) (s : State), ∃ l, OnlyLoads l ∧ (s.guestOps gs).history = l ++ s.history
  | [], _ => ⟨[], onlyLoads_nil, rfl⟩
  | .store a b :: gs, s => history_guestOps gs { s with mem := s.mem.setBytes a b }
  | .load a n :: gs, s => by
    obtain ⟨l, hl, h⟩ := history_guestOps gs (s.log (.guestLoad a (s.mem.getBytes a n)))
    exact ⟨l ++ [.guestLoad a (s.mem.getBytes a n)], onlyLoads_append hl (onlyLoads_one _ _), by
      rw [State.guestOps, State.guestOp, h, List.append_assoc]; rfl⟩

theorem history_guestMeanwhile (s : State) : ∃ l, OnlyLoads l ∧ s.guestMeanwhile.history = l ++ s.history := by
  unfold State.guestMeanwhile
  split
  · exact ⟨[], onlyLoads_nil, rfl⟩
  · exact history_guestOps _ s

theorem history_storeDuring (a : Word) (b : List Byte) (seen : List Nat) : ∀ (gs : List GuestOp) (s : State) (i : Nat),
    ∃ l, OnlyLoads l ∧ (s.storeDuring a b seen i gs).history = l ++ s.history
  | [], _, _ => ⟨[], onlyLoads_nil, rfl⟩
  | .store _ _ :: gs, _, i => history_storeDuring a b seen gs _ (i + 1)
  | .load p n :: gs, s, i => by
    let u : State := { s with mem := s.mem.setPhase a i false seen b }
    obtain ⟨l, hl, h⟩ := history_storeDuring a b seen gs (u.log (.guestLoad p (u.mem.getBytes p n))) (i + 1)
    exact ⟨l ++ [.guestLoad p (u.mem.getBytes p n)], onlyLoads_append hl (onlyLoads_one _ _), by
      rw [State.storeDuring, State.guestOp, h, List.append_assoc]; rfl⟩

theorem history_storePayload (s : State) (a : Word) (b : List Byte) :
    ∃ l, OnlyLoads l ∧ (s.storePayload a b).history = l ++ s.history := by
  unfold State.storePayload
  split
  · exact ⟨[], onlyLoads_nil, rfl⟩
  · exact history_storeDuring a b _ _ s 0

/-- What a read adds to the history: itself, unless it has length zero, and guest loads. -/
theorem history_memRead (s : State) (a : Word) (n : Nat) :
    ∃ l, OnlyLoads l ∧
      (s.memRead a n).history = l ++ if n = 0 then s.history else .memRead a n (s.available a n) :: s.history := by
  unfold State.memRead
  split
  · exact ⟨[], onlyLoads_nil, rfl⟩
  · exact history_guestMeanwhile _

theorem history_memWrite (s : State) (a : Word) (b : List Byte) :
    ∃ l, OnlyLoads l ∧ (s.memWrite a b).history =
      l ++ if b.length = 0 then s.history else .memWrite a b (s.available a b.length) :: s.history := by
  unfold State.memWrite
  split
  · exact ⟨[], onlyLoads_nil, rfl⟩
  · split
    · rename_i h; rw [h]; exact history_storePayload _ a b
    · rename_i h; rw [Bool.not_eq_true] at h; rw [h]; exact history_guestMeanwhile _

theorem history_writeBack (s : State) (a w : Word) :
    ∃ l, OnlyLoads l ∧ (s.writeBack a w).history = l ++ .memWrite a (le32bytes w) true :: s.history :=
  history_guestMeanwhile _

/-! ### Interrupts and passes -/

/-- The history after a raise: one request if the masked status is not zero (R322). -/
theorem history_raiseInt (s : State) (c : Word) :
    (s.raiseInt c).history =
      if s.imr &&& (s.isr ||| c) = 0 then s.history else .irqRequest s.cfg.irqTag :: s.history := by
  unfold State.raiseInt requestDue
  dsimp only
  by_cases h : s.imr &&& (s.isr ||| c) = 0
  · rw [if_pos h, h]; rfl
  · rw [if_neg h, if_pos (bne_iff_ne.mpr h)]; rfl

/-- A raise as a whole (R322, R326). -/
theorem raiseInt_eq (s : State) (c : Word) :
    s.raiseInt c = { s with isr := s.isr ||| c, history := (s.raiseInt c).history } := by
  unfold State.raiseInt
  dsimp only
  split <;> rfl

theorem passEnd_none {s : State} (h : s.pass = none) : s.passEnd = s := by unfold State.passEnd; rw [h]

/-- A pass that consumed nothing closes and raises nothing (R229). -/
theorem passEnd_empty {s : State} {p : Pass} (h : s.pass = some p) (hc : p.consumed = 0) :
    s.passEnd = { s with pass := none } := by
  unfold State.passEnd; rw [h]; simp [hc]

/-- A pass that consumed something closes and raises its ring's cause once (R229, R324). -/
theorem passEnd_consumed {s : State} {p : Pass} (h : s.pass = some p) (hc : 1 ≤ p.consumed) :
    s.passEnd = { s with pass := none }.raiseInt (ringCause p.ring) := by
  unfold State.passEnd; rw [h]; simp only [if_pos hc]

/-- What ending a pass can do. -/
theorem passEnd_cases (s : State) :
    (s.pass = none ∧ s.passEnd = s) ∨
    (∃ p, s.pass = some p ∧ p.consumed = 0 ∧ s.passEnd = { s with pass := none }) ∨
    (∃ p, s.pass = some p ∧ 1 ≤ p.consumed ∧ s.passEnd = { s with pass := none }.raiseInt (ringCause p.ring)) := by
  cases h : s.pass with
  | none => exact .inl ⟨rfl, passEnd_none h⟩
  | some p =>
    by_cases hc : p.consumed = 0
    · exact .inr (.inl ⟨p, rfl, hc, passEnd_empty h hc⟩)
    · exact .inr (.inr ⟨p, rfl, by omega, passEnd_consumed h (by omega)⟩)

/-- Every cause the device raises is one of the four (R25, R321). -/
theorem ringCause_sub (r : Ring) : ringCause r &&& ~~~intAll = 0 := by cases r <;> decide

theorem intLink_sub : intLink &&& ~~~intAll = 0 := by decide

/-! ### Queues -/

/-- What enqueueing can do (R281). -/
theorem enqueueTx_cases (s : State) (f : Packet) :
    (s.txQueue.length < 256 ∧ s.enqueueTx f = { s with txQueue := s.txQueue ++ [f] }) ∨
    (256 ≤ s.txQueue.length ∧ s.enqueueTx f = { s with txDropCount := s.txDropCount + 1 }) := by
  unfold State.enqueueTx queueCap
  split
  · exact .inl ⟨‹_›, rfl⟩
  · exact .inr ⟨by omega, rfl⟩

theorem enqueueRx_cases (s : State) (f : Packet) :
    (s.rxQueue.length < 256 ∧ s.enqueueRx f = { s with rxQueue := s.rxQueue ++ [f] }) ∨
    (256 ≤ s.rxQueue.length ∧ s.enqueueRx f = { s with rxDropCount := s.rxDropCount + 1 }) := by
  unfold State.enqueueRx queueCap
  split
  · exact .inl ⟨‹_›, rfl⟩
  · exact .inr ⟨by omega, rfl⟩

/-! ### The PHY bank -/

@[simp] theorem phyGet_setPhy (s : State) (p n : BitVec 5) (d : Half) (p' n' : BitVec 5) :
    phyGet (s.setPhy p n d).phy p' n' = if p' = p ∧ n' = n then d else phyGet s.phy p' n' := phyGet_phySet _ _ _ _ _ _

/-- `PhyCtrlWrite` changes the bank only (R193). -/
theorem phyCtrlWrite_eq (s : State) (p : BitVec 5) (d : Half) :
    s.phyCtrlWrite p d = { s with phy := (s.phyCtrlWrite p d).phy } := by
  unfold State.phyCtrlWrite; split <;> rfl

/-- The bank after `PhyCtrlWrite` (R193, R197). -/
theorem phyGet_phyCtrlWrite (s : State) (p : BitVec 5) (d : Half) (p' n' : BitVec 5) :
    phyGet (s.phyCtrlWrite p d).phy p' n' =
      if d.getLsbD 15 = true then
        (if p' = p ∧ n' = 1 then statusDefault s.cfg s.linkUp
         else if p' = p ∧ n' = 0 then s.cfg.phyDefault[0] else phyGet s.phy p' n')
      else if p' = p ∧ n' = 0 then d else phyGet s.phy p' n' := by
  unfold State.phyCtrlWrite
  split
  · rw [phyGet_setPhy, phyGet_setPhy]; rfl
  · rw [phyGet_setPhy]

theorem anarFixup_eq (s : State) : s.anarFixup = { s with phy := s.anarFixup.phy } := rfl

/-- The bank after the fix-up (R195). -/
theorem phyGet_anarFixup (s : State) (p' n' : BitVec 5) :
    phyGet s.anarFixup.phy p' n' =
      if p' = 1 ∧ n' = s.cfg.anarFixupReg then phyGet s.phy 1 s.cfg.anarFixupReg ||| s.cfg.anarFixupMask
      else phyGet s.phy p' n' := phyGet_setPhy _ _ _ _ _ _

/-- `PhyWrite` changes the bank only (R192). -/
theorem phyWrite_eq (s : State) (p n : BitVec 5) (d : Half) :
    s.phyWrite p n d = { s with phy := (s.phyWrite p n d).phy } := by
  unfold State.phyWrite
  split
  · exact phyCtrlWrite_eq s p d
  · split
    · rfl
    · dsimp only; split <;> rfl

/-- `PhyWrite` never writes an identifier register, if the fix-up does not aim at one (R194). -/
theorem phyGet_phyWrite_identifier {s : State} (h2 : s.cfg.anarFixupReg ≠ 2) (h3 : s.cfg.anarFixupReg ≠ 3)
    (p n : BitVec 5) (d : Half) (p' n' : BitVec 5) (hn : n' = 2 ∨ n' = 3) :
    phyGet (s.phyWrite p n d).phy p' n' = phyGet s.phy p' n' := by
  have hne0 : n' ≠ 0 := by rcases hn with rfl | rfl <;> decide
  have hne1 : n' ≠ 1 := by rcases hn with rfl | rfl <;> decide
  have hfix : n' ≠ s.cfg.anarFixupReg := by rcases hn with rfl | rfl <;> [exact h2.symm; exact h3.symm]
  unfold State.phyWrite
  split
  · rw [phyGet_phyCtrlWrite]
    split
    · rw [if_neg (fun h => hne1 h.2), if_neg (fun h => hne0 h.2)]
    · rw [if_neg (fun h => hne0 h.2)]
  · split
    · rfl
    · rename_i hid
      have hne : n' ≠ n := by rintro rfl; exact hid hn
      dsimp only
      split
      · rw [phyGet_anarFixup, if_neg (fun h => hfix h.2), phyGet_setPhy, if_neg (fun h => hne h.2)]
      · rw [phyGet_setPhy, if_neg (fun h => hne h.2)]

/-! ### Outcomes -/

/-- What a guest access can answer. -/
theorem guestAccess_next {s t u : State} (h : guestAccess s t = .next u) : s.shutdown = false ∧ u = t := by
  unfold guestAccess at h
  split at h
  · cases h
  · rename_i hs; cases h; exact ⟨by simpa using hs, rfl⟩

theorem guestAccess_running {s t : State} (h : s.shutdown = false) : guestAccess s t = .next t := by
  unfold guestAccess; rw [h]; rfl

theorem guestRead_next {s u : State} {off : Nat} {b : List Byte} (h : guestRead s off b = .next u) :
    s.shutdown = false ∧ u = s.log (.readData off b) := guestAccess_next h

theorem guestRead_running {s : State} {off : Nat} {b : List Byte} (h : s.shutdown = false) :
    guestRead s off b = .next (s.log (.readData off b)) := guestAccess_running h

end Sys2Proof.Machine
end

