-- ==== Sys2Proof/Laws/Engine.lean ====
section
/-! SUPPORT. What a descriptor step can do: the closure of the engine's primitive operations, the fields no descriptor step
touches, and the steps written out where no guest access falls inside them. -/

namespace Sys2Proof.Machine

/-! ### The primitives of a descriptor step -/

/-- A relation between states that holds of every primitive operation of a descriptor step. -/
structure EngineClosed (R : State → State → Prop) : Prop where
  refl : ∀ s, R s s
  trans : ∀ s t u, R s t → R t u → R s u
  memRead : ∀ s a n, R s (s.memRead a n)
  memWrite : ∀ s a b, R s (s.memWrite a b)
  writeBack : ∀ s a w, R s (s.writeBack a w)
  advance : ∀ s r w, R s (s.advanceCursor r w)
  count : ∀ s, R s s.countConsumed
  enqueue : ∀ s f, R s (s.enqueueTx f)
  dequeue : ∀ s, R s s.dequeueRx
  txErr : ∀ s : State, R s { s with txErrCount := s.txErrCount + 1 }
  rxErr : ∀ s : State, R s { s with rxErrCount := s.rxErrCount + 1 }
  overrun : ∀ s : State, R s { s with rxOverrunCount := s.rxOverrunCount + 1 }

variable {R : State → State → Prop}

theorem EngineClosed.txError (h : EngineClosed R) (s : State) (r : Ring) (a : Word) (d : TxDesc) :
    R s (s.txError r a d) :=
  h.trans _ _ _ (h.trans _ _ _ (h.txErr s) (h.writeBack _ _ _)) (h.advance _ _ _)

theorem EngineClosed.txDeliver (h : EngineClosed R) (s : State) (r : Ring) (a : Word) (d : TxDesc) (b : Packet) :
    R s (s.txDeliver r a d b) :=
  h.trans _ _ _ (h.trans _ _ _ (h.enqueue s b) (h.writeBack _ _ _)) (h.advance _ _ _)

theorem EngineClosed.txConsume (h : EngineClosed R) (s : State) (r : Ring) (d : TxDesc) : R s (s.txConsume r d) := by
  unfold State.txConsume
  dsimp only
  refine h.trans _ _ _ ?_ (h.count _)
  split
  · exact h.txError _ _ _ _
  · split
    · exact h.trans _ _ _ (h.memRead _ _ _) (h.txError _ _ _ _)
    · exact h.trans _ _ _ (h.memRead _ _ _) (h.txDeliver _ _ _ _ _)

theorem EngineClosed.rxReturn (h : EngineClosed R) (s : State) (a : Word) (d : RxDesc) (n : Nat) :
    R s (s.rxReturn a d n) :=
  h.trans _ _ _ (h.trans _ _ _ (h.trans _ _ _ (h.dequeue s) (h.writeBack _ _ _)) (h.writeBack _ _ _)) (h.advance _ _ _)

theorem EngineClosed.countOverrun (h : EngineClosed R) (s : State) (b : Bool) : R s (s.countOverrun b) := by
  unfold State.countOverrun
  split
  · exact h.overrun s
  · exact h.refl s

theorem EngineClosed.rxDeposit (h : EngineClosed R) (s : State) (a : Word) (d : RxDesc) (f : Packet) :
    R s (s.rxDeposit a d f) := by
  unfold State.rxDeposit State.rxBufError
  dsimp only
  split
  · exact h.trans _ _ _ (h.memWrite s _ _) (h.trans _ _ _ (h.countOverrun _ _) (h.rxReturn _ _ _ _))
  · exact h.trans _ _ _ (h.memWrite s _ _) (h.trans _ _ _ (h.rxErr _) (h.rxReturn _ _ _ _))

theorem EngineClosed.rxConsume (h : EngineClosed R) (s : State) (d : RxDesc) (f : Packet) : R s (s.rxConsume d f) :=
  h.trans _ _ _ (h.rxDeposit _ _ _ _) (h.count _)

theorem EngineClosed.txAct (h : EngineClosed R) (hend : ∀ s, R s s.passEnd) (s : State) (r : Ring) (d : List Byte) :
    R s (s.txAct r d) := by
  unfold State.txAct
  split
  · exact h.txConsume _ _ _
  · exact hend s

theorem EngineClosed.rxAct (h : EngineClosed R) (hend : ∀ s, R s s.passEnd) (s : State) (d : List Byte) (f : Packet) :
    R s (s.rxAct d f) := by
  unfold State.rxAct
  split
  · exact h.rxConsume _ _ _
  · exact hend s

/-- A transmit descriptor step is made of the primitives and of the end of a pass. -/
theorem EngineClosed.txStep (h : EngineClosed R) (hend : ∀ s, R s s.passEnd) (s : State) (r : Ring) (n : Nat) :
    R s (s.txStep r n) := by
  unfold State.txStep
  split
  · exact hend s
  · dsimp only
    split
    · exact h.trans _ _ _ (h.memRead _ _ _) (hend _)
    · exact h.trans _ _ _ (h.memRead _ _ _) (h.txAct hend _ _ _)

/-- A receive descriptor step is made of the primitives and of the end of a pass. -/
theorem EngineClosed.rxStep (h : EngineClosed R) (hend : ∀ s, R s s.passEnd) (s : State) : R s s.rxStep := by
  unfold State.rxStep
  split
  · exact hend s
  · split
    · exact hend s
    · dsimp only
      split
      · exact h.trans _ _ _ (h.memRead _ _ _) (hend _)
      · exact h.trans _ _ _ (h.memRead _ _ _) (h.rxAct hend _ _ _)

/-- A transmit descriptor step that finds a stop condition is `PassEnd`, after the fetch if it came to one (R222, R229). -/
theorem txStep_stops {s : State} {r : Ring} {n : Nat} (h : s.txStops r n = true) :
    s.txStep r n =
      if s.armed r = true ∧ n ≠ ringLen r then (s.memRead (s.descAddr r) 16).passEnd else s.passEnd := by
  unfold State.txStep
  by_cases hc : s.armed r = true ∧ n ≠ ringLen r
  · obtain ⟨ha, hn⟩ := hc
    rw [if_neg (by rw [ha]; simp [hn]), if_pos ⟨ha, hn⟩]
    dsimp only
    split
    · rfl
    · rename_i d hd
      simp only [State.txStops, ha, hd, Option.all_some, Bool.not_true, Bool.false_or, Bool.or_eq_true, beq_iff_eq] at h
      rw [State.txAct, if_neg (by rcases h with h | h; exact absurd h hn; simpa using h)]
  · rw [if_neg hc, if_pos (by rwa [not_and_or, Bool.not_eq_true, not_not] at hc)]

/-- With no stop condition a transmit descriptor step consumes the descriptor it fetched (R222). -/
theorem txStep_goes {s : State} {r : Ring} {n : Nat} (h : s.txStops r n = false) :
    ∃ d, s.armed r = true ∧ n ≠ ringLen r ∧ s.memReadAnswer (s.descAddr r) 16 = some d ∧ ownBit d = true ∧
      s.txStep r n = (s.memRead (s.descAddr r) 16).txConsume r (txFields d) := by
  simp only [State.txStops, Bool.or_eq_false_iff, Bool.not_eq_false', beq_eq_false_iff_ne] at h
  obtain ⟨⟨ha, hn⟩, hd⟩ := h
  match e : s.memReadAnswer (s.descAddr r) 16 with
  | none => rw [e] at hd; cases hd
  | some d =>
    rw [e] at hd
    have ho : ownBit d = true := by simpa using hd
    refine ⟨d, ha, hn, rfl, ho, ?_⟩
    unfold State.txStep
    rw [if_neg (by rw [not_or, Bool.not_eq_false]; exact ⟨ha, hn⟩)]
    dsimp only
    rw [e]
    exact if_pos ho

/-- A receive descriptor step that finds a stop condition is `PassEnd`, after the fetch if it came to one (R251, R229). -/
theorem rxStep_stops {s : State} (h : s.rxStops = true) :
    s.rxStep =
      if s.rxArmed = true ∧ s.rxQueue ≠ [] then (s.memRead (s.descAddr .rx) 16).passEnd else s.passEnd := by
  unfold State.rxStep
  split
  · rename_i hq; rw [if_neg (fun hc => hc.2 hq)]
  · rename_i f rest hq
    cases ha : s.rxArmed with
    | false => rw [if_pos rfl, if_neg (fun hc => Bool.false_ne_true hc.1)]
    | true =>
      rw [if_neg (by decide), if_pos ⟨rfl, by rw [hq]; exact List.cons_ne_nil _ _⟩]
      dsimp only
      split
      · rfl
      · rename_i d hd
        simp only [State.rxStops, hq, ha, hd, Option.all_some, List.isEmpty_cons, Bool.not_true, Bool.false_or] at h
        rw [State.rxAct, if_neg (by simpa using h)]

/-! ### What no descriptor step touches -/

/-- `t` differs from `s` only in what the engine's descriptor steps write: ISR, cursors, pass, queues, counters, guest memory,
the pending guest accesses and the history (R334). -/
def EngineFrame (s t : State) : Prop :=
  t = { s with
    isr := t.isr, txHead0 := t.txHead0, txHead1 := t.txHead1, rxHead := t.rxHead, pass := t.pass,
    txQueue := t.txQueue, rxQueue := t.rxQueue, txErrCount := t.txErrCount, rxErrCount := t.rxErrCount,
    rxOverrunCount := t.rxOverrunCount, txDropCount := t.txDropCount, mem := t.mem, race := t.race, history := t.history }

/-! The fields a descriptor step leaves alone, one by one. -/

theorem EngineFrame.txcfg {s t : State} (h : EngineFrame s t) : t.txcfg = s.txcfg := by rw [h]

theorem EngineFrame.txbase0 {s t : State} (h : EngineFrame s t) : t.txbase0 = s.txbase0 := by rw [h]

theorem EngineFrame.txbase1 {s t : State} (h : EngineFrame s t) : t.txbase1 = s.txbase1 := by rw [h]

theorem EngineFrame.rxcfg {s t : State} (h : EngineFrame s t) : t.rxcfg = s.rxcfg := by rw [h]

theorem EngineFrame.rxbase {s t : State} (h : EngineFrame s t) : t.rxbase = s.rxbase := by rw [h]

theorem EngineFrame.imr {s t : State} (h : EngineFrame s t) : t.imr = s.imr := by rw [h]

theorem EngineFrame.cfg0 {s t : State} (h : EngineFrame s t) : t.cfg0 = s.cfg0 := by rw [h]

theorem EngineFrame.pwr {s t : State} (h : EngineFrame s t) : t.pwr = s.pwr := by rw [h]

theorem EngineFrame.phycfg {s t : State} (h : EngineFrame s t) : t.phycfg = s.phycfg := by rw [h]

theorem EngineFrame.phyctl {s t : State} (h : EngineFrame s t) : t.phyctl = s.phyctl := by rw [h]

theorem EngineFrame.cfg1 {s t : State} (h : EngineFrame s t) : t.cfg1 = s.cfg1 := by rw [h]

theorem EngineFrame.retry {s t : State} (h : EngineFrame s t) : t.retry = s.retry := by rw [h]

theorem EngineFrame.mcctl {s t : State} (h : EngineFrame s t) : t.mcctl = s.mcctl := by rw [h]

theorem EngineFrame.mac0 {s t : State} (h : EngineFrame s t) : t.mac0 = s.mac0 := by rw [h]

theorem EngineFrame.mchash0 {s t : State} (h : EngineFrame s t) : t.mchash0 = s.mchash0 := by rw [h]

theorem EngineFrame.mchash1 {s t : State} (h : EngineFrame s t) : t.mchash1 = s.mchash1 := by rw [h]

theorem EngineFrame.maxpkt {s t : State} (h : EngineFrame s t) : t.maxpkt = s.maxpkt := by rw [h]

theorem EngineFrame.mac1 {s t : State} (h : EngineFrame s t) : t.mac1 = s.mac1 := by rw [h]

theorem EngineFrame.txArmed0 {s t : State} (h : EngineFrame s t) : t.txArmed0 = s.txArmed0 := by rw [h]

theorem EngineFrame.txArmed1 {s t : State} (h : EngineFrame s t) : t.txArmed1 = s.txArmed1 := by rw [h]

theorem EngineFrame.rxArmed {s t : State} (h : EngineFrame s t) : t.rxArmed = s.rxArmed := by rw [h]

theorem EngineFrame.nextRing {s t : State} (h : EngineFrame s t) : t.nextRing = s.nextRing := by rw [h]

theorem EngineFrame.rxDropCount {s t : State} (h : EngineFrame s t) : t.rxDropCount = s.rxDropCount := by rw [h]

theorem EngineFrame.txSendFailCount {s t : State} (h : EngineFrame s t) : t.txSendFailCount = s.txSendFailCount := by rw [h]

theorem EngineFrame.phy {s t : State} (h : EngineFrame s t) : t.phy = s.phy := by rw [h]

theorem EngineFrame.linkUp {s t : State} (h : EngineFrame s t) : t.linkUp = s.linkUp := by rw [h]

theorem EngineFrame.shutdown {s t : State} (h : EngineFrame s t) : t.shutdown = s.shutdown := by rw [h]

theorem EngineFrame.cfg {s t : State} (h : EngineFrame s t) : t.cfg = s.cfg := by rw [h]

theorem EngineFrame.schedule {s t : State} (h : EngineFrame s t) : t.schedule = s.schedule := by rw [h]

theorem engineFrame_refl (s : State) : EngineFrame s s := rfl

theorem engineFrame_trans (s t u : State) (h : EngineFrame s t) (h' : EngineFrame t u) : EngineFrame s u := by
  unfold EngineFrame at h h' ⊢
  generalize ht : t = t' at h
  rw [h']
  subst ht
  rw [h]

theorem engineFrame_raiseInt (s : State) (c : Word) : EngineFrame s (s.raiseInt c) := by
  unfold EngineFrame State.raiseInt
  dsimp only
  split <;> rfl

theorem engineFrame_passEnd (s : State) : EngineFrame s s.passEnd := by
  rcases passEnd_cases s with ⟨_, h⟩ | ⟨p, _, _, h⟩ | ⟨p, _, _, h⟩
  · rw [h]; exact engineFrame_refl s
  · rw [h]; rfl
  · rw [h]
    refine engineFrame_trans _ _ _ ?_ (engineFrame_raiseInt _ _)
    rfl

theorem engineFrame_closed : EngineClosed EngineFrame where
  refl := engineFrame_refl
  trans := engineFrame_trans
  memRead s a n := by rw [memRead_eq]; rfl
  memWrite s a b := by rw [memWrite_eq]; rfl
  writeBack s a w := by rw [writeBack_eq]; rfl
  advance s r w := by cases r <;> rfl
  count s := rfl
  enqueue s f := by
    rcases enqueueTx_cases s f with ⟨_, h⟩ | ⟨_, h⟩ <;> rw [h] <;> rfl
  dequeue s := rfl
  txErr s := rfl
  rxErr s := rfl
  overrun s := rfl

/-- Guest memory stays canonical through a descriptor step. -/
theorem wf_closed : EngineClosed fun s t => s.mem.wf = true → t.mem.wf = true where
  refl _ := id
  trans _ _ _ h h' := h' ∘ h
  memRead _ a n := wf_memRead a n
  memWrite _ a b := wf_memWrite a b
  writeBack _ a w := wf_writeBack a w
  advance s r w h := by simpa using h
  count _ := id
  enqueue s f h := by simpa using h
  dequeue _ := id
  txErr _ := id
  rxErr _ := id
  overrun _ := id

/-- After `PassEnd` no pass is open (R229). -/
theorem pass_passEnd (s : State) : s.passEnd.pass = none := by
  rcases passEnd_cases s with ⟨h', h⟩ | ⟨p, _, _, h⟩ | ⟨p, _, _, h⟩ <;> rw [h]
  · exact h'
  · simp

/-- A consumed TX descriptor counts once (R222). -/
theorem pass_txConsume {s : State} {p : Pass} (r : Ring) (d : TxDesc) (h : s.pass = some p) :
    (s.txConsume r d).pass = some { p with steps := p.steps + 1, consumed := p.consumed + 1 } := by
  have hm : (s.txConsume r d).pass = s.pass.map fun p => { p with steps := p.steps + 1, consumed := p.consumed + 1 } := by
    unfold State.txConsume State.txError State.txDeliver
    dsimp only
    simp only [countConsumed_pass]
    congr 1
    split
    · simp
    · split <;> simp
  rw [hm, h]; rfl

/-- A consumed RX descriptor counts once (R251). -/
theorem pass_rxConsume {s : State} {p : Pass} (d : RxDesc) (f : Packet) (h : s.pass = some p) :
    (s.rxConsume d f).pass = some { p with steps := p.steps + 1, consumed := p.consumed + 1 } := by
  have hm : (s.rxConsume d f).pass = s.pass.map fun p => { p with steps := p.steps + 1, consumed := p.consumed + 1 } := by
    unfold State.rxConsume State.rxDeposit State.rxBufError State.rxReturn State.countOverrun
    dsimp only
    simp only [countConsumed_pass]
    congr 1
    split
    · split <;> simp
    · simp
  rw [hm, h]; rfl

/-! ### Descriptor steps with no guest access inside -/

theorem txError_quiet {s : State} (hq : s.race = []) (r : Ring) (a : Word) (d : TxDesc) :
    s.txError r a d =
      { s with
        txErrCount := s.txErrCount + 1
        mem := s.mem.setBytes (a + 4) (le32bytes (statusReturned d.statusRest))
        history := .memWrite (a + 4) (le32bytes (statusReturned d.statusRest)) true :: s.history }.setHead r
          (cursorAfter r d.wrap (s.head r)) := by
  rw [State.txError, writeBack_quiet (by simpa using hq)]
  cases r <;> rfl

/-- What the queue and its drop counter are after `Enqueue` (R281). -/
theorem enqueueTx_eq (s : State) (f : Packet) :
    s.enqueueTx f = { s with
      txQueue := if s.txQueue.length < 256 then s.txQueue ++ [f] else s.txQueue
      txDropCount := if s.txQueue.length < 256 then s.txDropCount else s.txDropCount + 1 } := by
  rcases enqueueTx_cases s f with ⟨h, e⟩ | ⟨h, e⟩
  · rw [e, if_pos h, if_pos h]
  · rw [e, if_neg (by omega), if_neg (by omega)]

theorem enqueueRx_eq (s : State) (f : Packet) :
    s.enqueueRx f = { s with
      rxQueue := if s.rxQueue.length < 256 then s.rxQueue ++ [f] else s.rxQueue
      rxDropCount := if s.rxQueue.length < 256 then s.rxDropCount else s.rxDropCount + 1 } := by
  rcases enqueueRx_cases s f with ⟨h, e⟩ | ⟨h, e⟩
  · rw [e, if_pos h, if_pos h]
  · rw [e, if_neg (by omega), if_neg (by omega)]

theorem txDeliver_quiet {s : State} (hq : s.race = []) (r : Ring) (a : Word) (d : TxDesc) (b : Packet) :
    s.txDeliver r a d b =
      { s with
        txQueue := if s.txQueue.length < 256 then s.txQueue ++ [b] else s.txQueue
        txDropCount := if s.txQueue.length < 256 then s.txDropCount else s.txDropCount + 1
        mem := s.mem.setBytes (a + 4) (le32bytes (statusReturned d.statusRest))
        history := .memWrite (a + 4) (le32bytes (statusReturned d.statusRest)) true :: s.history }.setHead r
          (cursorAfter r d.wrap (s.head r)) := by
  rw [State.txDeliver, writeBack_quiet (by simpa using hq), enqueueTx_eq]
  cases r <;> rfl

theorem rxReturn_quiet {s : State} (hq : s.race = []) (a : Word) (d : RxDesc) (n : Nat) :
    s.rxReturn a d n =
      { s with
        rxQueue := s.rxQueue.tail
        rxHead := cursorAfter .rx d.wrap s.rxHead
        mem := (s.mem.setBytes a (le32bytes (BitVec.ofNat 32 n))).setBytes (a + 4)
          (le32bytes (statusReturned d.statusRest))
        history := .memWrite (a + 4) (le32bytes (statusReturned d.statusRest)) true ::
          .memWrite a (le32bytes (BitVec.ofNat 32 n)) true :: s.history } := by
  rw [State.rxReturn, writeBack_quiet (s := s.dequeueRx) (by simpa using hq), writeBack_quiet (by simpa using hq)]
  rfl

end Sys2Proof.Machine
end

