-- ==== Sys2Proof/Laws/Exec.lean ====
section
/-! SUPPORT. What an operation can do when it completes: the inversion of `exec`. Every statement about all operations is a
case split over `Effect` (25 kinds of change) in place of one over the 78 meanings. -/

namespace Sys2Proof.Machine

open Host (Outcome)

/-- `t` differs from `s` in registers that are plain storage only. -/
def StorageFrame (s t : State) : Prop :=
  t = { s with
    txbase0 := t.txbase0, txbase1 := t.txbase1, rxbase := t.rxbase, pwr := t.pwr, phycfg := t.phycfg, cfg1 := t.cfg1,
    retry := t.retry, mcctl := t.mcctl, mac0 := t.mac0, mchash0 := t.mchash0, mchash1 := t.mchash1,
    maxpkt := t.maxpkt, mac1 := t.mac1 }

/-! The fields a storage write leaves alone, one by one. -/

theorem StorageFrame.txcfg {s t : State} (h : StorageFrame s t) : t.txcfg = s.txcfg := by rw [h]

theorem StorageFrame.rxcfg {s t : State} (h : StorageFrame s t) : t.rxcfg = s.rxcfg := by rw [h]

theorem StorageFrame.isr {s t : State} (h : StorageFrame s t) : t.isr = s.isr := by rw [h]

theorem StorageFrame.imr {s t : State} (h : StorageFrame s t) : t.imr = s.imr := by rw [h]

theorem StorageFrame.cfg0 {s t : State} (h : StorageFrame s t) : t.cfg0 = s.cfg0 := by rw [h]

theorem StorageFrame.phyctl {s t : State} (h : StorageFrame s t) : t.phyctl = s.phyctl := by rw [h]

theorem StorageFrame.txArmed0 {s t : State} (h : StorageFrame s t) : t.txArmed0 = s.txArmed0 := by rw [h]

theorem StorageFrame.txArmed1 {s t : State} (h : StorageFrame s t) : t.txArmed1 = s.txArmed1 := by rw [h]

theorem StorageFrame.rxArmed {s t : State} (h : StorageFrame s t) : t.rxArmed = s.rxArmed := by rw [h]

theorem StorageFrame.txHead0 {s t : State} (h : StorageFrame s t) : t.txHead0 = s.txHead0 := by rw [h]

theorem StorageFrame.txHead1 {s t : State} (h : StorageFrame s t) : t.txHead1 = s.txHead1 := by rw [h]

theorem StorageFrame.rxHead {s t : State} (h : StorageFrame s t) : t.rxHead = s.rxHead := by rw [h]

theorem StorageFrame.pass {s t : State} (h : StorageFrame s t) : t.pass = s.pass := by rw [h]

theorem StorageFrame.nextRing {s t : State} (h : StorageFrame s t) : t.nextRing = s.nextRing := by rw [h]

theorem StorageFrame.txQueue {s t : State} (h : StorageFrame s t) : t.txQueue = s.txQueue := by rw [h]

theorem StorageFrame.rxQueue {s t : State} (h : StorageFrame s t) : t.rxQueue = s.rxQueue := by rw [h]

theorem StorageFrame.txErrCount {s t : State} (h : StorageFrame s t) : t.txErrCount = s.txErrCount := by rw [h]

theorem StorageFrame.rxErrCount {s t : State} (h : StorageFrame s t) : t.rxErrCount = s.rxErrCount := by rw [h]

theorem StorageFrame.rxOverrunCount {s t : State} (h : StorageFrame s t) : t.rxOverrunCount = s.rxOverrunCount := by rw [h]

theorem StorageFrame.txDropCount {s t : State} (h : StorageFrame s t) : t.txDropCount = s.txDropCount := by rw [h]

theorem StorageFrame.rxDropCount {s t : State} (h : StorageFrame s t) : t.rxDropCount = s.rxDropCount := by rw [h]

theorem StorageFrame.txSendFailCount {s t : State} (h : StorageFrame s t) : t.txSendFailCount = s.txSendFailCount := by rw [h]

theorem StorageFrame.phy {s t : State} (h : StorageFrame s t) : t.phy = s.phy := by rw [h]

theorem StorageFrame.linkUp {s t : State} (h : StorageFrame s t) : t.linkUp = s.linkUp := by rw [h]

theorem StorageFrame.shutdown {s t : State} (h : StorageFrame s t) : t.shutdown = s.shutdown := by rw [h]

theorem StorageFrame.cfg {s t : State} (h : StorageFrame s t) : t.cfg = s.cfg := by rw [h]

theorem StorageFrame.mem {s t : State} (h : StorageFrame s t) : t.mem = s.mem := by rw [h]

theorem StorageFrame.schedule {s t : State} (h : StorageFrame s t) : t.schedule = s.schedule := by rw [h]

theorem StorageFrame.race {s t : State} (h : StorageFrame s t) : t.race = s.race := by rw [h]

theorem StorageFrame.history {s t : State} (h : StorageFrame s t) : t.history = s.history := by rw [h]

/-- The operations that end an open pass without a fetch of their own. -/
def endsPass : Instr → Bool
  | .txdNotOwned _ | .rxdNotOwned _ => true
  | _ => false

/-- An operation is one of the PHYCTL commands or the write of PHYCTL, and `v` is what PHYCTL takes. -/
def latches (c : Config) (v : Word) : Instr → Prop
  | .wrPhyctl w => w = v
  | .mdioRdaddr regnum phyaddr busy data => mdioJoin ⟨c.mdioReadOp, regnum, phyaddr, busy, data⟩ = v
  | .mdioWrCtrl op phyaddr busy data => mdioJoin ⟨op, 0, phyaddr, busy, data⟩ = v
  | .mdioWrId1 op phyaddr busy data => mdioJoin ⟨op, 2, phyaddr, busy, data⟩ = v
  | .mdioWrId2 op phyaddr busy data => mdioJoin ⟨op, 3, phyaddr, busy, data⟩ = v
  | .mdioWrAnarPhy1 op busy data => mdioJoin ⟨op, phyAnarReg, 1, busy, data⟩ = v
  | .mdioWr op regnum phyaddr busy data => mdioJoin ⟨op, regnum, phyaddr, busy, data⟩ = v
  | _ => False

/-- The changes a completed operation can make. -/
inductive Effect : Instr → State → State → Prop
  | nothing (i : Instr) (s : State) : Effect i s s
  | read (i : Instr) (s : State) (off : Nat) (b : List Byte) : s.shutdown = false → isGuestRead s.cfg i = true →
      Effect i s (s.log (.readData off b))
  | readPhyctl (s : State) : s.shutdown = false → Effect .rdPhyctl s
      ((s.latchPhyctl (phyctlFilled s.phyctl (phyGet s.phy (mdioPhyaddr s.phyctl) (mdioRegnum s.phyctl)))).log
        (.readData 0x44 (le32bytes
          (phyctlFilled s.phyctl (phyGet s.phy (mdioPhyaddr s.phyctl) (mdioRegnum s.phyctl))))))
  | store (i : Instr) (s t : State) : s.shutdown = false → isGuestWrite s.cfg i = true → StorageFrame s t → Effect i s t
  | txcfg (v : Word) (s : State) : s.shutdown = false → Effect (.wrTxcfg v) s
      { s with txcfg := v, txArmed0 := txArmedAfter v .tx0 s.txArmed0, txArmed1 := txArmedAfter v .tx1 s.txArmed1 }
  | rxcfg (v : Word) (s : State) : s.shutdown = false → Effect (.wrRxcfg v) s
      { s with rxcfg := v, rxArmed := rxArmedAfter v s.rxArmed, rxHead := rxHeadAfter v s.rxHead }
  | acknowledge (v : Word) (s : State) : s.shutdown = false → Effect (.wrIsr v) s (s.acknowledge v)
  | mask (v : Word) (s : State) : s.shutdown = false → Effect (.wrImr v) s { s with imr := v }
  | config (v : Word) (s : State) : s.shutdown = false → softResetHit s.cfg v = false →
      Effect (.wrCfg0 v) s { s with cfg0 := v }
  | softReset (v : Word) (s : State) : s.shutdown = false → softResetHit s.cfg v = true →
      Effect (.wrCfg0 v) s { s with cfg0 := v }.softReset
  | latch (i : Instr) (s : State) (v : Word) : s.shutdown = false → latches s.cfg v i → Effect i s (s.latchPhyctl v)
  | command (i : Instr) (s : State) (v : Word) (p n : BitVec 5) (d : Half) : s.shutdown = false → latches s.cfg v i →
      Effect i s ((s.latchPhyctl v).phyWrite p n d)
  | txStep (s : State) (p : Pass) : s.txPass = some p → Effect .engTxStep s (s.txStep p.ring p.steps)
  | txConsume (d : TxDesc) (s : State) (p : Pass) : s.txPass = some p → Effect (.txdOwned d) s (s.txConsume p.ring d)
  | rxStep (s : State) : s.rxPassOpen = true → Effect .engRxStep s s.rxStep
  | rxConsume (d : RxDesc) (f : Packet) (rest : List Packet) (s : State) : s.rxPassOpen = true → s.rxQueue = f :: rest →
      Effect (.rxdOwned d) s (s.rxConsume d f)
  | passEnd (i : Instr) (s : State) : s.shutdown = false → endsPass i = true → s.pass.isSome = true →
      Effect i s s.passEnd
  | stop (s : State) (p : Pass) : s.shutdown = false → s.pass = some p → Effect .engPassEnd s s.passEnd
  | fetchStop (s : State) (p : Pass) : s.shutdown = false → s.pass = some p → s.armed p.ring = true →
      Effect .engPassEnd s (s.memRead (s.descAddr p.ring) 16).passEnd
  | passBegin (s : State) (r : Ring) : s.shutdown = false → s.pass = none → s.nextEligible = some r →
      Effect .engPassBegin s { s with pass := some ⟨r, 0, 0⟩, nextRing := ringAfter r }
  | emit (ok : Bool) (f : Packet) (rest : List Packet) (s : State) : s.shutdown = false → s.txQueue = f :: rest →
      Effect (.engTxEmit ok) s
        { s with
          txQueue := rest
          history := .send f ok :: s.history
          txSendFailCount := if ok then s.txSendFailCount else s.txSendFailCount + 1 }
  | arrive (f : Packet) (s : State) : s.shutdown = false → Effect (.wireFrameArrive f) s (s.enqueueRx f)
  | link (up : Bool) (s : State) : s.shutdown = false → up ≠ s.linkUp →
      Effect (.linkChange up) s ({ s with linkUp := up, phy := bankLinked up s.phy }.raiseInt intLink)
  | reset (s : State) : s.shutdown = false → Effect .hostReset s s.hostReset
  | shutdown (s : State) : Effect .hostShutdown s { s with shutdown := true }

/-- The TX pass that is open, if one is (R222). -/
theorem txPass_eq_some {s : State} {p : Pass} (h : s.txPass = some p) :
    s.shutdown = false ∧ s.pass = some p ∧ (p.ring = .tx0 ∨ p.ring = .tx1) := by
  unfold State.txPass at h
  split at h
  · cases h
  · rename_i hs
    split at h
    · rename_i hp; cases h; exact ⟨by simpa using hs, hp, .inl rfl⟩
    · rename_i hp; cases h; exact ⟨by simpa using hs, hp, .inr rfl⟩
    · cases h

theorem txPass_some {s : State} {r : Ring} {n k : Nat} (hs : s.shutdown = false) (hp : s.pass = some ⟨r, n, k⟩)
    (hr : r = .tx0 ∨ r = .tx1) : s.txPass = some ⟨r, n, k⟩ := by
  unfold State.txPass
  rw [hs, hp]
  rcases hr with rfl | rfl <;> rfl

/-- An RX pass is open (R251). -/
theorem rxPassOpen_true {s : State} (h : s.rxPassOpen = true) :
    s.shutdown = false ∧ ∃ n k, s.pass = some ⟨.rx, n, k⟩ := by
  unfold State.rxPassOpen at h
  split at h
  · cases h
  · rename_i hs
    split at h
    · rename_i hp; exact ⟨by simpa using hs, _, _, hp⟩
    · cases h

theorem rxPassOpen_some {s : State} {n k : Nat} (hs : s.shutdown = false) (hp : s.pass = some ⟨.rx, n, k⟩) :
    s.rxPassOpen = true := by
  unfold State.rxPassOpen
  rw [hs, hp]
  rfl

theorem effect_read {i : Instr} {s t : State} {off : Nat} {b : List Byte} (hi : isGuestRead s.cfg i = true)
    (h : guestRead s off b = .next t) : Effect i s t := by
  obtain ⟨hs, rfl⟩ := guestRead_next h
  exact .read i s off b hs hi

theorem effect_store {i : Instr} {s t u : State} (hi : isGuestWrite s.cfg i = true)
    (h : guestAccess s t = .next u) (hf : StorageFrame s t) : Effect i s u := by
  obtain ⟨hs, rfl⟩ := guestAccess_next h
  exact .store i s u hs hi hf

theorem effect_latch {i : Instr} {s u : State} {v : Word} (hi : latches s.cfg v i)
    (h : guestAccess s (s.latchPhyctl v) = .next u) : Effect i s u := by
  obtain ⟨hs, rfl⟩ := guestAccess_next h
  exact .latch i s v hs hi

theorem effect_command {i : Instr} {s u : State} {v : Word} {p n : BitVec 5} {d : Half} (hi : latches s.cfg v i)
    (h : guestAccess s ((s.latchPhyctl v).phyWrite p n d) = .next u) : Effect i s u := by
  obtain ⟨hs, rfl⟩ := guestAccess_next h
  exact .command i s v p n d hs hi

/-- A step that waits changes nothing. -/
theorem effect_waits {i : Instr} {s t : State} (h : waits s = .next t) : Effect i s t := by
  cases h
  exact .nothing i s

/-- An operation that completes makes one of the changes of `Effect`. -/
theorem exec_effect {i : Instr} {s t : State} (h : exec i s = .next t) : Effect i s t := by
  cases i with
  | rdTxcfg => exact effect_read rfl h
  | rdTxbase => exact effect_read rfl h
  | rdRxcfg => exact effect_read rfl h
  | rdRxbase => exact effect_read rfl h
  | rdIsr => exact effect_read rfl h
  | rdImr => exact effect_read rfl h
  | rdCfg0 => exact effect_read rfl h
  | rdPwr => exact effect_read rfl h
  | rdPhycfg => exact effect_read rfl h
  | rdCfg1 => exact effect_read rfl h
  | rdRetry => exact effect_read rfl h
  | rdMcctl => exact effect_read rfl h
  | rdMaxpkt => exact effect_read rfl h
  | rdMac0Lo off n => exact effect_read rfl h
  | rdMac0Hi off n => exact effect_read rfl h
  | rdMchash0 off n => exact effect_read rfl h
  | rdMchash1 off n => exact effect_read rfl h
  | rdMac1Lo off n => exact effect_read rfl h
  | rdMac1Hi off n => exact effect_read rfl h
  | rdUndef08 off n => exact effect_read rfl h
  | rdUndef18 off n => exact effect_read rfl h
  | rdUndef2c off n => exact effect_read rfl h
  | rdUndef34 off n => exact effect_read rfl h
  | rdUndef38 off n => exact effect_read rfl h
  | rdUndef48 off n => exact effect_read rfl h
  | rdUndef58 off n => exact effect_read rfl h
  | rdUndef70 off n => exact effect_read rfl h
  | rdUndefHigh off n => exact effect_read rfl h
  | wrTxbase v =>
    refine effect_store rfl h ?_
    split <;> rfl
  | wrRxbase v => exact effect_store rfl h rfl
  | wrPwr v => exact effect_store rfl h rfl
  | wrPhycfg v => exact effect_store rfl h rfl
  | wrCfg1 v => exact effect_store rfl h rfl
  | wrRetry v => exact effect_store rfl h rfl
  | wrMcctl v => exact effect_store rfl h rfl
  | wrMaxpkt v => exact effect_store rfl h rfl
  | wrMac0Lo off data => exact effect_store rfl h rfl
  | wrMac0Hi off data => exact effect_store rfl h rfl
  | wrMchash0 off data => exact effect_store rfl h rfl
  | wrMchash1 off data => exact effect_store rfl h rfl
  | wrMac1Lo off data => exact effect_store rfl h rfl
  | wrMac1Hi off data => exact effect_store rfl h rfl
  | wrUndef08 off data => exact effect_store rfl h rfl
  | wrUndef18 off data => exact effect_store rfl h rfl
  | wrUndef2c off data => exact effect_store rfl h rfl
  | wrUndef34 off data => exact effect_store rfl h rfl
  | wrUndef38 off data => exact effect_store rfl h rfl
  | wrUndef48 off data => exact effect_store rfl h rfl
  | wrUndef58 off data => exact effect_store rfl h rfl
  | wrUndef70 off data => exact effect_store rfl h rfl
  | wrUndefHigh off data => exact effect_store rfl h rfl
  | badAccess a =>
    simp only [exec, execBadAccess] at h
    split at h <;> cases h
  | rdPhyctl =>
    obtain ⟨hs, rfl⟩ := guestAccess_next h
    exact .readPhyctl s hs
  | wrTxcfg v =>
    obtain ⟨hs, rfl⟩ := guestAccess_next h
    exact .txcfg v s hs
  | wrRxcfg v =>
    obtain ⟨hs, rfl⟩ := guestAccess_next h
    exact .rxcfg v s hs
  | wrIsr v =>
    obtain ⟨hs, rfl⟩ := guestAccess_next h
    exact .acknowledge v s hs
  | wrImr v =>
    obtain ⟨hs, rfl⟩ := guestAccess_next h
    exact .mask v s hs
  | wrCfg0 v =>
    obtain ⟨hs, rfl⟩ := guestAccess_next h
    split
    · exact .softReset v s hs ‹_›
    · rename_i hv
      exact .config v s hs (by simpa using hv)
  | wrPhyctl v =>
    simp only [exec, execWrPhyctl] at h
    split at h
    · exact effect_latch rfl h
    · exact effect_command rfl h
  | mdioRdaddr regnum phyaddr busy data => exact effect_latch rfl h
  | mdioWrCtrl op phyaddr busy data => exact effect_command (p := phyaddr) (n := 0) (d := data) rfl h
  | mdioWrId1 op phyaddr busy data => exact effect_latch rfl h
  | mdioWrId2 op phyaddr busy data => exact effect_latch rfl h
  | mdioWrAnarPhy1 op busy data => exact effect_command (p := 1) (n := phyAnarReg) (d := data) rfl h
  | mdioWr op regnum phyaddr busy data => exact effect_command rfl h
  | txdOwned d =>
    simp only [exec, execTxdOwned] at h
    split at h
    · rename_i p hp; cases h; exact .txConsume d s p hp
    · exact effect_waits h
  | txdNotOwned d =>
    simp only [exec, execTxdNotOwned] at h
    split at h
    · rename_i p hp
      cases h
      obtain ⟨hs, hpass, _⟩ := txPass_eq_some hp
      exact .passEnd _ s hs rfl (by rw [hpass]; rfl)
    · exact effect_waits h
  | rxdOwned d =>
    simp only [exec, execRxdOwned] at h
    split at h
    · rename_i f rest ho hq; cases h; exact .rxConsume d f rest s ho hq
    · exact effect_waits h
  | rxdNotOwned d =>
    simp only [exec, execRxdNotOwned] at h
    split at h
    · rename_i ho
      cases h
      obtain ⟨hs, n, k, hpass⟩ := rxPassOpen_true ho
      exact .passEnd _ s hs rfl (by rw [hpass]; rfl)
    · exact effect_waits h
  | engPassBegin =>
    simp only [exec, execEngPassBegin] at h
    split at h
    · exact effect_waits h
    · rename_i hc
      simp only [Bool.or_eq_true, not_or, Bool.not_eq_true, Option.isSome_eq_false_iff, Option.isNone_iff_eq_none] at hc
      split at h
      · exact effect_waits h
      · rename_i r hr; cases h; exact .passBegin s r hc.1 hc.2 hr
  | engTxStep =>
    simp only [exec, execEngTxStep] at h
    split at h
    · rename_i p hp; cases h; exact .txStep s p hp
    · exact effect_waits h
  | engRxStep =>
    simp only [exec, execEngRxStep] at h
    split at h
    · cases h; exact .rxStep s ‹_›
    · exact effect_waits h
  | engPassEnd =>
    simp only [exec, execEngPassEnd] at h
    split at h
    · rename_i p hp
      obtain ⟨hs, hpass, _⟩ := txPass_eq_some hp
      split at h
      · rename_i hstop
        cases h
        rw [txStep_stops hstop]
        split
        · rename_i ha; exact .fetchStop s p hs hpass ha.1
        · exact .stop s p hs hpass
      · exact effect_waits h
    · split at h
      · rename_i hc
        rw [Bool.and_eq_true] at hc
        obtain ⟨hs, n, k, hpass⟩ := rxPassOpen_true hc.1
        cases h
        rw [rxStep_stops hc.2]
        split
        · rename_i ha; exact .fetchStop s _ hs hpass ha.1
        · exact .stop s _ hs hpass
      · exact effect_waits h
  | engTxEmit ok =>
    simp only [exec, execEngTxEmit] at h
    split at h
    · rename_i f rest hs hq
      cases ok <;> (cases h; exact .emit _ f rest s hs hq)
    · exact effect_waits h
  | wireFrameArrive f =>
    simp only [exec, execWireFrameArrive] at h
    split at h
    · exact effect_waits h
    · rename_i hs; cases h; exact .arrive f s (by simpa using hs)
  | linkChange up =>
    simp only [exec, execLinkChange] at h
    split at h
    · exact effect_waits h
    · rename_i hs
      split at h
      · exact effect_waits h
      · rename_i hu; cases h; exact .link up s (by simpa using hs) hu
  | hostReset =>
    simp only [exec, execHostReset] at h
    split at h
    · exact effect_waits h
    · rename_i hs; cases h; exact .reset s (by simpa using hs)
  | hostShutdown => cases h; exact .shutdown s

/-! ### Steps -/

/-- What a step can do: nothing, an operation, a guest access, or arming guest accesses. -/
theorem step_cases {s t : State} (h : step s = .next t) :
    (s.schedule = [] ∧ t = s) ∨
    (∃ x rest i, s.schedule = .input x :: rest ∧ decode s.cfg (.input x) = .ok i ∧
      exec i { s with schedule := rest } = .next t) ∨
    (∃ g rest, s.schedule = .guest g :: rest ∧ t = { s with schedule := rest }.guestOp g) ∨
    (∃ b rest, s.schedule = .guestRace b :: rest ∧ t = { s with schedule := rest, race := s.race ++ b }) := by
  unfold step at h
  split at h
  · cases h; exact .inl ⟨‹_›, rfl⟩
  · cases h; exact .inr (.inr (.inl ⟨_, _, ‹_›, rfl⟩))
  · cases h; exact .inr (.inr (.inr ⟨_, _, ‹_›, rfl⟩))
  · split at h
    · exact .inr (.inl ⟨_, _, _, ‹_›, ‹_›, h⟩)
    · cases h

/-- The schedule never presents a descriptor: the engine's own fetch brings them in (R86). -/
theorem input_no_descriptor {c : Config} {x : Input} {i : Instr} (h : decode c (.input x) = .ok i) :
    (∀ d, i ≠ .txdOwned d) ∧ (∀ d, i ≠ .txdNotOwned d) ∧ (∀ d, i ≠ .rxdOwned d) ∧ (∀ d, i ≠ .rxdNotOwned d) := by
  have hf : i.format ≠ .txd ∧ i.format ≠ .rxd := by
    cases x with
    | access a =>
      cases h
      unfold decodeAccess
      split
      · split
        · cases a <;> exact ⟨nofun, nofun⟩
        · exact ⟨nofun, nofun⟩
      · split
        · split
          · rename_i w _ _; cases a <;> cases w <;> exact ⟨nofun, nofun⟩
          · exact ⟨nofun, nofun⟩
        · exact ⟨nofun, nofun⟩
    | command w =>
      cases h
      unfold decodeCommand
      dsimp only
      split; exact ⟨nofun, nofun⟩
      split; exact ⟨nofun, nofun⟩
      split; exact ⟨nofun, nofun⟩
      split; exact ⟨nofun, nofun⟩
      split <;> exact ⟨nofun, nofun⟩
    | event code operand =>
      change decodeEvent code operand = .ok i at h
      unfold decodeEvent noOperand bitOperand at h
      repeat' split at h
      all_goals first
        | (cases h; done)
        | (cases h; exact ⟨nofun, nofun⟩)
  refine ⟨?_, ?_, ?_, ?_⟩ <;> rintro d rfl
  · exact hf.1 rfl
  · exact hf.1 rfl
  · exact hf.2 rfl
  · exact hf.2 rfl

/-- Where a run runs an operation, the operation makes its next state. -/
theorem Run.exec_next {r : Run} {n : Nat} {i : Instr} (h : r.runs n i) :
    ∃ rest, exec i { r.state n with schedule := rest } = .next (r.state (n + 1)) := by
  obtain ⟨x, rest, hs, hd⟩ := h
  have ha := r.advances n
  unfold step at ha
  simp only [hs] at ha
  rw [show decodeInput (r.state n).cfg x = .ok i from hd] at ha
  exact ⟨rest, ha⟩

/-! ### Guest accesses -/

/-- A guest access but `BAD_ACCESS` completes unless the block is shut down; `BAD_ACCESS` is the exception. -/
theorem exec_guest {i : Instr} (s : State) (h : isGuestRead s.cfg i = true ∨ isGuestWrite s.cfg i = true) :
    (∃ a, i = .badAccess a) ∨ ∃ t, exec i s = guestAccess s t := by
  cases i <;> first
    | exact .inr ⟨_, rfl⟩
    | exact .inl ⟨_, rfl⟩
    | (rcases h with h | h <;> cases h)

theorem guestAccess_refused {s t : State} (h : s.shutdown = true) :
    guestAccess s t = .refused .accessAfterShutdown := by unfold guestAccess; rw [h]; rfl

/-- An operation that is no guest access leaves a block that is shut down as it is (R45, R287). -/
theorem exec_shutdown {i : Instr} {s : State} (hs : s.shutdown = true) (hr : isGuestRead s.cfg i = false)
    (hw : isGuestWrite s.cfg i = false) : exec i s = .next s := by
  have htx : s.txPass = none := by unfold State.txPass; rw [hs]; rfl
  have hrx : s.rxPassOpen = false := by unfold State.rxPassOpen; rw [hs]; rfl
  cases i <;> first
    | (cases hr; done)
    | (cases hw; done)
    | skip
  case badAccess a => cases a <;> first | (cases hr; done) | (cases hw; done)
  case txdOwned d => simp only [exec, execTxdOwned, htx]; rfl
  case txdNotOwned d => simp only [exec, execTxdNotOwned, htx]; rfl
  case rxdOwned d => simp only [exec, execRxdOwned, hrx]; rfl
  case rxdNotOwned d => simp only [exec, execRxdNotOwned, hrx]; rfl
  case engPassBegin => simp only [exec, execEngPassBegin, hs]; rfl
  case engTxStep => simp only [exec, execEngTxStep, htx]; rfl
  case engRxStep => simp only [exec, execEngRxStep, hrx]; rfl
  case engPassEnd => simp only [exec, execEngPassEnd, htx, hrx]; rfl
  case hostReset => simp only [exec, execHostReset, hs]; rfl
  case engTxEmit ok => simp only [exec, execEngTxEmit, hs]; rfl
  case wireFrameArrive f => simp only [exec, execWireFrameArrive, hs]; rfl
  case linkChange up => simp only [exec, execLinkChange, hs]; rfl
  case hostShutdown => simp only [exec, execHostShutdown, ← hs]

/-- Operations one after the other: the first completes, the others follow. -/
theorem execAll_next {i : Instr} {s t : State} (h : exec i s = .next t) (rest : List Instr) :
    execAll (i :: rest) s = execAll rest t := by
  show (match exec i s with
    | .next t => execAll rest t
    | .fault f => .fault f
    | .refused r => .refused r) = _
  rw [h]

end Sys2Proof.Machine
end

