-- ==== Sys2Proof/Laws/Guest.lean ====
section
/-! SUPPORT. What the engine's memory accesses do with guest accesses in their midst, byte by byte, in the terms of
Safety.lean (`afterGuest`, `guestView`, `partialView`, `guestLoads`). -/

namespace Sys2Proof.Machine

/-- Every pending guest store is shorter than the address space. -/
def RaceFits (s : State) : Prop := ∀ b ∈ s.race, ∀ g ∈ b.ops, g.fits = true

/-- Memory after a store, as a function of the address. -/
theorem Memory.get_setBytes_eq {m : Memory} {a : Word} {b : List Byte} (h : m.wf = true) (hb : b.length < 2 ^ 32) :
    (m.setBytes a b).get = afterStore m.get a b := by
  funext x; rw [Memory.get_setBytes b m a x h hb]; rfl

/-- Memory after guest accesses (R11). -/
theorem Memory.get_guestOps : ∀ (gs : List GuestOp) (m : Memory), m.wf = true → (∀ g ∈ gs, g.fits = true) →
    (m.guestOps gs).get = afterGuest m.get gs
  | [], _, _, _ => rfl
  | .store a b :: gs, m, h, hf => by
    have hb : b.length < 2 ^ 32 := by have := hf (.store a b) (by simp); simpa [GuestOp.fits] using this
    rw [Memory.guestOps, Memory.guestOp,
      Memory.get_guestOps gs _ (Memory.wf_setBytes b m a h) (fun g hg => hf g (by simp [hg])), Memory.get_setBytes_eq h hb]
    rfl
  | .load a n :: gs, m, h, hf => by
    rw [Memory.guestOps, Memory.guestOp, Memory.get_guestOps gs _ h (fun g hg => hf g (by simp [hg]))]; rfl

/-- What a read returns, byte by byte. -/
theorem Memory.getBytes_eq_map (m : Memory) (a : Word) (n : Nat) :
    m.getBytes a n = (List.range n).map fun j => m.get (a + BitVec.ofNat 32 j).toNat := by
  apply List.ext_getElem?
  intro j
  by_cases hj : j < n
  · rw [Memory.getElem?_getBytes m n a j hj]; simp [hj]
  · rw [List.getElem?_eq_none (by simp; omega), List.getElem?_eq_none (by simp; omega)]

/-- What guest loads return, if `v (i + j)` is what the guest sees after `j` of its accesses. -/
theorem history_guestOps_eq (v : Nat → Nat → Byte) : ∀ (gs : List GuestOp) (s : State) (i : Nat),
    s.mem.wf = true → (∀ g ∈ gs, g.fits = true) →
    (∀ j, j ≤ gs.length → v (i + j) = afterGuest s.mem.get (gs.take j)) →
    (s.guestOps gs).history = guestLoads v i gs ++ s.history
  | [], _, _, _, _, _ => rfl
  | .store a b :: gs, s, i, h, hf, hv => by
    have hb : b.length < 2 ^ 32 := by have := hf (.store a b) (by simp); simpa [GuestOp.fits] using this
    rw [State.guestOps, State.guestOp,
      history_guestOps_eq v gs _ (i + 1) (Memory.wf_setBytes b _ a h) (fun g hg => hf g (by simp [hg]))]
    · rfl
    · intro j hj
      have := hv (j + 1) (by simp; omega)
      rw [show i + 1 + j = i + (j + 1) by omega, this]
      show _ = afterGuest (s.mem.setBytes a b).get _
      rw [Memory.get_setBytes_eq h hb]; rfl
  | .load a n :: gs, s, i, h, hf, hv => by
    rw [State.guestOps, State.guestOp,
      history_guestOps_eq v gs (s.log (.guestLoad a (s.mem.getBytes a n))) (i + 1) h (fun g hg => hf g (by simp [hg]))]
    · rw [guestLoads, List.append_assoc]
      have := hv 0 (by simp)
      rw [Memory.getBytes_eq_map]
      simp only [Nat.add_zero] at this
      rw [this]; rfl
    · intro j hj
      have := hv (j + 1) (by simp; omega)
      rw [show i + 1 + j = i + (j + 1) by omega, this]
      rfl

/-- The guest accesses that meet an engine access: memory, history and pending batches (R83, R88). -/
theorem guestMeanwhile_guest (s : State) (h : s.mem.wf = true) (hf : RaceFits s) :
    ∃ m l, s.guestMeanwhile = { s with mem := m, history := l, race := s.race.drop 1 } ∧ m.wf = true ∧
      m.get = afterGuest s.mem.get (s.raceOps 0) ∧
      l = guestLoads (guestView s.mem.get (s.raceOps 0)) 0 (s.raceOps 0) ++ s.history := by
  cases hr : s.race with
  | nil =>
    refine ⟨s.mem, s.history, ?_, h, ?_, ?_⟩
    · rw [guestMeanwhile_quiet hr]; cases s; cases hr; rfl
    · unfold State.raceOps; rw [hr]; rfl
    · unfold State.raceOps; rw [hr]; rfl
  | cons r rest =>
    have hro : s.raceOps 0 = r.ops := by unfold State.raceOps; rw [hr]; rfl
    have hfr : ∀ g ∈ r.ops, g.fits = true := hf r (by rw [hr]; simp)
    refine ⟨s.mem.guestOps r.ops, (s.guestOps r.ops).history, ?_, Memory.wf_guestOps _ _ h, ?_, ?_⟩
    · rw [guestMeanwhile_race hr, guestOps_eq]; rfl
    · rw [hro]; exact Memory.get_guestOps _ _ h hfr
    · rw [hro]; exact history_guestOps_eq _ _ _ 0 h hfr (fun j _ => by rw [Nat.zero_add]; rfl)

theorem afterGuest_append (f : Nat → Byte) : ∀ gs hs, afterGuest f (gs ++ hs) = afterGuest (afterGuest f gs) hs
  | [], _ => rfl
  | .store a b :: gs, hs => afterGuest_append (afterStore f a b) gs hs
  | .load _ _ :: gs, hs => afterGuest_append f gs hs

/-- Guest accesses act on each byte by itself. -/
theorem afterGuest_congr : ∀ (gs : List GuestOp) (f g : Nat → Byte) (x : Nat), f x = g x →
    afterGuest f gs x = afterGuest g gs x
  | [], _, _, _, h => h
  | .store a b :: gs, f, g, x, h => afterGuest_congr gs _ _ x (by unfold afterStore; rw [h])
  | .load _ _ :: gs, f, g, x, h => afterGuest_congr gs f g x h

/-- A phase of a payload write puts its bytes in place and leaves the others. -/
theorem Memory.get_setPhase (i : Nat) (last : Bool) : ∀ (b : List Byte) (m : Memory) (a : Word) (seen : List Nat)
    (x : Nat), m.wf = true → b.length < 2 ^ 32 →
    (m.setPhase a i last seen b).get x =
      (let k := (BitVec.ofNat 32 x - a).toNat
       if x < 2 ^ 32 ∧ k < b.length ∧ (seen.getD k 0 = i ∨ (last = true ∧ i ≤ seen.getD k 0)) then b.getD k 0
       else m.get x)
  | [], m, a, seen, x, _, _ => by simp [Memory.setPhase]
  | v :: b, m, a, seen, x, h, hb => by
    have hb' : b.length + 1 < 2 ^ 32 := by simpa using hb
    rw [Memory.setPhase]
    have hw : ∀ c : Prop, ∀ [Decidable c], (if c then m.set a.toNat v else m).wf = true := by
      intro c _; split
      · exact Memory.wf_set h a v
      · exact h
    rw [Memory.get_setPhase i last b _ (a + 1) seen.tail x (hw _) (by omega)]
    dsimp only
    by_cases hx : x = a.toNat
    · subst hx
      have e1 : (BitVec.ofNat 32 a.toNat - (a + 1)).toNat = 2 ^ 32 - 1 := by bv_omega
      have e2 : (BitVec.ofNat 32 a.toNat - a).toNat = 0 := by bv_omega
      rw [e1, e2, if_neg (by omega)]
      have hl := a.isLt
      have hs : seen.headD 0 = seen.getD 0 0 := by cases seen <;> rfl
      rw [hs]
      by_cases hc : seen.getD 0 0 = i ∨ (last = true ∧ i ≤ seen.getD 0 0)
      · rw [if_pos hc, if_pos ⟨hl, by simp, hc⟩, Memory.get_set h]; simp
      · rw [if_neg hc, if_neg (by intro ⟨_,_,h⟩; exact hc h)]
    · have e0 : (if seen.headD 0 = i ∨ last = true ∧ i ≤ seen.headD 0 then m.set a.toNat v else m).get x = m.get x := by
        split
        · rw [Memory.get_set h, if_neg hx]
        · rfl
      rw [e0]
      by_cases hlt : x < 2 ^ 32
      · have e1 : (BitVec.ofNat 32 x - a).toNat = (BitVec.ofNat 32 x - (a + 1)).toNat + 1 := by
          have := a.isLt
          bv_omega
        rw [e1]
        have e2 : seen.getD ((BitVec.ofNat 32 x - (a + 1)).toNat + 1) 0 =
            seen.tail.getD (BitVec.ofNat 32 x - (a + 1)).toNat 0 := by
          cases seen <;> simp
        rw [e2]
        simp only [List.length_cons, Nat.add_lt_add_iff_right, List.getD_cons_succ]
      · rw [if_neg (fun h => hlt h.1), if_neg (fun h => hlt h.1)]

/-- What the guest sees before phase `i` of a payload write: the bytes with an earlier place are in. -/
def beforePhase (f : Nat → Byte) (a : Word) (b : List Byte) (seen : List Nat) (gs : List GuestOp) (i x : Nat) : Byte :=
  let k := (BitVec.ofNat 32 x - a).toNat
  if x < 2 ^ 32 ∧ k < b.length ∧ seen.getD k 0 < i then
    afterGuest (fun _ => b.getD k 0) ((gs.take i).drop (seen.getD k 0)) x
  else guestView f gs i x

/-- After its phase the guest sees the payload write partly done (R78). -/
theorem setPhase_view {f : Nat → Byte} {a : Word} {b : List Byte} {seen : List Nat} {gs : List GuestOp} {i : Nat}
    {m : Memory} (hw : m.wf = true) (hb : b.length < 2 ^ 32) (hi : i ≤ gs.length) (hm : m.get = beforePhase f a b seen gs i) (x : Nat) :
    (m.setPhase a i (decide (i = gs.length)) seen b).get x = partialView f a b seen gs i x := by
  rw [Memory.get_setPhase _ _ _ _ _ _ _ hw hb, hm]
  unfold partialView beforePhase
  dsimp only
  generalize (BitVec.ofNat 32 x - a).toNat = k
  generalize seen.getD k 0 = t
  by_cases hx : x < 2 ^ 32 ∧ k < b.length
  · obtain ⟨h1, h2⟩ := hx
    by_cases hti : t < i
    · rw [if_neg (by simp; omega), if_pos ⟨h1, h2, hti⟩, if_pos ⟨h1, h2, by omega⟩, Nat.min_eq_left (by omega)]
    · by_cases hc : t = i ∨ (decide (i = gs.length) = true ∧ i ≤ t)
      · have hmin : min t gs.length = i := by simp at hc; omega
        rw [if_pos ⟨h1, h2, hc⟩, if_pos ⟨h1, h2, by omega⟩, hmin, List.drop_eq_nil_of_le (by simp)]; rfl
      · have hmin : ¬ min t gs.length ≤ i := by simp at hc; omega
        rw [if_neg (fun h => hc h.2.2), if_neg (fun h => hti h.2.2), if_neg (fun h => hmin h.2.2)]
  · rw [if_neg (fun h => hx ⟨h.1, h.2.1⟩), if_neg (fun h => hx ⟨h.1, h.2.1⟩), if_neg (fun h => hx ⟨h.1, h.2.1⟩)]

/-- A guest access on top of that. -/
theorem partialView_next {f : Nat → Byte} {a : Word} {b : List Byte} {seen : List Nat} {pre gs : List GuestOp}
    {g : GuestOp} : afterGuest (partialView f a b seen (pre ++ g :: gs) pre.length) [g] =
      beforePhase f a b seen (pre ++ g :: gs) (pre.length + 1) := by
  funext x
  have ht : (pre ++ g :: gs).take (pre.length + 1) = pre ++ [g] := by simp [List.take_append]
  have ht0 : (pre ++ g :: gs).take pre.length = pre := by simp
  unfold beforePhase
  dsimp only
  rw [ht]
  split
  · rename_i h
    rw [List.drop_append_of_le_length (by omega), afterGuest_append]
    apply afterGuest_congr
    unfold partialView
    dsimp only
    have hmin : min (seen.getD (BitVec.ofNat 32 x - a).toNat 0) (pre ++ g :: gs).length =
        seen.getD (BitVec.ofNat 32 x - a).toNat 0 := by
      apply Nat.min_eq_left
      have := h.2.2
      simp only [List.length_append, List.length_cons]
      omega
    rw [hmin, if_pos ⟨h.1, h.2.1, by omega⟩, ht0]
  · rename_i h
    unfold guestView
    rw [ht, afterGuest_append]
    apply afterGuest_congr
    unfold partialView
    dsimp only
    rw [if_neg ?_]
    · unfold guestView; rw [ht0]
    · rintro ⟨h1, h2, h3⟩
      apply h
      refine ⟨h1, h2, ?_⟩
      simp only [List.length_append, List.length_cons] at h3
      omega

/-- A payload write with guest accesses in its midst: memory at the end, and what the loads saw (R78). -/
theorem storeDuring_view (f : Nat → Byte) (a : Word) (b : List Byte) (seen : List Nat) (hb : b.length < 2 ^ 32) :
    ∀ (gs pre : List GuestOp) (s : State), s.mem.wf = true → (∀ g ∈ gs, g.fits = true) →
    s.mem.get = beforePhase f a b seen (pre ++ gs) pre.length →
    (s.storeDuring a b seen pre.length gs).mem.get = partialView f a b seen (pre ++ gs) (pre ++ gs).length ∧
    (s.storeDuring a b seen pre.length gs).history =
      guestLoads (partialView f a b seen (pre ++ gs)) pre.length gs ++ s.history
  | [], pre, s, hw, _, hm => by
    refine ⟨?_, rfl⟩
    funext x
    have := setPhase_view (gs := pre ++ []) (i := pre.length) hw hb (by simp) hm x
    have hd : decide (pre.length = (pre ++ ([] : List GuestOp)).length) = true := decide_eq_true (by simp)
    rw [hd] at this
    rw [show (pre ++ ([] : List GuestOp)).length = pre.length by simp]
    exact this
  | g :: gs, pre, s, hw, hf, hm => by
    have hph : (s.mem.setPhase a pre.length false seen b).get = partialView f a b seen (pre ++ g :: gs) pre.length := by
      funext x
      have := setPhase_view (gs := pre ++ g :: gs) (i := pre.length) hw hb (by simp) hm x
      rw [decide_eq_false (by simp)] at this
      exact this
    have hwp := Memory.wf_setPhase b s.mem a pre.length false seen hw
    have hm' : (({ s with mem := s.mem.setPhase a pre.length false seen b } : State).guestOp g).mem.wf = true ∧
        (({ s with mem := s.mem.setPhase a pre.length false seen b } : State).guestOp g).mem.get =
          beforePhase f a b seen (pre ++ g :: gs) (pre.length + 1) := by
      rw [← partialView_next, ← hph]
      have h1 := Memory.get_guestOps [g] _ hwp (fun g' hg' => hf g' (by simp at hg'; simp [hg']))
      have h2 := Memory.wf_guestOps [g] _ hwp
      cases g <;> exact ⟨h2, h1⟩
    have ih := storeDuring_view f a b seen hb gs (pre ++ [g]) _ hm'.1 (fun g' hg' => hf g' (by simp [hg'])) (by
      rw [hm'.2]; simp)
    simp only [List.append_assoc, List.singleton_append, List.length_append, List.length_singleton] at ih
    rw [State.storeDuring]
    refine ⟨by simpa using ih.1, ?_⟩
    rw [ih.2]
    cases g with
    | store p d => rfl
    | load p n =>
      rw [guestLoads, List.append_assoc]
      congr 1
      show Event.guestLoad p ((s.mem.setPhase a pre.length false seen b).getBytes p n) :: s.history = _
      rw [Memory.getBytes_eq_map, hph]; rfl

theorem raceOps_of_drop (s t : State) (k : Nat) (h : t.race = s.race.drop k) (j : Nat) :
    t.raceOps j = s.raceOps (k + j) := by
  unfold State.raceOps; rw [h]; simp

theorem fits_of_drop {s t : State} {k : Nat} (h : t.race = s.race.drop k) (hf : RaceFits s) : RaceFits t := by
  unfold RaceFits; rw [h]; intro b hb; exact hf b (List.mem_of_mem_drop hb)

/-- Everything a read does, guest accesses included. -/
theorem memRead_guest (s : State) (a : Word) (n : Nat) (hn : n ≠ 0) (h : s.mem.wf = true) (hf : RaceFits s) :
    (s.memRead a n).mem.wf = true ∧ (s.memRead a n).race = s.race.drop 1 ∧
      (s.memRead a n).mem.get = afterGuest s.mem.get (s.raceOps 0) ∧
      (s.memRead a n).history =
        guestLoads (guestView s.mem.get (s.raceOps 0)) 0 (s.raceOps 0) ++ .memRead a n (s.available a n) :: s.history := by
  obtain ⟨m, l, e, hw, hm, hl⟩ := guestMeanwhile_guest (s.log (.memRead a n (s.available a n))) h hf
  unfold State.memRead
  rw [if_neg hn, e]
  exact ⟨hw, rfl, hm, hl⟩

/-- Everything a write-back does: a plain store, then the guest's accesses (R88, R364). -/
theorem writeBack_guest (s : State) (a w : Word) (h : s.mem.wf = true) (hf : RaceFits s) :
    let f := afterStore s.mem.get a (le32bytes w)
    (s.writeBack a w).mem.wf = true ∧ (s.writeBack a w).race = s.race.drop 1 ∧
      (s.writeBack a w).mem.get = afterGuest f (s.raceOps 0) ∧
      (s.writeBack a w).history =
        guestLoads (guestView f (s.raceOps 0)) 0 (s.raceOps 0) ++ .memWrite a (le32bytes w) true :: s.history := by
  intro f
  have hw := Memory.wf_setBytes (le32bytes w) _ a h
  obtain ⟨m, l, e, hw', hm, hl⟩ := guestMeanwhile_guest
    ({ s with mem := s.mem.setBytes a (le32bytes w) }.log (.memWrite a (le32bytes w) true)) hw hf
  have hg : (s.mem.setBytes a (le32bytes w)).get = f := Memory.get_setBytes_eq h (by show 4 < 2 ^ 32; decide)
  unfold State.writeBack
  rw [e]
  have hm2 : m.get = afterGuest (s.mem.setBytes a (le32bytes w)).get (s.raceOps 0) := hm
  have hl2 : l = guestLoads (guestView (s.mem.setBytes a (le32bytes w)).get (s.raceOps 0)) 0 (s.raceOps 0) ++
    .memWrite a (le32bytes w) true :: s.history := hl
  rw [hg] at hm2 hl2
  exact ⟨hw', rfl, hm2, hl2⟩

/-- Byte `j` of a payload read is what the guest's first `seen[j]` accesses left there (R78). -/
theorem Memory.getElem?_getBytesDuring (gs : List GuestOp) (m : Memory) (hw : m.wf = true)
    (hf : ∀ g ∈ gs, g.fits = true) : ∀ (n : Nat) (a : Word) (seen : List Nat) (j : Nat), j < n →
    (m.getBytesDuring a gs seen n)[j]? = some (guestView m.get gs (seen.getD j 0) (a + BitVec.ofNat 32 j).toNat)
  | 0, _, _, _, h => absurd h (Nat.not_lt_zero _)
  | n + 1, a, [], j, h => by
    rw [Memory.getBytesDuring, Memory.getElem?_getBytes _ _ _ _ h]; rfl
  | n + 1, a, t :: ts, 0, _ => by
    rw [Memory.getBytesDuring]
    simp only [List.getElem?_cons_zero]
    rw [Memory.get_guestOps _ _ hw (fun g hg => hf g (List.mem_of_mem_take hg))]
    simp [guestView]
  | n + 1, a, t :: ts, j + 1, h => by
    rw [Memory.getBytesDuring, List.getElem?_cons_succ,
      Memory.getElem?_getBytesDuring gs m hw hf n (a + 1) ts j (by omega)]
    congr 2
    bv_omega

theorem Memory.length_getBytesDuring (gs : List GuestOp) (m : Memory) : ∀ (n : Nat) (a : Word)
    (seen : List Nat), (m.getBytesDuring a gs seen n).length = n
  | 0, _, seen => by cases seen <;> rfl
  | n + 1, a, [] => by rw [Memory.getBytesDuring]; simp
  | n + 1, a, t :: ts => by rw [Memory.getBytesDuring, List.length_cons, Memory.length_getBytesDuring gs m n]

/-- Everything a payload read returns. -/
theorem payload_bytes (s : State) (a : Word) (n : Nat) (h : s.mem.wf = true) (hf : RaceFits s) :
    (s.payload a n).length = n ∧ ∀ j, j < n → (s.payload a n)[j]? =
      some (guestView s.mem.get (s.raceOps 0) ((s.raceSeen 0).getD j 0) (a + BitVec.ofNat 32 j).toNat) := by
  unfold State.payload State.raceOps State.raceSeen
  cases hr : s.race with
  | nil => exact ⟨by simp, fun j hj => by simp [Memory.getElem?_getBytes _ _ _ _ hj, guestView, afterGuest]⟩
  | cons r rest =>
    exact ⟨Memory.length_getBytesDuring _ _ _ _ _, fun j hj =>
      Memory.getElem?_getBytesDuring _ _ h (hf r (by rw [hr]; simp)) n a _ j hj⟩

/-- Everything a payload write does, guest accesses included. -/
theorem memWrite_guest (s : State) (a : Word) (b : List Byte) (hb0 : b.length ≠ 0) (hb : b.length < 2 ^ 32)
    (h : s.mem.wf = true) (hf : RaceFits s) :
    let ok := s.available a b.length
    let view := if ok = true then partialView s.mem.get a b (s.raceSeen 0) (s.raceOps 0)
      else guestView s.mem.get (s.raceOps 0)
    (s.memWrite a b).mem.wf = true ∧ (s.memWrite a b).race = s.race.drop 1 ∧
      (s.memWrite a b).mem.get = view (s.raceOps 0).length ∧
      (s.memWrite a b).history = guestLoads view 0 (s.raceOps 0) ++ .memWrite a b ok :: s.history := by
  intro ok view
  refine ⟨wf_memWrite a b h, ?_⟩
  unfold State.memWrite
  rw [if_neg hb0]
  by_cases ha : s.available a b.length = true
  · have hv : view = partialView s.mem.get a b (s.raceSeen 0) (s.raceOps 0) := if_pos ha
    have hok : ok = true := ha
    rw [if_pos ha, hv, hok]
    unfold State.storePayload State.raceSeen State.raceOps
    cases hr : s.race with
    | nil =>
      simp only [log_race, hr]
      refine ⟨rfl, ?_, rfl⟩
      show (s.mem.setBytes a b).get = _
      rw [Memory.get_setBytes_eq h hb]
      funext x
      unfold afterStore storedByte partialView guestView
      dsimp only
      generalize (BitVec.ofNat 32 x - a).toNat = k
      by_cases hx : x < 2 ^ 32
      · by_cases hk : k < b.length
        · rw [if_pos hx, if_pos ⟨hx, hk, by simp⟩]; simp [hk, afterGuest]
        · rw [if_pos hx, if_neg (fun h => hk h.2.1)]; simp [hk, afterGuest]
      · rw [if_neg hx, if_neg (fun h => hx h.1)]; rfl
    | cons r rest =>
      simp only [log_race, hr, List.getD_cons_zero]
      have := storeDuring_view s.mem.get a b r.seen hb r.ops [] (s.log (.memWrite a b true)) h
        (hf r (by rw [hr]; simp)) (by funext x; unfold beforePhase; rw [if_neg (by simp)]; rfl)
      exact ⟨rfl, this.1, this.2⟩
  · have ha' : s.available a b.length = false := by simpa using ha
    have hv : view = guestView s.mem.get (s.raceOps 0) := if_neg ha
    have hok : ok = false := ha'
    rw [if_neg ha, hv, hok]
    obtain ⟨m, l, e, hw', hm, hl⟩ := guestMeanwhile_guest (s.log (.memWrite a b false)) h hf
    rw [e]
    refine ⟨rfl, ?_, hl⟩
    show m.get = _
    rw [hm]; unfold guestView; rw [List.take_length]; rfl

end Sys2Proof.Machine
end

