-- ==== Sys2Proof/Laws/Mdio.lean ====
section
/-! SUPPORT. The MDIO controller: what the PHYCTL fill does bit by bit (R191), and what a register write leaves alone (R192). -/

namespace Sys2Proof.Machine

/-- The bits of PHYCTL after a guest read: DATA filled, BUSY clear, bits 14:0 kept (R191). -/
theorem getLsbD_phyctlFilled (v : Word) (d : Half) (i : Nat) :
    (phyctlFilled v d).getLsbD i =
      if i < 15 then v.getLsbD i else if i < 16 then false else d.getLsbD (i - 16) := by
  unfold phyctlFilled
  rw [BitVec.getLsbD_append, BitVec.getLsbD_append, BitVec.getLsbD_extractLsb']
  by_cases h : i < 15
  · simp [h, show i < 16 by omega]
  · by_cases h' : i < 16
    · have : i = 15 := by omega
      subst this; simp
    · simp [h, h']

theorem phyctlFilled_data (v : Word) (d : Half) : (phyctlFilled v d).extractLsb' 16 16 = d := by
  apply BitVec.eq_of_getLsbD_eq
  intro i hi
  rw [BitVec.getLsbD_extractLsb', getLsbD_phyctlFilled]
  simp [hi]; omega

theorem phyctlFilled_busy (v : Word) (d : Half) : (phyctlFilled v d).getLsbD 15 = false := by
  rw [getLsbD_phyctlFilled]; simp

theorem phyctlFilled_low (v : Word) (d : Half) : (phyctlFilled v d).extractLsb' 0 15 = v.extractLsb' 0 15 := by
  apply BitVec.eq_of_getLsbD_eq
  intro i hi
  rw [BitVec.getLsbD_extractLsb', BitVec.getLsbD_extractLsb', getLsbD_phyctlFilled]
  simp [hi]

/-- A second read fills the same value in (R79). -/
theorem phyctlFilled_twice (v : Word) (d : Half) : phyctlFilled (phyctlFilled v d) d = phyctlFilled v d := by
  rw [phyctlFilled, phyctlFilled_low]; rfl

theorem mdioPhyaddr_phyctlFilled (v : Word) (d : Half) : mdioPhyaddr (phyctlFilled v d) = mdioPhyaddr v := by
  have h : ∀ w : Word, mdioPhyaddr w = (w.extractLsb' 0 15).extractLsb' 10 5 := by
    intro w; ext i hi; simp [mdioPhyaddr]
  rw [h, h, phyctlFilled_low]

theorem mdioRegnum_phyctlFilled (v : Word) (d : Half) : mdioRegnum (phyctlFilled v d) = mdioRegnum v := by
  have h : ∀ w : Word, mdioRegnum w = (w.extractLsb' 0 15).extractLsb' 5 5 := by
    intro w; ext i hi; simp [mdioRegnum]
  rw [h, h, phyctlFilled_low]

/-- A command word after the fill: its DATA replaced, BUSY clear (R105, R191). -/
theorem phyctlFilled_mdioJoin (op n p : BitVec 5) (b : Bool) (d e : Half) :
    phyctlFilled (mdioJoin ⟨op, n, p, b, d⟩) e = mdioJoin ⟨op, n, p, false, e⟩ := by
  apply BitVec.eq_of_getLsbD_eq
  intro i hi
  rw [getLsbD_phyctlFilled]
  unfold mdioJoin
  simp only [BitVec.getLsbD_append]
  by_cases h : i < 15
  · simp [h, show i < 16 by omega]
  · by_cases h' : i < 16
    · have : i = 15 := by omega
      subst this; simp
    · simp [h']; omega

/-- A register write reaches the addressed PHY only (R192, R193, R195). -/
theorem phyGet_phyWrite_other (s : State) (p n : BitVec 5) (d : Half) (p' n' : BitVec 5) (hp : p' ≠ p) :
    phyGet (s.phyWrite p n d).phy p' n' = phyGet s.phy p' n' := by
  unfold State.phyWrite
  split
  · rw [phyGet_phyCtrlWrite]; simp [hp]
  · split
    · rfl
    · dsimp only
      split
      · rename_i h
        obtain ⟨rfl, _⟩ := h
        rw [phyGet_anarFixup, if_neg (fun h => hp h.1), phyGet_setPhy, if_neg (fun h => hp h.1)]
      · rw [phyGet_setPhy, if_neg (fun h => hp h.1)]

/-- The registers `MDIO_WR` reaches are plain storage (R192). -/
theorem phyWrite_plain {c : Config} {s : State} {op n p : BitVec 5} {busy : Bool} {d : Half}
    (h : (Instr.mdioWr op n p busy d).wellFormed c = true) : s.phyWrite p n d = s.setPhy p n d := by
  simp only [Instr.wellFormed, Bool.and_eq_true, bne_iff_ne, ne_eq, Bool.not_eq_true', Bool.and_eq_false_iff,
    beq_eq_false_iff_ne] at h
  unfold State.phyWrite
  rw [if_neg (by tauto), if_neg (by tauto)]
  exact if_neg (by tauto)

end Sys2Proof.Machine
end

