-- ==== Sys2Proof/Laws/PerInstr.lean ====
section
/-! SUPPORT. Per-instruction laws: one lemma for each constructor of `Instr`. -/

namespace Sys2Proof.Laws.EncodedForm

/-- An operation is encoded in the kind of input its row's format names: a command word, a descriptor of 16 bytes, an event, or a
register access (spec/30_encoding.md R100, R103, R104, R105, R112). -/
def Statement (i : Instr) : Prop :=
  ∀ c : Config,
    match i.format with
    | .phyctlCmd => ∃ w, encode c i = .input (.command w)
    | .txd => ∃ d, d.length = 16 ∧ encode c i = .txDescriptor d
    | .rxd => ∃ d, d.length = 16 ∧ encode c i = .rxDescriptor d
    | .evt => ∃ code operand, encode c i = .input (.event code operand)
    | .mmio32 | .mmio16 | .mmiob | .mmioUndef | .mmioAny | .mmioOutside => ∃ a, encode c i = .input (.access a)

theorem rdTxcfg : Statement .rdTxcfg :=
  fun _ => ⟨_, rfl⟩

theorem wrTxcfg (v : Word) : Statement (.wrTxcfg v) :=
  fun _ => ⟨_, rfl⟩

theorem rdTxbase : Statement .rdTxbase :=
  fun _ => ⟨_, rfl⟩

theorem wrTxbase (v : Word) : Statement (.wrTxbase v) :=
  fun _ => ⟨_, rfl⟩

theorem rdRxcfg : Statement .rdRxcfg :=
  fun _ => ⟨_, rfl⟩

theorem wrRxcfg (v : Word) : Statement (.wrRxcfg v) :=
  fun _ => ⟨_, rfl⟩

theorem rdRxbase : Statement .rdRxbase :=
  fun _ => ⟨_, rfl⟩

theorem wrRxbase (v : Word) : Statement (.wrRxbase v) :=
  fun _ => ⟨_, rfl⟩

theorem rdIsr : Statement .rdIsr :=
  fun _ => ⟨_, rfl⟩

theorem wrIsr (v : Word) : Statement (.wrIsr v) :=
  fun _ => ⟨_, rfl⟩

theorem rdImr : Statement .rdImr :=
  fun _ => ⟨_, rfl⟩

theorem wrImr (v : Word) : Statement (.wrImr v) :=
  fun _ => ⟨_, rfl⟩

theorem rdCfg0 : Statement .rdCfg0 :=
  fun _ => ⟨_, rfl⟩

theorem wrCfg0 (v : Word) : Statement (.wrCfg0 v) :=
  fun _ => ⟨_, rfl⟩

theorem rdPwr : Statement .rdPwr :=
  fun _ => ⟨_, rfl⟩

theorem wrPwr (v : Word) : Statement (.wrPwr v) :=
  fun _ => ⟨_, rfl⟩

theorem rdPhycfg : Statement .rdPhycfg :=
  fun _ => ⟨_, rfl⟩

theorem wrPhycfg (v : Word) : Statement (.wrPhycfg v) :=
  fun _ => ⟨_, rfl⟩

theorem rdPhyctl : Statement .rdPhyctl :=
  fun _ => ⟨_, rfl⟩

theorem wrPhyctl (v : Word) : Statement (.wrPhyctl v) :=
  fun _ => ⟨_, rfl⟩

theorem rdCfg1 : Statement .rdCfg1 :=
  fun _ => ⟨_, rfl⟩

theorem wrCfg1 (v : Word) : Statement (.wrCfg1 v) :=
  fun _ => ⟨_, rfl⟩

theorem rdRetry : Statement .rdRetry :=
  fun _ => ⟨_, rfl⟩

theorem wrRetry (v : Word) : Statement (.wrRetry v) :=
  fun _ => ⟨_, rfl⟩

theorem rdMcctl : Statement .rdMcctl :=
  fun _ => ⟨_, rfl⟩

theorem wrMcctl (v : Half) : Statement (.wrMcctl v) :=
  fun _ => ⟨_, rfl⟩

theorem rdMac0Lo (off : Nat) (n : Nat) : Statement (.rdMac0Lo off n) :=
  fun _ => ⟨_, rfl⟩

theorem wrMac0Lo (off : Nat) (data : List Byte) : Statement (.wrMac0Lo off data) :=
  fun _ => ⟨_, rfl⟩

theorem rdMac0Hi (off : Nat) (n : Nat) : Statement (.rdMac0Hi off n) :=
  fun _ => ⟨_, rfl⟩

theorem wrMac0Hi (off : Nat) (data : List Byte) : Statement (.wrMac0Hi off data) :=
  fun _ => ⟨_, rfl⟩

theorem rdMchash0 (off : Nat) (n : Nat) : Statement (.rdMchash0 off n) :=
  fun _ => ⟨_, rfl⟩

theorem wrMchash0 (off : Nat) (data : List Byte) : Statement (.wrMchash0 off data) :=
  fun _ => ⟨_, rfl⟩

theorem rdMchash1 (off : Nat) (n : Nat) : Statement (.rdMchash1 off n) :=
  fun _ => ⟨_, rfl⟩

theorem wrMchash1 (off : Nat) (data : List Byte) : Statement (.wrMchash1 off data) :=
  fun _ => ⟨_, rfl⟩

theorem rdMaxpkt : Statement .rdMaxpkt :=
  fun _ => ⟨_, rfl⟩

theorem wrMaxpkt (v : Half) : Statement (.wrMaxpkt v) :=
  fun _ => ⟨_, rfl⟩

theorem rdMac1Lo (off : Nat) (n : Nat) : Statement (.rdMac1Lo off n) :=
  fun _ => ⟨_, rfl⟩

theorem wrMac1Lo (off : Nat) (data : List Byte) : Statement (.wrMac1Lo off data) :=
  fun _ => ⟨_, rfl⟩

theorem rdMac1Hi (off : Nat) (n : Nat) : Statement (.rdMac1Hi off n) :=
  fun _ => ⟨_, rfl⟩

theorem wrMac1Hi (off : Nat) (data : List Byte) : Statement (.wrMac1Hi off data) :=
  fun _ => ⟨_, rfl⟩

theorem rdUndef08 (off : Nat) (n : Nat) : Statement (.rdUndef08 off n) :=
  fun _ => ⟨_, rfl⟩

theorem wrUndef08 (off : Nat) (data : List Byte) : Statement (.wrUndef08 off data) :=
  fun _ => ⟨_, rfl⟩

theorem rdUndef18 (off : Nat) (n : Nat) : Statement (.rdUndef18 off n) :=
  fun _ => ⟨_, rfl⟩

theorem wrUndef18 (off : Nat) (data : List Byte) : Statement (.wrUndef18 off data) :=
  fun _ => ⟨_, rfl⟩

theorem rdUndef2c (off : Nat) (n : Nat) : Statement (.rdUndef2c off n) :=
  fun _ => ⟨_, rfl⟩

theorem wrUndef2c (off : Nat) (data : List Byte) : Statement (.wrUndef2c off data) :=
  fun _ => ⟨_, rfl⟩

theorem rdUndef34 (off : Nat) (n : Nat) : Statement (.rdUndef34 off n) :=
  fun _ => ⟨_, rfl⟩

theorem wrUndef34 (off : Nat) (data : List Byte) : Statement (.wrUndef34 off data) :=
  fun _ => ⟨_, rfl⟩

theorem rdUndef38 (off : Nat) (n : Nat) : Statement (.rdUndef38 off n) :=
  fun _ => ⟨_, rfl⟩

theorem wrUndef38 (off : Nat) (data : List Byte) : Statement (.wrUndef38 off data) :=
  fun _ => ⟨_, rfl⟩

theorem rdUndef48 (off : Nat) (n : Nat) : Statement (.rdUndef48 off n) :=
  fun _ => ⟨_, rfl⟩

theorem wrUndef48 (off : Nat) (data : List Byte) : Statement (.wrUndef48 off data) :=
  fun _ => ⟨_, rfl⟩

theorem rdUndef58 (off : Nat) (n : Nat) : Statement (.rdUndef58 off n) :=
  fun _ => ⟨_, rfl⟩

theorem wrUndef58 (off : Nat) (data : List Byte) : Statement (.wrUndef58 off data) :=
  fun _ => ⟨_, rfl⟩

theorem rdUndef70 (off : Nat) (n : Nat) : Statement (.rdUndef70 off n) :=
  fun _ => ⟨_, rfl⟩

theorem wrUndef70 (off : Nat) (data : List Byte) : Statement (.wrUndef70 off data) :=
  fun _ => ⟨_, rfl⟩

theorem badAccess (a : Access) : Statement (.badAccess a) :=
  fun _ => ⟨_, rfl⟩

theorem rdUndefHigh (off : Nat) (n : Nat) : Statement (.rdUndefHigh off n) :=
  fun _ => ⟨_, rfl⟩

theorem wrUndefHigh (off : Nat) (data : List Byte) : Statement (.wrUndefHigh off data) :=
  fun _ => ⟨_, rfl⟩

theorem mdioRdaddr (regnum : BitVec 5) (phyaddr : BitVec 5) (busy : Bool) (data : Half) : Statement (.mdioRdaddr regnum phyaddr busy data) :=
  fun _ => ⟨_, rfl⟩

theorem mdioWrCtrl (op : BitVec 5) (phyaddr : BitVec 5) (busy : Bool) (data : Half) : Statement (.mdioWrCtrl op phyaddr busy data) :=
  fun _ => ⟨_, rfl⟩

theorem mdioWrId1 (op : BitVec 5) (phyaddr : BitVec 5) (busy : Bool) (data : Half) : Statement (.mdioWrId1 op phyaddr busy data) :=
  fun _ => ⟨_, rfl⟩

theorem mdioWrId2 (op : BitVec 5) (phyaddr : BitVec 5) (busy : Bool) (data : Half) : Statement (.mdioWrId2 op phyaddr busy data) :=
  fun _ => ⟨_, rfl⟩

theorem mdioWrAnarPhy1 (op : BitVec 5) (busy : Bool) (data : Half) : Statement (.mdioWrAnarPhy1 op busy data) :=
  fun _ => ⟨_, rfl⟩

theorem mdioWr (op : BitVec 5) (regnum : BitVec 5) (phyaddr : BitVec 5) (busy : Bool) (data : Half) : Statement (.mdioWr op regnum phyaddr busy data) :=
  fun _ => ⟨_, rfl⟩

theorem txdOwned (d : TxDesc) : Statement (.txdOwned d) :=
  fun _ => ⟨_, rfl, rfl⟩

theorem txdNotOwned (d : TxDesc) : Statement (.txdNotOwned d) :=
  fun _ => ⟨_, rfl, rfl⟩

theorem rxdOwned (d : RxDesc) : Statement (.rxdOwned d) :=
  fun _ => ⟨_, rfl, rfl⟩

theorem rxdNotOwned (d : RxDesc) : Statement (.rxdNotOwned d) :=
  fun _ => ⟨_, rfl, rfl⟩

theorem engPassBegin : Statement .engPassBegin :=
  fun _ => ⟨_, _, rfl⟩

theorem engTxStep : Statement .engTxStep :=
  fun _ => ⟨_, _, rfl⟩

theorem engRxStep : Statement .engRxStep :=
  fun _ => ⟨_, _, rfl⟩

theorem engPassEnd : Statement .engPassEnd :=
  fun _ => ⟨_, _, rfl⟩

theorem engTxEmit (sendOk : Bool) : Statement (.engTxEmit sendOk) :=
  fun _ => ⟨_, _, rfl⟩

theorem wireFrameArrive (f : Packet) : Statement (.wireFrameArrive f) :=
  fun _ => ⟨_, _, rfl⟩

theorem linkChange (up : Bool) : Statement (.linkChange up) :=
  fun _ => ⟨_, _, rfl⟩

theorem hostReset : Statement .hostReset :=
  fun _ => ⟨_, _, rfl⟩

theorem hostShutdown : Statement .hostShutdown :=
  fun _ => ⟨_, _, rfl⟩

end Sys2Proof.Laws.EncodedForm
end

