-- ==== Sys2Proof/Tests/Slice0.lean ====
section
/-! SUPPORT. Tests. Expected values are those of spec/30_encoding.md R111 and of the vectors of spec/95_test_vectors.md, named in
each comment, or worked by hand from the rule named. The second half shows, for each statement for the provers that has
hypotheses, a concrete state and operands that meet them. -/

-- one thread for this file: a hundred theorems checked at once each hold a thread and its stack
set_option Elab.async false

namespace Sys2Proof.Tests

open Sys2Proof.Machine
open Host (Outcome)

/-! ### Helpers -/

/-- The operation completes and its next state passes. -/
def onNext (i : Instr) (s : State) (p : State → Bool) : Bool :=
  match exec i s with
  | .next t => p t
  | .fault _ => false
  | .refused _ => false

/-- The operation faults with `BusFault`. -/
def faults (i : Instr) (s : State) : Bool :=
  match exec i s with
  | .next _ => false
  | .fault .busFault => true
  | .refused _ => false

/-- What the decoder reads under P0. -/
def dec (x : Input) : Option Instr := (decode Config.p0 (.input x)).toOption

/-- The bytes of a TX descriptor `{length, status, bufferAddress, lengthOrWrap}` or of an RX descriptor, word by word. -/
def slot (w0 w1 w2 w3 : Word) : List Byte := le32bytes w0 ++ le32bytes w1 ++ le32bytes w2 ++ le32bytes w3

/-- The bases of the vectors of 95 section 2.3, both rings armed, a pass of ring `r` open, slots from `at` on. -/
def txState (r : Ring) (base : Word) (slots : List (List Byte)) : State :=
  { State.reset with
    txbase0 := 0x01000000, txbase1 := 0x01000800, txArmed0 := true, txArmed1 := true
    pass := some ⟨r, 0, 0⟩, mem := Memory.setBytes [] base slots.flatten }

/-- The setting of 95 section 2.4: RX armed, a pass open, slots at `0x02000000`, frames queued. -/
def rxState (slots : List (List Byte)) (frames : List Packet) : State :=
  { State.reset with
    rxbase := 0x02000000, rxArmed := true, rxQueue := frames
    pass := some ⟨.rx, 0, 0⟩, mem := Memory.setBytes [] 0x02000000 slots.flatten }

/-! ### WellFormed refuses an ill-formed term of each check -/

theorem test_wf_byte_fields :
    (Instr.rdMac0Lo 0x64 1).wellFormed Config.p0 = false ∧ (Instr.wrMac0Lo 0x62 []).wellFormed Config.p0 = false ∧
    (Instr.rdMac0Hi 0x66 3).wellFormed Config.p0 = false ∧ (Instr.wrMac0Hi 0x63 [1]).wellFormed Config.p0 = false ∧
    (Instr.rdMchash0 0x68 5).wellFormed Config.p0 = false ∧ (Instr.wrMchash0 0x6C [1]).wellFormed Config.p0 = false ∧
    (Instr.rdMchash1 0x6F 2).wellFormed Config.p0 = false ∧ (Instr.wrMchash1 0x6B [1]).wellFormed Config.p0 = false ∧
    (Instr.rdMac1Lo 0x7C 1).wellFormed Config.p0 = false ∧ (Instr.wrMac1Lo 0x79 [1]).wellFormed Config.p0 = false ∧
    (Instr.rdMac1Hi 0x7F 2).wellFormed Config.p0 = false ∧ (Instr.wrMac1Hi 0x7C []).wellFormed Config.p0 = false := by
  decide

theorem test_wf_undefined_reads :
    (Instr.rdUndef08 0x08 3).wellFormed Config.p0 = false ∧ (Instr.rdUndef18 0x1E 4).wellFormed Config.p0 = false ∧
    (Instr.rdUndef2c 0x2E 4).wellFormed Config.p0 = false ∧ (Instr.rdUndef34 0x38 1).wellFormed Config.p0 = false ∧
    (Instr.rdUndef38 0x37 1).wellFormed Config.p0 = false ∧ (Instr.rdUndef48 0x48 0).wellFormed Config.p0 = false ∧
    (Instr.rdUndef58 0x5F 2).wellFormed Config.p0 = false ∧ (Instr.rdUndef70 0x78 1).wellFormed Config.p0 = false ∧
    (Instr.rdUndefHigh 0x7F 1).wellFormed Config.p0 = false := by decide

theorem test_wf_undefined_writes :
    (Instr.wrUndef08 0x10 [1]).wellFormed Config.p0 = false ∧ (Instr.wrUndef18 0x17 [1]).wellFormed Config.p0 = false ∧
    (Instr.wrUndef2c 0x2C []).wellFormed Config.p0 = false ∧ (Instr.wrUndef34 0x33 [1]).wellFormed Config.p0 = false ∧
    (Instr.wrUndef38 0x3F [1, 2]).wellFormed Config.p0 = false ∧ (Instr.wrUndef48 0x4E [1, 2, 3]).wellFormed Config.p0 = false ∧
    (Instr.wrUndef58 0x57 [1]).wellFormed Config.p0 = false ∧ (Instr.wrUndef70 0x77 [1, 2]).wellFormed Config.p0 = false ∧
    (Instr.wrUndefHigh 0x80 [1, 2, 3]).wellFormed Config.p0 = false := by decide

theorem test_wf_bad_access_and_commands :
    (Instr.badAccess (.read 0x00 4)).wellFormed Config.p0 = false ∧
    (Instr.mdioWrCtrl 0x10 0 false 0).wellFormed Config.p0 = false ∧
    (Instr.mdioWrId1 0x10 0 false 0).wellFormed Config.p0 = false ∧
    (Instr.mdioWrId2 0x10 0 false 0).wellFormed Config.p0 = false ∧
    (Instr.mdioWrAnarPhy1 0x10 false 0).wellFormed Config.p0 = false ∧
    (Instr.mdioWr 0x10 9 0 false 0).wellFormed Config.p0 = false ∧
    (Instr.mdioWr 0x11 0 0 false 0).wellFormed Config.p0 = false ∧
    (Instr.mdioWr 0x11 2 0 false 0).wellFormed Config.p0 = false ∧
    (Instr.mdioWr 0x11 3 0 false 0).wellFormed Config.p0 = false ∧
    (Instr.mdioWr 0x11 4 1 false 0).wellFormed Config.p0 = false := by decide

/-! ### Decoding: each row of the opcode table, from its encoding in R102, R103 to R105, R112 -/

theorem test_decode_word_reads :
    dec (.access (.read 0x00 4)) = some .rdTxcfg ∧ dec (.access (.read 0x04 4)) = some .rdTxbase ∧
    dec (.access (.read 0x10 4)) = some .rdRxcfg ∧ dec (.access (.read 0x14 4)) = some .rdRxbase ∧
    dec (.access (.read 0x20 4)) = some .rdIsr ∧ dec (.access (.read 0x24 4)) = some .rdImr ∧
    dec (.access (.read 0x28 4)) = some .rdCfg0 ∧ dec (.access (.read 0x30 4)) = some .rdPwr ∧
    dec (.access (.read 0x40 4)) = some .rdPhycfg ∧ dec (.access (.read 0x44 4)) = some .rdPhyctl ∧
    dec (.access (.read 0x50 4)) = some .rdCfg1 ∧ dec (.access (.read 0x54 4)) = some .rdRetry ∧
    dec (.access (.read 0x60 2)) = some .rdMcctl ∧ dec (.access (.read 0x78 2)) = some .rdMaxpkt := by decide

/-- The data bytes are those 95 prints for G3 to G5 of program 1, M11, M14, M16 and P1; the others by R72. -/
theorem test_decode_word_writes :
    dec (.access (.write 0x00 [0x31, 0x00, 0x00, 0x00])) = some (.wrTxcfg 0x00000031) ∧
    dec (.access (.write 0x04 [0x00, 0x08, 0x00, 0x01])) = some (.wrTxbase 0x01000800) ∧
    dec (.access (.write 0x10 [0x11, 0x1c, 0x10, 0x00])) = some (.wrRxcfg 0x00101c11) ∧
    dec (.access (.write 0x14 [0x00, 0x00, 0x00, 0x02])) = some (.wrRxbase 0x02000000) ∧
    dec (.access (.write 0x20 [0x00, 0x00, 0x00, 0x20])) = some (.wrIsr 0x20000000) ∧
    dec (.access (.write 0x24 [0x40, 0x00, 0x00, 0x20])) = some (.wrImr 0x20000040) ∧
    dec (.access (.write 0x28 [0x00, 0x80, 0x00, 0x00])) = some (.wrCfg0 0x00008000) ∧
    dec (.access (.write 0x30 [0x01, 0x02, 0x03, 0x04])) = some (.wrPwr 0x04030201) ∧
    dec (.access (.write 0x40 [0x01, 0x02, 0x03, 0x04])) = some (.wrPhycfg 0x04030201) ∧
    dec (.access (.write 0x44 [0x50, 0x00, 0x00, 0x00])) = some (.wrPhyctl 0x00000050) ∧
    dec (.access (.write 0x50 [0x01, 0x02, 0x03, 0x04])) = some (.wrCfg1 0x04030201) ∧
    dec (.access (.write 0x54 [0x01, 0x02, 0x03, 0x04])) = some (.wrRetry 0x04030201) ∧
    dec (.access (.write 0x60 [0xEF, 0xBE])) = some (.wrMcctl 0xBEEF) ∧
    dec (.access (.write 0x78 [0x40, 0x00])) = some (.wrMaxpkt 0x0040) := by decide

theorem test_decode_byte_fields :
    dec (.access (.read 0x62 6)) = some (.rdMac0Lo 0x62 6) ∧ dec (.access (.write 0x63 [1])) = some (.wrMac0Lo 0x63 [1]) ∧
    dec (.access (.read 0x64 4)) = some (.rdMac0Hi 0x64 4) ∧ dec (.access (.write 0x66 [0xAA])) = some (.wrMac0Hi 0x66 [0xAA]) ∧
    dec (.access (.read 0x69 2)) = some (.rdMchash0 0x69 2) ∧
    dec (.access (.write 0x68 [0x44, 0x33, 0x22, 0x11])) = some (.wrMchash0 0x68 [0x44, 0x33, 0x22, 0x11]) ∧
    dec (.access (.read 0x6C 4)) = some (.rdMchash1 0x6C 4) ∧ dec (.access (.write 0x6F [0])) = some (.wrMchash1 0x6F [0]) ∧
    dec (.access (.read 0x7A 6)) = some (.rdMac1Lo 0x7A 6) ∧ dec (.access (.write 0x7B [1])) = some (.wrMac1Lo 0x7B [1]) ∧
    dec (.access (.read 0x7C 4)) = some (.rdMac1Hi 0x7C 4) ∧ dec (.access (.write 0x7F [1])) = some (.wrMac1Hi 0x7F [1]) := by
  decide

theorem test_decode_undefined_offsets :
    dec (.access (.read 0x08 4)) = some (.rdUndef08 0x08 4) ∧ dec (.access (.write 0x0C [1, 2, 3, 4])) = some (.wrUndef08 0x0C [1, 2, 3, 4]) ∧
    dec (.access (.read 0x1F 1)) = some (.rdUndef18 0x1F 1) ∧ dec (.access (.write 0x18 [1])) = some (.wrUndef18 0x18 [1]) ∧
    dec (.access (.read 0x2C 4)) = some (.rdUndef2c 0x2C 4) ∧ dec (.access (.write 0x2E [1, 2])) = some (.wrUndef2c 0x2E [1, 2]) ∧
    dec (.access (.read 0x36 4)) = some (.rdUndef34 0x36 4) ∧ dec (.access (.write 0x34 [1])) = some (.wrUndef34 0x34 [1]) ∧
    dec (.access (.read 0x3C 4)) = some (.rdUndef38 0x3C 4) ∧ dec (.access (.write 0x3F [1])) = some (.wrUndef38 0x3F [1]) ∧
    dec (.access (.read 0x4E 2)) = some (.rdUndef48 0x4E 2) ∧ dec (.access (.write 0x48 [1])) = some (.wrUndef48 0x48 [1]) ∧
    dec (.access (.read 0x5F 1)) = some (.rdUndef58 0x5F 1) ∧ dec (.access (.write 0x58 [1])) = some (.wrUndef58 0x58 [1]) ∧
    dec (.access (.read 0x77 1)) = some (.rdUndef70 0x77 1) ∧ dec (.access (.write 0x70 [1])) = some (.wrUndef70 0x70 [1]) ∧
    dec (.access (.read 0x80 4)) = some (.rdUndefHigh 0x80 4) ∧ dec (.access (.write 0xFF [1])) = some (.wrUndefHigh 0xFF [1]) := by
  decide

/-- M17, M19, M23 of 95. -/
theorem test_decode_bad_accesses :
    dec (.access (.write 0x60 [1, 0, 0, 0])) = some (.badAccess (.write 0x60 [1, 0, 0, 0])) ∧
    dec (.access (.read 0x78 4)) = some (.badAccess (.read 0x78 4)) ∧
    dec (.access (.read 0x00 2)) = some (.badAccess (.read 0x00 2)) ∧
    dec (.access (.read 0x02 4)) = some (.badAccess (.read 0x02 4)) ∧
    dec (.access (.read 0x61 1)) = some (.badAccess (.read 0x61 1)) ∧
    dec (.access (.write 0x66 [1, 2, 3])) = some (.badAccess (.write 0x66 [1, 2, 3])) ∧
    dec (.access (.read 0x2E 4)) = some (.badAccess (.read 0x2E 4)) ∧
    dec (.access (.read 0x7E 4)) = some (.badAccess (.read 0x7E 4)) := by decide

/-- The command words of P1, P4, P6, P5, P10, P9, P11 of 95; identifier register 3 by R105. -/
theorem test_decode_commands :
    dec (.command 0x00000050) = some (.mdioRdaddr 2 0 false 0) ∧ dec (.command 0x00008050) = some (.mdioRdaddr 2 0 true 0) ∧
    dec (.command 0x80000011) = some (.mdioWrCtrl 0x11 0 false 0x8000) ∧
    dec (.command 0xFFFF0051) = some (.mdioWrId1 0x11 0 false 0xFFFF) ∧
    dec (.command 0xFFFF0071) = some (.mdioWrId2 0x11 0 false 0xFFFF) ∧
    dec (.command 0x01E10491) = some (.mdioWrAnarPhy1 0x11 false 0x01E1) ∧
    dec (.command 0x01E10091) = some (.mdioWr 0x11 4 0 false 0x01E1) ∧
    dec (.command 0x12340120) = some (.mdioWr 0x00 9 0 false 0x1234) := by decide

/-- T1, T8, X9 of 95 and a descriptor of each kind with OWN clear. -/
theorem test_decode_descriptors :
    (decode Config.p0 (.txDescriptor [60, 0, 0, 0, 0, 0, 0, 0x80, 0, 0, 0x10, 0x01, 0, 0, 0, 0x80])).toOption =
      some (.txdOwned ⟨60, 0, 0x01100000, true, 0⟩) ∧
    (decode Config.p0 (.txDescriptor [60, 0, 0, 0, 0x34, 0x12, 0, 0, 0, 0, 0x10, 0x01, 0x77, 7, 0, 0])).toOption =
      some (.txdNotOwned ⟨60, 0x1234, 0x01100000, false, 0x777⟩) ∧
    (decode Config.p0 (.rxDescriptor [0, 0, 0, 0, 0, 0, 0, 0x80, 0, 0, 0x10, 0x02, 0, 6, 0, 0x80])).toOption =
      some (.rxdOwned ⟨0, 0, 0x02100000, true, 0x600⟩) ∧
    (decode Config.p0 (.rxDescriptor [1, 0, 0, 0, 0, 0, 0, 0, 0, 0, 0x10, 0x02, 0, 6, 0, 0])).toOption =
      some (.rxdNotOwned ⟨1, 0, 0x02100000, false, 0x600⟩) ∧
    (decode Config.p0 (.txDescriptor [])).toOption = none := by decide

theorem test_decode_events :
    dec (.event 0x01 []) = some .engPassBegin ∧ dec (.event 0x02 []) = some .engTxStep ∧
    dec (.event 0x03 []) = some .engRxStep ∧ dec (.event 0x04 []) = some .engPassEnd ∧
    dec (.event 0x05 [1]) = some (.engTxEmit true) ∧ dec (.event 0x10 [0, 1]) = some (.wireFrameArrive [0, 1]) ∧
    dec (.event 0x11 [0]) = some (.linkChange false) ∧ dec (.event 0x20 []) = some .hostReset ∧
    dec (.event 0x21 []) = some .hostShutdown ∧ dec (.event 0x06 []) = none ∧ dec (.event 0x01 [0]) = none ∧
    dec (.event 0x11 [2]) = none := by decide

/-! ### Register file (95 section 2.1) -/

/-- M2. -/
theorem test_txcfg_arms : onNext (.wrTxcfg 0x31) State.reset (fun t => t.txcfg == 0x31 && t.txArmed0 && t.txArmed1) := by
  decide

/-- M3, M4. -/
theorem test_txcfg_disarms :
    onNext (.wrTxcfg 0x11) { State.reset with txArmed0 := true, txArmed1 := true } (fun t => t.txArmed0 && t.txArmed1) ∧
    onNext (.wrTxcfg 0x10) { State.reset with txArmed0 := true, txArmed1 := true } (fun t => t.txArmed0 && !t.txArmed1) := by
  decide

/-- M6. -/
theorem test_txbase_window :
    onNext (.wrTxbase 0x01000800) { State.reset with txcfg := 0x10001 } (fun t =>
      t.txbase1 == 0x01000800 && t.txbase0 == 0 && !t.txArmed0 && !t.txArmed1) ∧
    onNext .rdTxbase { State.reset with txcfg := 1, txbase1 := 0x01000800 } (fun t =>
      t.history == [.readData 4 [0, 0, 0, 0]]) ∧
    onNext .rdTxbase { State.reset with txcfg := 0x10001, txbase1 := 0x01000800 } (fun t =>
      t.history == [.readData 4 [0, 8, 0, 1]]) := by decide

/-- M8, M9, M10. -/
theorem test_rxcfg :
    onNext (.wrRxcfg 0x1) { State.reset with rxArmed := true, rxHead := 7 } (fun t => t.rxArmed && t.rxHead == 7) ∧
    onNext (.wrRxcfg 0x10) { State.reset with rxArmed := true, rxHead := 7 } (fun t => !t.rxArmed && t.rxHead == 7) ∧
    onNext (.wrRxcfg 0x00101c11) { State.reset with rxArmed := true, rxHead := 7 } (fun t => t.rxArmed && t.rxHead == 0) := by
  decide

/-- M11, M12; I6: no request. -/
theorem test_isr_acknowledge :
    onNext (.wrIsr 0x20000000) { State.reset with isr := 0x2000014C } (fun t => t.isr == 0x14C && t.history == []) ∧
    onNext (.wrIsr 0xFFFFFFFF) State.reset (fun t => t.isr == 0) := by decide

/-- M13: a read does not acknowledge. -/
theorem test_isr_read :
    onNext .rdIsr { State.reset with isr := 0x104 } (fun t => t.isr == 0x104 && t.history == [.readData 0x20 [4, 1, 0, 0]]) := by
  decide

/-- M1, I5. -/
theorem test_imr :
    onNext (.wrImr 0xFFFFFFFF) { State.reset with isr := 4 } (fun t => t.imr == 0xFFFFFFFF && t.history == []) ∧
    onNext .rdImr { State.reset with imr := 0xFFFFFF7F } (fun t =>
      t.history == [.readData 0x24 [0x7F, 0xFF, 0xFF, 0xFF]]) := by decide

/-- M14, M15. -/
theorem test_cfg0_soft_reset :
    let s := { State.reset with
      txHead0 := 5, txHead1 := 2, rxHead := 17, txQueue := [[1]], rxQueue := [[1], [2], [3]], isr := 4, txArmed0 := true }
    onNext (.wrCfg0 0x8000) s (fun t => t.cfg0 == 0x8000 && t.txHead0 == 0 && t.txHead1 == 0 && t.rxHead == 0 &&
      t.txQueue == [] && t.rxQueue == [] && t.isr == 4 && t.txArmed0 && t.txDropCount == 0) ∧
    onNext (.wrCfg0 0x7FFF) s (fun t => t.cfg0 == 0x7FFF && t.txHead0 == 5 && t.rxQueue.length == 3) := by decide

/-- M16. -/
theorem test_mcctl :
    onNext (.wrMcctl 0xBEEF) State.reset (fun t => t.mcctl == 0xBEEF) ∧
    onNext .rdMcctl { State.reset with mcctl := 0xBEEF } (fun t => t.history == [.readData 0x60 [0xEF, 0xBE]]) := by decide

/-- M18. -/
theorem test_mac0_bytes :
    onNext (.wrMac0Hi 0x66 [0xAA]) { State.reset with mac0 := #v[0x00, 0x22, 0x48, 1, 2, 3] } (fun t =>
      t.mac0 == #v[0x00, 0x22, 0x48, 1, 0xAA, 3]) ∧
    onNext (.rdMac0Lo 0x62 6) { State.reset with mac0 := #v[0x00, 0x22, 0x48, 1, 0xAA, 3] } (fun t =>
      t.history == [.readData 0x62 [0x00, 0x22, 0x48, 1, 0xAA, 3]]) := by decide

/-- M20. -/
theorem test_mchash0_lanes :
    onNext (.rdMchash0 0x69 2) { State.reset with mchash0 := 0x11223344 } (fun t =>
      t.history == [.readData 0x69 [0x33, 0x22]]) ∧
    onNext (.wrMchash0 0x6B [0]) { State.reset with mchash0 := 0x11223344 } (fun t => t.mchash0 == 0x00223344) := by decide

/-- R161, R162: lane 3 of MCHASH1. -/
theorem test_mchash1_lanes :
    onNext (.wrMchash1 0x6F [0xAB]) State.reset (fun t => t.mchash1 == 0xAB000000) ∧
    onNext (.rdMchash1 0x6C 4) { State.reset with mchash1 := 0xAB000000 } (fun t =>
      t.history == [.readData 0x6C [0, 0, 0, 0xAB]]) := by decide

/-- M21. -/
theorem test_mac1_bytes :
    onNext (.wrMac1Lo 0x7B [1, 2]) State.reset (fun t => t.mac1 == #v[0, 1, 2, 0, 0, 0]) ∧
    onNext (.rdMac1Hi 0x7C 4) { State.reset with mac1 := #v[0x00, 0x22, 0x48, 1, 2, 4] } (fun t =>
      t.history == [.readData 0x7C [0x48, 1, 2, 4]]) := by decide

/-- M22, M24. -/
theorem test_undefined_offsets :
    onNext (.rdUndef08 0x0E 2) State.reset (fun t => t.history == [.readData 0x0E [0xFF, 0xFF]]) ∧
    onNext (.rdUndefHigh 0x80 4) State.reset (fun t => t.history == [.readData 0x80 [0xFF, 0xFF, 0xFF, 0xFF]]) ∧
    onNext (.wrUndef08 0x0C [0x78, 0x56, 0x34, 0x12]) { State.reset with txcfg := 0x11 } (fun t => t.txcfg == 0x11) := by
  decide

/-- M17. -/
theorem test_bad_access : faults (.badAccess (.read 0x00 2)) State.reset := by decide

/-! ### MDIO (95 section 2.2) -/

/-- P1, P4. -/
theorem test_phyctl_read :
    onNext (.wrPhyctl 0x50) State.reset (fun t => t.phyctl == 0x50 && phyGet t.phy 0 2 == 0x0141) ∧
    onNext .rdPhyctl { State.reset with phyctl := 0x8050 } (fun t =>
      t.phyctl == 0x01410050 && t.history == [.readData 0x44 [0x50, 0x00, 0x41, 0x01]]) := by decide +kernel

/-- P5. -/
theorem test_identifier_write :
    onNext (.mdioWrId1 0x11 0 false 0xFFFF) State.reset (fun t => t.phyctl == 0xFFFF0051 && phyGet t.phy 0 2 == 0x0141) := by
  decide

/-- P7 and, with the status register, P8. -/
theorem test_phy_reset :
    onNext (.mdioWrCtrl 0x11 3 false 0x9200) State.reset (fun t => phyGet t.phy 3 0 == 0x1140) ∧
    onNext (.wrPhyctl 0x80000811) (State.reset.setPhy 2 1 0) (fun t => phyGet t.phy 2 1 == 0x796D) := by
  decide +kernel

/-- P9. -/
theorem test_anar_other_phy :
    onNext (.wrPhyctl 0x01E10091) State.reset (fun t => phyGet t.phy 0 4 == 0x01E1 && phyGet t.phy 0 1 == 0x796D) := by
  decide +kernel

/-- P10. -/
theorem test_anar_fixup :
    onNext (.mdioWrAnarPhy1 0x11 false 0x01E1) (State.reset.setPhy 1 1 0) (fun t =>
      phyGet t.phy 1 4 == 0x01E1 && phyGet t.phy 1 1 == 0x0020) := by decide +kernel

/-- P11, P12. -/
theorem test_mdio_opcodes :
    onNext (.wrPhyctl 0x12340120) State.reset (fun t => phyGet t.phy 0 9 == 0x1234) ∧
    onNext (.wrPhyctl 0x12340130) State.reset (fun t => phyGet t.phy 0 9 == 0 && t.phyctl == 0x12340130) := by decide +kernel

/-! ### Transmit (95 section 2.3) -/

/-- T1. -/
theorem test_tx_delivers :
    onNext .engTxStep (txState .tx0 0x01000000 [slot 60 0x80000000 0x01100000 0x80000000]) (fun t =>
      t.history == [.memWrite 0x01000004 [0, 0, 0, 0] true, .memRead 0x01100000 60 true, .memRead 0x01000000 16 true] &&
      t.txQueue == [List.replicate 60 0] && t.txHead0 == 0 && t.pass == some ⟨.tx0, 1, 1⟩ &&
      t.mem.getBytes 0x01000004 4 == [0, 0, 0, 0]) := by decide +kernel

/-- T3: 1519 is an error under P0. -/
theorem test_tx_bad_length :
    onNext .engTxStep (txState .tx0 0x01000000 [slot 1519 0x80000000 0x01100000 0]) (fun t =>
      t.txErrCount == 1 && t.txQueue == [] && t.txHead0 == 1 && t.pass == some ⟨.tx0, 1, 1⟩ &&
      t.history == [.memWrite 0x01000004 [0, 0, 0, 0] true, .memRead 0x01000000 16 true]) := by decide +kernel

/-- T4. -/
theorem test_tx_buffer_unavailable :
    onNext (.txdOwned ⟨60, 0, 0x10000000, false, 0⟩) (txState .tx0 0 []) (fun t =>
      t.txErrCount == 1 && t.txQueue == [] && t.txHead0 == 1 &&
      t.history == [.memWrite 0x01000004 [0, 0, 0, 0] true, .memRead 0x10000000 60 false]) := by decide +kernel

/-- T8: the other status bits are written back. -/
theorem test_tx_status_bits :
    onNext (.txdOwned ⟨60, 0x1234, 0x01100000, false, 0x777⟩) (txState .tx0 0 []) (fun t =>
      t.mem.getBytes 0x01000004 4 == [0x34, 0x12, 0, 0] && t.txHead0 == 1) := by decide +kernel

/-- T11: ring 1 has 8 slots, and its base is TXBASE1. -/
theorem test_tx1_wraps_at_8 :
    onNext .engTxStep { txState .tx1 0x01000870 [slot 64 0x80000000 0x01100000 0] with txHead1 := 7 } (fun t =>
      t.txHead1 == 0 && t.history.getLast? == some (.memRead 0x01000870 16 true)) := by decide +kernel

/-- T5, T9: the fetch of a descriptor that is unavailable ends the pass, a disarmed ring is not read. -/
theorem test_tx_pass_ends :
    onNext .engTxStep { txState .tx0 0 [] with txbase0 := 0x10000000 } (fun t =>
      t.pass == none && t.isr == 0 && t.history == [.memRead 0x10000000 16 false]) ∧
    onNext .engTxStep { txState .tx0 0 [] with txArmed0 := false, pass := some ⟨.tx0, 1, 1⟩ } (fun t =>
      t.pass == none && t.isr == 4 && t.history == []) := by decide +kernel

/-- R223. -/
theorem test_txd_not_owned :
    onNext (.txdNotOwned ⟨60, 0, 0, false, 0⟩) { txState .tx1 0 [] with pass := some ⟨.tx1, 2, 2⟩ } (fun t =>
      t.pass == none && t.isr == 8) := by decide +kernel

/-! ### Receive (95 section 2.4) -/

/-- X1, with a frame of 3 bytes. -/
theorem test_rx_deposits :
    onNext .engRxStep (rxState [slot 0 0x80000000 0x02100000 0x600] [[1, 2, 3]]) (fun t =>
      t.history == [.memWrite 0x02000004 [0, 0, 0, 0] true, .memWrite 0x02000000 [3, 0, 0, 0] true,
        .memWrite 0x02100000 [1, 2, 3] true, .memRead 0x02000000 16 true] &&
      t.rxHead == 1 && t.rxQueue == [] && t.mem.getBytes 0x02100000 3 == [1, 2, 3]) := by decide +kernel

/-- X2 and X4 in small: an overrun, and a buffer of size 0. -/
theorem test_rx_overrun :
    onNext (.rxdOwned ⟨0, 0, 0x02100000, false, 2⟩) (rxState [] [[1, 2, 3]]) (fun t =>
      t.rxOverrunCount == 1 && t.mem.getBytes 0x02000000 4 == [2, 0, 0, 0] && t.mem.getBytes 0x02100000 3 == [1, 2, 0]) ∧
    onNext (.rxdOwned ⟨0, 0, 0x02100000, false, 0⟩) (rxState [] [[1, 2, 3]]) (fun t =>
      t.rxOverrunCount == 1 && t.rxQueue == [] && t.rxHead == 1 &&
      t.history == [.memWrite 0x02000004 [0, 0, 0, 0] true, .memWrite 0x02000000 [0, 0, 0, 0] true]) := by decide +kernel

/-- X7. -/
theorem test_rx_buffer_error :
    onNext .engRxStep (rxState [slot 9 0x80000ABC 0xFFFFFFF0 0x600] [[1, 2, 3]]) (fun t =>
      t.rxErrCount == 1 && t.rxQueue == [] && t.rxOverrunCount == 0 && t.rxHead == 1 &&
      t.mem.getBytes 0x02000000 8 == [0, 0, 0, 0, 0xBC, 0x0A, 0, 0]) := by decide +kernel

/-- X6, and R252 by its own row. -/
theorem test_rx_ring_full :
    onNext .engRxStep { rxState [] [[1], [2]] with rxHead := 5 } (fun t =>
      t.pass == none && t.rxHead == 5 && t.rxQueue.length == 2 && t.isr == 0) ∧
    onNext (.rxdNotOwned ⟨0, 0, 0, false, 0⟩) { rxState [] [[1]] with pass := some ⟨.rx, 1, 1⟩ } (fun t =>
      t.pass == none && t.isr == 0x20000040) := by decide +kernel

/-! ### Guest accesses that meet a payload access (R78), worked by hand: byte 0 comes before the access, byte 1 after it -/

theorem test_payload_read_race :
    onNext (.txdOwned ⟨2, 0, 0x01100000, false, 0⟩)
      { txState .tx0 0x01100000 [[1, 2]] with race := [⟨[.store 0x01100000 [9, 9]], [0, 1]⟩] } (fun t =>
      t.txQueue == [[1, 9]] && t.race == [] && t.mem.getBytes 0x01100000 2 == [9, 9]) := by decide +kernel

theorem test_payload_write_race :
    onNext (.rxdOwned ⟨0, 0, 0x02100000, false, 0x600⟩)
      { rxState [] [[1, 2]] with race := [⟨[.store 0x02100000 [9, 9]], [0, 1]⟩] } (fun t =>
      t.mem.getBytes 0x02100000 2 == [9, 2] && t.rxQueue == []) := by decide +kernel

/-- The guest loads the buffer when the first byte of the deposit is in place and the second is not. -/
theorem test_payload_write_observed :
    onNext (.rxdOwned ⟨0, 0, 0x02100000, false, 0x600⟩)
      { rxState [] [[1, 2]] with race := [⟨[.load 0x02100000 2], [0, 1]⟩] } (fun t =>
      t.mem.getBytes 0x02100000 2 == [1, 2] && t.history.contains (.guestLoad 0x02100000 [1, 0])) := by decide +kernel

/-! ### Scheduler, wire, interrupts, host (95 sections 2.5 to 2.7) -/

/-- Q4's first pass, and Q5. -/
theorem test_pass_begin :
    onNext .engPassBegin { State.reset with txArmed0 := true, txArmed1 := true } (fun t =>
      t.pass == some ⟨.tx0, 0, 0⟩ && t.nextRing == .tx1) ∧
    onNext .engPassBegin { State.reset with txArmed1 := true, rxArmed := true, nextRing := .rx } (fun t =>
      t.pass == some ⟨.tx1, 0, 0⟩ && t.nextRing == .rx) := by decide

/-- I4, I8. -/
theorem test_pass_end :
    onNext .engPassEnd { State.reset with imr := 0x20000000, pass := some ⟨.rx, 1, 1⟩ } (fun t =>
      t.isr == 0x20000040 && t.history == [.irqRequest 0]) ∧
    onNext .engPassEnd { State.reset with isr := 4, imr := 4, pass := some ⟨.tx0, 1, 0⟩ } (fun t =>
      t.isr == 4 && t.history == []) := by decide

/-- R229: no stop condition while the slot is owned; the stop condition of a slot that is not owned takes the fetch. -/
theorem test_pass_end_only_at_a_stop :
    onNext .engPassEnd (txState .tx0 0x01000000 [slot 60 0x80000000 0x01100000 0]) (fun t =>
      t.pass == some ⟨.tx0, 0, 0⟩ && t.history == []) ∧
    onNext .engPassEnd (txState .tx0 0x01000000 [slot 60 0 0x01100000 0]) (fun t =>
      t.pass == none && t.history == [.memRead 0x01000000 16 true]) ∧
    onNext .engPassEnd (rxState [slot 0 0x80000000 0x02100000 0x600] [[1]]) (fun t =>
      t.pass == some ⟨.rx, 0, 0⟩ && t.history == []) := by decide +kernel

/-- I3: the test is over the whole of ISR. -/
theorem test_raise_whole_isr :
    onNext .engPassEnd { State.reset with isr := 4, imr := 4, pass := some ⟨.tx1, 1, 1⟩ } (fun t =>
      t.isr == 0xC && t.history == [.irqRequest 0]) := by decide

/-- Q3. -/
theorem test_emit :
    onNext (.engTxEmit true) { State.reset with txQueue := [[1], [2]] } (fun t =>
      t.txQueue == [[2]] && t.txSendFailCount == 0 && t.history == [.send [1] true]) ∧
    onNext (.engTxEmit false) { State.reset with txQueue := [[2]] } (fun t =>
      t.txQueue == [] && t.txSendFailCount == 1 && t.history == [.send [2] false]) := by decide

/-- Q1, X10. -/
theorem test_frame_arrives :
    onNext (.wireFrameArrive [7]) { State.reset with rxQueue := List.replicate 256 [] } (fun t =>
      t.rxQueue == List.replicate 256 [] && t.rxDropCount == 1) ∧
    onNext (.wireFrameArrive [7]) State.reset (fun t => t.rxQueue == [[7]]) := by decide +kernel

/-- L1, L2. -/
theorem test_link_down :
    onNext (.linkChange false) { State.reset with imr := 0x100 } (fun t =>
      !t.linkUp && phyGet t.phy 31 1 == 0x7969 && t.isr == 0x100 && t.history == [.irqRequest 0]) ∧
    onNext (.linkChange true) State.reset (fun t => t.isr == 0 && t.history == []) := by decide +kernel

/-- Q7, R360. -/
theorem test_shutdown_and_reset :
    onNext .hostShutdown { State.reset with pass := some ⟨.tx0, 1, 1⟩ } (fun t => t.shutdown && t.pass == some ⟨.tx0, 1, 1⟩) ∧
    onNext .engPassBegin { State.reset with txArmed0 := true, shutdown := true } (fun t => t.pass == none) ∧
    onNext .hostReset { State.reset with imr := 5, txErrCount := 3 } (fun t => t.imr == 0 && t.txErrCount == 0) ∧
    onNext .hostReset { State.reset with imr := 5, shutdown := true } (fun t => t.shutdown && t.imr == 5) := by decide

/-! ### The step and the words of the opcode table -/

theorem test_table_words :
    decodeTableWord 8 0xA4 = some (.wrImr 0) ∧ decodeTableWord 8 0x44 = some .rdPhyctl ∧
    decodeTableWord 8 0x62 = some (.rdMac0Lo 0x62 1) ∧ decodeTableWord 8 0x02 = some .engTxStep ∧
    decodeTableWord 32 0x10 = some (.mdioRdaddr 0 0 false 0) := by decide

theorem test_fetch_word :
    (match step (State.reset.withFetchWord 8 0xC4) with | .next t => t.phyctl == 0 && t.schedule == [] | _ => false) = true := by
  decide +kernel

/-! ### Witnesses: for each statement with hypotheses, a state and operands that meet them

`witness_running` serves the statements whose only hypothesis is that the block is not shut down: ShutdownIsFinal's first half,
HostResetRestores, PlainStorageWrites, RegisterReads, TxcfgWrite, TxbaseWrite, RxcfgWrite, IsrAcknowledge, the second halves of
UndefinedOffsetAccess and MdioPlainWrite, MdioControlWrite, MdioAdvertisementWrite, PhyctlRead. -/

/-- The operation completes. -/
def completes (i : Instr) (s : State) : Bool := onNext i s fun _ => true

theorem exec_of_completes {i : Instr} {s : State} (h : completes i s = true) : ∃ t, exec i s = .next t := by
  unfold completes onNext at h
  split at h
  · exact ⟨_, ‹_›⟩
  · cases h
  · cases h

/-- One good slot in TX ring 0, then an empty one. -/
def oneSlot : State := txState .tx0 0x01000000 [slot 60 0x80000000 0x01100000 0]

/-- One good slot in the RX ring and a frame. -/
def oneFrame : State := rxState [slot 0 0x80000000 0x02100000 0x600] [[1, 2, 3]]

theorem witness_running : State.reset.shutdown = false := rfl

theorem valid_p0 : Config.p0.Valid where
  frameSize := by decide
  softReset := by decide
  fixupOneBit := ⟨5, by decide⟩
  fixupNotIdentifier := by decide
  controlSelfClears := by decide
  controlFullDuplex := by decide
  statusLinkUp := by decide
  statusAutoNegotiated := by decide

/-- A state in the middle of a pass that meets the invariant. -/
theorem inv_oneSlot (turns : List Turn) : Inv { oneSlot with schedule := turns } where
  parameters := valid_p0
  memory := (by decide +kernel : oneSlot.mem.wf = true)
  txQueue := Nat.zero_le _
  rxQueue := Nat.zero_le _
  txHead0 := (by decide : 0 < 32)
  txHead1 := (by decide : 0 < 8)
  rxHead := (by decide : 0 < 64)
  causes := (by decide : (0 : Word) &&& ~~~intAll = 0)
  passCounts := by
    intro p hp
    cases hp
    exact ⟨rfl, fun _ => Nat.zero_le _⟩
  identifiers := fun p => ⟨phyGet_reset Config.p0 p 2, phyGet_reset Config.p0 p 3⟩

theorem ready_oneSlot : TxReady oneSlot .tx0 0 0 where
  running := rfl
  quiet := rfl
  canonical := by decide +kernel
  open_ := rfl
  tx := .inl rfl

theorem ready_oneFrame : RxReady oneFrame 0 0 where
  running := rfl
  quiet := rfl
  canonical := by decide +kernel
  open_ := rfl

/-- A TX pass of either ring with any counts, on a ring at address 0. -/
theorem ready_txState (r : Ring) (hr : r = .tx0 ∨ r = .tx1) (n k : Nat) :
    TxReady { txState r 0 [] with pass := some ⟨r, n, k⟩ } r n k where
  running := rfl
  quiet := rfl
  canonical := rfl
  open_ := rfl
  tx := hr

theorem witness_DecodeEncodeRoundTrip :
    (Instr.wrMac0Hi 0x67 [0xAA]).wellFormed Config.p0 = true ∧ (Instr.badAccess (.read 0x7F 2)).wellFormed Config.p0 = true ∧
    (Instr.mdioWr 0x11 4 0 true 0xFFFF).wellFormed Config.p0 = true := by decide

theorem witness_EncodeDecodeRoundTrip :
    decode Config.p0 (.input (.access (.read 0x7F 1))) = .ok (.rdMac1Hi 0x7F 1) := by decide

theorem witness_IllFormedAccessFaults :
    (Access.read 0x67 2).wellFormed = false ∧ (Access.read 0x67 1).wellFormed = true ∧ State.reset.shutdown = false := by decide

theorem witness_StepRunsScheduledOperation :
    decode State.reset.cfg (.input (.event 0x03 [])) = .ok .engRxStep ∧
    decode State.reset.cfg (.input (.event 0x06 [])) = .error (.unknownEvent 0x06) ∧
    decode State.reset.cfg (.input (tableInput 8 0xFC)) = .ok (.wrMac1Hi 0x7C [0]) := by decide

/-- The last byte of the address space: a store that wraps there, and a load. -/
theorem witness_StepGuestTurns :
    (∃ s : State, s.schedule = [.guest (.store 0xFFFFFFFF [1, 2])] ∧ s.mem.wf = true ∧ [(1 : Byte), 2].length < 2 ^ 32) ∧
    (∃ s : State, s.schedule = [.guest (.load 0xFFFFFFFF 2)]) :=
  ⟨⟨{ State.reset with schedule := [.guest (.store 0xFFFFFFFF [1, 2])] }, rfl, rfl, by decide⟩,
    ⟨{ State.reset with schedule := [.guest (.load 0xFFFFFFFF 2)] }, rfl⟩⟩

theorem witness_InvariantKeptByStep :
    ∃ s t, Inv s ∧ step s = .next t ∧ s.schedule = [.input (.event 0x02 [])] := by
  obtain ⟨t, h⟩ := exec_of_completes (i := .engTxStep) (s := { oneSlot with schedule := [] }) (by decide +kernel)
  exact ⟨_, t, inv_oneSlot [.input (.event 0x02 [])], h, rfl⟩

theorem witness_ResetMeetsInvariant : Config.p0.Valid := valid_p0

theorem witness_OutputsAndCountersOnlyGrow :
    onNext (.txdOwned ⟨0, 0, 0, false, 0⟩) oneSlot (fun t => t.txErrCount == oneSlot.txErrCount + 1) ∧
    Instr.txdOwned ⟨0, 0, 0, false, 0⟩ ≠ .hostReset := by decide +kernel

theorem witness_CausesChangeOnlyAsStated :
    onNext (.linkChange false) State.reset (fun t => t.isr == 0x100) ∧ Instr.linkChange false ≠ .hostReset ∧
    onNext (.wrIsr 0x100) { State.reset with isr := 0x100 } (fun t => t.isr == 0) := by decide +kernel

/-- A write of each of the four registers, an ISR read in between, then the state the statement reads the register in. -/
theorem witness_WrittenValueReadsBack :
    ∃ s t u : State, exec (.wrImr 5) s = .next t ∧ execAll [.rdIsr, .wrTxcfg 1] t = .next u ∧ u.shutdown = false ∧
      .hostReset ∉ [Instr.rdIsr, .wrTxcfg 1] ∧ ∀ w, .wrImr w ∉ [Instr.rdIsr, .wrTxcfg 1] :=
  ⟨State.reset, _, _, rfl, rfl, rfl, by decide, fun w => by simp⟩

theorem witness_WrittenValueReadsBack_others :
    ∃ s t1 t2 t3 : State, exec (.wrTxcfg 0x10001) s = .next t1 ∧ exec (.wrRxcfg 0x11) s = .next t2 ∧
      exec (.wrCfg0 0x8000) s = .next t3 ∧ execAll [] t1 = .next t1 ∧ t1.shutdown = false ∧ t2.shutdown = false ∧
      t3.shutdown = false :=
  ⟨State.reset, _, _, _, rfl, rfl, rfl, rfl, rfl, rfl, rfl⟩

theorem witness_RegisterReadsArePure :
    isGuestRead State.reset.cfg (.rdMac1Hi 0x7F 1) = true ∧ (Instr.rdMac1Hi 0x7F 1).wellFormed State.reset.cfg = true ∧
    Instr.rdMac1Hi 0x7F 1 ≠ .rdPhyctl ∧ (∀ a, Instr.rdMac1Hi 0x7F 1 ≠ .badAccess a) ∧ State.reset.shutdown = false :=
  ⟨rfl, rfl, by decide, fun a => by simp, rfl⟩

theorem witness_RegisterWritesMakeNoOutput :
    isGuestWrite State.reset.cfg (.wrImr 4) = true ∧ isGuestWrite State.reset.cfg (.mdioWr 0x11 9 0 false 0) = true ∧
    (∀ a, Instr.wrImr 4 ≠ .badAccess a) ∧ State.reset.shutdown = false :=
  ⟨rfl, rfl, fun a => by simp, rfl⟩

theorem witness_RegistersChangeOnlyByGuestWrites :
    completes .engTxStep oneSlot ∧ isGuestWrite oneSlot.cfg .engTxStep = false ∧ Instr.engTxStep ≠ .hostReset := by
  decide +kernel

theorem witness_DisarmedRingsNeverRead_access :
    ∃ s t, step s = .next t ∧ t.memAccesses ≠ s.memAccesses := by
  have h : onNext .engTxStep { oneSlot with schedule := [] } (fun t => t.memAccesses != []) := by decide +kernel
  unfold onNext at h
  split at h
  · rename_i t ht
    exact ⟨{ oneSlot with schedule := [.input (.event 0x02 [])] }, t, ht, show t.memAccesses ≠ [] by simpa using h⟩
  · cases h
  · cases h

theorem witness_DisarmedRingsNeverRead_arming :
    ∃ s t1 t2 : State, step { s with schedule := [.input (.access (.write 0x00 [0x10, 0, 0, 0]))] } = .next t1 ∧
      s.armed .tx0 = false ∧ t1.armed .tx0 = true ∧
      step { s with schedule := [.input (.access (.write 0x10 [0x11, 0, 0, 0]))] } = .next t2 ∧
      s.armed .rx = false ∧ t2.armed .rx = true :=
  ⟨State.reset, _, _, rfl, rfl, rfl, rfl, rfl, rfl⟩

/-- A guest store of one byte pending for the engine's next memory access. -/
def racing (s : State) : State := { s with race := [⟨[.store 5 [7]], []⟩] }

theorem witness_StoresOnlyByDescriptorSteps :
    completes (.wireFrameArrive [1]) (racing State.reset) ∧ consumesDescriptors (.wireFrameArrive [1]) = false ∧
    (oneSlot.txPass = some ⟨.tx0, 0, 0⟩ ∧ oneSlot.txStops .tx0 0 = false ∧ oneSlot.rxPassOpen = false) := by
  decide +kernel

/-- Not owned, unavailable, disarmed, at the bound: the first two come to the fetch. -/
theorem witness_StoresOnlyByDescriptorSteps_tx :
    let s := racing (txState .tx1 0x01000800 [])
    let bound := { s with pass := some ⟨.tx1, 8, 8⟩ }
    (s.txPass = some ⟨.tx1, 0, 0⟩ ∧ s.txStops .tx1 0 = true ∧ s.armed .tx1 = true ∧ 0 ≠ ringLen .tx1 ∧
      onNext .engTxStep s (fun t => t.mem == [(5, 7)])) ∧
    ({ s with txbase1 := 0x10000000 }.txStops .tx1 0 = true ∧ { s with txArmed1 := false }.txStops .tx1 0 = true ∧
      onNext .engTxStep { s with txArmed1 := false } (fun t => t.mem == [])) ∧
    (bound.txPass = some ⟨.tx1, 8, 8⟩ ∧ bound.txStops .tx1 8 = true ∧ 8 = ringLen .tx1) := by decide +kernel

theorem witness_StoresOnlyByDescriptorSteps_rx :
    let s := racing (rxState [] [[1]])
    (s.rxPassOpen = true ∧ s.rxStops = true ∧ s.rxArmed = true ∧ s.rxQueue ≠ [] ∧
      onNext .engRxStep s (fun t => t.mem == [(5, 7)])) ∧
    ({ s with rxbase := 0x10000000 }.rxStops = true ∧ { s with rxArmed := false }.rxStops = true ∧
      { s with rxQueue := [] }.rxStops = true) := by decide +kernel

theorem witness_ShutdownIsFinal :
    ∃ s : State, s.shutdown = true ∧ isGuestRead s.cfg .rdIsr = true ∧ isGuestRead s.cfg .hostReset = false ∧
      isGuestWrite s.cfg .hostReset = false :=
  ⟨{ State.reset with shutdown := true }, rfl, rfl, rfl, rfl⟩

theorem witness_EveryOperationCompletes :
    oneSlot.shutdown = false ∧ ∀ a, Instr.engTxStep ≠ .badAccess a := ⟨rfl, fun a => by simp⟩

theorem witness_RequestsOnlyAtRaises :
    onNext .engPassEnd { State.reset with imr := 4, pass := some ⟨.tx0, 1, 1⟩ } (fun t => t.requests == 1) ∧
    onNext (.linkChange false) { State.reset with imr := 0x100 } (fun t => t.requests == 1) ∧
    onNext .engPassEnd { State.reset with imr := 4, pass := some ⟨.tx0, 0, 0⟩ } (fun t => t.requests == 0) := by
  decide +kernel

theorem witness_IdentifierReads : ∃ s : State, Inv s ∧ s.shutdown = false ∧ ((2 : BitVec 5) = 2 ∨ (2 : BitVec 5) = 3) :=
  ⟨_, inv_oneSlot [], rfl, .inl rfl⟩

theorem witness_PlainStorageWrites : State.reset.shutdown = false ∧ [(1 : Byte), 0, 0, 0].length = 4 := ⟨rfl, rfl⟩

theorem witness_Cfg0Write :
    State.reset.shutdown = false ∧
    (∀ k, State.reset.cfg.softResetMask.getLsbD k = true → (0x8000#32).getLsbD k = true) ∧
    (∃ k, State.reset.cfg.softResetMask.getLsbD k = true ∧ (0x7FFF#32).getLsbD k = false) :=
  ⟨rfl, fun _ h => h, 15, by decide⟩

/-- Each field from end to end, its last byte alone, and one byte past each end. -/
theorem witness_ByteFields :
    State.reset.shutdown = false ∧ 1 ≤ [(1 : Byte)].length ∧
    (0x62 ≤ 0x67 ∧ 0x67 + [(1 : Byte)].length ≤ 0x68) ∧ (0x7A ≤ 0x7F ∧ 0x7F + [(1 : Byte)].length ≤ 0x80) ∧
    (0x68 ≤ 0x6B ∧ 0x6B + [(1 : Byte)].length ≤ 0x6C) ∧ (0x6C ≤ 0x6F ∧ 0x6F + [(1 : Byte)].length ≤ 0x70) ∧
    (0x62 ≤ 0x62 ∧ 0x62 + (List.replicate 6 (1 : Byte)).length ≤ 0x68) ∧
    (0x62 ≤ 0x67 ∧ 0x67 < 0x68 ∧ 0x68 < 0x67 + [(1 : Byte), 2].length) ∧
    (0x7A ≤ 0x7F ∧ 0x7F < 0x80 ∧ 0x80 < 0x7F + [(1 : Byte), 2].length) := by decide

theorem witness_UndefinedOffsetAccess :
    State.reset.shutdown = false ∧ (∀ k, k < 1 → undefinedOffset (0x0F + k) = true) ∧
    (∀ k, k < 4 → undefinedOffset (0x2C + k) = true) ∧ (∀ k, k < 2 → undefinedOffset (0x80 + k) = true) ∧
    [(1 : Byte), 2].length = 2 := by decide

theorem witness_PhyctlWrite :
    State.reset.shutdown = false ∧ (0x8050#32).extractLsb' 0 5 = State.reset.cfg.mdioReadOp ∧
    (1 : BitVec 5) ≠ (0x11#32).extractLsb' 10 5 := by decide

theorem witness_PhyctlWriteRunsCommand :
    decode State.reset.cfg (.input (.command 0x01E10491)) = .ok (.mdioWrAnarPhy1 0x11 false 0x01E1) := by decide

theorem witness_MdioPlainWrite_and_MdioWriteThenRead :
    State.reset.shutdown = false ∧ (Instr.mdioWr 0x11 31 31 true 0xFFFF).wellFormed State.reset.cfg = true ∧
    (Instr.mdioWr 0x11 4 0 false 0).wellFormed State.reset.cfg = true := by decide

theorem witness_BusyOnlyFromGuest :
    onNext (.mdioRdaddr 2 0 true 0) State.reset (fun t => t.phyctl.getLsbD 15) ∧
    onNext .rdIsr { State.reset with phyctl := 0x8000 } (fun t => t.phyctl.getLsbD 15) := by decide

/-- Each place of the cyclic order, and the two ways the step is not enabled. -/
theorem witness_PassBegins :
    ∃ s : State, s.shutdown = false ∧ s.pass = none ∧ s.nextRing = .tx0 ∧ s.eligible .tx0 = true ∧
      { s with nextRing := .rx }.eligible .rx = false ∧ { s with nextRing := .tx1 }.eligible .tx1 = false ∧
      { s with pass := some ⟨.rx, 0, 0⟩ }.pass ≠ none ∧ { s with txArmed0 := false }.eligible .tx0 = false :=
  ⟨{ State.reset with txArmed0 := true }, rfl, rfl, rfl, rfl, rfl, rfl, by simp, rfl⟩

/-- Disarmed, at the bound, with an empty queue. -/
theorem witness_PassEnds :
    ∃ s : State, s.shutdown = false ∧ s.pass = some ⟨.tx1, 8, 1⟩ ∧ Ring.tx1 ≠ .rx ∧ 8 = ringLen .tx1 ∧ s.armed .tx1 = false ∧
      { s with pass := some ⟨.rx, 0, 0⟩ }.pass = some ⟨.rx, 0, 0⟩ ∧ s.rxQueue = [] :=
  ⟨{ State.reset with pass := some ⟨.tx1, 8, 1⟩ }, rfl, rfl, by decide, rfl, rfl, rfl, rfl⟩

/-- Disarmed; at the bound of each ring; unavailable; not owned. -/
theorem witness_TxStepEndsPass :
    (∃ s : State, TxReady s .tx1 8 8 ∧ 8 = ringLen .tx1) ∧ (∃ s : State, TxReady s .tx0 32 1 ∧ 32 = ringLen .tx0) ∧
    (∃ s : State, TxReady s .tx0 31 0 ∧ s.armed .tx0 = true ∧ 31 ≠ ringLen .tx0 ∧
      s.available (s.base .tx0 + 16 * BitVec.ofNat 32 (s.head .tx0)) 16 = true ∧
      ownBit (s.mem.getBytes (s.base .tx0 + 16 * BitVec.ofNat 32 (s.head .tx0)) 16) = false) :=
  ⟨⟨_, ready_txState .tx1 (.inr rfl) 8 8, rfl⟩, ⟨_, ready_txState .tx0 (.inl rfl) 32 1, rfl⟩,
    ⟨_, ready_txState .tx0 (.inl rfl) 31 0, rfl, by decide, by decide +kernel, by decide +kernel⟩⟩

theorem witness_TxStepEndsPass_unavailable :
    ∃ s : State, TxReady s .tx0 0 0 ∧ s.armed .tx0 = true ∧ 0 ≠ ringLen .tx0 ∧
      s.available (s.base .tx0 + 16 * BitVec.ofNat 32 (s.head .tx0)) 16 = false :=
  ⟨{ oneSlot with txbase0 := 0x10000000 }, ⟨rfl, rfl, by decide +kernel, rfl, .inl rfl⟩, rfl, by decide, by decide +kernel⟩

theorem witness_TxStepFetches :
    TxReady oneSlot .tx0 0 0 ∧ oneSlot.armed .tx0 = true ∧ 0 ≠ ringLen .tx0 ∧
    oneSlot.available (oneSlot.base .tx0 + 16 * BitVec.ofNat 32 (oneSlot.head .tx0)) 16 = true :=
  ⟨ready_oneSlot, rfl, by decide, by decide +kernel⟩

/-- The shortest and the longest good length. -/
theorem witness_TxdOwnedDelivers :
    TxReady oneSlot .tx0 0 0 ∧ (1#32 ≠ 0 ∧ (1#32).toNat ≤ oneSlot.cfg.maxFrameSize) ∧
    (1518#32 ≠ 0 ∧ (1518#32).toNat ≤ oneSlot.cfg.maxFrameSize) ∧
    oneSlot.available 0x01100000 (1#32).toNat = true ∧ oneSlot.available 0x01100000 (1518#32).toNat = true :=
  ⟨ready_oneSlot, by decide, by decide, by decide +kernel, by decide +kernel⟩

/-- Length 0, one above the bound, and a good length whose buffer is unavailable. -/
theorem witness_TxdOwnedErrors :
    TxReady oneSlot .tx0 0 0 ∧ oneSlot.cfg.maxFrameSize < (1519#32).toNat ∧
    (60#32 ≠ 0 ∧ ¬ oneSlot.cfg.maxFrameSize < (60#32).toNat ∧ oneSlot.available 0x10000000 (60#32).toNat = false) :=
  ⟨ready_oneSlot, by decide, by decide +kernel⟩

/-- T2 of 95 with one slot: the slot after it is not owned. -/
theorem witness_TxDrainPass :
    ∃ (s : State) (cursor : Nat → Nat), TxReady s .tx0 0 0 ∧ s.armed .tx0 = true ∧ 1 ≤ ringLen .tx0 ∧
      (∀ j, j ≤ 1 → cursor j < ringLen .tx0) ∧ cursor 0 = s.head .tx0 ∧
      (∀ j, j ≤ 1 → s.available (s.base .tx0 + 16 * BitVec.ofNat 32 (cursor j)) 16 = true) ∧
      (∀ j, j < 1 → ownBit (s.mem.getBytes (s.base .tx0 + 16 * BitVec.ofNat 32 (cursor j)) 16) = true ∧
        cursor (j + 1) = if (txFields (s.mem.getBytes (s.base .tx0 + 16 * BitVec.ofNat 32 (cursor j)) 16)).wrap then 0
          else (cursor j + 1) % ringLen .tx0) ∧
      (∀ i j, i < j → j < 1 → cursor i ≠ cursor j) ∧
      ownBit (s.mem.getBytes (s.base .tx0 + 16 * BitVec.ofNat 32 (cursor 1)) 16) = false :=
  ⟨oneSlot, id, ready_oneSlot, rfl, by decide, by decide, rfl, by decide +kernel, by decide +kernel,
    fun i j hi hj => by omega, by decide +kernel⟩

/-- Program 2 of 95: one slot with WRAP, so that the pass meets the slot it consumed. -/
theorem witness_TxDrainPass_wrap :
    ∃ s : State, TxReady s .tx0 0 0 ∧ s.armed .tx0 = true ∧ s.head .tx0 = 0 ∧
      s.available (s.base .tx0 + 16 * BitVec.ofNat 32 0) 16 = true ∧
      ownBit (s.mem.getBytes (s.base .tx0 + 16 * BitVec.ofNat 32 0) 16) = true ∧
      (txFields (s.mem.getBytes (s.base .tx0 + 16 * BitVec.ofNat 32 0) 16)).wrap = true :=
  ⟨txState .tx0 0x01000000 [slot 1600 0x80000000 0x01100000 0x80000000],
    ⟨rfl, rfl, by decide +kernel, rfl, .inl rfl⟩, rfl, rfl, by decide +kernel, by decide +kernel, by decide +kernel⟩

theorem witness_TxDrainPass_full :
    ∃ s : State, TxReady s .tx1 0 0 ∧ s.armed .tx1 = true ∧ s.head .tx1 = 0 ∧
      ∀ j, j < 8 → s.available (s.base .tx1 + 16 * BitVec.ofNat 32 j) 16 = true ∧
        ownBit (s.mem.getBytes (s.base .tx1 + 16 * BitVec.ofNat 32 j) 16) = true ∧
        (txFields (s.mem.getBytes (s.base .tx1 + 16 * BitVec.ofNat 32 j) 16)).wrap = false :=
  ⟨txState .tx1 0x01000800 (List.replicate 8 (slot 60 0x80000000 0x01100000 0)),
    ⟨rfl, rfl, by decide +kernel, rfl, .inr rfl⟩, rfl, rfl, by decide +kernel⟩

theorem witness_RxStepEndsPass :
    (∃ s : State, RxReady s 0 0 ∧ s.rxQueue = []) ∧ (∃ s : State, RxReady s 0 0 ∧ s.rxArmed = false) ∧
    (∃ s : State, RxReady s 0 0 ∧ s.rxArmed = true ∧ s.rxQueue ≠ [] ∧ s.available s.rxbase 16 = true ∧
      ownBit (s.mem.getBytes s.rxbase 16) = false) ∧
    (∃ s : State, RxReady s 0 0 ∧ s.rxArmed = true ∧ s.rxQueue ≠ [] ∧ s.rxHead = 0 ∧ s.available s.rxbase 16 = false) :=
  ⟨⟨rxState [] [], ⟨rfl, rfl, rfl, rfl⟩, rfl⟩, ⟨{ rxState [] [] with rxArmed := false }, ⟨rfl, rfl, rfl, rfl⟩, rfl⟩,
    ⟨rxState [] [[1]], ⟨rfl, rfl, rfl, rfl⟩, rfl, by decide, by decide +kernel, by decide +kernel⟩,
    ⟨{ rxState [] [[1]] with rxbase := 0x10000000 }, ⟨rfl, rfl, rfl, rfl⟩, rfl, by decide, rfl, by decide +kernel⟩⟩

theorem witness_RxStepFetches :
    RxReady oneFrame 0 0 ∧ oneFrame.rxArmed = true ∧ oneFrame.rxQueue ≠ [] ∧
    oneFrame.available (oneFrame.rxbase + 16 * BitVec.ofNat 32 oneFrame.rxHead) 16 = true :=
  ⟨ready_oneFrame, rfl, by decide, by decide +kernel⟩

/-- A buffer of size 0, one that just fits, and one byte short. -/
theorem witness_RxdOwnedDeposits :
    RxReady oneFrame 0 0 ∧ oneFrame.rxQueue = [1, 2, 3] :: [] ∧
    ∀ size : Nat, size = 0 ∨ size = 2 ∨ size = 3 →
      oneFrame.available 0x02100000 (min [(1 : Byte), 2, 3].length (BitVec.ofNat 31 size).toNat) = true :=
  ⟨ready_oneFrame, rfl, fun size h => by rcases h with rfl | rfl | rfl <;> decide +kernel⟩

theorem witness_RxdOwnedBufferError :
    RxReady oneFrame 0 0 ∧ oneFrame.rxQueue = [1, 2, 3] :: [] ∧
    oneFrame.available 0x0FFFFFFE (min [(1 : Byte), 2, 3].length (0x600#31).toNat) = false :=
  ⟨ready_oneFrame, rfl, by decide +kernel⟩

theorem witness_EmitHandsOver :
    ∃ s : State, s.shutdown = false ∧ s.txQueue = [1] :: [[2]] ∧ State.reset.txQueue = [] :=
  ⟨{ State.reset with txQueue := [[1], [2]] }, rfl, rfl, rfl⟩

theorem witness_FrameArrives :
    ∃ s u : State, s.shutdown = false ∧ s.rxQueue.length < 256 ∧ s.rxQueue.length = 255 ∧ u.shutdown = false ∧
      256 ≤ u.rxQueue.length :=
  ⟨{ State.reset with rxQueue := List.replicate 255 [] }, { State.reset with rxQueue := List.replicate 256 [] },
    rfl, by decide +kernel, by decide +kernel, rfl, by decide +kernel⟩

theorem witness_LinkChanges : State.reset.shutdown = false ∧ true = State.reset.linkUp ∧ false ≠ State.reset.linkUp := by decide

/-- T3's length 0 and T1's good slot, with a guest store to the slot's status word between the fetch and the write-back. -/
theorem witness_StatusWriteBackIsNotAtomic :
    ∀ len : Word, len = 0 ∨ len = 60 →
      let s := { txState .tx0 0x01000000 [slot len 0x80000000 0x01100000 0] with
        race := [⟨[.store 0x01000004 [1]], []⟩, ⟨[.store 0x01100000 [9], .load 0x01100000 1], [0, 1]⟩] }
      s.shutdown = false ∧ s.mem.wf = true ∧ s.pass = some ⟨.tx0, 0, 0⟩ ∧ (∀ b ∈ s.race, ∀ g ∈ b.ops, g.fits = true) ∧
      s.armed .tx0 = true ∧ 0 ≠ ringLen .tx0 ∧ s.available 0x01000000 16 = true ∧
      s.base .tx0 + 16 * BitVec.ofNat 32 (s.head .tx0) = 0x01000000 ∧
      ownBit (s.mem.getBytes 0x01000000 16) = true ∧ (txFields (s.mem.getBytes 0x01000000 16)).length = len ∧
      s.available 0x01100000 60 = true ∧ s.txQueue.length < 256 := by
  rintro len (rfl | rfl) <;> decide +kernel

/-- A deposit into an available buffer, into an unavailable one, and one of no bytes, the guest looking on. -/
theorem witness_GuestAccessesInsideRxStep :
    ∀ w : Word × Word, w = (0x02100000, 0x600) ∨ w = (0x10000000, 0x600) ∨ w = (0x02100000, 0) →
      let s := { rxState [slot 0 0x80000000 w.1 w.2] [[1, 2, 3]] with
        race := [⟨[], []⟩, ⟨[.load 0x02100000 3, .store 0x02100000 [9]], [0, 1, 2]⟩, ⟨[.store 0x02000004 [1]], []⟩] }
      s.shutdown = false ∧ s.mem.wf = true ∧ s.pass = some ⟨.rx, 0, 0⟩ ∧ s.rxQueue = [1, 2, 3] :: [] ∧
      (∀ b ∈ s.race, ∀ g ∈ b.ops, g.fits = true) ∧ s.rxArmed = true ∧
      s.rxbase + 16 * BitVec.ofNat 32 s.rxHead = 0x02000000 ∧ s.available 0x02000000 16 = true ∧
      ownBit (s.mem.getBytes 0x02000000 16) = true := by
  rintro w (rfl | rfl | rfl) <;> decide +kernel

theorem witness_QueuesAreFifos :
    completes (.wireFrameArrive [1]) State.reset ∧ Instr.wireFrameArrive [1] ≠ .hostReset ∧
    completes (.wrCfg0 0x7FFF) State.reset ∧ softResetHit State.reset.cfg 0x7FFF = false := by decide

/-- One for each way a cursor can move. -/
theorem witness_CursorsMoveOnlyAsStated :
    onNext (.txdOwned ⟨0, 0, 0, false, 0⟩) oneSlot (fun t => t.head .tx0 != oneSlot.head .tx0) ∧
    onNext (.wrRxcfg 0x11) { State.reset with rxHead := 63 } (fun t => t.head .rx == 0) ∧
    onNext (.wrCfg0 0x8000) { State.reset with txHead1 := 7 } (fun t => t.head .tx1 == 0) ∧
    onNext .hostReset { State.reset with txHead0 := 31 } (fun t => t.head .tx0 == 0) := by decide +kernel

theorem witness_StorageRegistersAreNeverRead :
    isGuestRead oneFrame.cfg .engRxStep = false ∧ isGuestWrite oneFrame.cfg .engRxStep = false ∧
    Instr.engRxStep ≠ .hostReset ∧ (∀ up, Instr.engRxStep ≠ .linkChange up) ∧ completes .engRxStep oneFrame = true :=
  ⟨rfl, rfl, by decide, fun up => by simp, by decide +kernel⟩

/-- A run in which a TX pass of a disarmed ring ends, then a queued packet leaves, then nothing is enabled any more. -/
def fairRun : Run where
  state
    | 0 => { State.reset with pass := some ⟨.tx0, 0, 0⟩, txQueue := [[1]] }
    | 1 => { State.reset with txQueue := [[1]] }
    | _ + 2 => { State.reset with history := [.send [1] true] }
  turns
    | 0 => [.input (.event 0x02 [])]
    | 1 => [.input (.event 0x05 [1])]
    | _ + 2 => []
  advances
    | 0 => rfl
    | 1 => rfl
    | _ + 2 => rfl

theorem witness_FairRunsProgress :
    fairRun.WeaklyFair ∧ (∀ n, (fairRun.state n).shutdown = false) ∧ (fairRun.state 0).txQueue ≠ [] ∧
    (fairRun.state 0).pass = some ⟨.tx0, 0, 0⟩ ∧ Ring.tx0 ≠ .rx ∧ 0 ≤ ringLen .tx0 := by
  refine ⟨fun e n h => ?_, ?_, by decide, rfl, by decide, by decide⟩
  · have := h (n + 2) (by omega)
    cases e <;> cases this
  · rintro (_ | _ | n) <;> rfl

/-- The states of a run that polls an armed, empty TX ring for ever: `h` is the history so far. -/
def polling : Nat → List Event → State
  | 0, h => { State.reset with txArmed0 := true, nextRing := .tx1, history := h }
  | 1, h => { State.reset with txArmed0 := true, nextRing := .tx1, pass := some ⟨.tx0, 0, 0⟩, history := h }
  | n + 2, h => polling n (.memRead 0 16 true :: h)

/-- A pass begins, its first step finds the descriptor not owned, and so on. -/
def pollingTurns : Nat → List Turn
  | 0 => [.input (.event 0x01 [])]
  | 1 => [.input (.event 0x02 [])]
  | n + 2 => pollingTurns n

/-- The descriptor at address 0 of empty memory is not owned, so the step ends the pass. -/
theorem polling_step (h : List Event) : (polling 1 h).txStep .tx0 0 = polling 2 h := by
  have hread : (polling 1 h).memReadAnswer ((polling 1 h).descAddr .tx0) 16 = some (List.replicate 16 0) := rfl
  have hown : ownBit (List.replicate 16 0) = false := by decide
  unfold State.txStep
  rw [if_neg (by rintro (h | h) <;> cases h)]
  dsimp only
  rw [hread]
  show State.txAct _ _ _ = _
  unfold State.txAct
  rw [hown]
  rfl

theorem polling_advances : ∀ (n : Nat) (h : List Event),
    step { polling n h with schedule := (polling n h).schedule ++ pollingTurns n } = .next (polling (n + 1) h)
  | 0, _ => rfl
  | 1, h => congrArg Host.Outcome.next (polling_step h)
  | n + 2, h => polling_advances n (.memRead 0 16 true :: h)

/-- What the states of the run have in common, and the two kinds of them. -/
theorem polling_common : ∀ (n : Nat) (h : List Event),
    (polling n h).eligible .tx0 = true ∧ (polling n h).shutdown = false ∧ (polling n h).txQueue = [] ∧
      (polling n h).rxPassOpen = false ∧ ∀ p, (polling n h).pass = some p → p = ⟨.tx0, 0, 0⟩
  | 0, _ => ⟨rfl, rfl, rfl, rfl, nofun⟩
  | 1, _ => ⟨rfl, rfl, rfl, rfl, fun _ hp => (Option.some.inj hp).symm⟩
  | n + 2, h => polling_common n (.memRead 0 16 true :: h)

theorem polling_even : ∀ (n : Nat) (h : List Event), (polling (2 * n) h).txPass = none
  | 0, _ => rfl
  | n + 1, h => polling_even n (.memRead 0 16 true :: h)

theorem polling_odd : ∀ (n : Nat) (h : List Event), (polling (2 * n + 1) h).pass.isNone = false
  | 0, _ => rfl
  | n + 1, h => polling_odd n (.memRead 0 16 true :: h)

def pollingRun : Run where
  state n := polling n []
  turns := pollingTurns
  advances n := polling_advances n []

/-- The run is weakly fair: it takes ENG_PASS_BEGIN and ENG_TX_STEP in turn, so that neither stays enabled. -/
theorem pollingRun_weaklyFair : pollingRun.WeaklyFair := by
  intro e n h
  exfalso
  have hodd := h (2 * n + 1) (by omega)
  have heven := h (2 * n) (by omega)
  have hc := polling_common (2 * n) []
  cases e with
  | passBegin =>
    have : (pollingRun.state (2 * n + 1)).pass.isNone = false := polling_odd n []
    simp [EngineStep.enabled, this] at hodd
  | txStep =>
    have : (pollingRun.state (2 * n)).txPass = none := polling_even n []
    simp [EngineStep.enabled, this] at heven
  | rxStep =>
    have : (pollingRun.state (2 * n)).rxPassOpen = false := hc.2.2.2.1
    simp [EngineStep.enabled, this] at heven
  | txEmit =>
    have : (pollingRun.state (2 * n)).txQueue = [] := hc.2.2.1
    simp [EngineStep.enabled, this] at heven

/-- The hypotheses of the last clause, in a weakly fair run whose passes begin and end for ever. -/
theorem witness_FairRunsProgress_eligible :
    pollingRun.WeaklyFair ∧ (∀ n, (pollingRun.state n).shutdown = false) ∧
    (∀ p, (pollingRun.state 0).pass = some p → p.ring ≠ .rx → p.steps ≤ ringLen p.ring) ∧
    (∀ k, 0 ≤ k → ∃ m, k ≤ m ∧ ∀ p, (pollingRun.state m).pass = some p → p.ring ≠ .rx) ∧
    (∀ m, 0 ≤ m → (pollingRun.state m).eligible .tx0 = true) :=
  ⟨pollingRun_weaklyFair, fun n => (polling_common n []).2.1, nofun,
    fun k _ => ⟨k, Nat.le_refl k, fun p hp => by rw [(polling_common k []).2.2.2.2 p hp]; decide⟩,
    fun m _ => (polling_common m []).1⟩

end Sys2Proof.Tests
end

/-! PROOFS of the statements on the machine as a whole (spec/00_scope.md): what each turn of the schedule does, which
operations complete, what only grows, and that reset meets the invariant. -/

namespace Sys2Proof.Machine

/-! ### What a step does, one equation per kind of turn -/

theorem step_idle {s : State} (h : s.schedule = []) : step s = .next s := by
  unfold step; rw [h]

theorem step_guest {s : State} {g : GuestOp} {rest : List Turn} (h : s.schedule = .guest g :: rest) :
    step s = .next ({ s with schedule := rest }.guestOp g) := by
  unfold step; rw [h]

theorem step_guestRace {s : State} {batches : List RaceBatch} {rest : List Turn}
    (h : s.schedule = .guestRace batches :: rest) :
    step s = .next { s with schedule := rest, race := s.race ++ batches } := by
  unfold step; rw [h]

theorem step_input_ok {s : State} {x : Input} {rest : List Turn} {i : Instr} (h : s.schedule = .input x :: rest)
    (hd : decode s.cfg (.input x) = .ok i) : step s = exec i { s with schedule := rest } := by
  have hd' : decodeInput s.cfg x = .ok i := hd
  unfold step; simp only [h, hd']

theorem step_input_error {s : State} {x : Input} {rest : List Turn} {e : DecodeError}
    (h : s.schedule = .input x :: rest) (hd : decode s.cfg (.input x) = .error e) :
    step s = .refused (.notAnOperation e) := by
  have hd' : decodeInput s.cfg x = .error e := hd
  unfold step; simp only [h, hd']

/-- Settles O5. `withFetchWord` is the case of an input turn in front of the state's own schedule. -/
theorem stepRunsScheduledOperation : Obligations.StepRunsScheduledOperation := by
  refine ⟨fun _ _ _ _ => step_input_ok, fun _ _ _ _ => step_input_error, fun s nbits w i hd => ?_⟩
  exact step_input_ok (s := s.withFetchWord nbits w) (rest := s.schedule) rfl hd

/-- Settles O6. A store is read back byte by byte through `Memory.get_setBytes`, a load through
`Memory.getElem?_getBytes`. -/
theorem stepGuestTurns : Obligations.StepGuestTurns := by
  refine fun s => ⟨step_idle, ?store, ?load, fun _ _ => step_guestRace⟩
  case store =>
    intro a b rest h hwf hb
    exact ⟨_, step_guest h, rfl, fun x => Memory.get_setBytes b s.mem a x hwf hb⟩
  case load =>
    intro a n rest h
    exact ⟨s.mem.getBytes a n, step_guest h, Memory.length_getBytes s.mem n a, Memory.getElem?_getBytes s.mem n a⟩

/-! ### Reset -/

/-- The reference parameters P0 meet the constraints of R6, R193 and R196; the fix-up bit is bit 5 (R7). -/
theorem config_p0_valid : Config.p0.Valid where
  frameSize := by decide
  softReset := by decide
  fixupOneBit := ⟨5, by decide⟩
  fixupNotIdentifier := by decide
  controlSelfClears := by decide
  controlFullDuplex := by decide
  statusLinkUp := by decide
  statusAutoNegotiated := by decide

theorem inv_resetWith {c : Config} (hc : c.Valid) : Inv (State.resetWith c) where
  parameters := hc
  memory := Memory.wf_reset c
  txQueue := Nat.zero_le 256
  rxQueue := Nat.zero_le 256
  txHead0 := Nat.succ_pos 31
  txHead1 := Nat.succ_pos 7
  rxHead := Nat.succ_pos 63
  causes := BitVec.zero_and
  passCounts := nofun
  identifiers p := ⟨phyGet_reset c p 2, phyGet_reset c p 3⟩

/-- Settles O8. -/
theorem resetMeetsInvariant : Obligations.ResetMeetsInvariant :=
  ⟨fun _ => inv_resetWith, config_p0_valid, rfl, inv_resetWith config_p0_valid⟩

/-! ### Operations that complete

A guest access but `BAD_ACCESS` completes in a running block (`exec_guest`); every other operation completes in every
state, because a step that is not enabled waits. -/

/-- An operation that is no guest access completes, enabled or not (R12, log entries 8 and 17). -/
theorem exec_agent_completes {i : Instr} (s : State)
    (hg : (isGuestRead s.cfg i || isGuestWrite s.cfg i) = false) : ∃ t, exec i s = .next t := by
  cases i with
  | txdOwned d => simp only [exec, execTxdOwned]; split <;> exact ⟨_, rfl⟩
  | txdNotOwned d => simp only [exec, execTxdNotOwned]; split <;> exact ⟨_, rfl⟩
  | rxdOwned d => simp only [exec, execRxdOwned]; split <;> exact ⟨_, rfl⟩
  | rxdNotOwned d => simp only [exec, execRxdNotOwned]; split <;> exact ⟨_, rfl⟩
  | engPassBegin =>
    simp only [exec, execEngPassBegin]
    split
    · exact ⟨_, rfl⟩
    · split <;> exact ⟨_, rfl⟩
  | engTxStep => simp only [exec, execEngTxStep]; split <;> exact ⟨_, rfl⟩
  | engRxStep => simp only [exec, execEngRxStep]; split <;> exact ⟨_, rfl⟩
  | engPassEnd => simp only [exec, execEngPassEnd]; split <;> split <;> exact ⟨_, rfl⟩
  | engTxEmit ok => simp only [exec, execEngTxEmit]; split <;> exact ⟨_, rfl⟩
  | wireFrameArrive f => simp only [exec, execWireFrameArrive]; split <;> exact ⟨_, rfl⟩
  | linkChange up =>
    simp only [exec, execLinkChange]
    split
    · exact ⟨_, rfl⟩
    · split <;> exact ⟨_, rfl⟩
  | hostReset => simp only [exec, execHostReset]; split <;> exact ⟨_, rfl⟩
  | hostShutdown => exact ⟨_, rfl⟩
  | badAccess a =>
    cases a with
    | read => cases hg
    | write => cases hg
  -- what is left are the register reads, the register writes and the PHYCTL commands
  | _ => cases hg

/-- Settles O20, by whether the operation is a guest access. -/
theorem everyOperationCompletes : Obligations.EveryOperationCompletes := by
  intro i s hs hbad
  cases hg : isGuestRead s.cfg i || isGuestWrite s.cfg i with
  | true =>
    obtain ⟨a, ha⟩ | ⟨t, ht⟩ := exec_guest s (Bool.or_eq_true_iff.mp hg)
    · exact absurd ha (hbad a)
    · exact ⟨t, ht.trans (guestAccess_running hs)⟩
  | false => exact exec_agent_completes s hg

/-! ### What only grows -/

/-- The six counters of R43, ordered componentwise. -/
def State.counters (s : State) : Nat × Nat × Nat × Nat × Nat × Nat :=
  (s.txErrCount, s.rxErrCount, s.rxOverrunCount, s.txDropCount, s.rxDropCount, s.txSendFailCount)

theorem State.counters_le_iff (s t : State) : s.counters ≤ t.counters ↔
    s.txErrCount ≤ t.txErrCount ∧ s.rxErrCount ≤ t.rxErrCount ∧ s.rxOverrunCount ≤ t.rxOverrunCount ∧
    s.txDropCount ≤ t.txDropCount ∧ s.rxDropCount ≤ t.rxDropCount ∧ s.txSendFailCount ≤ t.txSendFailCount := Iff.rfl

/-- `t` has the parameters and the schedule of `s`, its outputs and perhaps later ones, and no counter below that of
`s` (R6, R43, R323). -/
structure Grows (s t : State) : Prop where
  cfg : t.cfg = s.cfg
  schedule : t.schedule = s.schedule
  history : s.history <:+ t.history
  counters : s.counters ≤ t.counters

theorem Grows.refl (s : State) : Grows s s := ⟨rfl, rfl, List.suffix_rfl, le_rfl⟩

theorem Grows.trans {s t u : State} (h : Grows s t) (h' : Grows t u) : Grows s u :=
  ⟨h'.cfg.trans h.cfg, h'.schedule.trans h.schedule, h.history.trans h'.history, h.counters.trans h'.counters⟩

/-- An update that writes no output and no counter. -/
theorem Grows.of_eq {s t : State} (hc : t.cfg = s.cfg) (hs : t.schedule = s.schedule) (hh : t.history = s.history)
    (hn : t.counters = s.counters) : Grows s t := ⟨hc, hs, hh ▸ List.suffix_rfl, hn.ge⟩

/-- An update of nothing but ISR, guest memory, the pending guest accesses and the history, which it extends. -/
theorem Grows.of_history {s t : State}
    (h : t = { s with isr := t.isr, mem := t.mem, race := t.race, history := t.history })
    (hh : s.history <:+ t.history) : Grows s t :=
  ⟨by rw [h], by rw [h], hh, by rw [h]; exact le_rfl⟩

/-- An update of plain storage registers. -/
theorem StorageFrame.grows {s t : State} (h : StorageFrame s t) : Grows s t :=
  .of_eq h.cfg h.schedule h.history (by rw [h]; rfl)

theorem grows_log (s : State) (e : Event) : Grows s (s.log e) := .of_history rfl (List.suffix_cons e s.history)

theorem grows_latchPhyctl (s : State) (v : Word) : Grows s (s.latchPhyctl v) := .of_eq rfl rfl rfl rfl

/-- A history that may take one more output. -/
theorem suffix_ite_cons (p : Prop) [Decidable p] (e : Event) (l : List Event) : l <:+ if p then l else e :: l := by
  split
  · exact List.suffix_rfl
  · exact List.suffix_cons e l

theorem grows_memRead (s : State) (a : Word) (n : Nat) : Grows s (s.memRead a n) := by
  refine .of_history (by rw [memRead_eq]) ?_
  obtain ⟨l, _, h⟩ := history_memRead s a n
  rw [h]
  exact (suffix_ite_cons _ _ _).trans (List.suffix_append l _)

theorem grows_memWrite (s : State) (a : Word) (b : List Byte) : Grows s (s.memWrite a b) := by
  refine .of_history (by rw [memWrite_eq]) ?_
  obtain ⟨l, _, h⟩ := history_memWrite s a b
  rw [h]
  exact (suffix_ite_cons _ _ _).trans (List.suffix_append l _)

theorem grows_writeBack (s : State) (a w : Word) : Grows s (s.writeBack a w) := by
  refine .of_history (by rw [writeBack_eq]) ?_
  obtain ⟨l, _, h⟩ := history_writeBack s a w
  rw [h]
  exact (List.suffix_cons _ _).trans (List.suffix_append l _)

theorem grows_raiseInt (s : State) (c : Word) : Grows s (s.raiseInt c) := by
  refine .of_history (by rw [raiseInt_eq]) ?_
  rw [history_raiseInt]
  exact suffix_ite_cons _ _ _

theorem grows_passEnd (s : State) : Grows s s.passEnd := by
  have hclose : Grows s { s with pass := none } := .of_eq rfl rfl rfl rfl
  rcases passEnd_cases s with ⟨_, h⟩ | ⟨p, _, _, h⟩ | ⟨p, _, _, h⟩ <;> rw [h]
  · exact .refl s
  · exact hclose
  · exact hclose.trans (grows_raiseInt _ _)

theorem grows_enqueueTx (s : State) (f : Packet) : Grows s (s.enqueueTx f) := by
  rcases enqueueTx_cases s f with ⟨_, h⟩ | ⟨_, h⟩ <;> rw [h]
  · exact .of_eq rfl rfl rfl rfl
  · exact ⟨rfl, rfl, List.suffix_rfl, le_rfl, le_rfl, le_rfl, Nat.le_succ _, le_rfl, le_rfl⟩

theorem grows_enqueueRx (s : State) (f : Packet) : Grows s (s.enqueueRx f) := by
  rcases enqueueRx_cases s f with ⟨_, h⟩ | ⟨_, h⟩ <;> rw [h]
  · exact .of_eq rfl rfl rfl rfl
  · exact ⟨rfl, rfl, List.suffix_rfl, le_rfl, le_rfl, le_rfl, le_rfl, Nat.le_succ _, le_rfl⟩

theorem grows_phyWrite (s : State) (p n : BitVec 5) (d : Half) : Grows s (s.phyWrite p n d) := by
  rw [phyWrite_eq]
  exact .of_eq rfl rfl rfl rfl

/-- Every primitive of a descriptor step only grows outputs and counters, so descriptor steps do. -/
theorem grows_closed : EngineClosed Grows where
  refl := Grows.refl
  trans _ _ _ := Grows.trans
  memRead := grows_memRead
  memWrite := grows_memWrite
  writeBack := grows_writeBack
  advance s r w := by cases r <;> exact .of_eq rfl rfl rfl rfl
  count _ := .of_eq rfl rfl rfl rfl
  enqueue := grows_enqueueTx
  dequeue _ := .of_eq rfl rfl rfl rfl
  txErr _ := ⟨rfl, rfl, List.suffix_rfl, Nat.le_succ _, le_rfl, le_rfl, le_rfl, le_rfl, le_rfl⟩
  rxErr _ := ⟨rfl, rfl, List.suffix_rfl, le_rfl, Nat.le_succ _, le_rfl, le_rfl, le_rfl, le_rfl⟩
  overrun _ := ⟨rfl, rfl, List.suffix_rfl, le_rfl, le_rfl, Nat.le_succ _, le_rfl, le_rfl, le_rfl⟩

/-- A completed operation but `HOST_RESET` only grows outputs and counters. -/
theorem Effect.grows {i : Instr} {s t : State} (h : Effect i s t) (hi : i ≠ .hostReset) : Grows s t := by
  cases h with
  | nothing => exact .refl s
  | read => exact grows_log s _
  | readPhyctl => exact .trans (grows_latchPhyctl s _) (grows_log _ _)
  | store _ _ _ _ _ hf => exact hf.grows
  | txcfg => exact .of_eq rfl rfl rfl rfl
  | rxcfg => exact .of_eq rfl rfl rfl rfl
  | acknowledge => exact .of_eq rfl rfl rfl rfl
  | mask => exact .of_eq rfl rfl rfl rfl
  | config => exact .of_eq rfl rfl rfl rfl
  | softReset => exact .of_eq rfl rfl rfl rfl
  | latch => exact grows_latchPhyctl s _
  | command => exact .trans (grows_latchPhyctl s _) (grows_phyWrite _ _ _ _)
  | txStep => exact grows_closed.txStep grows_passEnd s _ _
  | txConsume d => exact grows_closed.txConsume s _ d
  | rxStep => exact grows_closed.rxStep grows_passEnd s
  | rxConsume d f => exact grows_closed.rxConsume s d f
  | passEnd => exact grows_passEnd s
  | stop => exact grows_passEnd s
  | fetchStop => exact .trans (grows_memRead s _ _) (grows_passEnd _)
  | passBegin => exact .of_eq rfl rfl rfl rfl
  | emit ok f rest =>
    have hfail : s.txSendFailCount ≤ if ok then s.txSendFailCount else s.txSendFailCount + 1 := by split <;> omega
    exact ⟨rfl, rfl, List.suffix_cons _ _, le_rfl, le_rfl, le_rfl, le_rfl, le_rfl, hfail⟩
  | arrive f => exact grows_enqueueRx s f
  | link up =>
    have hbank : Grows s { s with linkUp := up, phy := bankLinked up s.phy } := .of_eq rfl rfl rfl rfl
    exact hbank.trans (grows_raiseInt _ intLink)
  | reset => exact absurd rfl hi
  | shutdown => exact .of_eq rfl rfl rfl rfl

/-- `HOST_RESET` keeps the parameters, the schedule and the history (R360). -/
theorem exec_hostReset_keeps {s t : State} (h : exec .hostReset s = .next t) :
    t.cfg = s.cfg ∧ t.schedule = s.schedule ∧ t.history = s.history := by
  simp only [exec, execHostReset] at h
  split at h
  · cases h; exact ⟨rfl, rfl, rfl⟩
  · cases h; exact ⟨rfl, rfl, rfl⟩

/-- Settles O11: `HOST_RESET` apart, by the case split of `Effect.grows`. -/
theorem outputsAndCountersOnlyGrow : Obligations.OutputsAndCountersOnlyGrow := by
  intro i s t h
  by_cases hi : i = .hostReset
  · subst hi
    obtain ⟨hcfg, hsched, hhist⟩ := exec_hostReset_keeps h
    exact ⟨hcfg, hsched, hhist ▸ List.suffix_rfl, fun hne => absurd rfl hne⟩
  · have hg := (exec_effect h).grows hi
    exact ⟨hg.cfg, hg.schedule, hg.history, fun _ => (State.counters_le_iff s t).mp hg.counters⟩

end Sys2Proof.Machine

/-! PROOFS of the statements on the state (spec/10_state.md): the values after reset, the invariant of every step, which
operations change the registers, ISR, the armed flags and the cursors, that shutdown is final, and that the engine reads
no storage register. -/

namespace Sys2Proof.Machine

/-! ### What the engine's operations are made of -/

/-- `t` is reached from `s` by primitives of a descriptor step and ends of passes. -/
def EngineSteps (s t : State) : Prop :=
  ∀ R : State → State → Prop, EngineClosed R → (∀ u, R u u.passEnd) → R s t

/-- The operations that take or end a descriptor step. -/
def runsEngine : Instr → Bool
  | .engTxStep | .engRxStep | .txdOwned _ | .rxdOwned _ | .txdNotOwned _ | .rxdNotOwned _ | .engPassEnd => true
  | _ => false

theorem runsEngine_of_endsPass {i : Instr} (h : endsPass i = true) : runsEngine i = true := by
  cases i with
  | txdNotOwned => rfl
  | rxdNotOwned => rfl
  | _ => cases h

theorem not_guest_of_runsEngine {i : Instr} (c : Config) (h : runsEngine i = true) :
    isGuestRead c i = false ∧ isGuestWrite c i = false := by
  cases i with
  | engTxStep => exact ⟨rfl, rfl⟩
  | engRxStep => exact ⟨rfl, rfl⟩
  | txdOwned => exact ⟨rfl, rfl⟩
  | rxdOwned => exact ⟨rfl, rfl⟩
  | txdNotOwned => exact ⟨rfl, rfl⟩
  | rxdNotOwned => exact ⟨rfl, rfl⟩
  | engPassEnd => exact ⟨rfl, rfl⟩
  | _ => cases h

/-- What latches PHYCTL is a guest write (R190). -/
theorem isGuestWrite_of_latches {c : Config} {v : Word} {i : Instr} (h : latches c v i) : isGuestWrite c i = true := by
  cases i with
  | wrPhyctl => rfl
  | mdioRdaddr => rfl
  | mdioWrCtrl => rfl
  | mdioWrId1 => rfl
  | mdioWrId2 => rfl
  | mdioWrAnarPhy1 => rfl
  | mdioWr => rfl
  | _ => cases h

/-- An engine operation is made of primitives of a descriptor step and ends of passes. -/
theorem Effect.engineSteps {i : Instr} {s t : State} (e : Effect i s t) (hi : runsEngine i = true) : EngineSteps s t := by
  intro R hR hend
  obtain ⟨hread, hwrite⟩ := not_guest_of_runsEngine s.cfg hi
  cases e with
  | nothing => exact hR.refl s
  | txStep => exact hR.txStep hend s _ _
  | txConsume d => exact hR.txConsume s _ d
  | rxStep => exact hR.rxStep hend s
  | rxConsume d f => exact hR.rxConsume s d f
  | passEnd => exact hend s
  | stop => exact hend s
  | fetchStop => exact hR.trans _ _ _ (hR.memRead s _ _) (hend _)
  | read _ _ _ _ _ h => rw [h] at hread; cases hread
  | store _ _ _ _ h => rw [h] at hwrite; cases hwrite
  | latch _ _ _ _ h => rw [isGuestWrite_of_latches h] at hwrite; cases hwrite
  | command _ _ _ _ _ _ _ h => rw [isGuestWrite_of_latches h] at hwrite; cases hwrite
  | _ => cases hi

/-- With no stop condition a receive descriptor step consumes the descriptor it fetched (R251). -/
theorem rxStep_goes {s : State} (h : s.rxStops = false) :
    ∃ d f rest, s.rxArmed = true ∧ s.rxQueue = f :: rest ∧
      s.rxStep = (s.memRead (s.descAddr .rx) 16).rxConsume (rxFields d) f := by
  simp only [State.rxStops, Bool.or_eq_false_iff, Bool.not_eq_false', List.isEmpty_eq_false_iff] at h
  obtain ⟨⟨hq, ha⟩, hd⟩ := h
  obtain ⟨f, rest, hf⟩ := List.exists_cons_of_ne_nil hq
  match e : s.memReadAnswer (s.descAddr .rx) 16 with
  | none => rw [e] at hd; cases hd
  | some d =>
    rw [e] at hd
    have ho : ownBit d = true := by simpa using hd
    refine ⟨d, f, rest, ha, hf, ?_⟩
    unfold State.rxStep
    simp only [hf, ha, e, State.rxAct, ho]
    rfl

/-! ### Cursors under the primitives -/

@[simp] theorem head_memWrite (s : State) (a : Word) (b : List Byte) (r : Ring) : (s.memWrite a b).head r = s.head r :=
  head_congr (by simp) (by simp) (by simp) r

@[simp] theorem head_writeBack (s : State) (a w : Word) (r : Ring) : (s.writeBack a w).head r = s.head r :=
  head_congr (by simp) (by simp) (by simp) r

@[simp] theorem head_enqueueTx (s : State) (f : Packet) (r : Ring) : (s.enqueueTx f).head r = s.head r :=
  head_congr (by simp) (by simp) (by simp) r

@[simp] theorem head_enqueueRx (s : State) (f : Packet) (r : Ring) : (s.enqueueRx f).head r = s.head r :=
  head_congr (by simp) (by simp) (by simp) r

@[simp] theorem head_raiseInt (s : State) (c : Word) (r : Ring) : (s.raiseInt c).head r = s.head r :=
  head_congr (by simp) (by simp) (by simp) r

@[simp] theorem head_passEnd (s : State) (r : Ring) : s.passEnd.head r = s.head r :=
  head_congr (by simp) (by simp) (by simp) r

@[simp] theorem head_countConsumed (s : State) (r : Ring) : s.countConsumed.head r = s.head r :=
  head_congr rfl rfl rfl r

@[simp] theorem head_dequeueRx (s : State) (r : Ring) : s.dequeueRx.head r = s.head r := head_congr rfl rfl rfl r

theorem StorageFrame.head {s t : State} (h : StorageFrame s t) (r : Ring) : t.head r = s.head r :=
  head_congr h.txHead0 h.txHead1 h.rxHead r

/-! ### Reset -/

/-- Settles O9. -/
theorem resetValues : Obligations.ResetValues := by
  intro c
  refine ⟨⟨rfl, rfl, rfl, rfl, rfl, rfl, rfl, rfl, rfl, rfl, rfl, rfl, rfl, rfl, rfl⟩, fun k hk => ?_, rfl, rfl,
    ⟨rfl, rfl, rfl⟩, ⟨rfl, rfl, rfl⟩, rfl, rfl, rfl, rfl, ⟨rfl, rfl, rfl, rfl, rfl, rfl⟩, phyGet_reset c, rfl, rfl⟩
  exact ⟨Vector.getElem_replicate hk, Vector.getElem_replicate hk⟩

/-! ### Shutdown -/

/-- After shutdown every guest access is refused, an ill-formed one too (R287). -/
theorem exec_guest_refused {i : Instr} {s : State} (hs : s.shutdown = true)
    (hg : isGuestRead s.cfg i = true ∨ isGuestWrite s.cfg i = true) : exec i s = .refused .accessAfterShutdown := by
  obtain ⟨a, rfl⟩ | ⟨t, ht⟩ := exec_guest s hg
  · simp only [exec, execBadAccess, hs]; rfl
  · rw [ht]; exact guestAccess_refused hs

/-- Settles O19. -/
theorem shutdownIsFinal : Obligations.ShutdownIsFinal :=
  fun _ => ⟨rfl, fun hs _ => ⟨exec_guest_refused hs, exec_shutdown hs⟩⟩

/-! ### The causes in ISR -/

/-- ISR of `t` is that of `s` and perhaps causes of the device (R25, R321). -/
def CausesRaised (s t : State) : Prop := ∃ c, c &&& ~~~intAll = 0 ∧ t.isr = s.isr ||| c

theorem CausesRaised.of_eq {s t : State} (h : t.isr = s.isr) : CausesRaised s t :=
  ⟨0, BitVec.zero_and, h.trans BitVec.or_zero.symm⟩

/-- `x` has no bit outside `y`. -/
theorem and_not_eq_zero_iff {x y : Word} : x &&& ~~~y = 0 ↔ ∀ i (h : i < 32), x[i] = true → y[i] = true := by
  constructor
  · intro h i hi hx
    have hbit : (x &&& ~~~y)[i] = false := by rw [h]; exact BitVec.getElem_zero hi
    simpa [hx] using hbit
  · intro h
    ext i hi
    simpa using h i hi

/-- Causes of the device joined are causes of the device. -/
theorem causes_or {x y : Word} (hx : x &&& ~~~intAll = 0) (hy : y &&& ~~~intAll = 0) : (x ||| y) &&& ~~~intAll = 0 := by
  rw [BitVec.and_or_distrib_right, hx, hy, BitVec.or_self]

theorem CausesRaised.trans {s t u : State} (h : CausesRaised s t) (h' : CausesRaised t u) : CausesRaised s u := by
  obtain ⟨c, hc, e⟩ := h
  obtain ⟨c', hc', e'⟩ := h'
  exact ⟨c ||| c', causes_or hc hc', by rw [e', e, BitVec.or_assoc]⟩

theorem causesRaised_raiseInt {c : Word} (hc : c &&& ~~~intAll = 0) (s : State) : CausesRaised s (s.raiseInt c) :=
  ⟨c, hc, raiseInt_isr s c⟩

theorem causesRaised_passEnd (s : State) : CausesRaised s s.passEnd := by
  rcases passEnd_cases s with ⟨_, h⟩ | ⟨p, _, _, h⟩ | ⟨p, _, _, h⟩ <;> rw [h]
  · exact .of_eq rfl
  · exact .of_eq rfl
  · exact causesRaised_raiseInt (ringCause_sub p.ring) { s with pass := none }

theorem causesRaised_closed : EngineClosed CausesRaised where
  refl _ := .of_eq rfl
  trans _ _ _ := CausesRaised.trans
  memRead s a n := .of_eq (memRead_isr s a n)
  memWrite s a b := .of_eq (memWrite_isr s a b)
  writeBack s a w := .of_eq (writeBack_isr s a w)
  advance s r w := .of_eq (advanceCursor_isr s r w)
  count _ := .of_eq rfl
  enqueue s f := .of_eq (enqueueTx_isr s f)
  dequeue _ := .of_eq rfl
  txErr _ := .of_eq rfl
  rxErr _ := .of_eq rfl
  overrun _ := .of_eq rfl

theorem EngineSteps.causesRaised {s t : State} (h : EngineSteps s t) : CausesRaised s t :=
  h _ causesRaised_closed causesRaised_passEnd

/-- All operations but the acknowledgment and reset only add causes to ISR (R25, R321). -/
theorem Effect.causesRaised {i : Instr} {s t : State} (e : Effect i s t) (hr : i ≠ .hostReset)
    (ha : ∀ v, i ≠ .wrIsr v) : CausesRaised s t := by
  have hengine (hi : runsEngine i = true) : CausesRaised s t := (e.engineSteps hi).causesRaised
  cases e with
  | acknowledge v => exact absurd rfl (ha v)
  | reset => exact absurd rfl hr
  | link up =>
    exact .trans (t := { s with linkUp := up, phy := bankLinked up s.phy }) (.of_eq rfl)
      (causesRaised_raiseInt intLink_sub _)
  | txStep => exact hengine rfl
  | txConsume => exact hengine rfl
  | rxStep => exact hengine rfl
  | rxConsume => exact hengine rfl
  | passEnd _ _ _ he => exact hengine (runsEngine_of_endsPass he)
  | stop => exact hengine rfl
  | fetchStop => exact hengine rfl
  | store _ _ _ _ _ hf => exact .of_eq hf.isr
  | command => rw [phyWrite_eq]; exact .of_eq rfl
  | arrive f => exact .of_eq (enqueueRx_isr s f)
  | _ => exact .of_eq rfl

/-- The acknowledgment write, as the equation it leaves for ISR (R140). -/
theorem exec_wrIsr_next {v : Word} {s t : State} (h : exec (.wrIsr v) s = .next t) : t.isr = s.isr &&& ~~~v := by
  obtain ⟨_, rfl⟩ := guestAccess_next h
  rfl

/-- Settles O12, by whether the operation is the acknowledgment. -/
theorem causesChangeOnlyAsStated : Obligations.CausesChangeOnlyAsStated := by
  intro i s t h hr
  by_cases ha : ∃ v, i = .wrIsr v
  · obtain ⟨v, rfl⟩ := ha
    refine ⟨and_not_eq_zero_iff.mpr fun k hk hx => ?_, fun hne => absurd rfl (hne v)⟩
    simp only [exec_wrIsr_next h, BitVec.getElem_and, Bool.and_eq_true] at hx
    rw [BitVec.getElem_or, hx.1, Bool.true_or]
  · obtain ⟨c, hc, e⟩ := (exec_effect h).causesRaised hr fun v hv => ha ⟨v, hv⟩
    refine ⟨and_not_eq_zero_iff.mpr fun k hk hx => ?_, fun _ => and_not_eq_zero_iff.mpr fun k hk hx => ?_⟩
    · rw [e, BitVec.getElem_or, Bool.or_eq_true] at hx
      rw [BitVec.getElem_or, Bool.or_eq_true]
      exact hx.imp_right (and_not_eq_zero_iff.mp hc k hk)
    · rw [e, BitVec.getElem_or, hx, Bool.true_or]

/-! ### The registers and the armed flags -/

/-- `t` has the registers and the armed flags of `s`, ISR apart (R20, R38). -/
def RegisterFrame (s t : State) : Prop :=
  t = { s with
    isr := t.isr, txHead0 := t.txHead0, txHead1 := t.txHead1, rxHead := t.rxHead, pass := t.pass,
    nextRing := t.nextRing, txQueue := t.txQueue, rxQueue := t.rxQueue, txErrCount := t.txErrCount,
    rxErrCount := t.rxErrCount, rxOverrunCount := t.rxOverrunCount, txDropCount := t.txDropCount,
    rxDropCount := t.rxDropCount, txSendFailCount := t.txSendFailCount, phy := t.phy, linkUp := t.linkUp,
    shutdown := t.shutdown, cfg := t.cfg, mem := t.mem, schedule := t.schedule, race := t.race, history := t.history }

theorem EngineFrame.registers {s t : State} (h : EngineFrame s t) : RegisterFrame s t := by
  unfold RegisterFrame; rw [h]

theorem EngineSteps.frame {s t : State} (h : EngineSteps s t) : EngineFrame s t :=
  h _ engineFrame_closed engineFrame_passEnd

/-- Guest writes, the read of PHYCTL and reset apart, an operation leaves the registers but ISR alone (R20, R334). -/
theorem Effect.registerFrame {i : Instr} {s t : State} (e : Effect i s t) (hw : isGuestWrite s.cfg i = false)
    (hr : i ≠ .hostReset) (hp : i ≠ .rdPhyctl) : RegisterFrame s t := by
  have hengine (hi : runsEngine i = true) : RegisterFrame s t := (e.engineSteps hi).frame.registers
  cases e with
  | reset => exact absurd rfl hr
  | readPhyctl => exact absurd rfl hp
  | store _ _ _ _ h => rw [h] at hw; cases hw
  | latch _ _ _ _ h => rw [isGuestWrite_of_latches h] at hw; cases hw
  | command _ _ _ _ _ _ _ h => rw [isGuestWrite_of_latches h] at hw; cases hw
  | txcfg => cases hw
  | rxcfg => cases hw
  | acknowledge => cases hw
  | mask => cases hw
  | config => cases hw
  | softReset => cases hw
  | txStep => exact hengine rfl
  | txConsume => exact hengine rfl
  | rxStep => exact hengine rfl
  | rxConsume => exact hengine rfl
  | passEnd _ _ _ he => exact hengine (runsEngine_of_endsPass he)
  | stop => exact hengine rfl
  | fetchStop => exact hengine rfl
  | arrive f => rw [enqueueRx_eq]; rfl
  | link up => rw [raiseInt_eq]; rfl
  | _ => rfl

/-- Settles O16. The read of PHYCTL rewrites PHYCTL alone; every other operation is a case of `Effect.registerFrame`. -/
theorem registersChangeOnlyByGuestWrites : Obligations.RegistersChangeOnlyByGuestWrites := by
  intro i s t h hw hr
  by_cases hp : i = .rdPhyctl
  · subst hp
    obtain ⟨_, rfl⟩ := guestAccess_next h
    exact ⟨rfl, rfl, rfl, rfl, rfl, rfl, rfl, rfl, rfl, rfl, rfl, rfl, rfl, rfl, rfl, rfl, rfl, fun hne => absurd rfl hne,
      rfl, rfl, rfl⟩
  · rw [(exec_effect h).registerFrame hw hr hp]
    exact ⟨rfl, rfl, rfl, rfl, rfl, rfl, rfl, rfl, rfl, rfl, rfl, rfl, rfl, rfl, rfl, rfl, rfl, fun _ => rfl, rfl, rfl, rfl⟩

/-! ### The engine's memory accesses and the armed flags -/

theorem memAccesses_raiseInt (s : State) (c : Word) : (s.raiseInt c).memAccesses = s.memAccesses := by
  unfold State.memAccesses
  rw [history_raiseInt]
  split <;> rfl

theorem memAccesses_passEnd (s : State) : s.passEnd.memAccesses = s.memAccesses := by
  rcases passEnd_cases s with ⟨_, h⟩ | ⟨p, _, _, h⟩ | ⟨p, _, _, h⟩ <;> rw [h]
  · rfl
  · exact memAccesses_raiseInt _ _

/-- A step of a disarmed TX ring ends the pass with no fetch (R222). -/
theorem txStep_disarmed {s : State} {r : Ring} {n : Nat} (h : s.armed r = false) : s.txStep r n = s.passEnd :=
  if_pos (.inl h)

/-- A step of the disarmed RX ring ends the pass with no fetch (R251). -/
theorem rxStep_disarmed {s : State} (h : s.rxArmed = false) : s.rxStep = s.passEnd := by
  rw [rxStep_stops (by simp [State.rxStops, h]), if_neg (by simp [h])]

/-- An operation the schedule can present accesses memory only for an open pass of an armed ring (R82, R221). -/
theorem Effect.memAccesses {i : Instr} {s t : State} (e : Effect i s t) (htx : ∀ d, i ≠ .txdOwned d)
    (hrx : ∀ d, i ≠ .rxdOwned d) : t.memAccesses = s.memAccesses ∨
      s.shutdown = false ∧ ∃ p, s.pass = some p ∧ s.armed p.ring = true := by
  cases e with
  | txStep _ p hp =>
    obtain ⟨hs, hpass, _⟩ := txPass_eq_some hp
    cases ha : s.armed p.ring with
    | true => exact .inr ⟨hs, p, hpass, ha⟩
    | false => rw [txStep_disarmed ha]; exact .inl (memAccesses_passEnd s)
  | rxStep _ ho =>
    obtain ⟨hs, n, k, hpass⟩ := rxPassOpen_true ho
    cases ha : s.rxArmed with
    | true => exact .inr ⟨hs, _, hpass, ha⟩
    | false => rw [rxStep_disarmed ha]; exact .inl (memAccesses_passEnd s)
  | fetchStop _ p hs hpass ha => exact .inr ⟨hs, p, hpass, ha⟩
  | txConsume d => exact absurd rfl (htx d)
  | rxConsume d => exact absurd rfl (hrx d)
  | passEnd => exact .inl (memAccesses_passEnd s)
  | stop => exact .inl (memAccesses_passEnd s)
  | link up => exact .inl (memAccesses_raiseInt { s with linkUp := up, phy := bankLinked up s.phy } intLink)
  | arrive f => exact .inl (by rw [enqueueRx_eq]; rfl)
  | store _ _ _ _ _ hf => exact .inl (by rw [hf]; rfl)
  | command => exact .inl (by rw [phyWrite_eq]; rfl)
  -- the others add no event to the history but the data of a register read and a send
  | _ => exact .inl rfl

/-- A TXCFG write that arms a disarmed ring has the ring's enable bit set (R132). -/
theorem txEnable_of_arms {v : Word} {r : Ring} (h : txArmedAfter v r false = true) : txEnable v r = true := by
  unfold txArmedAfter at h
  split at h
  · assumption
  · simp at h

/-- An RXCFG write that arms the disarmed RX ring has both enable bits set (R136). -/
theorem rxArms_of_arms {v : Word} (h : rxArmedAfter v false = true) : v.getLsbD 0 = true ∧ v.getLsbD 4 = true := by
  unfold rxArmedAfter at h
  split at h
  · rename_i ha; exact Bool.and_eq_true_iff.mp ha
  · simp at h

/-- The write that arms ring `r`: its enable bit in TXCFG, or both enable bits in RXCFG (R38). -/
def ArmingWrite (r : Ring) (i : Instr) : Prop :=
  ∃ v, (i = .wrTxcfg v ∧ (r = .tx0 ∧ v.getLsbD 4 = true ∨ r = .tx1 ∧ v.getLsbD 5 = true)) ∨
    (i = .wrRxcfg v ∧ r = .rx ∧ v.getLsbD 0 = true ∧ v.getLsbD 4 = true)

/-- Only the arming write arms a disarmed ring (R38). -/
theorem Effect.arming {i : Instr} {s t : State} (e : Effect i s t) {r : Ring} (hs : s.armed r = false)
    (ht : t.armed r = true) : ArmingWrite r i := by
  have hkept (h : t.armed r = s.armed r) : ArmingWrite r i := by rw [h, hs] at ht; cases ht
  have hengine (hi : runsEngine i = true) : ArmingWrite r i :=
    have hf := (e.engineSteps hi).frame
    hkept (armed_congr hf.txArmed0 hf.txArmed1 hf.rxArmed r)
  cases e with
  | txcfg v =>
    cases r with
    | tx0 => rw [show s.txArmed0 = false from hs] at ht; exact ⟨v, .inl ⟨rfl, .inl ⟨rfl, txEnable_of_arms ht⟩⟩⟩
    | tx1 => rw [show s.txArmed1 = false from hs] at ht; exact ⟨v, .inl ⟨rfl, .inr ⟨rfl, txEnable_of_arms ht⟩⟩⟩
    | rx => exact hkept rfl
  | rxcfg v =>
    cases r with
    | tx0 => exact hkept rfl
    | tx1 => exact hkept rfl
    | rx => rw [show s.rxArmed = false from hs] at ht; exact ⟨v, .inr ⟨rfl, rfl, rxArms_of_arms ht⟩⟩
  | reset => cases r <;> cases ht
  | txStep => exact hengine rfl
  | txConsume => exact hengine rfl
  | rxStep => exact hengine rfl
  | rxConsume => exact hengine rfl
  | passEnd _ _ _ he => exact hengine (runsEngine_of_endsPass he)
  | stop => exact hengine rfl
  | fetchStop => exact hengine rfl
  | store _ _ _ _ _ hf => exact hkept (armed_congr hf.txArmed0 hf.txArmed1 hf.rxArmed r)
  | command => exact hkept (by rw [phyWrite_eq]; rfl)
  | arrive f => exact hkept (by rw [enqueueRx_eq]; rfl)
  | link up => exact hkept (by rw [raiseInt_eq]; rfl)
  | _ => exact hkept rfl

/-- A step accesses memory only for an open pass of an armed ring (R82, R221). -/
theorem step_memAccesses {s t : State} (h : step s = .next t) (hne : t.memAccesses ≠ s.memAccesses) :
    s.shutdown = false ∧ ∃ p, s.pass = some p ∧ s.armed p.ring = true := by
  rcases step_cases h with ⟨_, rfl⟩ | ⟨x, rest, i, _, hd, hx⟩ | ⟨g, rest, _, rfl⟩ | ⟨b, rest, _, rfl⟩
  · exact absurd rfl hne
  · obtain ⟨htx, _, hrx, _⟩ := input_no_descriptor hd
    exact ((exec_effect hx).memAccesses htx hrx).resolve_left hne
  · cases g <;> exact absurd rfl hne
  · exact absurd rfl hne

/-- A step arms a disarmed ring only by an arming write (R38). -/
theorem step_arming {s t : State} {r : Ring} (h : step s = .next t) (hs : s.armed r = false) (ht : t.armed r = true) :
    ∃ x rest i, s.schedule = .input x :: rest ∧ decode s.cfg (.input x) = .ok i ∧ ArmingWrite r i := by
  rcases step_cases h with ⟨_, rfl⟩ | ⟨x, rest, i, hx, hd, he⟩ | ⟨g, rest, _, rfl⟩ | ⟨b, rest, _, rfl⟩
  · exact absurd (hs.symm.trans ht) Bool.false_ne_true
  · exact ⟨x, rest, i, hx, hd, (exec_effect he).arming hs ht⟩
  · cases g <;> exact absurd (hs.symm.trans ht) Bool.false_ne_true
  · exact absurd (hs.symm.trans ht) Bool.false_ne_true

/-- Settles O17. -/
theorem disarmedRingsNeverRead : Obligations.DisarmedRingsNeverRead := by
  intro s t h
  refine ⟨step_memAccesses h, fun r hs ht => ?_⟩
  obtain ⟨x, rest, i, hx, hd, v, ⟨rfl, hv⟩ | ⟨rfl, hv⟩⟩ := step_arming h hs ht
  · exact ⟨x, rest, v, hx, .inl ⟨hd, hv⟩⟩
  · exact ⟨x, rest, v, hx, .inr ⟨hd, hv⟩⟩

/-! ### The cursors -/

theorem cursorAfter_cases (r : Ring) (w : Bool) (i : Nat) :
    cursorAfter r w i = 0 ∨ cursorAfter r w i = (i + 1) % ringLen r := by
  cases w
  · exact .inr rfl
  · exact .inl rfl

theorem rxHeadAfter_of_arms {v : Word} {n : Nat} (h : rxArms v = true) : rxHeadAfter v n = 0 := if_pos h

theorem rxHeadAfter_of_not_arms {v : Word} {n : Nat} (h : rxArms v = false) : rxHeadAfter v n = n := by
  rw [rxHeadAfter, h]; rfl

/-- From `s` to `t` no cursor moves, or that of `r` alone, to the start or to the next place (R227). -/
def CursorStep (r : Ring) (s t : State) : Prop :=
  ∀ r', t.head r' = s.head r' ∨ (r = r' ∧ (t.head r' = 0 ∨ t.head r' = (s.head r' + 1) % ringLen r'))

theorem CursorStep.of_eq {r : Ring} {s t : State} (h : ∀ r', t.head r' = s.head r') : CursorStep r s t :=
  fun r' => .inl (h r')

/-- One advance of the cursor of `r` after operations that move none. -/
theorem CursorStep.of_advance {r : Ring} {s t : State} {w : Bool}
    (h : ∀ r', t.head r' = if r' = r then cursorAfter r w (s.head r) else s.head r') : CursorStep r s t := by
  intro r'
  by_cases hr : r' = r
  · subst hr
    rw [h, if_pos rfl]
    exact .inr ⟨rfl, cursorAfter_cases _ w _⟩
  · rw [h, if_neg hr]
    exact .inl rfl

theorem head_txError (s : State) (r : Ring) (a : Word) (d : TxDesc) (r' : Ring) :
    (s.txError r a d).head r' = if r' = r then cursorAfter r d.wrap (s.head r) else s.head r' := by
  rw [State.txError, head_advanceCursor, head_writeBack, head_writeBack]
  rfl

theorem head_txDeliver (s : State) (r : Ring) (a : Word) (d : TxDesc) (b : Packet) (r' : Ring) :
    (s.txDeliver r a d b).head r' = if r' = r then cursorAfter r d.wrap (s.head r) else s.head r' := by
  simp [State.txDeliver, head_advanceCursor]

/-- A consumed TX descriptor advances the cursor of its ring (R227). -/
theorem head_txConsume (s : State) (r : Ring) (d : TxDesc) (r' : Ring) :
    (s.txConsume r d).head r' = if r' = r then cursorAfter r d.wrap (s.head r) else s.head r' := by
  unfold State.txConsume
  dsimp only
  rw [head_countConsumed]
  split
  · exact head_txError _ _ _ _ _
  · split
    · rw [head_txError, head_memRead, head_memRead]
    · rw [head_txDeliver, head_memRead, head_memRead]

theorem head_rxReturn (s : State) (a : Word) (d : RxDesc) (n : Nat) (r' : Ring) :
    (s.rxReturn a d n).head r' = if r' = .rx then cursorAfter .rx d.wrap (s.head .rx) else s.head r' := by
  simp [State.rxReturn, head_advanceCursor]

@[simp] theorem head_countOverrun (s : State) (b : Bool) (r : Ring) : (s.countOverrun b).head r = s.head r := by
  cases b <;> rfl

/-- A consumed RX descriptor advances the cursor of RX (R253, R255). -/
theorem head_rxConsume (s : State) (d : RxDesc) (f : Packet) (r' : Ring) :
    (s.rxConsume d f).head r' = if r' = .rx then cursorAfter .rx d.wrap (s.head .rx) else s.head r' := by
  unfold State.rxConsume State.rxDeposit State.rxBufError
  dsimp only
  rw [head_countConsumed]
  split
  · simp [head_rxReturn]
  · rw [head_rxReturn]
    exact congrArg₂ (fun x y => if r' = .rx then cursorAfter .rx d.wrap x else y) (head_memWrite _ _ _ .rx)
      (head_memWrite _ _ _ r')

theorem cursorStep_txStep (s : State) (r : Ring) (n : Nat) : CursorStep r s (s.txStep r n) := by
  cases h : s.txStops r n with
  | true =>
    rw [txStep_stops h]
    exact .of_eq fun r' => by split <;> simp
  | false =>
    obtain ⟨d, _, _, _, _, e⟩ := txStep_goes h
    exact .of_advance fun r' => by rw [e, head_txConsume, head_memRead, head_memRead]

theorem cursorStep_rxStep (s : State) : CursorStep .rx s s.rxStep := by
  cases h : s.rxStops with
  | true =>
    rw [rxStep_stops h]
    exact .of_eq fun r' => by split <;> simp
  | false =>
    obtain ⟨d, f, _, _, _, e⟩ := rxStep_goes h
    exact .of_advance fun r' => by rw [e, head_rxConsume, head_memRead, head_memRead]

/-- Settles O59. -/
theorem cursorsMoveOnlyAsStated : Obligations.CursorsMoveOnlyAsStated := by
  intro i s t r h hne
  have e := exec_effect h
  cases e with
  | txStep _ p hp =>
    obtain ⟨_, hpass, _⟩ := txPass_eq_some hp
    exact .inl ⟨rfl, p, hpass, (cursorStep_txStep s p.ring p.steps r).resolve_left hne⟩
  | txConsume d _ p hp =>
    obtain ⟨_, hpass, _⟩ := txPass_eq_some hp
    have hc : CursorStep p.ring s (s.txConsume p.ring d) := .of_advance (head_txConsume s p.ring d)
    exact .inl ⟨rfl, p, hpass, (hc r).resolve_left hne⟩
  | rxStep _ ho =>
    obtain ⟨_, n, k, hpass⟩ := rxPassOpen_true ho
    exact .inl ⟨rfl, _, hpass, (cursorStep_rxStep s r).resolve_left hne⟩
  | rxConsume d f _ _ ho =>
    obtain ⟨_, n, k, hpass⟩ := rxPassOpen_true ho
    have hc : CursorStep .rx s (s.rxConsume d f) := .of_advance (head_rxConsume s d f)
    exact .inl ⟨rfl, _, hpass, (hc r).resolve_left hne⟩
  | rxcfg v =>
    cases r with
    | tx0 => exact absurd rfl hne
    | tx1 => exact absurd rfl hne
    | rx =>
      cases ha : rxArms v with
      | true => exact .inr (.inl ⟨rfl, rxHeadAfter_of_arms ha, v, rfl, Bool.and_eq_true_iff.mp ha⟩)
      | false => exact absurd (rxHeadAfter_of_not_arms ha) hne
  | softReset v _ _ hv => exact .inr (.inr (.inl ⟨by cases r <;> rfl, v, rfl, hv⟩))
  | reset => exact .inr (.inr (.inr ⟨by cases r <;> rfl, rfl⟩))
  | store _ _ _ _ _ hf => exact absurd (hf.head r) hne
  | command => exact absurd (by rw [phyWrite_eq]; rfl) hne
  | passEnd => exact absurd (head_passEnd s r) hne
  | stop => exact absurd (head_passEnd s r) hne
  | fetchStop => exact absurd (by rw [head_passEnd, head_memRead]) hne
  | arrive f => exact absurd (head_enqueueRx s f r) hne
  | link => exact absurd (head_raiseInt _ _ r) hne
  | _ => exact absurd rfl hne

/-! ### The invariant -/

/-- The queues within their capacity and the cursors on their rings: what `Inv` asks of them (R39, R41). -/
structure InBounds (s : State) : Prop where
  txQueue : s.txQueue.length ≤ 256
  rxQueue : s.rxQueue.length ≤ 256
  heads : ∀ r, s.head r < ringLen r

theorem Inv.inBounds {s : State} (h : Inv s) : InBounds s where
  txQueue := h.txQueue
  rxQueue := h.rxQueue
  heads
    | .tx0 => h.txHead0
    | .tx1 => h.txHead1
    | .rx => h.rxHead

theorem InBounds.congr {s t : State} (h : InBounds s) (htx : t.txQueue = s.txQueue) (hrx : t.rxQueue = s.rxQueue)
    (hh : ∀ r, t.head r = s.head r) : InBounds t where
  txQueue := htx ▸ h.txQueue
  rxQueue := hrx ▸ h.rxQueue
  heads r := hh r ▸ h.heads r

theorem inBounds_enqueueTx (s : State) (f : Packet) (h : InBounds s) : InBounds (s.enqueueTx f) := by
  rcases enqueueTx_cases s f with ⟨hlt, e⟩ | ⟨_, e⟩ <;> rw [e]
  · exact { h with txQueue := by rw [List.length_append]; exact hlt }
  · exact { h with }

theorem inBounds_enqueueRx (s : State) (f : Packet) (h : InBounds s) : InBounds (s.enqueueRx f) := by
  rcases enqueueRx_cases s f with ⟨hlt, e⟩ | ⟨_, e⟩ <;> rw [e]
  · exact { h with rxQueue := by rw [List.length_append]; exact hlt }
  · exact { h with }

theorem inBounds_advanceCursor (s : State) (r : Ring) (w : Bool) (h : InBounds s) : InBounds (s.advanceCursor r w) where
  txQueue := by rw [advanceCursor_txQueue]; exact h.txQueue
  rxQueue := by rw [advanceCursor_rxQueue]; exact h.rxQueue
  heads r' := by
    rw [head_advanceCursor]
    split
    · rename_i hr; subst hr; exact cursorAfter_lt _ _ _
    · exact h.heads r'

theorem inBounds_closed : EngineClosed fun s t => InBounds s → InBounds t where
  refl _ := id
  trans _ _ _ h h' := h' ∘ h
  memRead s a n h := h.congr (memRead_txQueue s a n) (memRead_rxQueue s a n) (head_memRead s a n)
  memWrite s a b h := h.congr (memWrite_txQueue s a b) (memWrite_rxQueue s a b) (head_memWrite s a b)
  writeBack s a w h := h.congr (writeBack_txQueue s a w) (writeBack_rxQueue s a w) (head_writeBack s a w)
  advance := inBounds_advanceCursor
  count s h := h.congr rfl rfl (head_countConsumed s)
  enqueue := inBounds_enqueueTx
  dequeue s h := { h with rxQueue := by rw [dequeueRx_rxQueue, List.length_tail]; have := h.rxQueue; omega }
  txErr _ h := { h with }
  rxErr _ h := { h with }
  overrun _ h := { h with }

/-- What `Inv` asks of an open pass: it consumed what it stepped, and a TX pass is within the ring's length (R40, R228). -/
def PassBounded (s : State) : Prop :=
  ∀ p, s.pass = some p → p.consumed = p.steps ∧ (p.ring ≠ .rx → p.steps ≤ ringLen p.ring)

theorem PassBounded.of_none {s : State} (h : s.pass = none) : PassBounded s := by
  intro p hp; rw [h] at hp; cases hp

/-- A TX step that consumes starts below the bound, so it ends within it (R228). -/
theorem passBounded_txStep {s : State} {p : Pass} (h : PassBounded s) (hp : s.pass = some p) :
    PassBounded (s.txStep p.ring p.steps) := by
  cases hstop : s.txStops p.ring p.steps with
  | true =>
    rw [txStep_stops hstop]
    exact .of_none (by split <;> exact passEnd_pass _)
  | false =>
    obtain ⟨d, _, hn, _, _, e⟩ := txStep_goes hstop
    obtain ⟨hc, hb⟩ := h p hp
    intro q hq
    rw [e, pass_txConsume p.ring _ ((memRead_pass _ _ _).trans hp)] at hq
    cases hq
    exact ⟨by rw [hc], fun hr => Nat.lt_of_le_of_ne (hb hr) hn⟩

theorem passBounded_rxStep {s : State} {n k : Nat} (h : PassBounded s) (hp : s.pass = some ⟨.rx, n, k⟩) :
    PassBounded s.rxStep := by
  cases hstop : s.rxStops with
  | true =>
    rw [rxStep_stops hstop]
    exact .of_none (by split <;> exact passEnd_pass _)
  | false =>
    obtain ⟨d, f, _, _, _, e⟩ := rxStep_goes hstop
    obtain ⟨hc, _⟩ := h _ hp
    intro q hq
    rw [e, pass_rxConsume _ f ((memRead_pass _ _ _).trans hp)] at hq
    cases hq
    exact ⟨congrArg (· + 1) hc, fun hr => absurd rfl hr⟩

/-- Causes raised are causes of the device (R25). -/
theorem CausesRaised.causes {s t : State} (h : CausesRaised s t) (hs : s.isr &&& ~~~intAll = 0) :
    t.isr &&& ~~~intAll = 0 := by
  obtain ⟨c, hc, e⟩ := h
  rw [e]
  exact causes_or hs hc

/-- What the engine does keeps the invariant if it keeps the bound of the pass. -/
theorem Inv.of_engineSteps {s t : State} (h : Inv s) (he : EngineSteps s t) (hp : PassBounded t) : Inv t := by
  have hb : InBounds t :=
    he _ inBounds_closed (fun u hu => hu.congr (passEnd_txQueue u) (passEnd_rxQueue u) (head_passEnd u)) h.inBounds
  have hf := he.frame
  exact {
    parameters := hf.cfg ▸ h.parameters
    memory := he _ wf_closed (fun u hu => (passEnd_mem u).symm ▸ hu) h.memory
    txQueue := hb.txQueue
    rxQueue := hb.rxQueue
    txHead0 := hb.heads .tx0
    txHead1 := hb.heads .tx1
    rxHead := hb.heads .rx
    causes := he.causesRaised.causes h.causes
    passCounts := hp
    identifiers := by rw [hf.phy, hf.cfg]; exact h.identifiers }

/-- An acknowledgment leaves cause bits only (R25, R140). -/
theorem causes_acknowledged {x : Word} (v : Word) (h : x &&& ~~~intAll = 0) : isrAcknowledged x v &&& ~~~intAll = 0 := by
  refine and_not_eq_zero_iff.mpr fun i hi hx => and_not_eq_zero_iff.mp h i hi ?_
  rw [isrAcknowledged, BitVec.getElem_and, Bool.and_eq_true] at hx
  exact hx.1

/-- Every operation the schedule can present keeps the invariant. -/
theorem Effect.inv {i : Instr} {s t : State} (e : Effect i s t) (htx : ∀ d, i ≠ .txdOwned d)
    (hrx : ∀ d, i ≠ .rxdOwned d) (h : Inv s) : Inv t := by
  have hengine (hi : runsEngine i = true) (hp : PassBounded t) : Inv t := h.of_engineSteps (e.engineSteps hi) hp
  cases e with
  | txStep _ p hp =>
    obtain ⟨_, hpass, _⟩ := txPass_eq_some hp
    exact hengine rfl (passBounded_txStep h.passCounts hpass)
  | rxStep _ ho =>
    obtain ⟨_, n, k, hpass⟩ := rxPassOpen_true ho
    exact hengine rfl (passBounded_rxStep h.passCounts hpass)
  | txConsume d => exact absurd rfl (htx d)
  | rxConsume d => exact absurd rfl (hrx d)
  | passEnd _ _ _ he => exact hengine (runsEngine_of_endsPass he) (.of_none (passEnd_pass _))
  | stop => exact hengine rfl (.of_none (passEnd_pass _))
  | fetchStop => exact hengine rfl (.of_none (passEnd_pass _))
  | passBegin _ r => exact { h with passCounts := fun p hp => by cases hp; exact ⟨rfl, fun _ => Nat.zero_le _⟩ }
  | rxcfg v =>
    have hhead : rxHeadAfter v s.rxHead < 64 := by
      cases ha : rxArms v with
      | true => rw [rxHeadAfter_of_arms ha]; exact Nat.succ_pos 63
      | false => rw [rxHeadAfter_of_not_arms ha]; exact h.rxHead
    exact { h with rxHead := hhead }
  | acknowledge v => exact { h with causes := causes_acknowledged v h.causes }
  | softReset =>
    exact { h with
      txQueue := Nat.zero_le 256, rxQueue := Nat.zero_le 256
      txHead0 := Nat.succ_pos 31, txHead1 := Nat.succ_pos 7, rxHead := Nat.succ_pos 63 }
  | command _ _ v p n d =>
    have hids (q m : BitVec 5) (hm : m = 2 ∨ m = 3) :
        phyGet ((s.latchPhyctl v).phyWrite p n d).phy q m = phyGet s.phy q m :=
      phyGet_phyWrite_identifier (s := s.latchPhyctl v) h.parameters.fixupNotIdentifier.1
        h.parameters.fixupNotIdentifier.2 p n d q m hm
    rw [phyWrite_eq]
    refine { h with identifiers := fun q => ?_ }
    rw [hids q 2 (.inl rfl), hids q 3 (.inr rfl)]
    exact h.identifiers q
  | link up =>
    rw [raiseInt_eq]
    refine { h with causes := causes_or h.causes intLink_sub, identifiers := fun q => ?_ }
    show phyGet (bankLinked up s.phy) q 2 = _ ∧ phyGet (bankLinked up s.phy) q 3 = _
    rw [phyGet_bankLinked, phyGet_bankLinked]
    exact h.identifiers q
  | reset => exact { inv_resetWith h.parameters with memory := h.memory }
  | arrive f =>
    have hb := inBounds_enqueueRx s f h.inBounds
    rw [enqueueRx_eq] at hb ⊢
    exact { h with rxQueue := hb.rxQueue }
  | emit _ f rest _ _ hq =>
    refine { h with txQueue := ?_ }
    have := h.txQueue
    rw [hq, List.length_cons] at this
    show rest.length ≤ 256
    omega
  | store _ _ _ _ _ hf =>
    rw [hf]
    exact { h with }
  | nothing => exact h
  | _ => exact { h with }

/-- A guest access keeps the invariant. -/
theorem inv_guestOp {s : State} (h : Inv s) : ∀ g, Inv (s.guestOp g)
  | .store a b => { h with memory := Memory.wf_setBytes b s.mem a h.memory }
  | .load _ _ => { h with }

/-- Settles O7, by the kind of turn. The bound of a TX pass holds because the schedule presents no bare descriptor row. -/
theorem invariantKeptByStep : Obligations.InvariantKeptByStep := by
  intro s t h hstep
  rcases step_cases hstep with ⟨_, rfl⟩ | ⟨x, rest, i, _, hd, hx⟩ | ⟨g, rest, _, rfl⟩ | ⟨b, rest, _, rfl⟩
  · exact h
  · obtain ⟨htx, _, hrx, _⟩ := input_no_descriptor hd
    exact (exec_effect hx).inv htx hrx { h with }
  · exact inv_guestOp (s := { s with schedule := rest }) { h with } g
  · exact { h with }

/-! ### The engine reads no storage register -/

/-- Values for the storage registers and the link state, the items of `Obligations.StorageRegistersAreNeverRead`. -/
structure Storage where
  words : Fin 10 → Word
  mcctl : Half
  maxpkt : Half
  mac0 : Vector Byte 6
  mac1 : Vector Byte 6
  linkUp : Bool

/-- `s` with those values in place of its own. -/
def State.withStorage (s : State) (x : Storage) : State :=
  { s with
    txcfg := x.words 0, rxcfg := x.words 1, cfg0 := x.words 2, pwr := x.words 3, phycfg := x.words 4
    phyctl := x.words 5, cfg1 := x.words 6, retry := x.words 7, mchash0 := x.words 8, mchash1 := x.words 9
    mcctl := x.mcctl, maxpkt := x.maxpkt, mac0 := x.mac0, mac1 := x.mac1, linkUp := x.linkUp }

/-! What the engine reads is the same in `s.withStorage x`. -/

section

variable (s : State) (x : Storage)

@[simp] theorem pass_withStorage : (s.withStorage x).pass = s.pass := rfl
@[simp] theorem txQueue_withStorage : (s.withStorage x).txQueue = s.txQueue := rfl
@[simp] theorem rxQueue_withStorage : (s.withStorage x).rxQueue = s.rxQueue := rfl
@[simp] theorem rxArmed_withStorage : (s.withStorage x).rxArmed = s.rxArmed := rfl
@[simp] theorem cfg_withStorage : (s.withStorage x).cfg = s.cfg := rfl
@[simp] theorem shutdown_withStorage : (s.withStorage x).shutdown = s.shutdown := rfl
@[simp] theorem race_withStorage : (s.withStorage x).race = s.race := rfl
@[simp] theorem armed_withStorage (r : Ring) : (s.withStorage x).armed r = s.armed r := rfl
@[simp] theorem descAddr_withStorage (r : Ring) : (s.withStorage x).descAddr r = s.descAddr r := rfl
@[simp] theorem available_withStorage (a : Word) (n : Nat) : (s.withStorage x).available a n = s.available a n := rfl
@[simp] theorem memReadAnswer_withStorage (a : Word) (n : Nat) :
    (s.withStorage x).memReadAnswer a n = s.memReadAnswer a n := rfl
@[simp] theorem payloadAnswer_withStorage (a : Word) (n : Nat) :
    (s.withStorage x).payloadAnswer a n = s.payloadAnswer a n := rfl
@[simp] theorem nextEligible_withStorage : (s.withStorage x).nextEligible = s.nextEligible := rfl
@[simp] theorem txPass_withStorage : (s.withStorage x).txPass = s.txPass := rfl
@[simp] theorem rxPassOpen_withStorage : (s.withStorage x).rxPassOpen = s.rxPassOpen := rfl
@[simp] theorem txStops_withStorage (r : Ring) (n : Nat) : (s.withStorage x).txStops r n = s.txStops r n := rfl
@[simp] theorem rxStops_withStorage : (s.withStorage x).rxStops = s.rxStops := rfl

theorem withStorage_ite (p : Prop) [Decidable p] (t : State) :
    (if p then s else t).withStorage x = if p then s.withStorage x else t.withStorage x :=
  apply_ite (State.withStorage · x) p s t

/-! What the engine writes, it writes to `s.withStorage x` as to `s`. -/

@[simp] theorem log_withStorage (e : Event) : (s.withStorage x).log e = (s.log e).withStorage x := rfl

theorem guestOps_withStorage : ∀ (gs : List GuestOp) (s : State),
    (s.withStorage x).guestOps gs = (s.guestOps gs).withStorage x
  | [], _ => rfl
  | .store a b :: gs, s => guestOps_withStorage gs { s with mem := s.mem.setBytes a b }
  | .load a n :: gs, s => guestOps_withStorage gs (s.log (.guestLoad a (s.mem.getBytes a n)))

theorem storeDuring_withStorage (a : Word) (b : List Byte) (seen : List Nat) : ∀ (gs : List GuestOp) (s : State) (i : Nat),
    (s.withStorage x).storeDuring a b seen i gs = (s.storeDuring a b seen i gs).withStorage x
  | [], _, _ => rfl
  | .store p d :: gs, s, i =>
    storeDuring_withStorage a b seen gs ({ s with mem := s.mem.setPhase a i false seen b }.guestOp (.store p d)) (i + 1)
  | .load p n :: gs, s, i =>
    storeDuring_withStorage a b seen gs ({ s with mem := s.mem.setPhase a i false seen b }.guestOp (.load p n)) (i + 1)

@[simp] theorem guestMeanwhile_withStorage : (s.withStorage x).guestMeanwhile = s.guestMeanwhile.withStorage x := by
  unfold State.guestMeanwhile
  rw [race_withStorage]
  split
  · rfl
  · rw [guestOps_withStorage]; rfl

@[simp] theorem storePayload_withStorage (a : Word) (b : List Byte) :
    (s.withStorage x).storePayload a b = (s.storePayload a b).withStorage x := by
  unfold State.storePayload
  rw [race_withStorage]
  split
  · rfl
  · rw [storeDuring_withStorage]; rfl

@[simp] theorem memRead_withStorage (a : Word) (n : Nat) :
    (s.withStorage x).memRead a n = (s.memRead a n).withStorage x := by
  unfold State.memRead
  split
  · rfl
  · simp

@[simp] theorem memWrite_withStorage (a : Word) (b : List Byte) :
    (s.withStorage x).memWrite a b = (s.memWrite a b).withStorage x := by
  unfold State.memWrite
  simp only [available_withStorage, log_withStorage, storePayload_withStorage, guestMeanwhile_withStorage]
  split
  · rfl
  · split <;> rfl

@[simp] theorem writeBack_withStorage (a w : Word) :
    (s.withStorage x).writeBack a w = (s.writeBack a w).withStorage x :=
  guestMeanwhile_withStorage (({ s with mem := s.mem.setBytes a (le32bytes w) } : State).log _) x

@[simp] theorem raiseInt_withStorage (c : Word) : (s.withStorage x).raiseInt c = (s.raiseInt c).withStorage x := by
  simp only [State.raiseInt, withStorage_ite]
  rfl

@[simp] theorem passEnd_withStorage : (s.withStorage x).passEnd = s.passEnd.withStorage x := by
  unfold State.passEnd
  rw [pass_withStorage]
  split
  · rfl
  · dsimp only
    split
    · exact raiseInt_withStorage { s with pass := none } x _
    · rfl

@[simp] theorem enqueueTx_withStorage (f : Packet) : (s.withStorage x).enqueueTx f = (s.enqueueTx f).withStorage x := by
  unfold State.enqueueTx
  rw [txQueue_withStorage]
  split <;> rfl

@[simp] theorem enqueueRx_withStorage (f : Packet) : (s.withStorage x).enqueueRx f = (s.enqueueRx f).withStorage x := by
  unfold State.enqueueRx
  rw [rxQueue_withStorage]
  split <;> rfl

@[simp] theorem dequeueRx_withStorage : (s.withStorage x).dequeueRx = s.dequeueRx.withStorage x := rfl

@[simp] theorem advanceCursor_withStorage (r : Ring) (w : Bool) :
    (s.withStorage x).advanceCursor r w = (s.advanceCursor r w).withStorage x := by cases r <;> rfl

@[simp] theorem countOverrun_withStorage (b : Bool) :
    (s.withStorage x).countOverrun b = (s.countOverrun b).withStorage x := by cases b <;> rfl

/-- The error counters are counted the same. -/
theorem txErr_withStorage : { s.withStorage x with txErrCount := (s.withStorage x).txErrCount + 1 } =
    ({ s with txErrCount := s.txErrCount + 1 } : State).withStorage x := rfl

theorem rxErr_withStorage : { s.withStorage x with rxErrCount := (s.withStorage x).rxErrCount + 1 } =
    ({ s with rxErrCount := s.rxErrCount + 1 } : State).withStorage x := rfl

@[simp] theorem txError_withStorage (r : Ring) (a : Word) (d : TxDesc) :
    (s.withStorage x).txError r a d = (s.txError r a d).withStorage x := by
  simp only [State.txError, txErr_withStorage, writeBack_withStorage, advanceCursor_withStorage]

@[simp] theorem txDeliver_withStorage (r : Ring) (a : Word) (d : TxDesc) (b : Packet) :
    (s.withStorage x).txDeliver r a d b = (s.txDeliver r a d b).withStorage x := by
  simp only [State.txDeliver, enqueueTx_withStorage, writeBack_withStorage, advanceCursor_withStorage]

@[simp] theorem txConsume_withStorage (r : Ring) (d : TxDesc) :
    (s.withStorage x).txConsume r d = (s.txConsume r d).withStorage x := by
  unfold State.txConsume
  simp only [cfg_withStorage, descAddr_withStorage, payloadAnswer_withStorage, txError_withStorage, memRead_withStorage,
    txDeliver_withStorage]
  split
  · rfl
  · split <;> rfl

@[simp] theorem txStep_withStorage (r : Ring) (n : Nat) :
    (s.withStorage x).txStep r n = (s.txStep r n).withStorage x := by
  unfold State.txStep State.txAct
  simp only [armed_withStorage, descAddr_withStorage, memReadAnswer_withStorage, memRead_withStorage,
    txConsume_withStorage, passEnd_withStorage]
  split
  · rfl
  · split
    · rfl
    · split <;> rfl

@[simp] theorem rxReturn_withStorage (a : Word) (d : RxDesc) (n : Nat) :
    (s.withStorage x).rxReturn a d n = (s.rxReturn a d n).withStorage x := by
  simp only [State.rxReturn, dequeueRx_withStorage, writeBack_withStorage, advanceCursor_withStorage]

@[simp] theorem rxConsume_withStorage (d : RxDesc) (f : Packet) :
    (s.withStorage x).rxConsume d f = (s.rxConsume d f).withStorage x := by
  unfold State.rxConsume State.rxDeposit State.rxBufError
  simp only [descAddr_withStorage, available_withStorage, memWrite_withStorage, countOverrun_withStorage,
    rxErr_withStorage, rxReturn_withStorage]
  split <;> rfl

@[simp] theorem rxStep_withStorage : (s.withStorage x).rxStep = s.rxStep.withStorage x := by
  unfold State.rxStep State.rxAct
  simp only [rxQueue_withStorage, rxArmed_withStorage, descAddr_withStorage, memReadAnswer_withStorage,
    memRead_withStorage, rxConsume_withStorage, passEnd_withStorage]
  split
  · rfl
  · split
    · rfl
    · split
      · rfl
      · split <;> rfl

end

/-- An operation of the engine, the wire or shutdown does to `s.withStorage x` what it does to `s` (R38, R258, R303). -/
theorem exec_withStorage {i : Instr} {s t : State} (x : Storage) (hg : (isGuestRead s.cfg i || isGuestWrite s.cfg i) = false)
    (hreset : i ≠ .hostReset) (hlink : ∀ up, i ≠ .linkChange up)
    (h : exec i s = .next t) : exec i (s.withStorage x) = .next (t.withStorage x) := by
  cases i with
  | hostReset => exact absurd rfl hreset
  | linkChange up => exact absurd rfl (hlink up)
  | badAccess a =>
    cases a with
    | read => cases hg
    | write => cases hg
  | txdOwned d =>
    simp only [exec, execTxdOwned, txPass_withStorage, txConsume_withStorage] at h ⊢
    split at h <;> cases h <;> rfl
  | txdNotOwned d =>
    simp only [exec, execTxdNotOwned, txPass_withStorage, passEnd_withStorage] at h ⊢
    split at h <;> cases h <;> rfl
  | rxdOwned d =>
    simp only [exec, execRxdOwned, rxPassOpen_withStorage, rxQueue_withStorage, rxConsume_withStorage] at h ⊢
    split at h <;> cases h <;> rfl
  | rxdNotOwned d =>
    simp only [exec, execRxdNotOwned, rxPassOpen_withStorage, passEnd_withStorage] at h ⊢
    cases ho : s.rxPassOpen <;> rw [ho] at h <;> cases h <;> rfl
  | engPassBegin =>
    simp only [exec, execEngPassBegin, shutdown_withStorage, pass_withStorage, nextEligible_withStorage] at h ⊢
    split at h
    · rename_i hc; cases h; exact if_pos hc
    · rename_i hc
      refine (if_neg hc).trans ?_
      split at h <;> cases h <;> rfl
  | engTxStep =>
    simp only [exec, execEngTxStep, txPass_withStorage, txStep_withStorage] at h ⊢
    split at h <;> cases h <;> rfl
  | engRxStep =>
    simp only [exec, execEngRxStep, rxPassOpen_withStorage, rxStep_withStorage] at h ⊢
    cases ho : s.rxPassOpen <;> rw [ho] at h <;> cases h <;> rfl
  | engPassEnd =>
    simp only [exec, execEngPassEnd, txPass_withStorage, txStops_withStorage, rxPassOpen_withStorage,
      rxStops_withStorage, txStep_withStorage, rxStep_withStorage] at h ⊢
    split at h
    · rename_i p _
      cases hstop : s.txStops p.ring p.steps <;> rw [hstop] at h <;> cases h <;> rfl
    · cases hc : s.rxPassOpen && s.rxStops <;> rw [hc] at h <;> cases h <;> rfl
  | engTxEmit ok =>
    simp only [exec, execEngTxEmit, shutdown_withStorage, txQueue_withStorage] at h ⊢
    split at h
    · cases ok <;> cases h <;> rfl
    · cases h; rfl
  | wireFrameArrive f =>
    simp only [exec, execWireFrameArrive, shutdown_withStorage, enqueueRx_withStorage] at h ⊢
    cases hs : s.shutdown <;> rw [hs] at h <;> cases h <;> rfl
  | hostShutdown => cases h; rfl
  -- what is left are the register reads, the register writes and the PHYCTL commands
  | _ => cases hg

/-- Settles O60. -/
theorem storageRegistersAreNeverRead : Obligations.StorageRegistersAreNeverRead :=
  fun _ _ _ hr hw hreset hlink h w h0 h1 m0 m1 up =>
    exec_withStorage ⟨w, h0, h1, m0, m1, up⟩ (by rw [hr, hw]; rfl) hreset hlink h

end Sys2Proof.Machine

/-! PROOFS of the statements on guest memory (spec/20_memory.md): what register reads deliver, which operations store, that a
descriptor step is its fetch and the row fetched, and what the guest's accesses inside a descriptor step do and see. -/

namespace Sys2Proof.Machine

/-! ### Register reads -/

/-- An operation that delivers the `n` bytes `b` its encoding asks for completes and is pure (R131). -/
theorem exec_read_pure {i : Instr} {s : State} {off n : Nat} {b : List Byte} (hs : s.shutdown = false)
    (he : encode s.cfg i = encRead off n) (hx : exec i s = guestRead s off b) (hb : b.length = n) :
    ∃ off n b, encode s.cfg i = encRead off n ∧ b.length = n ∧ exec i s = .next (s.log (.readData off b)) :=
  ⟨off, n, b, he, hb, hx.trans (guestRead_running hs)⟩

/-- What the operands of a byte-field row satisfy (R102, R157). -/
theorem byteRow_bounds {lo hi fieldEnd off n : Nat} (h : byteRow lo hi fieldEnd off n = true) :
    lo ≤ off ∧ off + n ≤ fieldEnd := by
  simp only [byteRow, Bool.and_eq_true, decide_eq_true_eq] at h
  exact ⟨h.1.1.1, h.2⟩

/-- A row of a byte field that starts at `start` reads as many bytes as it asks for. -/
theorem length_readField_of_byteRow {m lo hi start off n : Nat} (f : Vector Byte m) (hlo : start ≤ lo)
    (h : byteRow lo hi (start + m) off n = true) : (readField f (off - start) n).length = n := by
  obtain ⟨h1, h2⟩ := byteRow_bounds h
  exact length_readField f _ n (by omega)

theorem length_allOnes (n : Nat) : (allOnes n).length = n := List.length_replicate

/-- Settles O14, by the register the operation reads. -/
theorem registerReadsArePure : Obligations.RegisterReadsArePure := by
  intro i s hr hw hphy hbad hs
  cases i with
  | rdPhyctl => exact absurd rfl hphy
  | badAccess a => exact absurd rfl (hbad a)
  | rdTxcfg => exact exec_read_pure hs rfl rfl rfl
  | rdTxbase => exact exec_read_pure hs rfl rfl rfl
  | rdRxcfg => exact exec_read_pure hs rfl rfl rfl
  | rdRxbase => exact exec_read_pure hs rfl rfl rfl
  | rdIsr => exact exec_read_pure hs rfl rfl rfl
  | rdImr => exact exec_read_pure hs rfl rfl rfl
  | rdCfg0 => exact exec_read_pure hs rfl rfl rfl
  | rdPwr => exact exec_read_pure hs rfl rfl rfl
  | rdPhycfg => exact exec_read_pure hs rfl rfl rfl
  | rdCfg1 => exact exec_read_pure hs rfl rfl rfl
  | rdRetry => exact exec_read_pure hs rfl rfl rfl
  | rdMcctl => exact exec_read_pure hs rfl rfl rfl
  | rdMaxpkt => exact exec_read_pure hs rfl rfl rfl
  | rdMac0Lo => exact exec_read_pure hs rfl rfl (length_readField_of_byteRow s.mac0 (by decide) hw)
  | rdMac0Hi => exact exec_read_pure hs rfl rfl (length_readField_of_byteRow s.mac0 (by decide) hw)
  | rdMchash0 => exact exec_read_pure hs rfl rfl (length_readField_of_byteRow (wordLanes s.mchash0) (by decide) hw)
  | rdMchash1 => exact exec_read_pure hs rfl rfl (length_readField_of_byteRow (wordLanes s.mchash1) (by decide) hw)
  | rdMac1Lo => exact exec_read_pure hs rfl rfl (length_readField_of_byteRow s.mac1 (by decide) hw)
  | rdMac1Hi => exact exec_read_pure hs rfl rfl (length_readField_of_byteRow s.mac1 (by decide) hw)
  | rdUndef08 => exact exec_read_pure hs rfl rfl (length_allOnes _)
  | rdUndef18 => exact exec_read_pure hs rfl rfl (length_allOnes _)
  | rdUndef2c => exact exec_read_pure hs rfl rfl (length_allOnes _)
  | rdUndef34 => exact exec_read_pure hs rfl rfl (length_allOnes _)
  | rdUndef38 => exact exec_read_pure hs rfl rfl (length_allOnes _)
  | rdUndef48 => exact exec_read_pure hs rfl rfl (length_allOnes _)
  | rdUndef58 => exact exec_read_pure hs rfl rfl (length_allOnes _)
  | rdUndef70 => exact exec_read_pure hs rfl rfl (length_allOnes _)
  | rdUndefHigh => exact exec_read_pure hs rfl rfl (length_allOnes _)
  -- what is left are no register reads
  | _ => cases hr

/-! ### The descriptor steps as operations -/

theorem exec_engTxStep {s : State} {p : Pass} (h : s.txPass = some p) :
    exec .engTxStep s = .next (s.txStep p.ring p.steps) := by
  simp only [exec, execEngTxStep, h]

theorem exec_engRxStep {s : State} (h : s.rxPassOpen = true) : exec .engRxStep s = .next s.rxStep := by
  simp only [exec, execEngRxStep, h]; rfl

/-- One pass is open at a time, so with an RX pass open no TX pass is (R40). -/
theorem txPass_none_of_rx {s : State} (h : s.rxPassOpen = true) : s.txPass = none := by
  obtain ⟨hs, n, k, hp⟩ := rxPassOpen_true h
  unfold State.txPass
  rw [hs, hp]
  rfl

/-- With a TX pass open, `ENG_PASS_END` is its descriptor step where that finds a stop condition, else it waits (R229). -/
theorem exec_engPassEnd_tx {s : State} {p : Pass} (h : s.txPass = some p) : exec .engPassEnd s =
    .next (if s.txStops p.ring p.steps then s.txStep p.ring p.steps else s) := by
  simp only [exec, execEngPassEnd, h]
  split <;> rfl

/-- With no TX pass open, `ENG_PASS_END` is the step of an open RX pass where that finds a stop condition, else it waits. -/
theorem exec_engPassEnd_rx {s : State} (h : s.txPass = none) : exec .engPassEnd s =
    .next (if s.rxPassOpen && s.rxStops then s.rxStep else s) := by
  simp only [exec, execEngPassEnd, h]
  split <;> rfl

/-! ### Which operations store -/

/-- From `s` to `t` guest memory and the pending guest accesses stay. -/
def KeepsMemory (s t : State) : Prop := t.mem = s.mem ∧ t.race = s.race

/-- From `s` to `t` a fetch was made and the guest accesses that meet it, and memory has seen nothing else. -/
def OnlyFetches (s t : State) : Prop := t.mem = s.mem.guestOps (s.raceOps 0) ∧ t.race = s.race.drop 1

theorem keepsMemory_passEnd (s : State) : KeepsMemory s s.passEnd := ⟨passEnd_mem s, passEnd_race s⟩

theorem onlyFetches_passEnd (s : State) (a : Word) : OnlyFetches s (s.memRead a 16).passEnd := by
  obtain ⟨hm, hr⟩ := mem_memRead s a (n := 16) (by decide)
  exact ⟨(passEnd_mem _).trans hm, (passEnd_race _).trans hr⟩

/-- The operations that consume no descriptor and end no pass by a step of their own leave memory alone (R75, R78). -/
theorem Effect.keepsMemory {i : Instr} {s t : State} (e : Effect i s t) (hc : consumesDescriptors i = false)
    (hp : i ≠ .engPassEnd) : KeepsMemory s t := by
  cases e with
  | txStep => cases hc
  | txConsume => cases hc
  | rxStep => cases hc
  | rxConsume => cases hc
  | stop => exact absurd rfl hp
  | fetchStop => exact absurd rfl hp
  | passEnd => exact keepsMemory_passEnd s
  | store _ _ _ _ _ hf => exact ⟨hf.mem, hf.race⟩
  | command => rw [phyWrite_eq]; exact ⟨rfl, rfl⟩
  | arrive f => exact ⟨enqueueRx_mem s f, enqueueRx_race s f⟩
  | link => exact ⟨raiseInt_mem _ _, raiseInt_race _ _⟩
  | _ => exact ⟨rfl, rfl⟩

/-- A step that ends the pass, after the fetch or without one, stores nothing. -/
theorem stop_memory (s : State) (a : Word) (armed : Bool) (q : Prop) [Decidable q] :
    let t := if armed = true ∧ q then (s.memRead a 16).passEnd else s.passEnd
    (armed = true ∧ q → OnlyFetches s t) ∧ (armed = false ∨ ¬q → KeepsMemory s t) := by
  refine ⟨fun hc => ?_, fun hc => ?_⟩
  · rw [if_pos hc]
    exact onlyFetches_passEnd s a
  · rw [if_neg (by rintro ⟨ha, hq⟩; exact hc.elim (by simp [ha]) (absurd hq))]
    exact keepsMemory_passEnd s

/-- A TX step that stops stores nothing (R222, R223). -/
theorem txStep_stops_memory {s : State} {r : Ring} {n : Nat} (h : s.txStops r n = true) :
    (s.armed r = true ∧ n ≠ ringLen r → OnlyFetches s (s.txStep r n)) ∧
    (s.armed r = false ∨ n = ringLen r → KeepsMemory s (s.txStep r n)) := by
  rw [txStep_stops h]
  exact (stop_memory s _ (s.armed r) (n ≠ ringLen r)).imp_right fun hk hc => hk (hc.imp_right not_not_intro)

/-- An RX step that stops stores nothing (R251, R252). -/
theorem rxStep_stops_memory {s : State} (h : s.rxStops = true) :
    (s.rxArmed = true ∧ s.rxQueue ≠ [] → OnlyFetches s s.rxStep) ∧
    (s.rxArmed = false ∨ s.rxQueue = [] → KeepsMemory s s.rxStep) := by
  rw [rxStep_stops h]
  exact (stop_memory s _ s.rxArmed (s.rxQueue ≠ [])).imp_right fun hk hc => hk (hc.imp_right not_not_intro)

/-- Settles O18: the operations with no descriptor step, the TX steps that stop, the RX steps that stop, and `ENG_PASS_END`
with no stop condition. -/
theorem storesOnlyByDescriptorSteps : Obligations.StoresOnlyByDescriptorSteps := by
  refine ⟨fun i s t h => (exec_effect h).keepsMemory, fun i s p hi hp hstop => ?tx, fun i s hi ho hstop => ?rx,
    fun s htx hrx => ?idle⟩
  case tx =>
    refine ⟨s.txStep p.ring p.steps, ?_, txStep_stops_memory hstop⟩
    rcases hi with rfl | rfl
    · exact exec_engTxStep hp
    · rw [exec_engPassEnd_tx hp, if_pos hstop]
  case rx =>
    refine ⟨s.rxStep, ?_, rxStep_stops_memory hstop⟩
    rcases hi with rfl | rfl
    · exact exec_engRxStep ho
    · rw [exec_engPassEnd_rx (txPass_none_of_rx ho), if_pos (by rw [ho, hstop]; rfl)]
  case idle =>
    cases hp : s.txPass with
    | some p => rw [exec_engPassEnd_tx hp, htx p hp]; rfl
    | none =>
      rw [exec_engPassEnd_rx hp, if_neg]
      rw [Bool.and_eq_true]
      rintro ⟨ho, hstop⟩
      rw [hrx ho] at hstop
      cases hstop

/-! ### The fetch and the row fetched -/

theorem memReadAnswer_available {s : State} {a : Word} {n : Nat} (h : s.available a n = true) :
    s.memReadAnswer a n = some (s.mem.getBytes a n) := if_pos h

/-- A TX step of an armed ring within its bound whose descriptor is available acts on the 16 bytes it fetches (R86, R222). -/
theorem txStep_fetches {s : State} {r : Ring} {n : Nat} (ha : s.armed r = true) (hn : n ≠ ringLen r)
    (hav : s.available (s.descAddr r) 16 = true) :
    s.txStep r n = (s.memRead (s.descAddr r) 16).txAct r (s.mem.getBytes (s.descAddr r) 16) := by
  unfold State.txStep
  rw [if_neg (by simp [ha, hn])]
  simp only [memReadAnswer_available hav]

/-- An RX step with RX armed, a frame queued and the descriptor available acts on the 16 bytes it fetches (R86, R251). -/
theorem rxStep_fetches {s : State} {f : Packet} {rest : List Packet} (ha : s.rxArmed = true) (hq : s.rxQueue = f :: rest)
    (hav : s.available (s.descAddr .rx) 16 = true) :
    s.rxStep = (s.memRead (s.descAddr .rx) 16).rxAct (s.mem.getBytes (s.descAddr .rx) 16) f := by
  unfold State.rxStep
  simp only [hq, memReadAnswer_available hav]
  rw [if_neg (by simp [ha])]

/-- The row a fetched TX descriptor decodes to is what the step does with its bytes (R107). -/
theorem exec_decodeTxDescriptor {s : State} {p : Pass} (h : s.txPass = some p) (d : List Byte) :
    exec (decodeTxDescriptor d) s = .next (s.txAct p.ring d) := by
  unfold decodeTxDescriptor State.txAct
  split
  · simp only [exec, execTxdOwned, h]
  · simp only [exec, execTxdNotOwned, h]

/-- The row a fetched RX descriptor decodes to is what the step does with its bytes (R107). -/
theorem exec_decodeRxDescriptor {s : State} {f : Packet} {rest : List Packet} (ho : s.rxPassOpen = true)
    (hq : s.rxQueue = f :: rest) (d : List Byte) : exec (decodeRxDescriptor d) s = .next (s.rxAct d f) := by
  unfold decodeRxDescriptor State.rxAct
  split
  · simp only [exec, execRxdOwned, ho, hq]
  · simp only [exec, execRxdNotOwned, ho]; rfl

theorem TxReady.txPass {s : State} {r : Ring} {n k : Nat} (h : TxReady s r n k) : s.txPass = some ⟨r, n, k⟩ :=
  txPass_some h.running h.open_ h.tx

theorem RxReady.rxPassOpen {s : State} {n k : Nat} (h : RxReady s n k) : s.rxPassOpen = true :=
  rxPassOpen_some h.running h.open_

/-- The 16 bytes of a fetch decode to a descriptor row (R107). -/
theorem decode_txDescriptor_getBytes (c : Config) (m : Memory) (a : Word) :
    decode c (.txDescriptor (m.getBytes a 16)) = .ok (decodeTxDescriptor (m.getBytes a 16)) := by
  rw [decode, if_pos (Memory.length_getBytes m 16 a)]

theorem decode_rxDescriptor_getBytes (c : Config) (m : Memory) (a : Word) :
    decode c (.rxDescriptor (m.getBytes a 16)) = .ok (decodeRxDescriptor (m.getBytes a 16)) := by
  rw [decode, if_pos (Memory.length_getBytes m 16 a)]

/-- Settles O46. -/
theorem txStepFetches : Obligations.TxStepFetches := by
  intro s r n k h ha hn a hav
  have hfetch : s.memRead a 16 = s.log (.memRead a 16 true) := by rw [memRead_quiet (by decide) h.quiet, hav]
  refine ⟨_, _, decode_txDescriptor_getBytes s.cfg s.mem a, exec_engTxStep h.txPass, ?_⟩
  have hrow := exec_decodeTxDescriptor (s := s.log (.memRead a 16 true)) h.txPass (s.mem.getBytes a 16)
  rw [hrow, txStep_fetches ha hn hav, ← hfetch]
  rfl

/-- Settles O51. -/
theorem rxStepFetches : Obligations.RxStepFetches := by
  intro s n k h ha hq a hav
  obtain ⟨f, rest, hf⟩ := List.exists_cons_of_ne_nil hq
  have hfetch : s.memRead a 16 = s.log (.memRead a 16 true) := by rw [memRead_quiet (by decide) h.quiet, hav]
  refine ⟨_, _, decode_rxDescriptor_getBytes s.cfg s.mem a, exec_engRxStep h.rxPassOpen, ?_⟩
  have hrow := exec_decodeRxDescriptor (s := s.log (.memRead a 16 true)) h.rxPassOpen hf (s.mem.getBytes a 16)
  rw [hrow, rxStep_fetches ha hf hav, ← hfetch]
  rfl

/-! ### Guest accesses inside a descriptor step -/

/-- The oracle is asked with the parameters alone (R75). -/
theorem available_congr {s t : State} (h : t.cfg = s.cfg) (a : Word) (n : Nat) : t.available a n = s.available a n := by
  unfold State.available; rw [h]

/-- `t` is `s` past `k` memory accesses of the engine and the guest accesses that met them: guest memory is canonical with the
bytes `f`, and the history is `h`. -/
structure PastAccesses (s : State) (k : Nat) (f : Nat → Byte) (h : List Event) (t : State) : Prop where
  cfg : t.cfg = s.cfg
  wf : t.mem.wf = true
  race : t.race = s.race.drop k
  bytes : t.mem.get = f
  history : t.history = h

namespace PastAccesses

variable {s t t' : State} {k : Nat} {f : Nat → Byte} {h : List Event}

theorem start (hw : s.mem.wf = true) : PastAccesses s 0 s.mem.get s.history s := ⟨rfl, hw, rfl, rfl, rfl⟩

/-- What touches neither memory nor its record changes nothing here. -/
theorem congr (p : PastAccesses s k f h t) (hc : t'.cfg = t.cfg) (hm : t'.mem = t.mem) (hr : t'.race = t.race)
    (hh : t'.history = t.history) : PastAccesses s k f h t' :=
  ⟨hc.trans p.cfg, hm ▸ p.wf, hr.trans p.race, hm ▸ p.bytes, hh.trans p.history⟩

theorem available (p : PastAccesses s k f h t) (a : Word) (n : Nat) : t.available a n = s.available a n :=
  available_congr p.cfg a n

theorem raceOps (p : PastAccesses s k f h t) : t.raceOps 0 = s.raceOps k := raceOps_of_drop s t k p.race 0

theorem raceSeen (p : PastAccesses s k f h t) : t.raceSeen 0 = s.raceSeen k := by
  unfold State.raceSeen; rw [p.race]; simp

theorem race_next (p : PastAccesses s k f h t) : t.race.drop 1 = s.race.drop (k + 1) := by rw [p.race, List.drop_drop]

/-- A read, and the guest accesses that meet it (R78, R83). -/
theorem memRead (p : PastAccesses s k f h t) (hf : RaceFits s) (a : Word) {n : Nat} (hn : n ≠ 0) :
    PastAccesses s (k + 1) (afterGuest f (s.raceOps k))
      (guestLoads (guestView f (s.raceOps k)) 0 (s.raceOps k) ++ .memRead a n (s.available a n) :: h) (t.memRead a n) := by
  obtain ⟨wf, race, bytes, history⟩ := memRead_guest t a n hn p.wf (fits_of_drop p.race hf)
  rw [p.bytes, p.raceOps] at bytes history
  rw [p.available, p.history] at history
  exact ⟨(memRead_cfg t a n).trans p.cfg, wf, race.trans p.race_next, bytes, history⟩

/-- A write-back, a plain store, and the guest accesses that meet it (R88, R364). -/
theorem writeBack (p : PastAccesses s k f h t) (hf : RaceFits s) (a w : Word) :
    PastAccesses s (k + 1) (afterGuest (afterStore f a (le32bytes w)) (s.raceOps k))
      (guestLoads (guestView (afterStore f a (le32bytes w)) (s.raceOps k)) 0 (s.raceOps k) ++
        .memWrite a (le32bytes w) true :: h) (t.writeBack a w) := by
  obtain ⟨wf, race, bytes, history⟩ := writeBack_guest t a w p.wf (fits_of_drop p.race hf)
  rw [p.bytes, p.raceOps] at bytes history
  rw [p.history] at history
  exact ⟨(writeBack_cfg t a w).trans p.cfg, wf, race.trans p.race_next, bytes, history⟩

/-- A payload write with the guest accesses in its midst, which see it partly done, or not at all if the range is unavailable
(R75, R78). -/
theorem memWrite (p : PastAccesses s k f h t) (hf : RaceFits s) (a : Word) {b : List Byte} (hb0 : b.length ≠ 0)
    (hb : b.length < 2 ^ 32) :
    let ok := s.available a b.length
    let view := if ok = true then partialView f a b (s.raceSeen k) (s.raceOps k) else guestView f (s.raceOps k)
    PastAccesses s (k + 1) (view (s.raceOps k).length) (guestLoads view 0 (s.raceOps k) ++ .memWrite a b ok :: h)
      (t.memWrite a b) := by
  obtain ⟨wf, race, bytes, history⟩ := memWrite_guest t a b hb0 hb p.wf (fits_of_drop p.race hf)
  rw [p.bytes, p.raceOps, p.raceSeen, p.available] at bytes history
  rw [p.history] at history
  exact ⟨(memWrite_cfg t a b).trans p.cfg, wf, race.trans p.race_next, bytes, history⟩

/-- A payload write of any length, where one of length zero is not performed (R75, D45). -/
theorem memWrite_or_skip (p : PastAccesses s k f h t) (hf : RaceFits s) (a : Word) {b : List Byte} (hb : b.length < 2 ^ 32) :
    let ok := s.available a b.length
    let view := if ok = true then partialView f a b (s.raceSeen k) (s.raceOps k) else guestView f (s.raceOps k)
    PastAccesses s (if b.length = 0 then k else k + 1) (if b.length = 0 then f else view (s.raceOps k).length)
      (if b.length = 0 then h else guestLoads view 0 (s.raceOps k) ++ .memWrite a b ok :: h) (t.memWrite a b) := by
  intro ok view
  by_cases hb0 : b.length = 0
  · rw [if_pos hb0, if_pos hb0, if_pos hb0, List.length_eq_zero_iff.mp hb0, memWrite_nil]
    exact p
  · rw [if_neg hb0, if_neg hb0, if_neg hb0]
    exact p.memWrite hf a hb0 hb

/-- `TxError` accesses memory once, for the status write-back (R224). -/
theorem txError (p : PastAccesses s k f h t) (hf : RaceFits s) (r : Ring) (a : Word) (d : TxDesc) :
    let returned := afterStore f (a + 4) (le32bytes (statusReturned d.statusRest))
    PastAccesses s (k + 1) (afterGuest returned (s.raceOps k))
      (guestLoads (guestView returned (s.raceOps k)) 0 (s.raceOps k) ++
        .memWrite (a + 4) (le32bytes (statusReturned d.statusRest)) true :: h) (t.txError r a d) := by
  have hcount : PastAccesses s k f h { t with txErrCount := t.txErrCount + 1 } := p.congr rfl rfl rfl rfl
  exact (hcount.writeBack hf (a + 4) (statusReturned d.statusRest)).congr (advanceCursor_cfg _ _ _)
    (advanceCursor_mem _ _ _) (advanceCursor_race _ _ _) (advanceCursor_history _ _ _)

/-- `TxDeliver` accesses memory once, for the status write-back (R226). -/
theorem txDeliver (p : PastAccesses s k f h t) (hf : RaceFits s) (r : Ring) (a : Word) (d : TxDesc) (b : Packet) :
    let returned := afterStore f (a + 4) (le32bytes (statusReturned d.statusRest))
    PastAccesses s (k + 1) (afterGuest returned (s.raceOps k))
      (guestLoads (guestView returned (s.raceOps k)) 0 (s.raceOps k) ++
        .memWrite (a + 4) (le32bytes (statusReturned d.statusRest)) true :: h) (t.txDeliver r a d b) := by
  have hqueue : PastAccesses s k f h (t.enqueueTx b) :=
    p.congr (enqueueTx_cfg t b) (enqueueTx_mem t b) (enqueueTx_race t b) (enqueueTx_history t b)
  exact (hqueue.writeBack hf (a + 4) (statusReturned d.statusRest)).congr (advanceCursor_cfg _ _ _)
    (advanceCursor_mem _ _ _) (advanceCursor_race _ _ _) (advanceCursor_history _ _ _)

/-- The end of an RX descriptor accesses memory twice: the length and the status are written back (R253, R255). -/
theorem rxReturn (p : PastAccesses s k f h t) (hf : RaceFits s) (a : Word) (d : RxDesc) (n : Nat) :
    let received := le32bytes (BitVec.ofNat 32 n)
    let status := le32bytes (statusReturned d.statusRest)
    let counted := afterStore f a received
    let returned := afterStore (afterGuest counted (s.raceOps k)) (a + 4) status
    PastAccesses s (k + 2) (afterGuest returned (s.raceOps (k + 1)))
      (guestLoads (guestView returned (s.raceOps (k + 1))) 0 (s.raceOps (k + 1)) ++ .memWrite (a + 4) status true ::
        (guestLoads (guestView counted (s.raceOps k)) 0 (s.raceOps k) ++ .memWrite a received true :: h))
      (t.rxReturn a d n) := by
  have hleft : PastAccesses s k f h t.dequeueRx := p.congr rfl rfl rfl rfl
  exact ((hleft.writeBack hf a _).writeBack hf (a + 4) _).congr (advanceCursor_cfg _ _ _) (advanceCursor_mem _ _ _)
    (advanceCursor_race _ _ _) (advanceCursor_history _ _ _)

theorem countOverrun (p : PastAccesses s k f h t) (b : Bool) : PastAccesses s k f h (t.countOverrun b) := by
  cases b <;> exact p.congr rfl rfl rfl rfl

theorem countConsumed (p : PastAccesses s k f h t) : PastAccesses s k f h t.countConsumed := p.congr rfl rfl rfl rfl

end PastAccesses

/-- The descriptor fetch, the first access of every step that makes one, and the guest accesses that meet it (R86). -/
theorem pastAccesses_fetch {s : State} {a : Word} (hw : s.mem.wf = true) (hf : RaceFits s)
    (hav : s.available a 16 = true) :
    PastAccesses s 1 (afterGuest s.mem.get (s.raceOps 0))
      (guestLoads (guestView s.mem.get (s.raceOps 0)) 0 (s.raceOps 0) ++ .memRead a 16 true :: s.history)
      (s.memRead a 16) := by
  have h := (PastAccesses.start hw).memRead hf a (n := 16) (by decide)
  rwa [hav] at h

/-! ### What a consumed TX descriptor does, by its length and its buffer -/

/-- The length check (R224). -/
theorem txBadLength_eq_true_iff {c : Config} {d : TxDesc} :
    txBadLength c d = true ↔ d.length.toNat = 0 ∨ c.maxFrameSize < d.length.toNat := by
  have hz : d.length = 0 ↔ d.length.toNat = 0 := by simp [← BitVec.toNat_inj]
  rw [txBadLength, Bool.or_eq_true, beq_iff_eq, decide_eq_true_eq, hz]

theorem txConsume_badLength {s : State} {d : TxDesc} (r : Ring) (h : txBadLength s.cfg d = true) :
    s.txConsume r d = (s.txError r (s.descAddr r) d).countConsumed := by
  simp only [State.txConsume, h, if_true]

theorem txConsume_unavailable {s : State} {d : TxDesc} (r : Ring) (h : txBadLength s.cfg d = false)
    (ha : s.available d.bufferAddress d.length.toNat = false) :
    s.txConsume r d = ((s.memRead d.bufferAddress d.length.toNat).txError r (s.descAddr r) d).countConsumed := by
  have hno : s.payloadAnswer d.bufferAddress d.length.toNat = none := by rw [State.payloadAnswer, ha]; rfl
  simp only [State.txConsume, h, hno]
  rfl

theorem txConsume_delivers {s : State} {d : TxDesc} (r : Ring) (h : txBadLength s.cfg d = false)
    (ha : s.available d.bufferAddress d.length.toNat = true) :
    s.txConsume r d = ((s.memRead d.bufferAddress d.length.toNat).txDeliver r (s.descAddr r) d
      (s.payload d.bufferAddress d.length.toNat)).countConsumed := by
  have hb : s.payloadAnswer d.bufferAddress d.length.toNat = some (s.payload d.bufferAddress d.length.toNat) := if_pos ha
  simp only [State.txConsume, h, hb]
  rfl

/-- A packet delivered to a queue with room stands at its back (R226, R281). -/
theorem txQueue_txDeliver {s : State} (r : Ring) (a : Word) (d : TxDesc) (b : Packet) (h : s.txQueue.length < 256) :
    (s.txDeliver r a d b).txQueue = s.txQueue ++ [b] := by
  rw [State.txDeliver, advanceCursor_txQueue, writeBack_txQueue, enqueueTx_eq]
  exact if_pos h

namespace PastAccesses

variable {s t : State} {k : Nat} {f : Nat → Byte} {h : List Event}

/-- A descriptor with a bad length makes one access, the status write-back (R224). -/
theorem txConsume_badLength (p : PastAccesses s k f h t) (hf : RaceFits s) (r : Ring) {d : TxDesc}
    (hbad : txBadLength s.cfg d = true) :
    let a := t.descAddr r
    let status := le32bytes (statusReturned d.statusRest)
    let returned := afterStore f (a + 4) status
    PastAccesses s (k + 1) (afterGuest returned (s.raceOps k))
      (guestLoads (guestView returned (s.raceOps k)) 0 (s.raceOps k) ++ .memWrite (a + 4) status true :: h)
      (t.txConsume r d) := by
  rw [Machine.txConsume_badLength r (by rw [p.cfg, hbad])]
  exact (p.txError hf r _ d).countConsumed

/-- A descriptor with a good length makes two accesses, the payload fetch and the status write-back, whatever the fetch
answers (R225, R226). -/
theorem txConsume_goodLength (p : PastAccesses s k f h t) (hf : RaceFits s) (r : Ring) {d : TxDesc}
    (hgood : txBadLength s.cfg d = false) :
    let a := t.descAddr r
    let len := d.length.toNat
    let status := le32bytes (statusReturned d.statusRest)
    let returned := afterStore (afterGuest f (s.raceOps k)) (a + 4) status
    PastAccesses s (k + 2) (afterGuest returned (s.raceOps (k + 1)))
      (guestLoads (guestView returned (s.raceOps (k + 1))) 0 (s.raceOps (k + 1)) ++ .memWrite (a + 4) status true ::
        (guestLoads (guestView f (s.raceOps k)) 0 (s.raceOps k) ++
          .memRead d.bufferAddress len (s.available d.bufferAddress len) :: h))
      (t.txConsume r d) := by
  have hlen : d.length.toNat ≠ 0 := by
    rw [← Bool.not_eq_true, txBadLength_eq_true_iff] at hgood
    omega
  have hread := p.memRead hf d.bufferAddress hlen
  cases ha : t.available d.bufferAddress d.length.toNat with
  | false =>
    rw [txConsume_unavailable r (by rw [p.cfg, hgood]) ha]
    exact (hread.txError hf r _ d).countConsumed
  | true =>
    rw [txConsume_delivers r (by rw [p.cfg, hgood]) ha]
    exact (hread.txDeliver hf r _ d _).countConsumed

/-- Byte `j` of the payload is what the guest's first `seen[j]` accesses of the batch left there (R78). -/
theorem payload (p : PastAccesses s k f h t) (hf : RaceFits s) (a : Word) (n : Nat) :
    (t.payload a n).length = n ∧ ∀ j, j < n → (t.payload a n)[j]? =
      some (guestView f (s.raceOps k) ((s.raceSeen k).getD j 0) (a + BitVec.ofNat 32 j).toNat) := by
  have hb := payload_bytes t a n p.wf (fits_of_drop p.race hf)
  rwa [p.bytes, p.raceOps, p.raceSeen] at hb

end PastAccesses

/-- Settles O57: the fetch, then the accesses of a descriptor with a bad or a good length. -/
theorem statusWriteBackIsNotAtomic : Obligations.StatusWriteBackIsNotAtomic := by
  intro s r n k hs hw hp hr hf ha hn a d len status hav hown fetched history0
  have hfetch : PastAccesses s 1 fetched history0 (s.memRead a 16) := pastAccesses_fetch hw hf hav
  have haddr : (s.memRead a 16).descAddr r = a := descAddr_memRead s a 16 r
  have hstep : s.txStep r n = (s.memRead a 16).txConsume r d := (txStep_fetches ha hn hav).trans (if_pos hown)
  refine ⟨(s.memRead a 16).txConsume r d, ?_, fun hlen => ?bad, fun h0 hmax => ?good⟩
  · rw [← hstep]
    exact exec_engTxStep (txPass_some hs hp hr)
  case bad =>
    have hq := hfetch.txConsume_badLength hf r (d := d) (txBadLength_eq_true_iff.mpr hlen)
    rw [haddr] at hq
    exact ⟨hq.race, congrFun hq.bytes, hq.history⟩
  case good =>
    have hgood : txBadLength s.cfg d = false := by
      rw [← Bool.not_eq_true, txBadLength_eq_true_iff]
      exact not_or_intro h0 (Nat.not_lt_of_le hmax)
    have hq := hfetch.txConsume_goodLength hf r (d := d) hgood
    rw [haddr] at hq
    refine ⟨hq.race, congrFun hq.bytes, hq.history, fun hok hroom => ?_⟩
    have hpay := hfetch.payload hf d.bufferAddress len
    refine ⟨(s.memRead a 16).payload d.bufferAddress len, ?_, hpay⟩
    rw [txConsume_delivers r (by rw [hfetch.cfg, hgood]) (by rw [hfetch.available]; exact hok), countConsumed_txQueue,
      txQueue_txDeliver r _ d _ (by simpa using hroom), memRead_txQueue, memRead_txQueue]

/-! ### What a consumed RX descriptor does, by its buffer -/

theorem rxDeposit_available {s : State} {a : Word} {d : RxDesc} {f : Packet} {m : Nat}
    (hm : m = min f.length d.bufferSize.toNat) (ha : s.available d.bufferAddress m = true) :
    s.rxDeposit a d f =
      ((s.memWrite d.bufferAddress (f.take m)).countOverrun (decide (m < f.length))).rxReturn a d m := by
  subst hm; exact if_pos ha

theorem rxDeposit_unavailable {s : State} {a : Word} {d : RxDesc} {f : Packet} {m : Nat}
    (hm : m = min f.length d.bufferSize.toNat) (ha : s.available d.bufferAddress m = false) :
    s.rxDeposit a d f = (s.memWrite d.bufferAddress (f.take m)).rxBufError a d := by
  subst hm; exact if_neg (by simp [ha])

/-- A deposit after its payload write, done or refused, makes two accesses: both write-backs, with the length received (R253,
R255). -/
theorem PastAccesses.rxDeposit {s u : State} {k m : Nat} {g : Nat → Byte} {h : List Event} {d : RxDesc} {f : Packet}
    (p : PastAccesses s k g h (u.memWrite d.bufferAddress (f.take m))) (hf : RaceFits s)
    (hm : m = min f.length d.bufferSize.toNat) (a : Word) :
    let received := le32bytes (if s.available d.bufferAddress m = true then BitVec.ofNat 32 m else 0)
    let status := le32bytes (statusReturned d.statusRest)
    let counted := afterStore g a received
    let returned := afterStore (afterGuest counted (s.raceOps k)) (a + 4) status
    PastAccesses s (k + 2) (afterGuest returned (s.raceOps (k + 1)))
      (guestLoads (guestView returned (s.raceOps (k + 1))) 0 (s.raceOps (k + 1)) ++ .memWrite (a + 4) status true ::
        (guestLoads (guestView counted (s.raceOps k)) 0 (s.raceOps k) ++ .memWrite a received true :: h))
      (u.rxDeposit a d f) := by
  have hav : u.available d.bufferAddress m = s.available d.bufferAddress m :=
    available_congr ((memWrite_cfg _ _ _).symm.trans p.cfg) _ _
  cases ha : s.available d.bufferAddress m with
  | true =>
    rw [rxDeposit_available hm (hav.trans ha)]
    exact (p.countOverrun _).rxReturn hf a d m
  | false =>
    rw [rxDeposit_unavailable hm (hav.trans ha)]
    have hcount : PastAccesses s k g h { u.memWrite d.bufferAddress (f.take m) with
        rxErrCount := (u.memWrite d.bufferAddress (f.take m)).rxErrCount + 1 } := p.congr rfl rfl rfl rfl
    exact hcount.rxReturn hf a d 0

/-- Settles O32: the fetch, the payload write unless it is empty, then both write-backs. -/
theorem guestAccessesInsideRxStep : Obligations.GuestAccessesInsideRxStep := by
  intro s n k f rest hs hw hp hq hf ha a d m ok received status hav hown fetched history0 view deposited history1 j
    counted returned
  have hfetch : PastAccesses s 1 fetched history0 (s.memRead a 16) := pastAccesses_fetch hw hf hav
  have haddr : (s.memRead a 16).descAddr .rx = a := descAddr_memRead s a 16 .rx
  have hstep : s.rxStep = (s.memRead a 16).rxConsume d f := (rxStep_fetches ha hq hav).trans (if_pos hown)
  have hlen : (f.take m).length = m := List.length_take_of_le (Nat.min_le_left _ _)
  have hbound : m < 2 ^ 32 := by
    have hsize : m ≤ d.bufferSize.toNat := Nat.min_le_right _ _
    have := d.bufferSize.isLt
    omega
  have hpayload : PastAccesses s j deposited history1 ((s.memRead a 16).memWrite d.bufferAddress (f.take m)) := by
    have hwrite := hfetch.memWrite_or_skip hf d.bufferAddress (b := f.take m) (by rwa [hlen])
    rwa [hlen] at hwrite
  have hdone := (hpayload.rxDeposit hf rfl a).countConsumed
  refine ⟨(s.memRead a 16).rxConsume d f, ?_, ?_⟩
  · rw [← hstep]
    exact exec_engRxStep (rxPassOpen_some hs hp)
  · rw [State.rxConsume, haddr]
    exact ⟨hdone.race, congrFun hdone.bytes, hdone.history⟩

end Sys2Proof.Machine

/-! PROOFS of the statements on the encoding (spec/30_encoding.md): the decoder and the encoder are inverse to each other,
row by row. -/

namespace Sys2Proof

/-! ### The accesses a row of the register map admits -/

/-- The access `(off, n)` starts in the row's range and passes the row's size check (R101, R102). -/
def Window.Admits (w : Window) (off n : Nat) : Prop :=
  (rowLo w ≤ off ∧ off ≤ rowHi w) ∧ w.accepts off n = true

/-- The size of a register accessed whole (R73 a); a byte field and an undefined range have none. -/
def Window.width : Window → Option Nat
  | .mcctl | .maxpkt => some 2
  | .mac0Lo | .mac0Hi | .mchash0 | .mchash1 | .mac1Lo | .mac1Hi => none
  | .undef08 | .undef18 | .undef2c | .undef34 | .undef38 | .undef48 | .undef58 | .undef70 => none
  | _ => some 4

/-- A register accessed whole admits its own offset and size only. -/
theorem Window.admits_fixed_iff {w : Window} {k off n : Nat} (hw : w.width = some k) :
    w.Admits off n ↔ off = rowLo w ∧ n = k := by
  have hrange : rowHi w = rowLo w := by cases w <;> cases hw <;> rfl
  have hsize : w.accepts off n = (n == k) := by cases w <;> cases hw <;> rfl
  rw [Window.Admits, hrange, hsize, beq_iff_eq]
  omega

/-- The operands of a byte-field row are well-formed if the row admits the access (R157). -/
theorem byteRow_iff {lo hi fieldEnd off n : Nat} : byteRow lo hi fieldEnd off n = true ↔
    (lo ≤ off ∧ off ≤ hi) ∧ (decide (1 ≤ n) && decide (off + n ≤ fieldEnd)) = true := by
  simp only [byteRow, Bool.and_eq_true, decide_eq_true_eq, and_assoc]

/-- The operands of an undefined row are well-formed if the row admits the access (R73 c). -/
theorem undefRow_iff {w : Window} {off n : Nat} (hw : undefEnd w ≠ 0) : undefRow (rowLo w) (rowHi w) off n = true ↔
    (rowLo w ≤ off ∧ off ≤ rowHi w) ∧ (undefSize n && decide (off + n ≤ undefEnd w)) = true := by
  rw [undefRow, Bool.and_eq_true, Bool.and_eq_true, decide_eq_true_eq, decide_eq_true_eq]
  exact and_congr_right fun h => by rw [undefRange_iff hw h]

/-- The operands of a row with a range are well-formed exactly if the row admits the access. -/
theorem Window.wellFormed_readInstr_iff {c : Config} {w : Window} {off n : Nat} (hw : w.width = none) :
    (w.readInstr off n).wellFormed c = true ↔ w.Admits off n := by
  cases w with
  | mac0Lo => exact byteRow_iff
  | mac0Hi => exact byteRow_iff
  | mchash0 => exact byteRow_iff
  | mchash1 => exact byteRow_iff
  | mac1Lo => exact byteRow_iff
  | mac1Hi => exact byteRow_iff
  | undef08 => exact undefRow_iff (w := .undef08) nofun
  | undef18 => exact undefRow_iff (w := .undef18) nofun
  | undef2c => exact undefRow_iff (w := .undef2c) nofun
  | undef34 => exact undefRow_iff (w := .undef34) nofun
  | undef38 => exact undefRow_iff (w := .undef38) nofun
  | undef48 => exact undefRow_iff (w := .undef48) nofun
  | undef58 => exact undefRow_iff (w := .undef58) nofun
  | undef70 => exact undefRow_iff (w := .undef70) nofun
  | _ => cases hw

theorem Window.wellFormed_writeInstr (c : Config) (w : Window) (off : Nat) (data : List Byte) :
    (w.writeInstr off data).wellFormed c = (w.readInstr off data.length).wellFormed c := by
  cases w <;> rfl

/-- A row gives well-formed operations for the accesses it admits. -/
theorem Window.wellFormed_readInstr {c : Config} {w : Window} {off n : Nat} (h : w.Admits off n) :
    (w.readInstr off n).wellFormed c = true := by
  cases hw : w.width with
  | none => exact (Window.wellFormed_readInstr_iff hw).mpr h
  | some k => cases w <;> cases hw <;> rfl

/-- The encoding of a row's read is the access it was decoded from. -/
theorem Window.encode_readInstr {c : Config} {w : Window} {off n : Nat} (h : w.Admits off n) :
    encode c (w.readInstr off n) = encRead off n := by
  cases hw : w.width with
  | none => cases w <;> cases hw <;> rfl
  | some k =>
    obtain ⟨rfl, rfl⟩ := (Window.admits_fixed_iff hw).mp h
    cases w <;> cases hw <;> rfl

/-- The encoding of a row's write is the access it was decoded from: `le32` and `le16` drop no byte of a value of full
size. -/
theorem Window.encode_writeInstr {c : Config} {w : Window} {off : Nat} {data : List Byte} (h : w.Admits off data.length) :
    encode c (w.writeInstr off data) = encWrite off data := by
  cases hw : w.width with
  | none => cases w <;> cases hw <;> rfl
  | some k =>
    obtain ⟨rfl, hlen⟩ := (Window.admits_fixed_iff hw).mp h
    cases w with
    | mcctl => cases hw; exact congrArg (encWrite 0x60) (le16bytes_le16 data hlen)
    | maxpkt => cases hw; exact congrArg (encWrite 0x78) (le16bytes_le16 data hlen)
    | _ => cases hw <;> exact congrArg (encWrite _) (le32bytes_le32 data hlen)

/-! ### Register accesses -/

theorem Window.Admits.lt {w : Window} {off n : Nat} (h : w.Admits off n) : off < 0x80 := by
  have hhi : rowHi w < 0x80 := by cases w <;> decide
  exact Nat.lt_of_le_of_lt h.1.2 hhi

/-- A read that a row admits decodes to the row's read. -/
theorem decode_read_of_admits {c : Config} {w : Window} {off n : Nat} (h : w.Admits off n) :
    decode c (encRead off n) = .ok (w.readInstr off n) :=
  decode_read h.lt (row_find h.1) h.2

/-- A write that a row admits decodes to the row's write. -/
theorem decode_write_of_admits {c : Config} {w : Window} {off : Nat} {data : List Byte} (h : w.Admits off data.length) :
    decode c (encWrite off data) = .ok (w.writeInstr off data) :=
  decode_write h.lt (row_find h.1) h.2

/-- What a register access can be: inside a row that admits it, above the window with 1, 2 or 4 bytes, or ill-formed
(R73, R102). -/
theorem decodeAccess_cases (a : Access) :
    (∃ w : Window, w.Admits a.off a.size ∧ a.wellFormed = true ∧ decodeAccess a = w.instr a) ∨
    (0x80 ≤ a.off ∧ undefSize a.size = true ∧ a.wellFormed = true ∧ decodeAccess a = decodeOutside a) ∨
    (a.wellFormed = false ∧ decodeAccess a = .badAccess a) := by
  by_cases ho : 0x80 ≤ a.off
  · have hwf : a.wellFormed = undefSize a.size := high_row ho
    rw [decodeAccess_outside ho, hwf]
    cases undefSize a.size with
    | true => exact .inr (.inl ⟨ho, rfl, rfl, rfl⟩)
    | false => exact .inr (.inr ⟨rfl, rfl⟩)
  · have hlt : a.off < 0x80 := Nat.lt_of_not_le ho
    cases hw : findWindow (BitVec.ofNat 7 a.off) with
    | none => exact .inr (.inr ⟨none_row hlt hw, decodeAccess_none hlt hw⟩)
    | some w =>
      have hrange := row_range hlt hw
      have hwf : a.wellFormed = w.accepts a.off a.size := wf_row hrange
      rw [decodeAccess_window hlt hw, hwf]
      cases hacc : w.accepts a.off a.size with
      | true => exact .inl ⟨w, ⟨hrange, hacc⟩, rfl, rfl⟩
      | false => exact .inr (.inr ⟨rfl, rfl⟩)

theorem decodeAccess_illFormed {a : Access} (h : a.wellFormed = false) : decodeAccess a = .badAccess a := by
  obtain ⟨_, _, hwf, _⟩ | ⟨_, _, hwf, _⟩ | ⟨_, hbad⟩ := decodeAccess_cases a
  · exact absurd (h.symm.trans hwf) Bool.false_ne_true
  · exact absurd (h.symm.trans hwf) Bool.false_ne_true
  · exact hbad

/-- What a register access decodes to is well-formed and encodes that access. -/
theorem decodeAccess_wellFormed_encode (c : Config) (a : Access) :
    (decodeAccess a).wellFormed c = true ∧ encode c (decodeAccess a) = .input (.access a) := by
  obtain ⟨w, hw, _, hdec⟩ | ⟨ho, hsize, _, hdec⟩ | ⟨hbad, hdec⟩ := decodeAccess_cases a
  · rw [hdec]
    cases a with
    | read off n => exact ⟨Window.wellFormed_readInstr hw, Window.encode_readInstr hw⟩
    | write off data =>
      exact ⟨(Window.wellFormed_writeInstr c w off data).trans (Window.wellFormed_readInstr hw),
        Window.encode_writeInstr hw⟩
  · rw [hdec]
    have hop : (decide (mmioWindow ≤ a.off) && undefSize a.size) = true := by
      rw [hsize, Bool.and_true]; exact decide_eq_true ho
    cases a with
    | read off n => exact ⟨hop, rfl⟩
    | write off data => exact ⟨hop, rfl⟩
  · rw [hdec]
    exact ⟨congrArg not hbad, rfl⟩

/-! The rows' encodings decode, one lemma for each shape of the operands. -/

/-- A read of a register accessed whole. -/
theorem decode_read_fixed (c : Config) {w : Window} {k : Nat} (hw : w.width = some k) :
    decode c (encRead (rowLo w) k) = .ok (w.readInstr (rowLo w) k) :=
  decode_read_of_admits ((Window.admits_fixed_iff hw).mpr ⟨rfl, rfl⟩)

/-- A write of all four bytes of a register. -/
theorem decode_write_word (c : Config) {w : Window} {i : Word → Instr} (v : Word) (hw : w.width = some 4)
    (hi : w.writeInstr (rowLo w) (le32bytes v) = i (le32 (le32bytes v))) :
    decode c (encWrite (rowLo w) (le32bytes v)) = .ok (i v) := by
  rw [decode_write_of_admits ((Window.admits_fixed_iff hw).mpr ⟨rfl, rfl⟩), hi, le32_le32bytes]

/-- A write of both bytes of a register. -/
theorem decode_write_half (c : Config) {w : Window} {i : Half → Instr} (v : Half) (hw : w.width = some 2)
    (hi : w.writeInstr (rowLo w) (le16bytes v) = i (le16 (le16bytes v))) :
    decode c (encWrite (rowLo w) (le16bytes v)) = .ok (i v) := by
  rw [decode_write_of_admits ((Window.admits_fixed_iff hw).mpr ⟨rfl, rfl⟩), hi, le16_le16bytes]

/-- A read of bytes of a field, or of undefined bytes. -/
theorem decode_read_range {c : Config} (w : Window) {off n : Nat} (hw : w.width = none)
    (h : (w.readInstr off n).wellFormed c = true) : decode c (encRead off n) = .ok (w.readInstr off n) :=
  decode_read_of_admits ((Window.wellFormed_readInstr_iff hw).mp h)

/-- A write of bytes of a field, or of undefined bytes. -/
theorem decode_write_range {c : Config} (w : Window) {off : Nat} {data : List Byte} (hw : w.width = none)
    (h : (w.writeInstr off data).wellFormed c = true) : decode c (encWrite off data) = .ok (w.writeInstr off data) := by
  rw [Window.wellFormed_writeInstr] at h
  exact decode_write_of_admits ((Window.wellFormed_readInstr_iff hw).mp h)

/-- An access above the window of 1, 2 or 4 bytes (R74, R100). -/
theorem decode_outside {c : Config} {a : Access} (h : (decide (mmioWindow ≤ a.off) && undefSize a.size) = true) :
    decode c (.input (.access a)) = .ok (decodeOutside a) := by
  rw [Bool.and_eq_true, decide_eq_true_eq] at h
  obtain ⟨ho, hsize⟩ := h
  exact congrArg Except.ok ((decodeAccess_outside ho).trans (if_pos hsize))

/-! ### Command words -/

/-- The rows of `PHYCTL_CMD` by the fields the word was joined from. -/
theorem decodeCommand_mdioJoin (c : Config) (m : MdioWord) : decodeCommand c (mdioJoin m) =
    if m.op = c.mdioReadOp then .mdioRdaddr m.regnum m.phyaddr m.busy m.data
    else if m.regnum = 0 then .mdioWrCtrl m.op m.phyaddr m.busy m.data
    else if m.regnum = 2 then .mdioWrId1 m.op m.phyaddr m.busy m.data
    else if m.regnum = 3 then .mdioWrId2 m.op m.phyaddr m.busy m.data
    else if m.phyaddr = 1 ∧ m.regnum = phyAnarReg then .mdioWrAnarPhy1 m.op m.busy m.data
    else .mdioWr m.op m.regnum m.phyaddr m.busy m.data := by
  rw [decodeCommand, mdioSplit_mdioJoin]

/-- The operands of the default row are the commands no earlier row takes. -/
theorem mdioWr_wellFormed_iff {c : Config} {op n p : BitVec 5} {busy : Bool} {d : Half} :
    (Instr.mdioWr op n p busy d).wellFormed c = true ↔
      op ≠ c.mdioReadOp ∧ n ≠ 0 ∧ n ≠ 2 ∧ n ≠ 3 ∧ ¬(p = 1 ∧ n = phyAnarReg) := by
  simp only [Instr.wellFormed, Bool.and_eq_true, Bool.not_eq_true', ← Bool.not_eq_true, bne_iff_ne, beq_iff_eq, and_assoc]

/-- What a command decodes to is well-formed and encodes that command. -/
theorem decodeCommand_wellFormed_encode (c : Config) (m : MdioWord) :
    (decodeCommand c (mdioJoin m)).wellFormed c = true ∧ encode c (decodeCommand c (mdioJoin m)) = encCommand m := by
  obtain ⟨op, n, p, busy, d⟩ := m
  rw [decodeCommand_mdioJoin]
  dsimp only
  split_ifs with hop h0 h2 h3 hanar
  · subst hop; exact ⟨rfl, rfl⟩
  · subst h0; exact ⟨bne_iff_ne.mpr hop, rfl⟩
  · subst h2; exact ⟨bne_iff_ne.mpr hop, rfl⟩
  · subst h3; exact ⟨bne_iff_ne.mpr hop, rfl⟩
  · obtain ⟨rfl, rfl⟩ := hanar; exact ⟨bne_iff_ne.mpr hop, rfl⟩
  · exact ⟨mdioWr_wellFormed_iff.mpr ⟨hop, h0, h2, h3, hanar⟩, rfl⟩

/-! ### Events -/

theorem noOperand_eq_ok_iff {code : Byte} {i j : Instr} {operand : List Byte} :
    noOperand code i operand = .ok j ↔ operand = [] ∧ i = j := by
  cases operand <;> simp [noOperand]

theorem bitOperand_bitByte (code : Byte) (i : Bool → Instr) (b : Bool) : bitOperand code i [bitByte b] = .ok (i b) := by
  cases b <;> rfl

/-- A row with one bit takes the two operand bytes that encode a bit (log entry 9). -/
theorem bitOperand_eq_ok {code : Byte} {i : Bool → Instr} {j : Instr} {operand : List Byte}
    (h : bitOperand code i operand = .ok j) : ∃ b, operand = [bitByte b] ∧ i b = j := by
  match operand, h with
  | [x], h =>
    simp only [bitOperand] at h
    split at h
    case isTrue h0 => cases h; exact ⟨false, by rw [h0]; rfl, rfl⟩
    case isFalse =>
      split at h
      case isTrue h1 => cases h; exact ⟨true, by rw [h1]; rfl, rfl⟩
      case isFalse => cases h

/-- What an event decodes to is well-formed and encodes that event. -/
theorem decodeEvent_wellFormed_encode {c : Config} {code : Byte} {operand : List Byte} {i : Instr}
    (h : decodeEvent code operand = .ok i) : i.wellFormed c = true ∧ encode c i = encEvent code operand := by
  unfold decodeEvent at h
  split_ifs at h with h01 h02 h03 h04 h05 h10 h11 h20 h21
  · obtain ⟨rfl, rfl⟩ := noOperand_eq_ok_iff.mp h; subst h01; exact ⟨rfl, rfl⟩
  · obtain ⟨rfl, rfl⟩ := noOperand_eq_ok_iff.mp h; subst h02; exact ⟨rfl, rfl⟩
  · obtain ⟨rfl, rfl⟩ := noOperand_eq_ok_iff.mp h; subst h03; exact ⟨rfl, rfl⟩
  · obtain ⟨rfl, rfl⟩ := noOperand_eq_ok_iff.mp h; subst h04; exact ⟨rfl, rfl⟩
  · obtain ⟨b, rfl, rfl⟩ := bitOperand_eq_ok h; subst h05; exact ⟨rfl, rfl⟩
  · cases h; subst h10; exact ⟨rfl, rfl⟩
  · obtain ⟨b, rfl, rfl⟩ := bitOperand_eq_ok h; subst h11; exact ⟨rfl, rfl⟩
  · obtain ⟨rfl, rfl⟩ := noOperand_eq_ok_iff.mp h; subst h20; exact ⟨rfl, rfl⟩
  · obtain ⟨rfl, rfl⟩ := noOperand_eq_ok_iff.mp h; subst h21; exact ⟨rfl, rfl⟩

/-! ### Descriptors -/

theorem decode_txBytes (c : Config) (own : Bool) (d : TxDesc) :
    decode c (.txDescriptor (txBytes own d)) = .ok (if own then .txdOwned d else .txdNotOwned d) := by
  rw [decode, if_pos (length_txBytes own d), decodeTxDescriptor, ownBit_txBytes, txFields_txBytes]

theorem decode_rxBytes (c : Config) (own : Bool) (d : RxDesc) :
    decode c (.rxDescriptor (rxBytes own d)) = .ok (if own then .rxdOwned d else .rxdNotOwned d) := by
  rw [decode, if_pos (length_rxBytes own d), decodeRxDescriptor, ownBit_rxBytes, rxFields_rxBytes]

/-- Sixteen bytes decode to a well-formed TX row that encodes them. -/
theorem decodeTxDescriptor_wellFormed_encode (c : Config) {d : List Byte} (h : d.length = 16) :
    (decodeTxDescriptor d).wellFormed c = true ∧ encode c (decodeTxDescriptor d) = .txDescriptor d := by
  have hbytes := txBytes_txFields d h
  unfold decodeTxDescriptor
  cases hown : ownBit d with
  | true => rw [hown] at hbytes; exact ⟨rfl, congrArg Encoded.txDescriptor hbytes⟩
  | false => rw [hown] at hbytes; exact ⟨rfl, congrArg Encoded.txDescriptor hbytes⟩

/-- Sixteen bytes decode to a well-formed RX row that encodes them. -/
theorem decodeRxDescriptor_wellFormed_encode (c : Config) {d : List Byte} (h : d.length = 16) :
    (decodeRxDescriptor d).wellFormed c = true ∧ encode c (decodeRxDescriptor d) = .rxDescriptor d := by
  have hbytes := rxBytes_rxFields d h
  unfold decodeRxDescriptor
  cases hown : ownBit d with
  | true => rw [hown] at hbytes; exact ⟨rfl, congrArg Encoded.rxDescriptor hbytes⟩
  | false => rw [hown] at hbytes; exact ⟨rfl, congrArg Encoded.rxDescriptor hbytes⟩

/-! ### The round trips -/

/-- Settles O2, by the kind of encoded input. -/
theorem encodeDecodeRoundTrip : Obligations.EncodeDecodeRoundTrip := by
  intro c e i h
  cases e with
  | input x =>
    cases x with
    | access a => cases h; exact decodeAccess_wellFormed_encode c a
    | command v =>
      cases h
      have hrow := decodeCommand_wellFormed_encode c (mdioSplit v)
      rwa [encCommand, mdioJoin_mdioSplit] at hrow
    | event code operand => exact decodeEvent_wellFormed_encode h
  | txDescriptor d =>
    rw [decode] at h
    split at h
    case isTrue hlen => cases h; exact decodeTxDescriptor_wellFormed_encode c hlen
    case isFalse => cases h
  | rxDescriptor d =>
    rw [decode] at h
    split at h
    case isTrue hlen => cases h; exact decodeRxDescriptor_wellFormed_encode c hlen
    case isFalse => cases h

/-- Settles O1, by the row: a register accessed whole, a byte field or undefined range, a command, a descriptor, an event. -/
theorem decodeEncodeRoundTrip : Obligations.DecodeEncodeRoundTrip := by
  intro c i h
  cases i with
  | rdTxcfg => exact decode_read_fixed c (w := .txcfg) rfl
  | wrTxcfg v => exact decode_write_word c (w := .txcfg) v rfl rfl
  | rdTxbase => exact decode_read_fixed c (w := .txbase) rfl
  | wrTxbase v => exact decode_write_word c (w := .txbase) v rfl rfl
  | rdRxcfg => exact decode_read_fixed c (w := .rxcfg) rfl
  | wrRxcfg v => exact decode_write_word c (w := .rxcfg) v rfl rfl
  | rdRxbase => exact decode_read_fixed c (w := .rxbase) rfl
  | wrRxbase v => exact decode_write_word c (w := .rxbase) v rfl rfl
  | rdIsr => exact decode_read_fixed c (w := .isr) rfl
  | wrIsr v => exact decode_write_word c (w := .isr) v rfl rfl
  | rdImr => exact decode_read_fixed c (w := .imr) rfl
  | wrImr v => exact decode_write_word c (w := .imr) v rfl rfl
  | rdCfg0 => exact decode_read_fixed c (w := .cfg0) rfl
  | wrCfg0 v => exact decode_write_word c (w := .cfg0) v rfl rfl
  | rdPwr => exact decode_read_fixed c (w := .pwr) rfl
  | wrPwr v => exact decode_write_word c (w := .pwr) v rfl rfl
  | rdPhycfg => exact decode_read_fixed c (w := .phycfg) rfl
  | wrPhycfg v => exact decode_write_word c (w := .phycfg) v rfl rfl
  | rdPhyctl => exact decode_read_fixed c (w := .phyctl) rfl
  | wrPhyctl v => exact decode_write_word c (w := .phyctl) v rfl rfl
  | rdCfg1 => exact decode_read_fixed c (w := .cfg1) rfl
  | wrCfg1 v => exact decode_write_word c (w := .cfg1) v rfl rfl
  | rdRetry => exact decode_read_fixed c (w := .retry) rfl
  | wrRetry v => exact decode_write_word c (w := .retry) v rfl rfl
  | rdMcctl => exact decode_read_fixed c (w := .mcctl) rfl
  | wrMcctl v => exact decode_write_half c (w := .mcctl) v rfl rfl
  | rdMaxpkt => exact decode_read_fixed c (w := .maxpkt) rfl
  | wrMaxpkt v => exact decode_write_half c (w := .maxpkt) v rfl rfl
  | rdMac0Lo => exact decode_read_range .mac0Lo rfl h
  | wrMac0Lo => exact decode_write_range .mac0Lo rfl h
  | rdMac0Hi => exact decode_read_range .mac0Hi rfl h
  | wrMac0Hi => exact decode_write_range .mac0Hi rfl h
  | rdMchash0 => exact decode_read_range .mchash0 rfl h
  | wrMchash0 => exact decode_write_range .mchash0 rfl h
  | rdMchash1 => exact decode_read_range .mchash1 rfl h
  | wrMchash1 => exact decode_write_range .mchash1 rfl h
  | rdMac1Lo => exact decode_read_range .mac1Lo rfl h
  | wrMac1Lo => exact decode_write_range .mac1Lo rfl h
  | rdMac1Hi => exact decode_read_range .mac1Hi rfl h
  | wrMac1Hi => exact decode_write_range .mac1Hi rfl h
  | rdUndef08 => exact decode_read_range .undef08 rfl h
  | wrUndef08 => exact decode_write_range .undef08 rfl h
  | rdUndef18 => exact decode_read_range .undef18 rfl h
  | wrUndef18 => exact decode_write_range .undef18 rfl h
  | rdUndef2c => exact decode_read_range .undef2c rfl h
  | wrUndef2c => exact decode_write_range .undef2c rfl h
  | rdUndef34 => exact decode_read_range .undef34 rfl h
  | wrUndef34 => exact decode_write_range .undef34 rfl h
  | rdUndef38 => exact decode_read_range .undef38 rfl h
  | wrUndef38 => exact decode_write_range .undef38 rfl h
  | rdUndef48 => exact decode_read_range .undef48 rfl h
  | wrUndef48 => exact decode_write_range .undef48 rfl h
  | rdUndef58 => exact decode_read_range .undef58 rfl h
  | wrUndef58 => exact decode_write_range .undef58 rfl h
  | rdUndef70 => exact decode_read_range .undef70 rfl h
  | wrUndef70 => exact decode_write_range .undef70 rfl h
  | badAccess a => exact congrArg Except.ok (decodeAccess_illFormed ((Bool.not_eq_true' _).mp h))
  | rdUndefHigh off n => exact decode_outside (a := .read off n) h
  | wrUndefHigh off data => exact decode_outside (a := .write off data) h
  | mdioRdaddr n p busy d => exact congrArg Except.ok ((decodeCommand_mdioJoin c _).trans (if_pos rfl))
  | mdioWrCtrl | mdioWrId1 | mdioWrId2 | mdioWrAnarPhy1 =>
    exact congrArg Except.ok ((decodeCommand_mdioJoin c _).trans (if_neg (bne_iff_ne.mp h)))
  | mdioWr op n p busy d =>
    obtain ⟨hop, h0, h2, h3, hanar⟩ := mdioWr_wellFormed_iff.mp h
    have hrow := decodeCommand_mdioJoin c ⟨op, n, p, busy, d⟩
    rw [if_neg hop, if_neg h0, if_neg h2, if_neg h3, if_neg hanar] at hrow
    exact congrArg Except.ok hrow
  | txdOwned d => exact decode_txBytes c true d
  | txdNotOwned d => exact decode_txBytes c false d
  | rxdOwned d => exact decode_rxBytes c true d
  | rxdNotOwned d => exact decode_rxBytes c false d
  | engTxEmit ok => exact bitOperand_bitByte 0x05 .engTxEmit ok
  | linkChange up => exact bitOperand_bitByte 0x11 .linkChange up
  -- what is left are the events whose operand bytes are free or none
  | _ => rfl

/-- Settles O4 by evaluation; the rows of the map over the 128 offsets. -/
theorem sampleWordsDecode : Obligations.SampleWordsDecode := by
  unfold Obligations.SampleWordsDecode
  decide

end Sys2Proof

namespace Sys2Proof.Machine

/-! ### MDIO commands, one equation per operation -/

theorem exec_mdioRdaddr (s : State) (hs : s.shutdown = false) (n p : BitVec 5) (busy : Bool) (d : Half) :
    exec (.mdioRdaddr n p busy d) s = .next (s.latchPhyctl (mdioJoin ⟨s.cfg.mdioReadOp, n, p, busy, d⟩)) :=
  guestAccess_running hs

/-- A write to a register of plain storage (R192). -/
theorem exec_mdioWr {s : State} {op n p : BitVec 5} {busy : Bool} {d : Half} (hs : s.shutdown = false)
    (h : (Instr.mdioWr op n p busy d).wellFormed s.cfg = true) :
    exec (.mdioWr op n p busy d) s = .next ((s.latchPhyctl (mdioJoin ⟨op, n, p, busy, d⟩)).setPhy p n d) :=
  (guestAccess_running hs).trans (congrArg _ (phyWrite_plain h))

/-- A read of PHYCTL that holds a command returns the command with BUSY clear and, as DATA, the bank entry it addresses
(R191). -/
theorem exec_rdPhyctl_of_command {s : State} {op n p : BitVec 5} {busy : Bool} {d : Half} {w : Word}
    (hs : s.shutdown = false) (h : s.phyctl = mdioJoin ⟨op, n, p, busy, d⟩)
    (hw : mdioJoin ⟨op, n, p, false, phyGet s.phy p n⟩ = w) :
    exec .rdPhyctl s = .next ((s.latchPhyctl w).log (.readData 0x44 (le32bytes w))) := by
  have hsplit := mdioSplit_mdioJoin ⟨op, n, p, busy, d⟩
  rw [← h, mdioSplit, MdioWord.mk.injEq] at hsplit
  obtain ⟨-, hn, hp, -, -⟩ := hsplit
  have hfill : phyctlFilled s.phyctl (phyGet s.phy (mdioPhyaddr s.phyctl) (mdioRegnum s.phyctl)) = w := by
    rw [hn, hp, h, phyctlFilled_mdioJoin, hw]
  show execRdPhyctl s = _
  rw [execRdPhyctl, hfill]
  exact guestRead_running hs

/-- Only the last value latched in PHYCTL counts. -/
theorem latchPhyctl_latchPhyctl (s : State) (u v : Word) : (s.latchPhyctl u).latchPhyctl v = s.latchPhyctl v := rfl

/-- `MDIO.WR p, n, d` then `MDIO.RD p, n` (R111). -/
theorem execAll_mdioWr_rdPhyctl {s : State} {op n p : BitVec 5} {busy : Bool} {d : Half} {w : Word} (busy' : Bool)
    (d' : Half) (hs : s.shutdown = false) (h : (Instr.mdioWr op n p busy d).wellFormed s.cfg = true)
    (hw : mdioJoin ⟨s.cfg.mdioReadOp, n, p, false, d⟩ = w) :
    execAll [.mdioWr op n p busy d, .mdioRdaddr n p busy' d', .rdPhyctl] s =
      .next (((s.setPhy p n d).latchPhyctl w).log (.readData 0x44 (le32bytes w))) := by
  have hstored : phyGet (s.setPhy p n d).phy p n = d := (phyGet_setPhy s p n d p n).trans (if_pos ⟨rfl, rfl⟩)
  have haddress : exec (.mdioRdaddr n p busy' d') ((s.latchPhyctl (mdioJoin ⟨op, n, p, busy, d⟩)).setPhy p n d) =
      .next ((s.setPhy p n d).latchPhyctl (mdioJoin ⟨s.cfg.mdioReadOp, n, p, busy', d'⟩)) :=
    exec_mdioRdaddr ((s.latchPhyctl _).setPhy p n d) hs n p busy' d'
  have hread := exec_rdPhyctl_of_command (w := w)
    (s := (s.setPhy p n d).latchPhyctl (mdioJoin ⟨s.cfg.mdioReadOp, n, p, busy', d'⟩)) hs rfl
    (by rw [latchPhyctl_phy, hstored, hw])
  rw [latchPhyctl_latchPhyctl] at hread
  rw [execAll_next (exec_mdioWr hs h), execAll_next haddress, execAll_next hread]
  rfl

/-- Settles O41: the write stores, the address phase latches the register's address, the read fills in what is stored
there. -/
theorem mdioWriteThenRead : Obligations.MdioWriteThenRead :=
  fun s _ n p _ busy' d d' hs h =>
    ⟨_, execAll_mdioWr_rdPhyctl busy' d' hs h rfl, rfl, phyGet_setPhy s p n d⟩

end Sys2Proof.Machine

/-! PROOFS of the statements on the register window (spec/40_mmio_registers.md): which accesses are `BAD_ACCESS`, what each
register read returns, what each register write stores and leaves alone. -/

namespace Sys2Proof

/-! ### Accesses of the byte-addressable fields -/

/-- Where the byte-addressable field of a row ends (R73 b); the other rows have none. -/
def Window.fieldEnd : Window → Option Nat
  | .mac0Lo | .mac0Hi => some 0x68
  | .mchash0 => some 0x6C
  | .mchash1 => some 0x70
  | .mac1Lo | .mac1Hi => some 0x80
  | _ => none

/-- A row of a byte field takes one byte or more up to the end of the field (R73 b). -/
theorem Window.accepts_field {w : Window} {e : Nat} (hw : w.fieldEnd = some e) (off n : Nat) :
    w.accepts off n = (decide (1 ≤ n) && decide (off + n ≤ e)) := by
  cases w <;> cases hw <;> rfl

theorem Window.admits_field {w : Window} {e off n : Nat} (hw : w.fieldEnd = some e) (hrow : rowLo w ≤ off ∧ off ≤ rowHi w)
    (hn : 1 ≤ n) (he : off + n ≤ e) : w.Admits off n :=
  ⟨hrow, by rw [Window.accepts_field hw, decide_eq_true hn, decide_eq_true he]; rfl⟩

/-- Where a field is two rows of the map, an access inside it is one of the row it starts in (R102). -/
theorem Window.admits_field_split {w w' : Window} {e off n : Nat} (hw : w.fieldEnd = some e) (hw' : w'.fieldEnd = some e)
    (hnext : rowHi w + 1 = rowLo w') (hlast : rowHi w' + 1 = e) (hlo : rowLo w ≤ off) (hn : 1 ≤ n) (he : off + n ≤ e) :
    (off < rowLo w' → w.Admits off n) ∧ (¬ off < rowLo w' → w'.Admits off n) :=
  ⟨fun h => Window.admits_field hw ⟨hlo, by omega⟩ hn he, fun h => Window.admits_field hw' ⟨by omega, by omega⟩ hn he⟩

theorem decode_write_field_split (c : Config) {w w' : Window} {e off : Nat} {data : List Byte} (hw : w.fieldEnd = some e)
    (hw' : w'.fieldEnd = some e) (hnext : rowHi w + 1 = rowLo w') (hlast : rowHi w' + 1 = e) (hlo : rowLo w ≤ off)
    (hn : 1 ≤ data.length) (he : off + data.length ≤ e) :
    decode c (encWrite off data) =
      .ok (if off < rowLo w' then w.writeInstr off data else w'.writeInstr off data) := by
  obtain ⟨hfirst, hsecond⟩ := Window.admits_field_split hw hw' hnext hlast hlo hn he
  split
  · exact decode_write_of_admits (hfirst ‹_›)
  · exact decode_write_of_admits (hsecond ‹_›)

theorem decode_read_field_split (c : Config) {w w' : Window} {e off n : Nat} (hw : w.fieldEnd = some e)
    (hw' : w'.fieldEnd = some e) (hnext : rowHi w + 1 = rowLo w') (hlast : rowHi w' + 1 = e) (hlo : rowLo w ≤ off)
    (hn : 1 ≤ n) (he : off + n ≤ e) :
    decode c (encRead off n) = .ok (if off < rowLo w' then w.readInstr off n else w'.readInstr off n) := by
  obtain ⟨hfirst, hsecond⟩ := Window.admits_field_split hw hw' hnext hlast hlo hn he
  split
  · exact decode_read_of_admits (hfirst ‹_›)
  · exact decode_read_of_admits (hsecond ‹_›)

/-- Where a field is one row of the map, an access inside it is one of that row. -/
theorem Window.admits_field_whole {w : Window} {e off n : Nat} (hw : w.fieldEnd = some e) (hlast : rowHi w + 1 = e)
    (hlo : rowLo w ≤ off) (hn : 1 ≤ n) (he : off + n ≤ e) : w.Admits off n :=
  Window.admits_field hw ⟨hlo, by omega⟩ hn he

/-- A write that leaves the field it starts in is `BAD_ACCESS` (R157, R159). -/
theorem decode_write_leaves_field {c : Config} {e off : Nat} {data : List Byte} (w : Window) (hw : w.fieldEnd = some e)
    (hlo : rowLo w ≤ off) (hhi : off < rowHi w + 1) (he : e < off + data.length) :
    decode c (encWrite off data) = .ok (.badAccess (.write off data)) := by
  have hmax : rowHi w + 1 ≤ 0x80 := by cases w <;> decide
  refine decode_write_bad (Nat.lt_of_lt_of_le hhi hmax) (row_find ⟨hlo, Nat.le_of_lt_succ hhi⟩) ?_
  rw [Window.accepts_field hw, decide_eq_false (Nat.not_le_of_lt he), Bool.and_false]

/-! ### Accesses of undefined offsets -/

/-- A row that has an undefined offset is an undefined row (R74). -/
theorem undefEnd_ne_zero_of_undefinedOffset {w : Window} {off : Nat} (hrow : rowLo w ≤ off ∧ off ≤ rowHi w)
    (ho : undefinedOffset off = true) : undefEnd w ≠ 0 := by
  simp only [undefinedOffset, Bool.or_eq_true, Bool.and_eq_true, decide_eq_true_eq] at ho
  rw [mmioWindow] at ho
  cases w with
  | undef08 | undef18 | undef2c | undef34 | undef38 | undef48 | undef58 | undef70 => exact Nat.succ_ne_zero _
  | _ => simp only [rowLo, rowHi] at hrow; omega

/-- 1, 2 or 4 bytes that are all undefined are an undefined range (R73 c). -/
theorem undefinedRange_of_bytes {off n : Nat} (hn : n = 1 ∨ n = 2 ∨ n = 4)
    (hu : ∀ k, k < n → undefinedOffset (off + k) = true) : undefinedRange off n = true := by
  have hsize : (n == 1 || n == 2 || n == 4) = true := by
    simpa only [Bool.or_eq_true, beq_iff_eq, or_assoc] using hn
  rw [undefinedRange, hsize, Bool.true_and, List.all_eq_true]
  exact fun k hk => hu k (List.mem_range.mp hk)

/-- An access of an undefined range is well-formed, and starts at an undefined offset (R73, R74). -/
theorem accessOk_of_undefinedRange {off n : Nat} (h : undefinedRange off n = true) :
    accessOk off n = true ∧ undefinedOffset off = true := by
  refine ⟨by rw [accessOk, h, Bool.or_true], ?_⟩
  simp only [undefinedRange, Bool.and_eq_true, Bool.or_eq_true, beq_iff_eq, List.all_eq_true, List.mem_range] at h
  obtain ⟨hn, hu⟩ := h
  exact hu 0 (by omega)

/-- An access of an undefined range decodes to an undefined row, in the window or above it (R102, R167). -/
theorem decodeAccess_undefinedRange {a : Access} (h : undefinedRange a.off a.size = true) :
    (∃ w : Window, undefEnd w ≠ 0 ∧ decodeAccess a = w.instr a) ∨ decodeAccess a = decodeOutside a := by
  obtain ⟨hok, hundef⟩ := accessOk_of_undefinedRange h
  obtain ⟨w, hw, -, hdec⟩ | ⟨-, -, -, hdec⟩ | ⟨hbad, -⟩ := decodeAccess_cases a
  · exact .inl ⟨w, undefEnd_ne_zero_of_undefinedOffset hw.1 hundef, hdec⟩
  · exact .inr hdec
  · exact absurd (hbad.symm.trans hok) Bool.false_ne_true

end Sys2Proof

namespace Sys2Proof.Machine

/-! ### Ill-formed accesses -/

theorem exec_badAccess {s : State} (a : Access) (hs : s.shutdown = false) : exec (.badAccess a) s = .fault .busFault := by
  show execBadAccess a s = _
  rw [execBadAccess, hs]
  rfl

/-- Settles O3. What decodes is well-formed, so `BAD_ACCESS` has an ill-formed access as operand. -/
theorem illFormedAccessFaults : Obligations.IllFormedAccessFaults := by
  refine fun c a s => ⟨⟨fun h => ?_, fun h => congrArg Except.ok (decodeAccess_illFormed h)⟩, exec_badAccess a⟩
  have hwf : (Instr.badAccess a).wellFormed c = true := (encodeDecodeRoundTrip c _ _ h).1
  exact (Bool.not_eq_true' _).mp hwf

/-! ### TXCFG, RXCFG, IMR and CFG0 -/

/-- TXCFG, RXCFG, IMR and CFG0. -/
inductive ControlReg where
  | txcfg | rxcfg | imr | cfg0

namespace ControlReg

/-- The register's value. -/
def get (s : State) : ControlReg → Word
  | .txcfg => s.txcfg
  | .rxcfg => s.rxcfg
  | .imr => s.imr
  | .cfg0 => s.cfg0

/-- The register's row of the map. -/
def window : ControlReg → Window
  | .txcfg => .txcfg
  | .rxcfg => .rxcfg
  | .imr => .imr
  | .cfg0 => .cfg0

/-- The register's read. -/
def rd : ControlReg → Instr
  | .txcfg => .rdTxcfg
  | .rxcfg => .rdRxcfg
  | .imr => .rdImr
  | .cfg0 => .rdCfg0

/-- The register's write. -/
def wr (v : Word) : ControlReg → Instr
  | .txcfg => .wrTxcfg v
  | .rxcfg => .wrRxcfg v
  | .imr => .wrImr v
  | .cfg0 => .wrCfg0 v

theorem decode_rd (c : Config) (r : ControlReg) : decode c (encRead (rowLo r.window) 4) = .ok r.rd := by
  cases r with
  | txcfg => exact decode_read_fixed c (w := .txcfg) rfl
  | rxcfg => exact decode_read_fixed c (w := .rxcfg) rfl
  | imr => exact decode_read_fixed c (w := .imr) rfl
  | cfg0 => exact decode_read_fixed c (w := .cfg0) rfl

theorem exec_rd {s : State} (hs : s.shutdown = false) (r : ControlReg) :
    exec r.rd s = .next (s.log (.readData (rowLo r.window) (le32bytes (r.get s)))) := by
  cases r <;> exact guestRead_running hs

/-- A completed write stores its value, the soft reset included (R132, R136, R142, R144). -/
theorem get_of_exec_wr {s t : State} {v : Word} {r : ControlReg} (h : exec (r.wr v) s = .next t) : r.get t = v := by
  cases r with
  | txcfg => obtain ⟨-, rfl⟩ := guestAccess_next h; rfl
  | rxcfg => obtain ⟨-, rfl⟩ := guestAccess_next h; rfl
  | imr => obtain ⟨-, rfl⟩ := guestAccess_next h; rfl
  | cfg0 => obtain ⟨-, rfl⟩ := guestAccess_next h; split <;> rfl

end ControlReg

theorem RegisterFrame.controlReg {s t : State} (h : RegisterFrame s t) (r : ControlReg) : r.get t = r.get s := by
  rw [h]; cases r <;> rfl

theorem StorageFrame.controlReg {s t : State} (h : StorageFrame s t) (r : ControlReg) : r.get t = r.get s := by
  rw [h]; cases r <;> rfl

/-- Its own write and reset apart, no operation changes a control register (R20). -/
theorem Effect.controlReg {i : Instr} {s t : State} (e : Effect i s t) (hr : i ≠ .hostReset) {r : ControlReg}
    (hw : ∀ v, i ≠ r.wr v) : r.get t = r.get s := by
  have hagent (hg : isGuestWrite s.cfg i = false) (hp : i ≠ .rdPhyctl) : r.get t = r.get s :=
    (e.registerFrame hg hr hp).controlReg r
  cases e with
  | txcfg v => cases r with
    | txcfg => exact absurd rfl (hw v)
    | _ => rfl
  | rxcfg v => cases r with
    | rxcfg => exact absurd rfl (hw v)
    | _ => rfl
  | mask v => cases r with
    | imr => exact absurd rfl (hw v)
    | _ => rfl
  | config v => cases r with
    | cfg0 => exact absurd rfl (hw v)
    | _ => rfl
  | softReset v => cases r with
    | cfg0 => exact absurd rfl (hw v)
    | _ => rfl
  | store _ _ _ _ _ hf => exact hf.controlReg r
  | acknowledge => cases r <;> rfl
  | latch => cases r <;> rfl
  | command => rw [phyWrite_eq]; cases r <;> rfl
  | readPhyctl => cases r <;> rfl
  | nothing => rfl
  | read => cases r <;> rfl
  | passEnd _ _ _ he =>
    exact hagent (not_guest_of_runsEngine _ (runsEngine_of_endsPass he)).2 fun h => by rw [h] at he; cases he
  | reset => exact absurd rfl hr
  | _ => exact hagent rfl nofun

/-- Operations that neither write a control register nor reset the block keep it. -/
theorem controlReg_execAll {r : ControlReg} : ∀ {is : List Instr} {t u : State}, execAll is t = .next u →
    .hostReset ∉ is → (∀ v, r.wr v ∉ is) → r.get u = r.get t
  | [], _, _, h, _, _ => by cases h; rfl
  | i :: is, t, u, h, hr, hw => by
    rw [List.mem_cons, not_or] at hr
    have hw' (v : Word) : i ≠ r.wr v ∧ r.wr v ∉ is := by
      have hv := hw v
      rw [List.mem_cons, not_or] at hv
      exact ⟨Ne.symm hv.1, hv.2⟩
    cases hi : exec i t with
    | next m =>
      rw [execAll_next hi] at h
      calc r.get u = r.get m := controlReg_execAll h hr.2 fun v => (hw' v).2
        _ = r.get t := (exec_effect hi).controlReg (Ne.symm hr.1) fun v => (hw' v).1
    | fault f => simp only [execAll, hi] at h; cases h
    | refused f => simp only [execAll, hi] at h; cases h

/-- What was written to a control register is read back, if only other operations come in between. -/
theorem controlReg_readsBack {s t u : State} {is : List Instr} {v : Word} (r : ControlReg) (h : execAll is t = .next u)
    (hs : u.shutdown = false) (hr : .hostReset ∉ is) (hv : exec (r.wr v) s = .next t) (hw : ∀ w, r.wr w ∉ is) :
    decode u.cfg (encRead (rowLo r.window) 4) = .ok r.rd ∧
      exec r.rd u = .next (u.log (.readData (rowLo r.window) (le32bytes v))) := by
  have hget : r.get u = v := (controlReg_execAll h hr hw).trans (ControlReg.get_of_exec_wr hv)
  exact ⟨r.decode_rd u.cfg, by rw [r.exec_rd hs, hget]⟩

/-- Settles O13. -/
theorem writtenValueReadsBack : Obligations.WrittenValueReadsBack := fun _ _ _ _ _ h hs hr =>
  ⟨controlReg_readsBack .txcfg h hs hr, controlReg_readsBack .rxcfg h hs hr, controlReg_readsBack .imr h hs hr,
    controlReg_readsBack .cfg0 h hs hr⟩

/-! ### What no register write touches -/

/-- `t` differs from `s` in what a register write may change: registers, armed flags, cursors, queues and the PHY bank
(R130). -/
def WriteFrame (s t : State) : Prop :=
  t = { t with
    mem := s.mem, race := s.race, history := s.history, txErrCount := s.txErrCount, rxErrCount := s.rxErrCount,
    rxOverrunCount := s.rxOverrunCount, txDropCount := s.txDropCount, rxDropCount := s.rxDropCount,
    txSendFailCount := s.txSendFailCount, pass := s.pass, nextRing := s.nextRing, linkUp := s.linkUp,
    shutdown := s.shutdown }

theorem StorageFrame.writeFrame {s t : State} (h : StorageFrame s t) : WriteFrame s t := by
  unfold WriteFrame; rw [h]

/-- No operation is a register read and a register write. -/
theorem not_isGuestWrite_of_isGuestRead {c : Config} {i : Instr} (h : isGuestRead c i = true) :
    isGuestWrite c i = false := by
  unfold isGuestRead at h
  unfold isGuestWrite
  split at h
  · rename_i he; rw [he]
  · cases h

/-- A register write stays within what register writes may change (R130). -/
theorem Effect.writeFrame {i : Instr} {s t : State} (e : Effect i s t) (hw : isGuestWrite s.cfg i = true) :
    WriteFrame s t := by
  have hengine (hi : runsEngine i = true) : WriteFrame s t := by
    rw [(not_guest_of_runsEngine s.cfg hi).2] at hw; cases hw
  cases e with
  | nothing => rfl
  | read _ _ _ _ _ h => rw [not_isGuestWrite_of_isGuestRead h] at hw; cases hw
  | store _ _ _ _ _ hf => exact hf.writeFrame
  | txcfg => rfl
  | rxcfg => rfl
  | acknowledge => rfl
  | mask => rfl
  | config => rfl
  | softReset => rfl
  | latch => rfl
  | command => rw [phyWrite_eq]; rfl
  | passEnd _ _ _ he => exact hengine (runsEngine_of_endsPass he)
  -- what is left are the read of PHYCTL, the engine's steps and the events
  | _ => cases hw

/-- Settles O15. -/
theorem registerWritesMakeNoOutput : Obligations.RegisterWritesMakeNoOutput := by
  intro i s hw hbad hs
  obtain ⟨t, h⟩ := everyOperationCompletes i s hs hbad
  refine ⟨t, h, ?_⟩
  rw [(exec_effect h).writeFrame hw]
  exact ⟨rfl, rfl, rfl, rfl, rfl, rfl, rfl, rfl, rfl, rfl, rfl, rfl, rfl⟩

/-! ### The byte-addressable fields -/

/-- Lane `k` of a word is its byte `k` (R35). -/
theorem getElem_wordLanes (v : Word) (k : Nat) (hk : k < 4) : (wordLanes v)[k] = v.extractLsb' (8 * k) 8 := by
  match k, hk with
  | 0, _ => rfl
  | 1, _ => rfl
  | 2, _ => rfl
  | 3, _ => rfl

/-- Byte `k` of a word after a write of bytes at `j` (R159). -/
theorem extractLsb'_writeLanes (v : Word) (j : Nat) (data : List Byte) (k : Nat) (hk : k < 4) :
    (writeLanes v j data).extractLsb' (8 * k) 8 =
      if j ≤ k ∧ k < j + data.length then data.getD (k - j) 0 else v.extractLsb' (8 * k) 8 := by
  rw [← getElem_wordLanes _ k hk, wordLanes_writeLanes, getElem_wordLanes]

/-- Byte `j` of a range read from a word (R160). -/
theorem getElem?_readLanes (v : Word) {k n : Nat} (h : k + n ≤ 4) (j : Nat) (hj : j < n) :
    (readLanes v k n)[j]? = some (v.extractLsb' (8 * (k + j)) 8) := by
  rw [readLanes, getElem?_readField _ k n j hj (by omega), getElem_wordLanes]

theorem length_readLanes (v : Word) (k n : Nat) (h : k + n ≤ 4) : (readLanes v k n).length = n :=
  length_readField (wordLanes v) k n h

/-- A range read from a field has the field's own bytes (R158). -/
theorem getElem?_readField_eq {m : Nat} (f : Vector Byte m) {k n : Nat} (h : k + n ≤ m) (j : Nat) (hj : j < n) :
    (readField f k n)[j]? = f[k + j]? := by
  rw [getElem?_readField f k n j hj (by omega), Vector.getElem?_eq_getElem (by omega)]

/-- Settles O30, field by field; MAC0 and MAC1 by the row the access starts in. -/
theorem byteFieldWrites : Obligations.ByteFieldWrites := by
  refine fun s off data hs hn => ⟨fun hlo he => ?mac0, fun hlo he => ?mac1, fun hlo he => ?mchash0, fun hlo he => ?mchash1,
    fun h => ⟨?leaves, exec_badAccess _ hs⟩⟩
  case mac0 =>
    refine ⟨_, { s with mac0 := writeField s.mac0 (off - 0x62) data }, rfl,
      decode_write_field_split s.cfg (w := .mac0Lo) (w' := .mac0Hi) rfl rfl rfl rfl hlo hn he, ?_, rfl,
      getElem_writeField data s.mac0 _⟩
    split <;> exact guestAccess_running hs
  case mac1 =>
    refine ⟨_, { s with mac1 := writeField s.mac1 (off - 0x7A) data }, rfl,
      decode_write_field_split s.cfg (w := .mac1Lo) (w' := .mac1Hi) rfl rfl rfl rfl hlo hn he, ?_, rfl,
      getElem_writeField data s.mac1 _⟩
    split <;> exact guestAccess_running hs
  case mchash0 =>
    exact ⟨decode_write_of_admits (Window.admits_field_whole (w := .mchash0) rfl rfl hlo hn he), _,
      guestAccess_running hs, rfl, extractLsb'_writeLanes s.mchash0 _ data⟩
  case mchash1 =>
    exact ⟨decode_write_of_admits (Window.admits_field_whole (w := .mchash1) rfl rfl hlo hn he), _,
      guestAccess_running hs, rfl, extractLsb'_writeLanes s.mchash1 _ data⟩
  case leaves =>
    obtain ⟨hlo, hhi, he⟩ | ⟨hlo, hhi, he⟩ | ⟨hlo, hhi, he⟩ | ⟨hlo, hhi, he⟩ := h
    · obtain h | h := Nat.lt_or_ge off 0x64
      · exact decode_write_leaves_field .mac0Lo rfl hlo h he
      · exact decode_write_leaves_field .mac0Hi rfl h hhi he
    · exact decode_write_leaves_field .mchash0 rfl hlo hhi he
    · exact decode_write_leaves_field .mchash1 rfl hlo hhi he
    · obtain h | h := Nat.lt_or_ge off 0x7C
      · exact decode_write_leaves_field .mac1Lo rfl hlo h he
      · exact decode_write_leaves_field .mac1Hi rfl h hhi he

/-- Settles O31, field by field; MAC0 and MAC1 by the row the access starts in. -/
theorem byteFieldReads : Obligations.ByteFieldReads := by
  refine fun s off n hs hn => ⟨fun hlo he => ?mac0, fun hlo he => ?mac1, fun hlo he => ?mchash0, fun hlo he => ?mchash1⟩
  case mac0 =>
    have hfield : off - 0x62 + n ≤ 6 := by omega
    refine ⟨_, readField s.mac0 (off - 0x62) n, rfl,
      decode_read_field_split s.cfg (w := .mac0Lo) (w' := .mac0Hi) rfl rfl rfl rfl hlo hn he, ?_,
      length_readField s.mac0 _ n hfield, getElem?_readField_eq s.mac0 hfield⟩
    split <;> exact guestRead_running hs
  case mac1 =>
    have hfield : off - 0x7A + n ≤ 6 := by omega
    refine ⟨_, readField s.mac1 (off - 0x7A) n, rfl,
      decode_read_field_split s.cfg (w := .mac1Lo) (w' := .mac1Hi) rfl rfl rfl rfl hlo hn he, ?_,
      length_readField s.mac1 _ n hfield, getElem?_readField_eq s.mac1 hfield⟩
    split <;> exact guestRead_running hs
  case mchash0 =>
    have hfield : off - 0x68 + n ≤ 4 := by omega
    exact ⟨decode_read_of_admits (Window.admits_field_whole (w := .mchash0) rfl rfl hlo hn he), _,
      guestRead_running hs, length_readLanes s.mchash0 _ n hfield, getElem?_readLanes s.mchash0 hfield⟩
  case mchash1 =>
    have hfield : off - 0x6C + n ≤ 4 := by omega
    exact ⟨decode_read_of_admits (Window.admits_field_whole (w := .mchash1) rfl rfl hlo hn he), _,
      guestRead_running hs, length_readLanes s.mchash1 _ n hfield, getElem?_readLanes s.mchash1 hfield⟩

/-! ### Undefined offsets -/

/-- A read in an undefined row returns all-ones (R167). -/
theorem exec_readInstr_undef {s : State} {w : Window} (hs : s.shutdown = false) (hw : undefEnd w ≠ 0) (off n : Nat) :
    exec (w.readInstr off n) s = .next (s.log (.readData off (List.replicate n 0xFF))) := by
  cases w with
  | undef08 | undef18 | undef2c | undef34 | undef38 | undef48 | undef58 | undef70 => exact guestRead_running hs
  | _ => exact absurd rfl hw

/-- A write in an undefined row is ignored (R168). -/
theorem exec_writeInstr_undef {s : State} {w : Window} (hs : s.shutdown = false) (hw : undefEnd w ≠ 0) (off : Nat)
    (data : List Byte) : exec (w.writeInstr off data) s = .next s := by
  cases w with
  | undef08 | undef18 | undef2c | undef34 | undef38 | undef48 | undef58 | undef70 => exact guestAccess_running hs
  | _ => exact absurd rfl hw

/-- A read of an undefined range, in the window or above it (R74, R167). -/
theorem undefinedRead {s : State} {off n : Nat} (hs : s.shutdown = false) (h : undefinedRange off n = true) :
    ∃ i, decode s.cfg (encRead off n) = .ok i ∧ exec i s = .next (s.log (.readData off (List.replicate n 0xFF))) := by
  refine ⟨decodeAccess (.read off n), rfl, ?_⟩
  obtain ⟨w, hw, hdec⟩ | hdec := decodeAccess_undefinedRange (a := .read off n) h
  · rw [hdec]; exact exec_readInstr_undef hs hw off n
  · rw [hdec]; exact guestRead_running hs

/-- A write of an undefined range, in the window or above it (R74, R168). -/
theorem undefinedWrite {s : State} {off : Nat} {data : List Byte} (hs : s.shutdown = false)
    (h : undefinedRange off data.length = true) :
    ∃ i, decode s.cfg (encWrite off data) = .ok i ∧ exec i s = .next s := by
  refine ⟨decodeAccess (.write off data), rfl, ?_⟩
  obtain ⟨w, hw, hdec⟩ | hdec := decodeAccess_undefinedRange (a := .write off data) h
  · rw [hdec]; exact exec_writeInstr_undef hs hw off data
  · rw [hdec]; exact guestAccess_running hs

/-- Settles O33: the undefined ranges, then the nine read rows and the nine write rows. -/
theorem undefinedOffsetAccess : Obligations.UndefinedOffsetAccess := by
  refine ⟨fun s off n data hs hn hlen hu => ?ranges, fun s off n data hs => ?rows⟩
  case ranges =>
    have hrange := undefinedRange_of_bytes hn hu
    exact ⟨undefinedRead hs hrange, undefinedWrite hs (hlen ▸ hrange)⟩
  case rows =>
    have hread : guestRead s off (allOnes n) = .next (s.log (.readData off (List.replicate n 0xFF))) :=
      guestRead_running hs
    have hwrite : guestAccess s s = .next s := guestAccess_running hs
    exact ⟨⟨hread, hread, hread, hread, hread, hread, hread, hread, hread⟩,
      hwrite, hwrite, hwrite, hwrite, hwrite, hwrite, hwrite, hwrite, hwrite⟩

/-! ### The word registers -/

/-- A 4-byte write at a 2-byte register is a `BusFault` (R155, R163, R169). -/
theorem wordWrite_at_halfRegister {s : State} {w : Window} {b : List Byte} (hs : s.shutdown = false)
    (hw : w.width = some 2) (hb : b.length = 4) :
    decode s.cfg (encWrite (rowLo w) b) = .ok (.badAccess (.write (rowLo w) b)) ∧
      exec (.badAccess (.write (rowLo w) b)) s = .fault .busFault := by
  refine ⟨congrArg Except.ok (decodeAccess_illFormed ?_), exec_badAccess _ hs⟩
  have hrow : rowLo w ≤ rowLo w ∧ rowLo w ≤ rowHi w := by cases w <;> cases hw <;> decide
  show accessOk (rowLo w) b.length = false
  rw [hb, wf_row hrow]
  cases w <;> cases hw <;> rfl

/-- Settles O23. -/
theorem plainStorageWrites : Obligations.PlainStorageWrites := by
  refine fun s v h hs => ⟨⟨?rxbase, guestAccess_running hs⟩, ⟨?imr, guestAccess_running hs⟩, ⟨?pwr, guestAccess_running hs⟩,
    ⟨?phycfg, guestAccess_running hs⟩, ⟨?cfg1, guestAccess_running hs⟩, ⟨?retry, guestAccess_running hs⟩,
    ⟨?mcctl, guestAccess_running hs⟩, ⟨?maxpkt, guestAccess_running hs⟩, fun b hb => ?fourBytes⟩
  case rxbase => exact decode_write_word s.cfg (w := .rxbase) v rfl rfl
  case imr => exact decode_write_word s.cfg (w := .imr) v rfl rfl
  case pwr => exact decode_write_word s.cfg (w := .pwr) v rfl rfl
  case phycfg => exact decode_write_word s.cfg (w := .phycfg) v rfl rfl
  case cfg1 => exact decode_write_word s.cfg (w := .cfg1) v rfl rfl
  case retry => exact decode_write_word s.cfg (w := .retry) v rfl rfl
  case mcctl => exact decode_write_half s.cfg (w := .mcctl) h rfl rfl
  case maxpkt => exact decode_write_half s.cfg (w := .maxpkt) h rfl rfl
  case fourBytes =>
    obtain ⟨hmcctl, hmcctlFault⟩ := wordWrite_at_halfRegister (w := .mcctl) hs rfl hb
    obtain ⟨hmaxpkt, hmaxpktFault⟩ := wordWrite_at_halfRegister (w := .maxpkt) hs rfl hb
    exact ⟨hmcctl, hmcctlFault, hmaxpkt, hmaxpktFault⟩

/-- Settles O24. -/
theorem registerReads : Obligations.RegisterReads := fun s hs =>
  ⟨⟨decode_read_fixed s.cfg (w := .txcfg) rfl, guestRead_running hs⟩,
    ⟨decode_read_fixed s.cfg (w := .txbase) rfl, guestRead_running hs⟩,
    ⟨decode_read_fixed s.cfg (w := .rxcfg) rfl, guestRead_running hs⟩,
    ⟨decode_read_fixed s.cfg (w := .rxbase) rfl, guestRead_running hs⟩,
    ⟨decode_read_fixed s.cfg (w := .isr) rfl, guestRead_running hs⟩,
    ⟨decode_read_fixed s.cfg (w := .imr) rfl, guestRead_running hs⟩,
    ⟨decode_read_fixed s.cfg (w := .cfg0) rfl, guestRead_running hs⟩,
    ⟨decode_read_fixed s.cfg (w := .pwr) rfl, guestRead_running hs⟩,
    ⟨decode_read_fixed s.cfg (w := .phycfg) rfl, guestRead_running hs⟩,
    ⟨decode_read_fixed s.cfg (w := .cfg1) rfl, guestRead_running hs⟩,
    ⟨decode_read_fixed s.cfg (w := .retry) rfl, guestRead_running hs⟩,
    ⟨decode_read_fixed s.cfg (w := .mcctl) rfl, guestRead_running hs⟩,
    ⟨decode_read_fixed s.cfg (w := .maxpkt) rfl, guestRead_running hs⟩⟩

/-- Settles O25. -/
theorem txcfgWrite : Obligations.TxcfgWrite := fun s v hs =>
  ⟨decode_write_word s.cfg (w := .txcfg) v rfl rfl, guestAccess_running hs⟩

/-- Settles O26, by the select bit `TXCFG[16]`. -/
theorem txbaseWrite : Obligations.TxbaseWrite := by
  refine fun s v hs => ⟨decode_write_word s.cfg (w := .txbase) v rfl rfl, (guestAccess_running hs).trans ?_⟩
  rw [txSelect1]
  cases s.txcfg.getLsbD 16 <;> rfl

/-- Settles O27. -/
theorem rxcfgWrite : Obligations.RxcfgWrite := fun s v hs =>
  ⟨decode_write_word s.cfg (w := .rxcfg) v rfl rfl, guestAccess_running hs⟩

/-- The acknowledged ISR bit by bit: a bit written 1 is cleared (R140). -/
theorem getLsbD_isrAcknowledged (isr v : Word) (k : Nat) :
    (isrAcknowledged isr v).getLsbD k = (isr.getLsbD k && !v.getLsbD k) := by
  rw [isrAcknowledged, BitVec.getLsbD_and, BitVec.getLsbD_not]
  by_cases hk : k < 32
  · rw [decide_eq_true hk, Bool.true_and]
  · rw [BitVec.getLsbD_of_ge isr k (Nat.le_of_not_lt hk), Bool.false_and, Bool.false_and]

/-- Settles O28. -/
theorem isrAcknowledge : Obligations.IsrAcknowledge := fun s v hs =>
  ⟨decode_write_word s.cfg (w := .isr) v rfl rfl, s.acknowledge v, guestAccess_running hs, rfl,
    getLsbD_isrAcknowledged s.isr v⟩

/-- The soft-reset pattern is hit if every bit of the mask is set (R27, R144). -/
theorem softResetHit_iff (c : Config) (v : Word) :
    softResetHit c v = true ↔ ∀ k, c.softResetMask.getLsbD k = true → v.getLsbD k = true := by
  rw [softResetHit, beq_iff_eq]
  constructor
  · intro h k hk
    have hbit := congrArg (·.getLsbD k) h
    simpa [hk] using hbit
  · intro h
    refine BitVec.eq_of_getLsbD_eq fun k _ => ?_
    rw [BitVec.getLsbD_and]
    cases hk : c.softResetMask.getLsbD k with
    | true => rw [h k hk]; rfl
    | false => rw [Bool.and_false]

/-- Settles O29, by whether the value hits the soft-reset pattern. -/
theorem cfg0Write : Obligations.Cfg0Write := by
  refine fun s v hs => ⟨decode_write_word s.cfg (w := .cfg0) v rfl rfl, fun h => ?hit, fun ⟨k, hk, hv⟩ => ?miss⟩
  case hit =>
    have hhit : softResetHit s.cfg v = true := (softResetHit_iff s.cfg v).mpr h
    exact (guestAccess_running hs).trans (by rw [hhit]; rfl)
  case miss =>
    have hmiss : softResetHit s.cfg v = false := by
      rw [← Bool.not_eq_true, softResetHit_iff]
      exact fun h => Bool.false_ne_true (hv.symm.trans (h k hk))
    exact (guestAccess_running hs).trans (by rw [hmiss]; rfl)

end Sys2Proof.Machine

/-! PROOFS of the statements on the MDIO controller and the PHY bank (spec/41_mdio_phy.md): the read and the write of PHYCTL,
what each command does to the bank, who sets BUSY, that the identifiers are read-only, and what a link change edits. -/

namespace Sys2Proof.Machine

/-! ### `PhyWrite`, one equation per kind of register (R192) -/

theorem phyWrite_control (s : State) (p : BitVec 5) (d : Half) : s.phyWrite p 0 d = s.phyCtrlWrite p d := rfl

/-- A write to an identifier register is ignored (R194). -/
theorem phyWrite_identifier (s : State) (p : BitVec 5) {n : BitVec 5} (d : Half) (hn : n = 2 ∨ n = 3) :
    s.phyWrite p n d = s := by
  rcases hn with rfl | rfl <;> rfl

/-- The advertisement register of PHY 1 is the one with the fix-up (R195). -/
theorem phyWrite_advertisement (s : State) (d : Half) :
    s.phyWrite 1 phyAnarReg d = (s.setPhy 1 phyAnarReg d).anarFixup := rfl

/-- The advertisement register of the other PHYs is plain storage (R195). -/
theorem phyWrite_advertisement_other (s : State) {p : BitVec 5} (d : Half) (hp : p ≠ 1) :
    s.phyWrite p phyAnarReg d = s.setPhy p phyAnarReg d :=
  if_neg (c := p = 1 ∧ phyAnarReg = phyAnarReg) fun h => hp h.1

/-! ### The write of PHYCTL -/

/-- What a write of the word `v` to PHYCTL leaves (R190). -/
def State.afterPhyctl (s : State) (v : Word) : State :=
  if mdioOp v = s.cfg.mdioReadOp then s.latchPhyctl v
  else (s.latchPhyctl v).phyWrite (mdioPhyaddr v) (mdioRegnum v) (mdioData v)

theorem exec_wrPhyctl (s : State) (v : Word) : exec (.wrPhyctl v) s = guestAccess s (s.afterPhyctl v) := rfl

/-- The address phase of a read stores the command and nothing else (R190). -/
theorem afterPhyctl_of_readOp {s : State} {v : Word} (h : mdioOp v = s.cfg.mdioReadOp) :
    s.afterPhyctl v = s.latchPhyctl v := if_pos h

/-- A write of PHYCTL changes PHYCTL, which takes the value verbatim, and the bank (R190). -/
theorem afterPhyctl_eq (s : State) (v : Word) :
    s.afterPhyctl v = { s with phyctl := v, phy := (s.afterPhyctl v).phy } := by
  unfold State.afterPhyctl
  split
  · rfl
  · rw [phyWrite_eq]; rfl

/-- A write of PHYCTL reaches the addressed PHY only (R190, R192). -/
theorem phyGet_afterPhyctl_other (s : State) (v : Word) {p : BitVec 5} (n : BitVec 5) (hp : p ≠ mdioPhyaddr v) :
    phyGet (s.afterPhyctl v).phy p n = phyGet s.phy p n := by
  unfold State.afterPhyctl
  split
  · rfl
  · exact phyGet_phyWrite_other _ _ _ _ p n hp

/-- Settles O34. -/
theorem phyctlWrite : Obligations.PhyctlWrite := fun s v hs =>
  ⟨decode_write_word s.cfg (w := .phyctl) v rfl rfl, s.afterPhyctl v, guestAccess_running hs, afterPhyctl_eq s v,
    fun hop => (congrArg State.phy (afterPhyctl_of_readOp hop)).trans (latchPhyctl_phy s v),
    fun _ n hp => phyGet_afterPhyctl_other s v n hp⟩

/-- A write of a command word, by the fields the word was joined from (R105, R190). -/
theorem afterPhyctl_mdioJoin (s : State) (op n p : BitVec 5) (busy : Bool) (d : Half) :
    s.afterPhyctl (mdioJoin ⟨op, n, p, busy, d⟩) =
      if op = s.cfg.mdioReadOp then s.latchPhyctl (mdioJoin ⟨op, n, p, busy, d⟩)
      else (s.latchPhyctl (mdioJoin ⟨op, n, p, busy, d⟩)).phyWrite p n d := by
  have hsplit := mdioSplit_mdioJoin ⟨op, n, p, busy, d⟩
  rw [mdioSplit, MdioWord.mk.injEq] at hsplit
  obtain ⟨hop, hn, hp, -, hd⟩ := hsplit
  rw [State.afterPhyctl, hop, hn, hp, hd]

/-- The write of a command word is the row it decodes to: each row's meaning is what `PhyWrite` does for its register
(R190, R192). -/
theorem exec_decodeCommand_mdioJoin (s : State) (m : MdioWord) :
    exec (decodeCommand s.cfg (mdioJoin m)) s = guestAccess s (s.afterPhyctl (mdioJoin m)) := by
  obtain ⟨op, n, p, busy, d⟩ := m
  rw [decodeCommand_mdioJoin, afterPhyctl_mdioJoin]
  dsimp only
  split_ifs with hop h0 h2 h3 hanar
  · subst hop; rfl
  · subst h0; rw [phyWrite_control]; rfl
  · subst h2; rw [phyWrite_identifier _ p d (.inl rfl)]; rfl
  · subst h3; rw [phyWrite_identifier _ p d (.inr rfl)]; rfl
  · obtain ⟨rfl, rfl⟩ := hanar; rw [phyWrite_advertisement]; rfl
  · rfl

/-- Settles O35: every word is joined from its fields, so `exec_decodeCommand_mdioJoin` speaks of all of them. -/
theorem phyctlWriteRunsCommand : Obligations.PhyctlWriteRunsCommand := by
  intro s v i hd
  obtain rfl : decodeCommand s.cfg v = i := Except.ok.inj hd
  have hrow := exec_decodeCommand_mdioJoin s (mdioSplit v)
  rw [mdioJoin_mdioSplit] at hrow
  rw [exec_wrPhyctl, hrow]

/-! ### The commands, register by register -/

theorem phyGet_phyCtrlWrite_control (s : State) (p : BitVec 5) (d : Half) :
    phyGet (s.phyCtrlWrite p d).phy p 0 = if d.getLsbD 15 then s.cfg.phyDefault[0] else d := by
  rw [phyGet_phyCtrlWrite]; simp

theorem phyGet_phyCtrlWrite_status (s : State) (p : BitVec 5) (d : Half) :
    phyGet (s.phyCtrlWrite p d).phy p 1 =
      if d.getLsbD 15 then statusDefault s.cfg s.linkUp else phyGet s.phy p 1 := by
  rw [phyGet_phyCtrlWrite]; simp

/-- `PhyCtrlWrite` reaches registers 0 and 1 of its PHY only (R193). -/
theorem phyGet_phyCtrlWrite_other (s : State) (p : BitVec 5) (d : Half) {p' n' : BitVec 5}
    (h : p' ≠ p ∨ n' ≠ 0 ∧ n' ≠ 1) : phyGet (s.phyCtrlWrite p d).phy p' n' = phyGet s.phy p' n' := by
  have h0 : ¬(p' = p ∧ n' = 0) := by tauto
  have h1 : ¬(p' = p ∧ n' = 1) := by tauto
  rw [phyGet_phyCtrlWrite, if_neg h1, if_neg h0, if_neg h0, ite_self]

/-- Settles O37. A reset reads back with bit 15 clear because a legal default of register 0 has it clear. -/
theorem mdioControlWrite : Obligations.MdioControlWrite := by
  intro s op p busy d hs
  have hcontrol := phyGet_phyCtrlWrite_control (s.latchPhyctl (mdioJoin ⟨op, 0, p, busy, d⟩)) p d
  refine ⟨_, guestAccess_running hs, by rw [phyCtrlWrite_eq]; rfl, hcontrol, phyGet_phyCtrlWrite_status _ p d,
    fun _ _ => phyGet_phyCtrlWrite_other _ p d, fun hc hd => ?selfClears⟩
  case selfClears =>
    rw [hcontrol, if_pos hd]
    exact hc.controlSelfClears

/-- The bank after an advertisement write to PHY 1: the fix-up is applied to what is stored by then (R195). -/
theorem phyGet_anarFixup_setPhy (s : State) (d : Half) (p n : BitVec 5) :
    phyGet (s.setPhy 1 phyAnarReg d).anarFixup.phy p n =
      if p = 1 ∧ n = s.cfg.anarFixupReg then (if n = 4 then d else phyGet s.phy 1 n) ||| s.cfg.anarFixupMask
      else if p = 1 ∧ n = 4 then d else phyGet s.phy p n := by
  rw [phyGet_anarFixup, setPhy_cfg]
  by_cases hfix : p = 1 ∧ n = s.cfg.anarFixupReg
  · obtain ⟨rfl, rfl⟩ := hfix
    rw [if_pos ⟨rfl, rfl⟩, if_pos ⟨rfl, rfl⟩, phyGet_setPhy]
    simp only [true_and, phyAnarReg]
  · rw [if_neg hfix, if_neg hfix, phyGet_setPhy]; rfl

/-- Settles O38. PHY 1 has its own row; for the other PHYs the default row finds plain storage. -/
theorem mdioAdvertisementWrite : Obligations.MdioAdvertisementWrite := by
  intro s op busy d hs
  refine ⟨_, guestAccess_running hs, rfl, phyGet_anarFixup_setPhy (s.latchPhyctl _) d, fun p hp => ?others⟩
  case others =>
    refine ⟨_, (guestAccess_running hs).trans (congrArg _ (phyWrite_advertisement_other _ d hp)), rfl, ?_⟩
    exact phyGet_setPhy (s.latchPhyctl _) p 4 d

/-- Settles O39. -/
theorem mdioPlainWrite : Obligations.MdioPlainWrite :=
  ⟨fun s _ n p _ d hs h => ⟨_, exec_mdioWr hs h, rfl, phyGet_setPhy (s.latchPhyctl _) p n d⟩,
    fun s _ n p busy d hs => ⟨exec_mdioRdaddr s hs n p busy d, guestAccess_running hs, guestAccess_running hs⟩⟩

/-! ### The read of PHYCTL -/

/-- What a read of PHYCTL finds: the bank entry that PHYCTL addresses as DATA, BUSY clear (R191). -/
def State.filledPhyctl (s : State) : Word :=
  phyctlFilled s.phyctl (phyGet s.phy (mdioPhyaddr s.phyctl) (mdioRegnum s.phyctl))

theorem exec_rdPhyctl {s : State} (hs : s.shutdown = false) :
    exec .rdPhyctl s = .next ((s.latchPhyctl s.filledPhyctl).log (.readData 0x44 (le32bytes s.filledPhyctl))) :=
  guestRead_running hs

/-- After a read of PHYCTL a read finds the same again (R79). -/
theorem filledPhyctl_after_read (s : State) (e : Event) :
    ((s.latchPhyctl s.filledPhyctl).log e).filledPhyctl = s.filledPhyctl := by
  rw [State.filledPhyctl, log_phyctl, latchPhyctl_phyctl, log_phy, latchPhyctl_phy, State.filledPhyctl,
    mdioPhyaddr_phyctlFilled, mdioRegnum_phyctlFilled, phyctlFilled_twice]

/-- Settles O40. The second read is the first one's equation, at the state the first leaves. -/
theorem phyctlRead : Obligations.PhyctlRead := by
  intro s hs
  have hread := exec_rdPhyctl hs
  have hagain := exec_rdPhyctl (s := (s.latchPhyctl s.filledPhyctl).log (.readData 0x44 (le32bytes s.filledPhyctl))) hs
  rw [filledPhyctl_after_read] at hagain
  exact ⟨decode_read_fixed s.cfg (w := .phyctl) rfl, s.filledPhyctl, phyctlFilled_data _ _, phyctlFilled_busy _ _,
    phyctlFilled_low _ _, hread, (execAll_next hread _).trans (execAll_next hagain [])⟩

/-- Settles O22: the invariant keeps the identifiers in the bank, and the read returns what is in the bank. -/
theorem identifierReads : Obligations.IdentifierReads := by
  intro s p n busy data hinv hs hn
  have hid : phyGet s.phy p n = s.cfg.phyDefault.get n.toFin := by
    obtain ⟨h2, h3⟩ := hinv.identifiers p
    rcases hn with rfl | rfl
    · exact h2
    · exact h3
  have hread := exec_rdPhyctl_of_command (s := s.latchPhyctl (mdioJoin ⟨s.cfg.mdioReadOp, n, p, busy, data⟩)) hs rfl rfl
  rw [latchPhyctl_phy, hid] at hread
  exact (execAll_next (exec_mdioRdaddr s hs n p busy data) _).trans (execAll_next hread [])

/-! ### BUSY -/

/-- What latches a value in PHYCTL is encoded as the write of that value or as the command of that word (R190). -/
theorem encode_of_latches {c : Config} {v : Word} {i : Instr} (h : latches c v i) :
    encode c i = encWrite 0x44 (le32bytes v) ∨ encode c i = .input (.command v) := by
  cases i with
  | wrPhyctl => obtain rfl := h; exact .inl rfl
  | mdioRdaddr => obtain rfl := h; exact .inr rfl
  | mdioWrCtrl => obtain rfl := h; exact .inr rfl
  | mdioWrId1 => obtain rfl := h; exact .inr rfl
  | mdioWrId2 => obtain rfl := h; exact .inr rfl
  | mdioWrAnarPhy1 => obtain rfl := h; exact .inr rfl
  | mdioWr => obtain rfl := h; exact .inr rfl
  | _ => cases h

/-- The read of PHYCTL and reset apart, an operation leaves PHYCTL alone or latches a value of the guest in it (R30). -/
theorem Effect.phyctl {i : Instr} {s t : State} (e : Effect i s t) (hr : i ≠ .hostReset) (hp : i ≠ .rdPhyctl) :
    t.phyctl = s.phyctl ∨ latches s.cfg t.phyctl i := by
  cases hw : isGuestWrite s.cfg i with
  | false => rw [e.registerFrame hw hr hp]; exact .inl rfl
  | true =>
    have hengine (hi : runsEngine i = true) : t.phyctl = s.phyctl := (e.engineSteps hi).frame.phyctl
    cases e with
    | latch _ _ _ _ h => exact .inr h
    | command _ _ v p n d _ h => rw [phyWrite_eq]; exact .inr h
    | store _ _ _ _ _ hf => exact .inl hf.phyctl
    | passEnd _ _ _ he => exact .inl (hengine (runsEngine_of_endsPass he))
    | nothing => exact .inl rfl
    | read => exact .inl rfl
    | txcfg => exact .inl rfl
    | rxcfg => exact .inl rfl
    | acknowledge => exact .inl rfl
    | mask => exact .inl rfl
    | config => exact .inl rfl
    | softReset => exact .inl rfl
    -- what is left are no register writes
    | _ => cases hw

/-- A reset leaves BUSY clear or, after shutdown, everything as it was (R50, R287). -/
theorem exec_hostReset_phyctl {s t : State} (h : exec .hostReset s = .next t) : t.phyctl = s.phyctl ∨ t.phyctl = 0 := by
  simp only [exec, execHostReset] at h
  split at h
  · cases h; exact .inl rfl
  · cases h; exact .inr rfl

/-- Settles O42. The device's own writes of PHYCTL, its read and reset, clear BUSY; whatever else changes it latches a value
of the guest. -/
theorem busyOnlyFromGuest : Obligations.BusyOnlyFromGuest := by
  intro i s t h hbusy
  by_cases hp : i = .rdPhyctl
  · subst hp
    obtain ⟨_, rfl⟩ := guestAccess_next h
    exact absurd hbusy (Bool.eq_false_iff.mp (phyctlFilled_busy _ _))
  · by_cases hr : i = .hostReset
    · subst hr
      obtain hkept | hzero := exec_hostReset_phyctl h
      · exact .inl ⟨hkept ▸ hbusy, hp⟩
      · rw [hzero] at hbusy; cases hbusy
    · obtain hkept | hlatch := (exec_effect h).phyctl hr hp
      · exact .inl ⟨hkept ▸ hbusy, hp⟩
      · exact .inr ⟨t.phyctl, hbusy, rfl, encode_of_latches hlatch⟩

/-! ### Link changes -/

/-- A link change raises the link cause on the new link state and bank (R302). -/
theorem exec_linkChange {s : State} {up : Bool} (hs : s.shutdown = false) (hup : up ≠ s.linkUp) :
    exec (.linkChange up) s = .next ({ s with linkUp := up, phy := bankLinked up s.phy }.raiseInt intLink) := by
  simp only [exec, execLinkChange, hs, if_neg hup]; rfl

theorem exec_linkChange_repeat {s : State} (hs : s.shutdown = false) : exec (.linkChange s.linkUp) s = .next s := by
  simp only [exec, execLinkChange, hs]; rfl

/-- Settles O56, by the raise (R322) and the bank's entries after the change (R302). -/
theorem linkChanges : Obligations.LinkChanges := by
  refine fun s up hs =>
    ⟨fun hup => hup ▸ exec_linkChange_repeat hs, fun hup => ⟨_, exec_linkChange hs hup, ?frame, ?bank⟩⟩
  case frame => rw [raiseInt_eq, history_raiseInt]; rfl
  case bank =>
    intro p n
    rw [raiseInt_phy, phyGet_bankLinked]
    by_cases hn : n = 1
    · subst hn; rfl
    · exact (if_neg hn).trans (if_neg hn).symm

end Sys2Proof.Machine

/-! PROOFS of the statements on passes and consumed descriptors (spec/42_tx_engine.md, spec/43_rx_engine.md): how a pass begins
and ends, and what a TX or RX descriptor step leaves where no guest access falls inside it. -/

namespace Sys2Proof.Machine

/-! ### The cyclic order of the rings (R284) -/

/-- The cyclic order from any ring on meets every ring. -/
theorem ring_cases (a r : Ring) : r = a ∨ r = ringAfter a ∨ r = ringAfter (ringAfter a) := by
  cases a <;> cases r <;> decide

theorem nextEligible_first {s : State} (h0 : s.eligible s.nextRing = true) : s.nextEligible = some s.nextRing := by
  simp only [State.nextEligible, List.find?_cons, h0]

theorem nextEligible_second {s : State} (h0 : s.eligible s.nextRing = false)
    (h1 : s.eligible (ringAfter s.nextRing) = true) : s.nextEligible = some (ringAfter s.nextRing) := by
  simp only [State.nextEligible, List.find?_cons, h0, h1]

theorem nextEligible_third {s : State} (h0 : s.eligible s.nextRing = false)
    (h1 : s.eligible (ringAfter s.nextRing) = false) (h2 : s.eligible (ringAfter (ringAfter s.nextRing)) = true) :
    s.nextEligible = some (ringAfter (ringAfter s.nextRing)) := by
  simp only [State.nextEligible, List.find?_cons, h0, h1, h2]

theorem nextEligible_eq_none {s : State} (h : ∀ r, s.eligible r = false) : s.nextEligible = none :=
  List.find?_eq_none.mpr fun r _ => by rw [h r]; exact Bool.false_ne_true

theorem nextEligible_isSome {s : State} {r : Ring} (h : s.eligible r = true) : s.nextEligible.isSome = true := by
  rw [State.nextEligible, List.find?_isSome]
  exact ⟨r, by simpa using ring_cases s.nextRing r, h⟩

theorem eligible_rx_iff (s : State) : s.eligible .rx = true ↔ s.rxArmed = true ∧ s.rxQueue ≠ [] := by
  simp [State.eligible]

/-! ### `ENG_PASS_BEGIN` -/

theorem exec_engPassBegin {s : State} {r : Ring} (hs : s.shutdown = false) (hp : s.pass = none)
    (hr : s.nextEligible = some r) :
    exec .engPassBegin s = .next { s with pass := some ⟨r, 0, 0⟩, nextRing := ringAfter r } := by
  simp only [exec, execEngPassBegin, hs, hp, hr]; rfl

theorem exec_engPassBegin_open {s : State} (hp : s.pass ≠ none) : exec .engPassBegin s = .next s := by
  have hsome : s.pass.isSome = true := Option.isSome_iff_ne_none.mpr hp
  simp only [exec, execEngPassBegin, hsome, Bool.or_true]; rfl

theorem exec_engPassBegin_idle {s : State} (hr : s.nextEligible = none) : exec .engPassBegin s = .next s := by
  simp only [exec, execEngPassBegin, hr, waits, ite_self]

/-- Settles O43, by the place of the first eligible ring. -/
theorem passBegins : Obligations.PassBegins := by
  intro s hs r0 r1 r2 begins
  refine ⟨⟨rfl, rfl, eligible_rx_iff s⟩, ⟨rfl, rfl, rfl⟩, rfl, fun hp h0 => ?_, fun hp h0 h1 => ?_,
    fun hp h0 h1 h2 => ?_, ?notEnabled⟩
  · exact exec_engPassBegin hs hp (nextEligible_first h0)
  · exact exec_engPassBegin hs hp (nextEligible_second h0 h1)
  · exact exec_engPassBegin hs hp (nextEligible_third h0 h1 h2)
  case notEnabled =>
    rintro (hp | ⟨htx0, htx1, hrx⟩)
    · exact exec_engPassBegin_open hp
    · have hnone (r : Ring) : s.eligible r = false := by
        cases r with
        | tx0 => exact htx0
        | tx1 => exact htx1
        | rx => exact hrx
      exact exec_engPassBegin_idle (nextEligible_eq_none hnone)

/-! ### `PassEnd` -/

/-- The end of a pass that consumed something, written out (R229, R322). -/
theorem passEnd_raises {s : State} {ring : Ring} {n k : Nat} (hp : s.pass = some ⟨ring, n, k⟩) (hk : 1 ≤ k) :
    s.passEnd = { s with
      pass := none
      isr := s.isr ||| ringCause ring
      history := if s.imr &&& (s.isr ||| ringCause ring) = 0 then s.history
        else .irqRequest s.cfg.irqTag :: s.history } := by
  rw [passEnd_consumed hp hk, raiseInt_eq, history_raiseInt]

/-- The causes of R106 as numbers. -/
theorem ringCause_eq (ring : Ring) :
    ringCause ring = if ring = .tx0 then 0x00000004 else if ring = .tx1 then 0x00000008 else 0x20000040 := by
  cases ring <;> rfl

/-- A disarmed ring and the bound stop a TX pass before any fetch (R222, R228). -/
theorem txStops_unfetched {s : State} {r : Ring} {n : Nat} (h : s.armed r = false ∨ n = ringLen r) :
    s.txStops r n = true := by
  rcases h with h | h <;> simp [State.txStops, h]

theorem txStep_unfetched {s : State} {r : Ring} {n : Nat} (h : s.armed r = false ∨ n = ringLen r) :
    s.txStep r n = s.passEnd := if_pos h

/-- A disarmed RX ring and an empty queue stop an RX pass before any fetch (R251). -/
theorem rxStops_unfetched {s : State} (h : s.rxArmed = false ∨ s.rxQueue = []) : s.rxStops = true := by
  rcases h with h | h <;> simp [State.rxStops, h]

theorem rxStep_unfetched {s : State} (h : s.rxArmed = false ∨ s.rxQueue = []) : s.rxStep = s.passEnd := by
  rw [rxStep_stops (rxStops_unfetched h), if_neg]
  rintro ⟨ha, hq⟩
  exact h.elim (by simp [ha]) hq

/-- Where the step of the open TX pass finds a stop condition, `ENG_PASS_END` is that step (R229). -/
theorem exec_engPassEnd_txStep {s : State} {p : Pass} (h : s.txPass = some p) (hstop : s.txStops p.ring p.steps = true) :
    exec .engPassEnd s = .next (s.txStep p.ring p.steps) := by
  rw [exec_engPassEnd_tx h, if_pos hstop]

/-- Where the step of the open RX pass finds a stop condition, `ENG_PASS_END` is that step (R229). -/
theorem exec_engPassEnd_rxStep {s : State} (h : s.rxPassOpen = true) (hstop : s.rxStops = true) :
    exec .engPassEnd s = .next s.rxStep := by
  rw [exec_engPassEnd_rx (txPass_none_of_rx h), if_pos (by rw [h, hstop]; rfl)]

theorem exec_txdNotOwned {s : State} {p : Pass} (d : TxDesc) (h : s.txPass = some p) :
    exec (.txdNotOwned d) s = .next s.passEnd := by
  simp only [exec, execTxdNotOwned, h]

theorem exec_rxdNotOwned {s : State} (d : RxDesc) (h : s.rxPassOpen = true) :
    exec (.rxdNotOwned d) s = .next s.passEnd := by
  simp only [exec, execRxdNotOwned, h]; rfl

theorem tx_of_ne_rx {r : Ring} (h : r ≠ .rx) : r = .tx0 ∨ r = .tx1 := by
  cases r with
  | tx0 => exact .inl rfl
  | tx1 => exact .inr rfl
  | rx => exact absurd rfl h

/-- `ENG_PASS_END` of a pass whose ring is disarmed, whose bound is reached or whose queue is empty makes no fetch. -/
theorem exec_engPassEnd_unfetched {s : State} {ring : Ring} {n k : Nat} (hs : s.shutdown = false)
    (hp : s.pass = some ⟨ring, n, k⟩)
    (h : s.armed ring = false ∨ ring ≠ .rx ∧ n = ringLen ring ∨ ring = .rx ∧ s.rxQueue = []) :
    exec .engPassEnd s = .next s.passEnd := by
  by_cases hr : ring = .rx
  · subst hr
    have hidle : s.rxArmed = false ∨ s.rxQueue = [] := by simpa [State.armed] using h
    rw [exec_engPassEnd_rxStep (rxPassOpen_some hs hp) (rxStops_unfetched hidle), rxStep_unfetched hidle]
  · have hidle : s.armed ring = false ∨ n = ringLen ring := by simpa [hr] using h
    rw [exec_engPassEnd_txStep (txPass_some hs hp (tx_of_ne_rx hr)) (txStops_unfetched hidle), txStep_unfetched hidle]

/-- Settles O44. -/
theorem passEnds : Obligations.PassEnds := by
  intro s ring n k i hs hp hi cause
  refine ⟨?_, fun hk => passEnd_empty hp hk, fun hk => ?_⟩
  · rcases hi with ⟨rfl, hstop⟩ | ⟨hr, d, rfl⟩ | ⟨rfl, d, rfl⟩
    · exact exec_engPassEnd_unfetched hs hp hstop
    · exact exec_txdNotOwned d (txPass_some hs hp (tx_of_ne_rx hr))
    · exact exec_rxdNotOwned d (rxPassOpen_some hs hp)
  · rw [passEnd_raises hp hk, ringCause_eq]

/-! ### Steps that end a pass -/

theorem memReadAnswer_unavailable {s : State} {a : Word} {n : Nat} (h : s.available a n = false) :
    s.memReadAnswer a n = none := if_neg (by rw [h]; exact Bool.false_ne_true)

/-- No descriptor with OWN set is fetched: it is unavailable, or OWN is clear (R222, R251). -/
def State.fetchStops (s : State) (a : Word) : Bool := (s.memReadAnswer a 16).all fun d => !ownBit d

theorem fetchStops_unavailable {s : State} {a : Word} (h : s.available a 16 = false) : s.fetchStops a = true := by
  rw [State.fetchStops, memReadAnswer_unavailable h]; rfl

theorem fetchStops_available {s : State} {a : Word} {own : Bool} (h : s.available a 16 = true)
    (hown : ownBit (s.mem.getBytes a 16) = own) : s.fetchStops a = !own := by
  rw [State.fetchStops, memReadAnswer_available h, Option.all_some, hown]

theorem txStops_fetched {s : State} {r : Ring} {n : Nat} (ha : s.armed r = true) (hn : n ≠ ringLen r) :
    s.txStops r n = s.fetchStops (s.descAddr r) := by
  rw [State.txStops, ha, beq_eq_false_iff_ne.mpr hn]; rfl

theorem rxStops_fetched {s : State} (ha : s.rxArmed = true) (hq : s.rxQueue ≠ []) :
    s.rxStops = s.fetchStops (s.descAddr .rx) := by
  rw [State.rxStops, ha, List.isEmpty_eq_false_iff.mpr hq]; rfl

/-- A quiet TX step that stops after its fetch: the fetch is recorded, and `PassEnd` follows (R223). -/
theorem TxReady.stops_fetched {s : State} {r : Ring} {n k : Nat} {ok : Bool} (h : TxReady s r n k) (ha : s.armed r = true)
    (hn : n ≠ ringLen r) (hok : s.available (s.descAddr r) 16 = ok) (hstop : s.fetchStops (s.descAddr r) = true) :
    exec .engTxStep s = .next (s.log (.memRead (s.descAddr r) 16 ok)).passEnd ∧
    exec .engPassEnd s = .next (s.log (.memRead (s.descAddr r) 16 ok)).passEnd := by
  have hstops : s.txStops r n = true := (txStops_fetched ha hn).trans hstop
  have hstep : s.txStep r n = (s.log (.memRead (s.descAddr r) 16 ok)).passEnd := by
    rw [txStep_stops hstops, if_pos ⟨ha, hn⟩, memRead_quiet (by decide) h.quiet, hok]
  rw [← hstep]
  exact ⟨exec_engTxStep h.txPass, exec_engPassEnd_txStep h.txPass hstops⟩

/-- A quiet RX step that stops after its fetch: the fetch is recorded, and `PassEnd` follows (R252). -/
theorem RxReady.stops_fetched {s : State} {n k : Nat} {ok : Bool} (h : RxReady s n k) (ha : s.rxArmed = true)
    (hq : s.rxQueue ≠ []) (hok : s.available (s.descAddr .rx) 16 = ok) (hstop : s.fetchStops (s.descAddr .rx) = true) :
    exec .engRxStep s = .next (s.log (.memRead (s.descAddr .rx) 16 ok)).passEnd ∧
    exec .engPassEnd s = .next (s.log (.memRead (s.descAddr .rx) 16 ok)).passEnd := by
  have hstops : s.rxStops = true := (rxStops_fetched ha hq).trans hstop
  have hstep : s.rxStep = (s.log (.memRead (s.descAddr .rx) 16 ok)).passEnd := by
    rw [rxStep_stops hstops, if_pos ⟨ha, hq⟩, memRead_quiet (by decide) h.quiet, hok]
  rw [← hstep]
  exact ⟨exec_engRxStep h.rxPassOpen, exec_engPassEnd_rxStep h.rxPassOpen hstops⟩

/-- A quiet TX step that stops before its fetch (R222, R228). -/
theorem TxReady.stops_unfetched {s : State} {r : Ring} {n k : Nat} (h : TxReady s r n k)
    (hstop : s.armed r = false ∨ n = ringLen r) :
    exec .engTxStep s = .next s.passEnd ∧ exec .engPassEnd s = .next s.passEnd := by
  rw [← txStep_unfetched hstop]
  exact ⟨exec_engTxStep h.txPass, exec_engPassEnd_txStep h.txPass (txStops_unfetched hstop)⟩

/-- Settles O45, by where the step stops. -/
theorem txStepEndsPass : Obligations.TxStepEndsPass := by
  intro s r n k h a
  refine ⟨h.stops_unfetched, fun ha hn hav => ?unavailable, fun ha hn hav hown => ?notOwned, fun ha hn hav hown => ?goes⟩
  case unavailable => exact h.stops_fetched ha hn hav (fetchStops_unavailable hav)
  case notOwned => exact h.stops_fetched ha hn hav (fetchStops_available hav hown)
  case goes =>
    have hgoes : s.txStops r n = false := (txStops_fetched ha hn).trans (fetchStops_available hav hown)
    rw [exec_engPassEnd_tx h.txPass, hgoes]; rfl

/-- Settles O50, by where the step stops. -/
theorem rxStepEndsPass : Obligations.RxStepEndsPass := by
  intro s n k h a
  refine ⟨fun hstop => ?unfetched, fun ha hq hav => ?unavailable, fun ha hq hav hown => ?notOwned,
    fun ha hq hav hown => ?goes⟩
  case unfetched =>
    rw [← rxStep_unfetched hstop]
    exact ⟨exec_engRxStep h.rxPassOpen, exec_engPassEnd_rxStep h.rxPassOpen (rxStops_unfetched hstop)⟩
  case unavailable => exact h.stops_fetched ha hq hav (fetchStops_unavailable hav)
  case notOwned => exact h.stops_fetched ha hq hav (fetchStops_available hav hown)
  case goes =>
    have hgoes : s.rxStops = false := (rxStops_fetched ha hq).trans (fetchStops_available hav hown)
    rw [exec_engPassEnd_rx (txPass_none_of_rx h.rxPassOpen), hgoes, Bool.and_false]; rfl

/-! ### Consumed TX descriptors with no guest access inside -/

theorem exec_txdOwned {s : State} {p : Pass} (d : TxDesc) (h : s.txPass = some p) :
    exec (.txdOwned d) s = .next (s.txConsume p.ring d) := by
  simp only [exec, execTxdOwned, h]

/-- The length check, as the statements put it (R224). -/
theorem txBadLength_iff {c : Config} {d : TxDesc} :
    txBadLength c d = true ↔ d.length = 0 ∨ c.maxFrameSize < d.length.toNat := by
  rw [txBadLength, Bool.or_eq_true, beq_iff_eq, decide_eq_true_eq]

theorem length_ne_zero_of_good {c : Config} {d : TxDesc} (h : txBadLength c d = false) : d.length.toNat ≠ 0 := by
  intro hz
  rw [txBadLength_eq_true_iff.mpr (.inl hz)] at h
  cases h

theorem countConsumed_open {s : State} {r : Ring} {n k : Nat} (h : s.pass = some ⟨r, n, k⟩) :
    s.countConsumed = { s with pass := some ⟨r, n + 1, k + 1⟩ } := by
  rw [State.countConsumed, h]; rfl

theorem countConsumed_setHead {s : State} {r : Ring} {n k : Nat} (h : s.pass = some ⟨r, n, k⟩) (i : Nat) :
    (s.setHead r i).countConsumed = { s with pass := some ⟨r, n + 1, k + 1⟩ }.setHead r i := by
  rw [countConsumed_open ((setHead_pass s r i).trans h)]
  cases r <;> rfl

/-- A quiet TX slot that cannot be sent, from the write-back on (R224). -/
theorem txError_counted {s : State} {r : Ring} {n k : Nat} (hq : s.race = []) (hp : s.pass = some ⟨r, n, k⟩) (a : Word)
    (d : TxDesc) :
    (s.txError r a d).countConsumed =
      { s with
        txErrCount := s.txErrCount + 1
        pass := some ⟨r, n + 1, k + 1⟩
        mem := s.mem.setBytes (a + 4) (le32bytes (statusReturned d.statusRest))
        history := .memWrite (a + 4) (le32bytes (statusReturned d.statusRest)) true :: s.history }.setHead r
          (cursorAfter r d.wrap (s.head r)) := by
  rw [txError_quiet hq, countConsumed_setHead (by exact hp)]

/-- A quiet TX slot that is sent, from the enqueueing on (R226). -/
theorem txDeliver_counted {s : State} {r : Ring} {n k : Nat} (hq : s.race = []) (hp : s.pass = some ⟨r, n, k⟩) (a : Word)
    (d : TxDesc) (b : Packet) :
    (s.txDeliver r a d b).countConsumed =
      { s with
        txQueue := if s.txQueue.length < 256 then s.txQueue ++ [b] else s.txQueue
        txDropCount := if s.txQueue.length < 256 then s.txDropCount else s.txDropCount + 1
        pass := some ⟨r, n + 1, k + 1⟩
        mem := s.mem.setBytes (a + 4) (le32bytes (statusReturned d.statusRest))
        history := .memWrite (a + 4) (le32bytes (statusReturned d.statusRest)) true :: s.history }.setHead r
          (cursorAfter r d.wrap (s.head r)) := by
  rw [txDeliver_quiet hq, countConsumed_setHead (by exact hp)]

/-- A slot that cannot be sent is returned, with no payload access if its length is bad (R224), else after the payload access
that found its buffer unavailable (R225). -/
theorem TxReady.txConsume_error {s : State} {r : Ring} {n k : Nat} {d : TxDesc} (h : TxReady s r n k)
    (herr : txBadLength s.cfg d = true ∨ s.available d.bufferAddress d.length.toNat = false) :
    s.txConsume r d =
      { s with
        txErrCount := s.txErrCount + 1
        pass := some ⟨r, n + 1, k + 1⟩
        mem := s.mem.setBytes (s.descAddr r + 4) (le32bytes (statusReturned d.statusRest))
        history := .memWrite (s.descAddr r + 4) (le32bytes (statusReturned d.statusRest)) true ::
          if txBadLength s.cfg d then s.history else .memRead d.bufferAddress d.length.toNat false :: s.history }.setHead r
            (cursorAfter r d.wrap (s.head r)) := by
  cases hbad : txBadLength s.cfg d with
  | true => rw [txConsume_badLength r hbad, txError_counted h.quiet h.open_]; rfl
  | false =>
    have hav := herr.resolve_left (by rw [hbad]; exact Bool.false_ne_true)
    rw [txConsume_unavailable r hbad hav, memRead_quiet (length_ne_zero_of_good hbad) h.quiet, hav,
      txError_counted (s := s.log _) h.quiet h.open_]
    rfl

/-- A good slot is returned after its payload was fetched and enqueued or dropped (R225, R226). -/
theorem TxReady.txConsume_delivers {s : State} {r : Ring} {n k : Nat} {d : TxDesc} (h : TxReady s r n k)
    (hgood : txBadLength s.cfg d = false) (hav : s.available d.bufferAddress d.length.toNat = true) :
    s.txConsume r d =
      { s with
        txQueue := if s.txQueue.length < 256 then s.txQueue ++ [s.mem.getBytes d.bufferAddress d.length.toNat]
          else s.txQueue
        txDropCount := if s.txQueue.length < 256 then s.txDropCount else s.txDropCount + 1
        pass := some ⟨r, n + 1, k + 1⟩
        mem := s.mem.setBytes (s.descAddr r + 4) (le32bytes (statusReturned d.statusRest))
        history := .memWrite (s.descAddr r + 4) (le32bytes (statusReturned d.statusRest)) true ::
          .memRead d.bufferAddress d.length.toNat true :: s.history }.setHead r (cursorAfter r d.wrap (s.head r)) := by
  rw [Machine.txConsume_delivers r hgood hav, memRead_quiet (length_ne_zero_of_good hgood) h.quiet, hav,
    payload_quiet h.quiet, txDeliver_counted (s := s.log _) h.quiet h.open_]
  rfl

/-- The four bytes of a word stored in canonical memory, byte by byte (R71). -/
theorem Memory.get_setBytes_word {m : Memory} (h : m.wf = true) (a w : Word) (x : Nat) :
    (m.setBytes a (le32bytes w)).get x = (storedByte a (le32bytes w) x).getD (m.get x) :=
  Memory.get_setBytes (le32bytes w) m a x h (by rw [length_le32bytes]; decide)

/-- Settles O47. -/
theorem txdOwnedDelivers : Obligations.TxdOwnedDelivers := by
  intro s r n k d h h0 hmax hav a b status
  have hgood : txBadLength s.cfg d = false := by
    rw [← Bool.not_eq_true, txBadLength_iff]
    exact not_or_intro h0 (Nat.not_lt_of_le hmax)
  have hmem : (s.txConsume r d).mem = s.mem.setBytes a status := by
    rw [h.txConsume_delivers hgood hav, setHead_mem]; rfl
  refine ⟨_, exec_txdOwned d h.txPass, ?_, fun x => ?_⟩
  · rw [hmem]; exact h.txConsume_delivers hgood hav
  · rw [hmem]; exact Memory.get_setBytes_word h.canonical _ _ x

/-- Settles O48. -/
theorem txdOwnedErrors : Obligations.TxdOwnedErrors := by
  intro s r n k d h a status badLength herr
  have heq := h.txConsume_error (herr.imp_left txBadLength_iff.mpr)
  have hmem : (s.txConsume r d).mem = s.mem.setBytes a status := by rw [heq, setHead_mem]; rfl
  have hhist : (s.txConsume r d).history = .memWrite a status true ::
      if txBadLength s.cfg d then s.history else .memRead d.bufferAddress d.length.toNat false :: s.history := by
    rw [heq, setHead_history]; rfl
  refine ⟨_, exec_txdOwned d h.txPass, ?_, fun hbad => ?_, fun hgood => ?_, fun x => ?_⟩
  · rw [hmem, hhist]; exact heq
  · rw [hhist, if_pos (txBadLength_iff.mpr hbad)]
  · rw [hhist, if_neg (mt txBadLength_iff.mp hgood)]
  · rw [hmem]; exact Memory.get_setBytes_word h.canonical _ _ x

/-! ### Consumed RX descriptors with no guest access inside -/

theorem exec_rxdOwned {s : State} {f : Packet} {rest : List Packet} (d : RxDesc) (h : s.rxPassOpen = true)
    (hq : s.rxQueue = f :: rest) : exec (.rxdOwned d) s = .next (s.rxConsume d f) := by
  simp only [exec, execRxdOwned, h, hq]

/-- A quiet payload write of an available range of any length (R75, D45). -/
theorem memWrite_available {s : State} {a : Word} {b : List Byte} (h : s.race = []) (ha : s.available a b.length = true) :
    s.memWrite a b = { s with
      mem := s.mem.setBytes a b
      history := if b.length = 0 then s.history else .memWrite a b true :: s.history } := by
  by_cases hb : b.length = 0
  · rw [if_pos hb, List.length_eq_zero_iff.mp hb]; rfl
  · rw [if_neg hb, memWrite_quiet hb ha h]

theorem countOverrun_eq (s : State) {b : Bool} {p : Prop} [Decidable p] (h : b = true ↔ p) : s.countOverrun b =
    { s with rxOverrunCount := if p then s.rxOverrunCount + 1 else s.rxOverrunCount } := by
  cases b with
  | true => rw [if_pos (h.mp rfl)]; rfl
  | false => rw [if_neg fun hp => Bool.false_ne_true (h.mpr hp)]; rfl

/-- A range that is unavailable has bytes (R75, D45). -/
theorem length_ne_zero_of_unavailable {s : State} {a : Word} {n : Nat} (h : s.available a n = false) : n ≠ 0 := by
  rintro rfl; cases h

/-- A quiet descriptor that takes the frame (R253, R254). -/
theorem RxReady.rxConsume_deposits {s : State} {n k m : Nat} {d : RxDesc} {f : Packet} (h : RxReady s n k)
    (hm : m = min f.length d.bufferSize.toNat) (hav : s.available d.bufferAddress m = true) :
    s.rxConsume d f = { s with
      rxQueue := s.rxQueue.tail
      rxOverrunCount := if d.bufferSize.toNat < f.length then s.rxOverrunCount + 1 else s.rxOverrunCount
      rxHead := cursorAfter .rx d.wrap s.rxHead
      pass := some ⟨.rx, n + 1, k + 1⟩
      mem := ((s.mem.setBytes d.bufferAddress (f.take m)).setBytes (s.descAddr .rx)
        (le32bytes (BitVec.ofNat 32 m))).setBytes (s.descAddr .rx + 4) (le32bytes (statusReturned d.statusRest))
      history := .memWrite (s.descAddr .rx + 4) (le32bytes (statusReturned d.statusRest)) true ::
        .memWrite (s.descAddr .rx) (le32bytes (BitVec.ofNat 32 m)) true ::
        if m = 0 then s.history else .memWrite d.bufferAddress (f.take m) true :: s.history } := by
  have hlen : (f.take m).length = m := List.length_take_of_le (hm ▸ Nat.min_le_left _ _)
  have htruncated : decide (m < f.length) = true ↔ d.bufferSize.toNat < f.length := by rw [decide_eq_true_iff]; omega
  rw [State.rxConsume, rxDeposit_available hm hav, memWrite_available h.quiet (by rw [hlen, hav]), hlen,
    countOverrun_eq _ htruncated,
    rxReturn_quiet (by exact h.quiet), countConsumed_open (by exact h.open_)]

/-- A quiet descriptor whose buffer is unavailable loses the frame (R255). -/
theorem RxReady.rxConsume_bufferError {s : State} {n k m : Nat} {d : RxDesc} {f : Packet} (h : RxReady s n k)
    (hm : m = min f.length d.bufferSize.toNat) (hav : s.available d.bufferAddress m = false) :
    s.rxConsume d f = { s with
      rxQueue := s.rxQueue.tail
      rxErrCount := s.rxErrCount + 1
      rxHead := cursorAfter .rx d.wrap s.rxHead
      pass := some ⟨.rx, n + 1, k + 1⟩
      mem := (s.mem.setBytes (s.descAddr .rx) (le32bytes 0)).setBytes (s.descAddr .rx + 4)
        (le32bytes (statusReturned d.statusRest))
      history := .memWrite (s.descAddr .rx + 4) (le32bytes (statusReturned d.statusRest)) true ::
        .memWrite (s.descAddr .rx) (le32bytes 0) true :: .memWrite d.bufferAddress (f.take m) false :: s.history } := by
  have hlen : (f.take m).length = m := List.length_take_of_le (hm ▸ Nat.min_le_left _ _)
  have hwrite : s.memWrite d.bufferAddress (f.take m) = s.log (.memWrite d.bufferAddress (f.take m) false) :=
    memWrite_unavailable (by rw [hlen]; exact length_ne_zero_of_unavailable hav) (by rw [hlen, hav]) h.quiet
  rw [State.rxConsume, rxDeposit_unavailable hm hav, hwrite, State.rxBufError, rxReturn_quiet (by exact h.quiet),
    countConsumed_open (by exact h.open_)]
  rfl

/-- Memory after both write-backs of an RX descriptor (R253, R255). -/
theorem Memory.get_setBytes_words {m : Memory} (h : m.wf = true) (a w w' : Word) (x : Nat) :
    ((m.setBytes a (le32bytes w)).setBytes (a + 4) (le32bytes w')).get x =
      (storedByte (a + 4) (le32bytes w') x).getD ((storedByte a (le32bytes w) x).getD (m.get x)) := by
  rw [Memory.get_setBytes_word (Memory.wf_setBytes _ _ _ h), Memory.get_setBytes_word h]

/-- Settles O52. -/
theorem rxdOwnedDeposits : Obligations.RxdOwnedDeposits := by
  intro s n k d f rest h hq a m received status hav
  have heq := h.rxConsume_deposits rfl hav
  have htail : s.rxQueue.tail = rest := by rw [hq]; rfl
  have hlen : (f.take m).length < 2 ^ 32 := by
    have := d.bufferSize.isLt
    rw [List.length_take]
    omega
  have hmem := congrArg State.mem heq
  rw [htail] at heq
  refine ⟨_, exec_rxdOwned d h.rxPassOpen hq, ?_, fun x => ?_⟩
  · rw [hmem]; exact heq
  · rw [hmem, ← Memory.get_setBytes (f.take m) s.mem d.bufferAddress x h.canonical hlen]
    exact Memory.get_setBytes_words (Memory.wf_setBytes _ _ _ h.canonical) _ _ _ x

/-- Settles O53. -/
theorem rxdOwnedBufferError : Obligations.RxdOwnedBufferError := by
  intro s n k d f rest h hq a m status hav
  have heq := h.rxConsume_bufferError rfl hav
  have htail : s.rxQueue.tail = rest := by rw [hq]; rfl
  have hmem := congrArg State.mem heq
  rw [htail] at heq
  refine ⟨_, exec_rxdOwned d h.rxPassOpen hq, ?_, fun x => ?_⟩
  · rw [hmem]; exact heq
  · rw [hmem]; exact Memory.get_setBytes_words h.canonical _ _ _ x

end Sys2Proof.Machine

/-! PROOFS of the statement on a whole drain pass (spec/42_tx_engine.md R227 to R229, R324). `SlotWalk` is the walk along the ring
that the statement describes, `Drained` what holds after `j` of its slots. Each step takes `Drained` from `j` to `j + 1`, and the
step after the last slot ends the pass. -/

namespace Sys2Proof.Machine

/-! ### Slots and the descriptors in them -/

/-- The address of slot `c` of ring `r` (R107 b). -/
def State.slot (s : State) (r : Ring) (c : Nat) : Word := s.base r + 16 * BitVec.ofNat 32 c

theorem descAddr_eq_slot (s : State) (r : Ring) : s.descAddr r = s.slot r (s.head r) := rfl

theorem slot_congr {s t : State} (h : EngineFrame s t) (r : Ring) (c : Nat) : t.slot r c = s.slot r c := by
  rw [State.slot, base_congr h.txbase0 h.txbase1 h.rxbase r]; rfl

/-- A byte of a store, by its distance from the first (R71). -/
theorem storedByte_toNat (a : Word) (b : List Byte) (x : Word) : storedByte a b x.toNat = b[(x - a).toNat]? := by
  rw [storedByte, if_pos x.isLt, BitVec.ofNat_toNat, BitVec.setWidth_eq]

/-- A word stored apart from the bytes read leaves them as they were. -/
theorem Memory.getBytes_setBytes_apart {m : Memory} {p a : Word} {n : Nat} (h : m.wf = true) (w : Word)
    (hap : ∀ j, j < n → 4 ≤ (a + BitVec.ofNat 32 j - p).toNat) :
    (m.setBytes p (le32bytes w)).getBytes a n = m.getBytes a n := by
  refine Memory.getBytes_congr n a fun j hj => ?_
  rw [Memory.get_setBytes_word h, storedByte_toNat, List.getElem?_eq_none (hap j hj)]
  rfl

/-- A word stored as the second of four leaves the other three. -/
theorem Memory.getBytes_setBytes_second {m : Memory} (h : m.wf = true) (a w : Word) :
    (m.setBytes (a + 4) (le32bytes w)).getBytes a 16 =
      (m.getBytes a 16).take 4 ++ le32bytes w ++ (m.getBytes a 16).drop 8 := by
  apply List.ext_getElem?
  intro j
  by_cases hj : j < 16
  · rw [Memory.getElem?_getBytes _ 16 a j hj, Memory.get_setBytes_word h, storedByte_toNat, List.append_assoc]
    by_cases hlow : j < 4
    · have hbefore : 4 ≤ (a + BitVec.ofNat 32 j - (a + 4)).toNat := by bv_omega
      rw [List.getElem?_eq_none hbefore, List.getElem?_append_left (by simpa using hlow), List.getElem?_take_of_lt hlow,
        Memory.getElem?_getBytes m 16 a j hj]
      rfl
    · have hoff : (a + BitVec.ofNat 32 j - (a + 4)).toNat = j - 4 := by bv_omega
      rw [hoff, List.getElem?_append_right (by simpa using hlow), List.length_take, Memory.length_getBytes,
        show min 4 16 = 4 from rfl]
      by_cases hmid : j < 8
      · have hin : j - 4 < (le32bytes w).length := by rw [length_le32bytes]; omega
        rw [List.getElem?_append_left hin, List.getElem?_eq_getElem hin]
        rfl
      · have hpast : (le32bytes w).length ≤ j - 4 := by rw [length_le32bytes]; omega
        rw [List.getElem?_eq_none hpast, List.getElem?_append_right hpast, List.getElem?_drop, length_le32bytes,
          show 8 + (j - 4 - 4) = j by omega, Memory.getElem?_getBytes m 16 a j hj]
        rfl
  · rw [List.getElem?_eq_none (by simpa using hj), List.getElem?_eq_none (by simp; omega)]

/-- A descriptor with OWN cleared differs in its second word alone (R231). -/
theorem txBytes_cleared {d : List Byte} (h : d.length = 16) :
    txBytes false (txFields d) = d.take 4 ++ le32bytes (statusReturned (txFields d).statusRest) ++ d.drop 8 := by
  rw [← txBytes_txFields d h]
  generalize ownBit d = own, txFields d = f
  rw [txFields_txBytes]
  rfl

/-- The slots of a ring lie apart (R107). -/
theorem slot_apart {r : Ring} {c c' : Nat} (s : State) (hc : c < ringLen r) (hc' : c' < ringLen r) (hne : c ≠ c') (j : Nat)
    (hj : j < 16) : 4 ≤ (s.slot r c' + BitVec.ofNat 32 j - (s.slot r c + 4)).toNat := by
  have hlen : ringLen r ≤ 64 := by cases r <;> decide
  unfold State.slot
  generalize s.base r = b
  bv_omega

/-! ### What a consumed slot leaves, good or bad -/

/-- From `s` to `t` the pass of `r` has taken `k` slots: each is accounted for once, nothing is raised, and only the cursor of
`r` may have moved (R227, R229). -/
structure TxProgress (r : Ring) (k : Nat) (s t : State) : Prop where
  frame : EngineFrame s t
  isr : t.isr = s.isr
  rxQueue : t.rxQueue = s.rxQueue
  txQueue : s.txQueue <+: t.txQueue
  accounted : t.txErrCount + t.txQueue.length + t.txDropCount = s.txErrCount + s.txQueue.length + s.txDropCount + k
  requests : t.requests = s.requests
  heads : ∀ r', r' ≠ r → t.head r' = s.head r'

theorem TxProgress.refl (r : Ring) (s : State) : TxProgress r 0 s s :=
  ⟨engineFrame_refl s, rfl, rfl, List.prefix_rfl, rfl, rfl, fun _ _ => rfl⟩

theorem TxProgress.trans {r : Ring} {k l : Nat} {s t u : State} (h : TxProgress r k s t) (h' : TxProgress r l t u) :
    TxProgress r (k + l) s u where
  frame := engineFrame_trans s t u h.frame h'.frame
  isr := h'.isr.trans h.isr
  rxQueue := h'.rxQueue.trans h.rxQueue
  txQueue := h.txQueue.trans h'.txQueue
  accounted := by rw [h'.accounted, h.accounted, Nat.add_assoc _ k l]
  requests := h'.requests.trans h.requests
  heads r' hr := (h'.heads r' hr).trans (h.heads r' hr)

/-- A fetch takes no slot. -/
theorem txProgress_fetch (r : Ring) (s : State) (a : Word) (n : Nat) (ok : Bool) :
    TxProgress r 0 s (s.log (.memRead a n ok)) :=
  ⟨rfl, rfl, rfl, List.prefix_rfl, rfl, rfl, fun r' _ => by cases r' <;> rfl⟩

theorem TxReady.log {s : State} {r : Ring} {n k : Nat} (h : TxReady s r n k) (e : Event) : TxReady (s.log e) r n k :=
  ⟨h.running, h.quiet, h.canonical, h.open_, h.tx⟩

/-- What a consumed slot leaves, good or bad: it is in the error count, in the queue or in the drop count, the status is written
back and the pass counts it (R222). -/
theorem TxReady.txConsume_cases {s : State} {r : Ring} {n k : Nat} (h : TxReady s r n k) (d : TxDesc) :
    ∃ errors queue drops events, s.txConsume r d =
        { s with
          txErrCount := errors
          txQueue := queue
          txDropCount := drops
          pass := some ⟨r, n + 1, k + 1⟩
          mem := s.mem.setBytes (s.descAddr r + 4) (le32bytes (statusReturned d.statusRest))
          history := events }.setHead r (cursorAfter r d.wrap (s.head r)) ∧
      s.txQueue <+: queue ∧ errors + queue.length + drops = s.txErrCount + s.txQueue.length + s.txDropCount + 1 ∧
      events.countP Event.isRequest = s.requests := by
  by_cases herr : txBadLength s.cfg d = true ∨ s.available d.bufferAddress d.length.toNat = false
  · refine ⟨_, _, _, _, h.txConsume_error herr, List.prefix_rfl, by omega, ?_⟩
    split <;> rfl
  · obtain ⟨hgood, hav⟩ := not_or.mp herr
    refine ⟨_, _, _, _, h.txConsume_delivers (by simpa using hgood) (by simpa using hav), ?_, ?_, rfl⟩
    · split
      · exact List.prefix_append _ _
      · exact List.prefix_rfl
    · split
      · rw [List.length_append, List.length_singleton]; omega
      · omega

theorem TxReady.txConsume_ready {s : State} {r : Ring} {n k : Nat} (h : TxReady s r n k) (d : TxDesc) :
    TxReady (s.txConsume r d) r (n + 1) (k + 1) := by
  obtain ⟨_, _, _, _, heq, _⟩ := h.txConsume_cases d
  rw [heq]
  exact ⟨by simp [h.running], by simp [h.quiet], by simpa using Memory.wf_setBytes _ _ _ h.canonical, by simp, h.tx⟩

theorem TxReady.txConsume_mem {s : State} {r : Ring} {n k : Nat} (h : TxReady s r n k) (d : TxDesc) :
    (s.txConsume r d).mem = s.mem.setBytes (s.descAddr r + 4) (le32bytes (statusReturned d.statusRest)) := by
  obtain ⟨_, _, _, _, heq, _⟩ := h.txConsume_cases d
  rw [heq, setHead_mem]

/-- A consumed slot is one slot of progress. -/
theorem TxReady.txConsume_progress {s : State} {r : Ring} {n k : Nat} (h : TxReady s r n k) (d : TxDesc) :
    TxProgress r 1 s (s.txConsume r d) := by
  have hframe : EngineFrame s (s.txConsume r d) := engineFrame_closed.txConsume s r d
  have hheads (r' : Ring) (hr : r' ≠ r) : (s.txConsume r d).head r' = s.head r' :=
    (head_txConsume s r d r').trans (if_neg hr)
  obtain ⟨_, _, _, _, heq, hqueue, hcount, hreq⟩ := h.txConsume_cases d
  rw [heq] at hframe hheads ⊢
  exact ⟨hframe, by simp, by simp, by simpa using hqueue, by simpa using hcount, by simpa [State.requests] using hreq, hheads⟩

/-! ### The walk along the ring -/

/-- The slots the pass of ring `r` meets, from the cursor on: `k` that are owned, each reached from the one before by WRAP or by
the next index, none of them twice, and all of them available (R227, R228). -/
structure SlotWalk (s : State) (r : Ring) (k : Nat) (cursor : Nat → Nat) : Prop where
  armed : s.armed r = true
  bound : k ≤ ringLen r
  inRing : ∀ j, j ≤ k → cursor j < ringLen r
  start : cursor 0 = s.head r
  available : ∀ j, j ≤ k → s.available (s.slot r (cursor j)) 16 = true
  owned : ∀ j, j < k → ownBit (s.mem.getBytes (s.slot r (cursor j)) 16) = true
  next : ∀ j, j < k →
    cursor (j + 1) = cursorAfter r (txFields (s.mem.getBytes (s.slot r (cursor j)) 16)).wrap (cursor j)
  apart : ∀ i j, i < j → j < k → cursor i ≠ cursor j

/-- `u` is `s` after the first `j` slots of the walk: they are returned with OWN clear, the others are as they were, and the
cursor stands at the next. -/
structure Drained (s : State) (r : Ring) (cursor : Nat → Nat) (j : Nat) (u : State) : Prop where
  ready : TxReady u r j j
  progress : TxProgress r j s u
  head : u.head r = cursor j
  returned : ∀ i, i < j → u.mem.getBytes (s.slot r (cursor i)) 16 =
    txBytes false (txFields (s.mem.getBytes (s.slot r (cursor i)) 16))
  untouched : ∀ c, c < ringLen r → (∀ i, i < j → cursor i ≠ c) →
    u.mem.getBytes (s.slot r c) 16 = s.mem.getBytes (s.slot r c) 16

section

variable {s u : State} {r : Ring} {k j : Nat} {cursor : Nat → Nat}

theorem Drained.start (h : TxReady s r 0 0) (hw : SlotWalk s r k cursor) : Drained s r cursor 0 s :=
  ⟨h, .refl r s, hw.start.symm, nofun, fun _ _ _ => rfl⟩

theorem Drained.armed (h : Drained s r cursor j u) (hw : SlotWalk s r k cursor) : u.armed r = true :=
  (armed_congr h.progress.frame.txArmed0 h.progress.frame.txArmed1 h.progress.frame.rxArmed r).trans hw.armed

theorem Drained.descAddr (h : Drained s r cursor j u) : u.descAddr r = s.slot r (cursor j) := by
  rw [descAddr_eq_slot, slot_congr h.progress.frame, h.head]

theorem Drained.available (h : Drained s r cursor j u) (hw : SlotWalk s r k cursor) (hj : j ≤ k) :
    u.available (s.slot r (cursor j)) 16 = true :=
  (available_congr h.progress.frame.cfg _ _).trans (hw.available j hj)

/-- A slot not met before is fetched as it was when the pass began. -/
theorem Drained.fetches (h : Drained s r cursor j u) (hw : SlotWalk s r k cursor) (hj : j < k) :
    u.mem.getBytes (s.slot r (cursor j)) 16 = s.mem.getBytes (s.slot r (cursor j)) 16 :=
  h.untouched _ (hw.inRing j hj.le) fun i hi => hw.apart i j hi hj

/-- A step of the pass on a slot it has not met consumes it. -/
theorem Drained.step (h : Drained s r cursor j u) (hw : SlotWalk s r k cursor) (hj : j < k) :
    ∃ u', exec .engTxStep u = .next u' ∧ Drained s r cursor (j + 1) u' := by
  have hav := h.available hw hj.le
  have hfetch := h.fetches hw hj
  let v := u.log (.memRead (s.slot r (cursor j)) 16 true)
  let d := txFields (s.mem.getBytes (s.slot r (cursor j)) 16)
  have hv : TxReady v r j j := h.ready.log _
  have haddr : v.descAddr r = s.slot r (cursor j) := h.descAddr
  have hstep : u.txStep r j = v.txConsume r d := by
    rw [txStep_fetches (h.armed hw) (by have := hw.bound; omega) (by rw [h.descAddr, hav]), h.descAddr, hfetch,
      State.txAct, if_pos (hw.owned j hj), memRead_quiet (by decide) h.ready.quiet, hav]
  have hmem : (v.txConsume r d).mem =
      u.mem.setBytes (s.slot r (cursor j) + 4) (le32bytes (statusReturned d.statusRest)) := by
    rw [hv.txConsume_mem, haddr]; rfl
  have happart {c : Nat} (hc : c < ringLen r) (hne : cursor j ≠ c) :
      (v.txConsume r d).mem.getBytes (s.slot r c) 16 = u.mem.getBytes (s.slot r c) 16 := by
    rw [hmem]
    exact Memory.getBytes_setBytes_apart h.ready.canonical _ (slot_apart s (hw.inRing j hj.le) hc hne)
  refine ⟨v.txConsume r d, ?_, hv.txConsume_ready d, ?_, ?_, fun i hi => ?_, fun c hc hne => ?_⟩
  · rw [← hstep]; exact exec_engTxStep h.ready.txPass
  · exact h.progress.trans ((txProgress_fetch r u _ _ _).trans (hv.txConsume_progress d))
  · rw [head_txConsume, if_pos rfl, hw.next j hj]
    exact congrArg _ h.head
  · by_cases hij : i = j
    · subst hij
      rw [hmem, Memory.getBytes_setBytes_second h.ready.canonical, hfetch, txBytes_cleared (Memory.length_getBytes _ _ _)]
    · have hlt : i < j := by omega
      rw [happart (hw.inRing i (by omega)) (hw.apart i j hlt hj).symm, h.returned i hlt]
  · rw [happart hc (hne j (Nat.lt_succ_self j)), h.untouched c hc fun i hi => hne i (Nat.lt_succ_of_lt hi)]

/-- Operations that complete, then more operations. -/
theorem execAll_append {l : List Instr} {s t : State} (h : execAll l s = .next t) (l' : List Instr) :
    execAll (l ++ l') s = execAll l' t := by
  induction l generalizing s with
  | nil => cases h; rfl
  | cons i l ih =>
    cases hi : exec i s with
    | next u =>
      rw [execAll_next hi] at h
      rw [List.cons_append, execAll_next hi, ih h]
    | fault f => rw [execAll, hi] at h; cases h
    | refused f => rw [execAll, hi] at h; cases h

/-- The pass consumes the slots of the walk one by one. -/
theorem Drained.steps (h : TxReady s r 0 0) (hw : SlotWalk s r k cursor) : ∀ j, j ≤ k →
    ∃ u, execAll (List.replicate j .engTxStep) s = .next u ∧ Drained s r cursor j u
  | 0, _ => ⟨s, rfl, .start h hw⟩
  | j + 1, hj => by
    obtain ⟨u, hu, hd⟩ := Drained.steps h hw j (Nat.le_of_succ_le hj)
    obtain ⟨u', hu', hd'⟩ := hd.step hw hj
    refine ⟨u', ?_, hd'⟩
    rw [List.replicate_succ', execAll_append hu, execAll_next hu']
    rfl

theorem Drained.fetched (h : Drained s r cursor j u) (a : Word) (n : Nat) (ok : Bool) :
    Drained s r cursor j (u.log (.memRead a n ok)) where
  ready := h.ready.log _
  progress := h.progress.trans (txProgress_fetch r u a n ok)
  head := h.head
  returned := h.returned
  untouched := h.untouched

/-- A slot that was not owned when the pass began, or that the pass has consumed, is found not owned (R223). -/
theorem Drained.notOwned (h : Drained s r cursor k u) (hw : SlotWalk s r k cursor)
    (hend : ownBit (s.mem.getBytes (s.slot r (cursor k)) 16) = false ∨ ∃ j, j < k ∧ cursor j = cursor k) :
    ownBit (u.mem.getBytes (s.slot r (cursor k)) 16) = false := by
  by_cases hmet : ∃ j, j < k ∧ cursor j = cursor k
  · obtain ⟨j, hj, hc⟩ := hmet
    rw [← hc, h.returned j hj, ownBit_txBytes]
  · rw [h.untouched _ (hw.inRing k le_rfl) fun j hj hc => hmet ⟨j, hj, hc⟩]
    exact hend.resolve_right hmet

/-- The step after the last slot of the walk ends the pass (R223, R228). -/
theorem Drained.ends (h : Drained s r cursor k u) (hw : SlotWalk s r k cursor)
    (hend : k = ringLen r ∨ ownBit (s.mem.getBytes (s.slot r (cursor k)) 16) = false ∨
      ∃ j, j < k ∧ cursor j = cursor k) :
    ∃ v, exec .engTxStep u = .next v.passEnd ∧ Drained s r cursor k v := by
  by_cases hk : k = ringLen r
  · exact ⟨u, (h.ready.stops_unfetched (.inr hk)).1, h⟩
  · have hav := h.available hw le_rfl
    have hstop := fetchStops_available hav (h.notOwned hw (hend.resolve_left hk))
    rw [← h.descAddr] at hav hstop
    exact ⟨_, (h.ready.stops_fetched (h.armed hw) hk hav hstop).1, h.fetched _ _ _⟩

/-- The requests of a pass that consumed something: its end sends one if the masked status is not zero (R229, R322). -/
theorem requests_passEnd {v : State} {n : Nat} (hp : v.pass = some ⟨r, n, k⟩) (hk : 1 ≤ k) :
    v.passEnd.requests = v.requests + if v.imr &&& (v.isr ||| ringCause r) = 0 then 0 else 1 := by
  rw [passEnd_raises hp hk]
  unfold State.requests
  dsimp only
  split
  · rfl
  · exact List.countP_cons_of_pos rfl

end

/-- Settles O49: the steps of the walk, then the step that ends the pass. -/
theorem txDrainPass : Obligations.TxDrainPass := by
  intro s r k cursor h harmed hk hbound hring hstart a d hav hwalk hapart hend
  have hw : SlotWalk s r k cursor :=
    ⟨harmed, hbound, hring, hstart, hav, fun j hj => (hwalk j hj).1, fun j hj => (hwalk j hj).2, hapart⟩
  obtain ⟨u, hu, hd⟩ := Drained.steps h hw k le_rfl
  obtain ⟨v, hv, hdone⟩ := hd.ends hw hend
  have hp := hdone.progress
  refine ⟨v.passEnd, ?_, passEnd_pass v, ?_, fun r' hr => ?_, ?_, ?_, ?_, fun j hj => ?_, ?_, ?_⟩
  · rw [List.replicate_succ', execAll_append hu, execAll_next hv]; rfl
  · rw [head_passEnd, hdone.head]
  · rw [head_passEnd, hp.heads r' hr]
  · simpa using hp.accounted
  · simpa using hp.txQueue
  · simpa using hp.rxQueue
  · rw [passEnd_mem]; exact hdone.returned j hj
  · rw [passEnd_raises hdone.ready.open_ hk, ← hp.isr]
  · rw [requests_passEnd hdone.ready.open_ hk, hp.requests, hp.isr, hp.frame.imr]

end Sys2Proof.Machine

/-! PROOFS of the statement on the progress of weakly fair runs (R228, R230, R284, R285). `PassMove` is the inversion of a step
for the pass and `nextRing`: of the operations the schedule can present only `ENG_PASS_BEGIN` opens a pass, and only the pass's
own descriptor steps count in it. Two measures go down: the steps left to a TX pass, and the turns of other rings before a ring's
own. -/

namespace Sys2Proof.Machine

/-! ### What a step does to the open pass -/

/-- What a step can do to the pass and to `nextRing` (R40, R284). -/
inductive PassMove (s t : State) : Prop
  | stays : t.pass = s.pass → t.nextRing = s.nextRing → PassMove s t
  | ends : t.pass = none → t.nextRing = s.nextRing → PassMove s t
  | counts (p : Pass) : s.pass = some p → (p.ring ≠ .rx → p.steps ≠ ringLen p.ring) →
      t.pass = some { p with steps := p.steps + 1, consumed := p.consumed + 1 } → t.nextRing = s.nextRing → PassMove s t
  | begins (ring : Ring) : s.pass = none → s.nextEligible = some ring → t.pass = some ⟨ring, 0, 0⟩ →
      t.nextRing = ringAfter ring → PassMove s t
  | reset : t.pass = none → (∀ ring, t.eligible ring = false) → PassMove s t

/-- A TX descriptor step ends its pass or, below the bound, counts in it (R222, R228). -/
theorem pass_txStep {s : State} {p : Pass} (hp : s.pass = some p) :
    (s.txStep p.ring p.steps).pass = none ∨ p.steps ≠ ringLen p.ring ∧
      (s.txStep p.ring p.steps).pass = some { p with steps := p.steps + 1, consumed := p.consumed + 1 } := by
  cases hstop : s.txStops p.ring p.steps with
  | true =>
    rw [txStep_stops hstop]
    exact .inl (by split <;> exact pass_passEnd _)
  | false =>
    obtain ⟨d, _, hn, _, _, heq⟩ := txStep_goes hstop
    rw [heq]
    exact .inr ⟨hn, pass_txConsume _ _ ((memRead_pass _ _ _).trans hp)⟩

/-- An RX descriptor step ends its pass or counts in it (R251). -/
theorem pass_rxStep {s : State} {p : Pass} (hp : s.pass = some p) :
    s.rxStep.pass = none ∨ s.rxStep.pass = some { p with steps := p.steps + 1, consumed := p.consumed + 1 } := by
  cases hstop : s.rxStops with
  | true =>
    rw [rxStep_stops hstop]
    exact .inl (by split <;> exact pass_passEnd _)
  | false =>
    obtain ⟨d, f, _, _, _, heq⟩ := rxStep_goes hstop
    rw [heq]
    exact .inr (pass_rxConsume _ f ((memRead_pass _ _ _).trans hp))

theorem Effect.passMove {i : Instr} {s t : State} (e : Effect i s t) (htx : ∀ d, i ≠ .txdOwned d)
    (hrx : ∀ d, i ≠ .rxdOwned d) : PassMove s t := by
  have hnext (hi : runsEngine i = true) : t.nextRing = s.nextRing := (e.engineSteps hi).frame.nextRing
  cases e with
  | txStep _ p hp =>
    obtain ⟨_, hpass, _⟩ := txPass_eq_some hp
    obtain hend | ⟨hn, hcount⟩ := pass_txStep hpass
    · exact .ends hend (hnext rfl)
    · exact .counts p hpass (fun _ => hn) hcount (hnext rfl)
  | rxStep _ ho =>
    obtain ⟨_, n, k, hpass⟩ := rxPassOpen_true ho
    obtain hend | hcount := pass_rxStep hpass
    · exact .ends hend (hnext rfl)
    · exact .counts _ hpass (fun hne => absurd rfl hne) hcount (hnext rfl)
  | txConsume d => exact absurd rfl (htx d)
  | rxConsume d => exact absurd rfl (hrx d)
  | passEnd _ _ _ he => exact .ends (pass_passEnd _) (hnext (runsEngine_of_endsPass he))
  | stop => exact .ends (pass_passEnd _) (hnext rfl)
  | fetchStop => exact .ends (pass_passEnd _) (hnext rfl)
  | passBegin _ ring _ hp hr => exact .begins ring hp hr rfl rfl
  | reset => exact .reset rfl fun ring => by cases ring <;> rfl
  | store _ _ _ _ _ hf => exact .stays hf.pass hf.nextRing
  | command => rw [phyWrite_eq]; exact .stays rfl rfl
  | arrive f => exact .stays (enqueueRx_pass s f) (enqueueRx_nextRing s f)
  | link => exact .stays (raiseInt_pass _ _) (raiseInt_nextRing _ _)
  | _ => exact .stays rfl rfl

theorem PassMove.of_schedule {s t : State} {l : List Turn} (h : PassMove { s with schedule := l } t) : PassMove s t := by
  cases h with
  | stays hp hn => exact .stays hp hn
  | ends hp hn => exact .ends hp hn
  | counts p hs hb hp hn => exact .counts p hs hb hp hn
  | begins ring hs hr hp hn => exact .begins ring hs hr hp hn
  | reset hp hr => exact .reset hp hr

theorem step_passMove {s t : State} (h : step s = .next t) : PassMove s t := by
  rcases step_cases h with ⟨_, rfl⟩ | ⟨x, rest, i, _, hd, hx⟩ | ⟨g, rest, _, rfl⟩ | ⟨b, rest, _, rfl⟩
  · exact .stays rfl rfl
  · obtain ⟨htx, _, hrx, _⟩ := input_no_descriptor hd
    exact ((exec_effect hx).passMove htx hrx).of_schedule
  · cases g <;> exact .stays rfl rfl
  · exact .stays rfl rfl

theorem Run.passMove (r : Run) (n : Nat) : PassMove (r.state n) (r.state (n + 1)) :=
  (step_passMove (r.advances n)).of_schedule

/-! ### How long a TX pass stays open (R228) -/

/-- An open TX pass is within its bound (R228). -/
def TxBounded (s : State) : Prop := ∀ p, s.pass = some p → p.ring ≠ .rx → p.steps ≤ ringLen p.ring

theorem PassMove.txBounded {s t : State} (h : PassMove s t) (hb : TxBounded s) : TxBounded t := by
  intro q hq hr
  cases h with
  | stays hp => exact hb q (hp ▸ hq) hr
  | ends hp => rw [hp] at hq; cases hq
  | reset hp => rw [hp] at hq; cases hq
  | begins ring _ _ hp => rw [hp] at hq; cases hq; exact Nat.zero_le _
  | counts p hs hne hp =>
    rw [hp] at hq
    cases hq
    exact Nat.lt_of_le_of_ne (hb p hs hr) (hne hr)

/-- An open pass that a step leaves open stays on its ring, and its steps do not get fewer. -/
theorem PassMove.kept {s t : State} {p : Pass} (h : PassMove s t) (hs : s.pass = some p) (ht : t.pass ≠ none) :
    ∃ q, t.pass = some q ∧ q.ring = p.ring ∧ p.steps ≤ q.steps := by
  cases h with
  | stays hp => exact ⟨p, hp.trans hs, rfl, le_rfl⟩
  | ends hp => exact absurd hp ht
  | reset hp => exact absurd hp ht
  | begins _ hnone => rw [hs] at hnone; cases hnone
  | counts p' hs' _ hp =>
    obtain rfl : p' = p := Option.some.inj (hs'.symm.trans hs)
    exact ⟨_, hp, rfl, Nat.le_succ _⟩

/-! ### The turn of a ring (R284) -/

/-- How many rings come before `ring` in the cyclic order from `a` on. -/
def turnsTo (a ring : Ring) : Nat := if ring = a then 0 else if ring = ringAfter a then 1 else 2

theorem turnsTo_ringAfter {a ring : Ring} (h : ring ≠ a) : turnsTo (ringAfter a) ring < turnsTo a ring := by
  revert h
  cases a <;> cases ring <;> decide

/-- While `ring` is eligible, each pass is its own or brings its turn nearer. -/
theorem nextEligible_nearer {s : State} {ring first : Ring} (he : s.eligible ring = true)
    (h : s.nextEligible = some first) (hne : first ≠ ring) :
    turnsTo (ringAfter first) ring < turnsTo s.nextRing ring := by
  cases h0 : s.eligible s.nextRing with
  | true =>
    obtain rfl : s.nextRing = first := Option.some.inj ((nextEligible_first h0).symm.trans h)
    exact turnsTo_ringAfter hne.symm
  | false =>
    have hne0 : ring ≠ s.nextRing := by rintro rfl; rw [h0] at he; cases he
    cases h1 : s.eligible (ringAfter s.nextRing) with
    | true =>
      obtain rfl : ringAfter s.nextRing = first := Option.some.inj ((nextEligible_second h0 h1).symm.trans h)
      exact (turnsTo_ringAfter hne.symm).trans (turnsTo_ringAfter hne0)
    | false =>
      have hne1 : ring ≠ ringAfter s.nextRing := by rintro rfl; rw [h1] at he; cases he
      obtain rfl : ring = ringAfter (ringAfter s.nextRing) :=
        ((ring_cases s.nextRing ring).resolve_left hne0).resolve_left hne1
      exact absurd (Option.some.inj (h.symm.trans (nextEligible_third h0 h1 he))) hne

/-- From `s` to `t` a pass of `ring` begins. -/
def BeginsPass (ring : Ring) (s t : State) : Prop := s.pass = none ∧ t.pass = some ⟨ring, 0, 0⟩

/-- A step of a ring that stays eligible does not put off its turn. -/
theorem PassMove.turnsTo_le {s t : State} {ring : Ring} (h : PassMove s t) (hs : s.eligible ring = true)
    (ht : t.eligible ring = true) (hno : ¬BeginsPass ring s t) : turnsTo t.nextRing ring ≤ turnsTo s.nextRing ring := by
  cases h with
  | stays _ hn => rw [hn]
  | ends _ hn => rw [hn]
  | counts _ _ _ _ hn => rw [hn]
  | reset _ hr => rw [hr ring] at ht; cases ht
  | begins first hnone hr hp hn =>
    rw [hn]
    exact (nextEligible_nearer hs hr (by rintro rfl; exact hno ⟨hnone, hp⟩)).le

/-- The step that begins another ring's pass brings its turn nearer. -/
theorem PassMove.turnsTo_lt {s t : State} {ring : Ring} (h : PassMove s t) (hs : s.eligible ring = true)
    (hno : ¬BeginsPass ring s t) (hnone : s.pass = none) (hopen : t.pass ≠ none) :
    turnsTo t.nextRing ring < turnsTo s.nextRing ring := by
  cases h with
  | stays hp => exact absurd (hp.trans hnone) hopen
  | ends hp => exact absurd hp hopen
  | reset hp => exact absurd hp hopen
  | counts _ hp => rw [hnone] at hp; cases hp
  | begins first _ hr hp hn =>
    rw [hn]
    exact nextEligible_nearer hs hr (by rintro rfl; exact hno ⟨hnone, hp⟩)

/-! ### Weakly fair runs -/

section

variable {r : Run} {n m : Nat}

/-- Where a run takes the TX step of its open pass, the pass ends or counts one more step. -/
theorem Run.takes_txStep {p : Pass} (h : r.takes m .txStep) (hs : (r.state m).shutdown = false)
    (hp : (r.state m).pass = some p) (hr : p.ring ≠ .rx) :
    (r.state (m + 1)).pass = none ∨
      (r.state (m + 1)).pass = some { p with steps := p.steps + 1, consumed := p.consumed + 1 } := by
  obtain ⟨i, hi, hruns⟩ := h
  obtain rfl : i = .engTxStep := by cases i with
    | engTxStep => rfl
    | _ => cases hi
  obtain ⟨rest, hnext⟩ := Run.exec_next hruns
  have htx : State.txPass { r.state m with schedule := rest } = some p := txPass_some hs hp (tx_of_ne_rx hr)
  rw [← Host.Outcome.next.inj ((exec_engTxStep htx).symm.trans hnext)]
  exact (pass_txStep (s := { r.state m with schedule := rest }) hp).imp_right And.right

/-- Where a run takes `ENG_PASS_BEGIN` with a ring eligible, a pass is open after it. -/
theorem Run.takes_passBegin {ring : Ring} (h : r.takes m .passBegin) (hs : (r.state m).shutdown = false)
    (he : (r.state m).eligible ring = true) : (r.state (m + 1)).pass ≠ none := by
  obtain ⟨i, hi, hruns⟩ := h
  obtain rfl : i = .engPassBegin := by cases i with
    | engPassBegin => rfl
    | _ => cases hi
  obtain ⟨rest, hnext⟩ := Run.exec_next hruns
  by_cases hp : (r.state m).pass = none
  · obtain ⟨first, hf⟩ := Option.isSome_iff_exists.mp (nextEligible_isSome he)
    have hbegin := exec_engPassBegin (s := { r.state m with schedule := rest }) hs hp hf
    rw [← Host.Outcome.next.inj (hbegin.symm.trans hnext)]
    exact Option.some_ne_none _
  · have hwait := exec_engPassBegin_open (s := { r.state m with schedule := rest }) hp
    rw [← Host.Outcome.next.inj (hwait.symm.trans hnext)]
    exact hp

theorem Run.txBounded_from (h : TxBounded (r.state n)) (hm : n ≤ m) : TxBounded (r.state m) := by
  induction m, hm using Nat.le_induction with
  | base => exact h
  | succ m _ ih => exact (r.passMove m).txBounded ih

/-- A pass that no step ends stays on its ring, and its steps do not get fewer. -/
theorem Run.pass_kept {p : Pass} (hp : (r.state n).pass = some p) (hopen : ∀ k, n ≤ k → (r.state k).pass ≠ none)
    (hm : n ≤ m) : ∃ q, (r.state m).pass = some q ∧ q.ring = p.ring ∧ p.steps ≤ q.steps := by
  induction m, hm using Nat.le_induction with
  | base => exact ⟨p, hp, rfl, le_rfl⟩
  | succ m hm ih =>
    obtain ⟨q, hq, hring, hle⟩ := ih
    obtain ⟨q', hq', hring', hle'⟩ := (r.passMove m).kept hq (hopen (m + 1) (Nat.le_succ_of_le hm))
    exact ⟨q', hq', hring'.trans hring, hle.trans hle'⟩

/-- A queued packet leaves: while the queue is not empty `ENG_TX_EMIT` is enabled (R286). -/
theorem Run.packet_leaves (hfair : r.WeaklyFair) (hrun : ∀ k, (r.state k).shutdown = false) (n : Nat) :
    ∃ m, n ≤ m ∧ (r.takes m .txEmit ∨ (r.state m).txQueue = []) := by
  by_contra hno
  have hqueued (k : Nat) (hk : n ≤ k) : (r.state k).txQueue ≠ [] := fun hq => hno ⟨k, hk, .inr hq⟩
  have henabled (k : Nat) (hk : n ≤ k) : EngineStep.txEmit.enabled (r.state k) = true := by
    simp [EngineStep.enabled, hrun k, hqueued k hk]
  obtain ⟨m, hm, htakes⟩ := hfair .txEmit n henabled
  exact hno ⟨m, hm, .inl htakes⟩

/-- An open TX pass within its bound ends: while it is open its step is enabled, and each step taken brings it nearer to the
bound (R228). -/
theorem Run.txPass_ends (hfair : r.WeaklyFair) (hrun : ∀ k, (r.state k).shutdown = false) {p : Pass}
    (hp : (r.state n).pass = some p) (hr : p.ring ≠ .rx) (hb : TxBounded (r.state n)) :
    ∃ m, n ≤ m ∧ (r.state m).pass = none := by
  induction hleft : ringLen p.ring - p.steps using Nat.strong_induction_on generalizing n p with
  | _ left ih =>
    by_contra hno
    have hopen (k : Nat) (hk : n ≤ k) : (r.state k).pass ≠ none := fun hnone => hno ⟨k, hk, hnone⟩
    have henabled (k : Nat) (hk : n ≤ k) : EngineStep.txStep.enabled (r.state k) = true := by
      obtain ⟨q, hq, hring, _⟩ := Run.pass_kept hp hopen hk
      exact Option.isSome_of_eq_some (txPass_some (hrun k) hq (hring ▸ tx_of_ne_rx hr))
    obtain ⟨m, hm, htakes⟩ := hfair .txStep n henabled
    obtain ⟨q, hq, hring, hle⟩ := Run.pass_kept hp hopen hm
    have hqr : q.ring ≠ .rx := hring ▸ hr
    have hnext := (Run.takes_txStep htakes (hrun m) hq hqr).resolve_left (hopen (m + 1) (by omega))
    have hb' : TxBounded (r.state (m + 1)) := Run.txBounded_from hb (by omega)
    have hbound : q.steps + 1 ≤ ringLen q.ring := hb' _ hnext hqr
    have hless : ringLen q.ring - (q.steps + 1) < left := by rw [hring] at hbound ⊢; omega
    obtain ⟨m', hm', hnone⟩ := ih _ hless hnext hqr hb' rfl
    exact hno ⟨m', by omega, hnone⟩

/-- If no RX pass stays open for ever, no pass does (R228). -/
theorem Run.pass_ends (hfair : r.WeaklyFair) (hrun : ∀ k, (r.state k).shutdown = false) (hb : TxBounded (r.state n))
    (hrx : ∃ m, n ≤ m ∧ ∀ p, (r.state m).pass = some p → p.ring ≠ .rx) : ∃ m, n ≤ m ∧ (r.state m).pass = none := by
  obtain ⟨m, hm, htx⟩ := hrx
  cases hp : (r.state m).pass with
  | none => exact ⟨m, hm, hp⟩
  | some p =>
    obtain ⟨m', hm', hnone⟩ := Run.txPass_ends hfair hrun hp (htx p hp) (Run.txBounded_from hb hm)
    exact ⟨m', hm.trans hm', hnone⟩

/-- With no pass open and a ring that stays eligible, a pass begins (R284). -/
theorem Run.pass_begins {ring : Ring} (hfair : r.WeaklyFair) (hrun : ∀ k, (r.state k).shutdown = false)
    (he : ∀ k, n ≤ k → (r.state k).eligible ring = true) (hnone : (r.state n).pass = none) :
    ∃ m, n ≤ m ∧ (r.state m).pass = none ∧ (r.state (m + 1)).pass ≠ none := by
  by_contra hno
  have hclosed (k : Nat) (hk : n ≤ k) : (r.state k).pass = none := by
    induction k, hk using Nat.le_induction with
    | base => exact hnone
    | succ k hk ih => by_contra hopen; exact hno ⟨k, hk, ih, hopen⟩
  have henabled (k : Nat) (hk : n ≤ k) : EngineStep.passBegin.enabled (r.state k) = true := by
    simp [EngineStep.enabled, hrun k, hclosed k hk, nextEligible_isSome (he k hk)]
  obtain ⟨m, hm, htakes⟩ := hfair .passBegin n henabled
  exact Run.takes_passBegin htakes (hrun m) (he m hm) (hclosed (m + 1) (by omega))

/-- While a ring stays eligible and no pass of its own begins, its turn is not put off. -/
theorem Run.turnsTo_le {ring : Ring} (he : ∀ k, n ≤ k → (r.state k).eligible ring = true)
    (hno : ∀ k, n ≤ k → ¬BeginsPass ring (r.state k) (r.state (k + 1))) (hm : n ≤ m) :
    turnsTo (r.state m).nextRing ring ≤ turnsTo (r.state n).nextRing ring := by
  induction m, hm using Nat.le_induction with
  | base => exact le_rfl
  | succ m hm ih =>
    exact ((r.passMove m).turnsTo_le (he m hm) (he (m + 1) (Nat.le_succ_of_le hm)) (hno m hm)).trans ih

/-- A ring that stays eligible gets a pass of its own, if no pass stays open for ever: every pass of another ring brings its
turn nearer (R284). -/
theorem Run.ring_gets_pass {ring : Ring} (hfair : r.WeaklyFair) (hrun : ∀ k, (r.state k).shutdown = false)
    (hends : ∀ k, n ≤ k → ∃ m, k ≤ m ∧ (r.state m).pass = none)
    (he : ∀ k, n ≤ k → (r.state k).eligible ring = true) :
    ∃ m, n ≤ m ∧ BeginsPass ring (r.state m) (r.state (m + 1)) := by
  induction hturns : turnsTo (r.state n).nextRing ring using Nat.strong_induction_on generalizing n with
  | _ turns ih =>
    by_contra hno
    have hnever (k : Nat) (hk : n ≤ k) : ¬BeginsPass ring (r.state k) (r.state (k + 1)) := fun hk' => hno ⟨k, hk, hk'⟩
    obtain ⟨k, hk, hclosed⟩ := hends n le_rfl
    obtain ⟨m, hm, hnone, hopen⟩ := Run.pass_begins hfair hrun (fun j hj => he j (hk.trans hj)) hclosed
    have hnm : n ≤ m := hk.trans hm
    have hless : turnsTo (r.state (m + 1)).nextRing ring < turns :=
      hturns ▸ ((r.passMove m).turnsTo_lt (he m hnm) (hnever m hnm) hnone hopen).trans_le (Run.turnsTo_le he hnever hnm)
    obtain ⟨m', hm', hbegins⟩ :=
      ih _ hless (fun j hj => hends j (by omega)) (fun j hj => he j (by omega)) rfl
    exact hno ⟨m', by omega, hbegins⟩

end

/-- Settles O36. Each clause is a step that stays enabled until it is taken; the last one counts down the turns to the ring. -/
theorem fairRunsProgress : Obligations.FairRunsProgress := by
  intro r hfair hrun n
  refine ⟨fun _ => Run.packet_leaves hfair hrun n, fun ring steps consumed hp hr hle => ?_, fun ring hb hrx he => ?_⟩
  · refine Run.txPass_ends hfair hrun hp hr fun p hp' _ => ?_
    obtain rfl : ⟨ring, steps, consumed⟩ = p := Option.some.inj (hp.symm.trans hp')
    exact hle
  · exact Run.ring_gets_pass hfair hrun
      (fun k hk => Run.pass_ends hfair hrun (Run.txBounded_from hb hk) (hrx k hk)) he

end Sys2Proof.Machine

/-! PROOFS of the statements on the queues (spec/44_queues_and_scheduler.md, spec/45_wire_interface.md): what `ENG_TX_EMIT`
and `WIRE_FRAME_ARRIVE` do, and that each queue has one producer and one consumer. -/

namespace Sys2Proof.Machine

/-! ### `ENG_TX_EMIT` and `WIRE_FRAME_ARRIVE` -/

theorem exec_engTxEmit_queued {s : State} {f : Packet} {rest : List Packet} (ok : Bool) (hs : s.shutdown = false)
    (hq : s.txQueue = f :: rest) :
    exec (.engTxEmit ok) s = .next { s with
      txQueue := rest
      txSendFailCount := if ok then s.txSendFailCount else s.txSendFailCount + 1
      history := .send f ok :: s.history } := by
  simp only [exec, execEngTxEmit, hs, hq]
  cases ok <;> rfl

theorem exec_engTxEmit_empty {s : State} (ok : Bool) (hq : s.txQueue = []) : exec (.engTxEmit ok) s = .next s := by
  simp only [exec, execEngTxEmit, hq]
  cases s.shutdown <;> rfl

theorem exec_wireFrameArrive {s : State} (f : Packet) (hs : s.shutdown = false) :
    exec (.wireFrameArrive f) s = .next (s.enqueueRx f) := by
  simp only [exec, execWireFrameArrive, hs]
  rfl

theorem enqueueRx_room {s : State} (f : Packet) (h : s.rxQueue.length < 256) :
    s.enqueueRx f = { s with rxQueue := s.rxQueue ++ [f] } := if_pos h

theorem enqueueRx_full {s : State} (f : Packet) (h : 256 ≤ s.rxQueue.length) :
    s.enqueueRx f = { s with rxDropCount := s.rxDropCount + 1 } := if_neg h.not_gt

/-- The operand bytes of a `WIRE_FRAME_ARRIVE` event are the frame (R112, log entry 9). -/
theorem decode_wireFrameArrive (c : Config) (f : Packet) : decode c (encEvent 0x10 f) = .ok (.wireFrameArrive f) := rfl

/-- Settles O54. -/
theorem emitHandsOver : Obligations.EmitHandsOver :=
  fun _ ok hs => ⟨fun _ _ => exec_engTxEmit_queued ok hs, exec_engTxEmit_empty ok⟩

/-- Settles O55. -/
theorem frameArrives : Obligations.FrameArrives := by
  intro s f hs
  refine ⟨decode_wireFrameArrive s.cfg f, fun hroom => ?_, fun hfull => ?_⟩
  · rw [exec_wireFrameArrive f hs, enqueueRx_room f hroom]
  · rw [exec_wireFrameArrive f hs, enqueueRx_full f hfull]

/-! ### The queues under a descriptor step -/

/-- From `q` to `q'` a queue is left or, with room in it, takes one packet at its back (R281). -/
def KeepsOrAppends (q q' : List Packet) : Prop := q' = q ∨ q.length < 256 ∧ ∃ f, q' = q ++ [f]

theorem keepsOrAppends_enqueueTx (s : State) (f : Packet) : KeepsOrAppends s.txQueue (s.enqueueTx f).txQueue := by
  rcases enqueueTx_cases s f with ⟨hroom, e⟩ | ⟨_, e⟩ <;> rw [e]
  · exact .inr ⟨hroom, f, rfl⟩
  · exact .inl rfl

@[simp] theorem txError_txQueue (s : State) (r : Ring) (a : Word) (d : TxDesc) :
    (s.txError r a d).txQueue = s.txQueue := by simp [State.txError]

@[simp] theorem txError_rxQueue (s : State) (r : Ring) (a : Word) (d : TxDesc) :
    (s.txError r a d).rxQueue = s.rxQueue := by simp [State.txError]

@[simp] theorem txDeliver_txQueue (s : State) (r : Ring) (a : Word) (d : TxDesc) (b : Packet) :
    (s.txDeliver r a d b).txQueue = (s.enqueueTx b).txQueue := by simp [State.txDeliver]

@[simp] theorem txDeliver_rxQueue (s : State) (r : Ring) (a : Word) (d : TxDesc) (b : Packet) :
    (s.txDeliver r a d b).rxQueue = s.rxQueue := by simp [State.txDeliver]

@[simp] theorem countOverrun_txQueue (s : State) (b : Bool) : (s.countOverrun b).txQueue = s.txQueue := by
  cases b <;> rfl

@[simp] theorem countOverrun_rxQueue (s : State) (b : Bool) : (s.countOverrun b).rxQueue = s.rxQueue := by
  cases b <;> rfl

@[simp] theorem rxReturn_txQueue (s : State) (a : Word) (d : RxDesc) (n : Nat) :
    (s.rxReturn a d n).txQueue = s.txQueue := by simp [State.rxReturn]

@[simp] theorem rxReturn_rxQueue (s : State) (a : Word) (d : RxDesc) (n : Nat) :
    (s.rxReturn a d n).rxQueue = s.rxQueue.tail := by simp [State.rxReturn]

@[simp] theorem rxBufError_txQueue (s : State) (a : Word) (d : RxDesc) : (s.rxBufError a d).txQueue = s.txQueue :=
  rxReturn_txQueue _ a d 0

@[simp] theorem rxBufError_rxQueue (s : State) (a : Word) (d : RxDesc) : (s.rxBufError a d).rxQueue = s.rxQueue.tail :=
  rxReturn_rxQueue _ a d 0

/-- What a TX descriptor does to the queues: the packet it delivers, if any, joins the back of `txQueue` (R226, R281). -/
structure TxQueueMove (s t : State) : Prop where
  txQueue : KeepsOrAppends s.txQueue t.txQueue
  rxQueue : t.rxQueue = s.rxQueue

/-- What an RX descriptor does to the queues: the frame it takes, if any, is the front of `rxQueue` (R253, R255). -/
structure RxQueueMove (s t : State) : Prop where
  txQueue : t.txQueue = s.txQueue
  rxQueue : t.rxQueue = s.rxQueue ∨ t.rxQueue = s.rxQueue.tail

theorem txQueueMove_txConsume (s : State) (r : Ring) (d : TxDesc) : TxQueueMove s (s.txConsume r d) := by
  unfold State.txConsume
  split
  case isTrue => exact ⟨.inl (by simp), by simp⟩
  case isFalse =>
    split
    case h_1 => exact ⟨.inl (by simp), by simp⟩
    case h_2 b _ =>
      have happ := keepsOrAppends_enqueueTx (s.memRead d.bufferAddress d.length.toNat) b
      exact ⟨by simpa using happ, by simp⟩

@[simp] theorem rxConsume_txQueue (s : State) (d : RxDesc) (f : Packet) : (s.rxConsume d f).txQueue = s.txQueue := by
  unfold State.rxConsume State.rxDeposit
  dsimp only
  split <;> simp

@[simp] theorem rxConsume_rxQueue (s : State) (d : RxDesc) (f : Packet) : (s.rxConsume d f).rxQueue = s.rxQueue.tail := by
  unfold State.rxConsume State.rxDeposit
  dsimp only
  split <;> simp

theorem rxQueueMove_rxConsume (s : State) (d : RxDesc) (f : Packet) : RxQueueMove s (s.rxConsume d f) :=
  ⟨rxConsume_txQueue s d f, .inr (rxConsume_rxQueue s d f)⟩

theorem txQueueMove_txStep (s : State) (r : Ring) (n : Nat) : TxQueueMove s (s.txStep r n) := by
  cases h : s.txStops r n with
  | true =>
    rw [txStep_stops h]
    split <;> exact ⟨.inl (by simp), by simp⟩
  | false =>
    obtain ⟨d, _, _, _, _, e⟩ := txStep_goes h
    have m := txQueueMove_txConsume (s.memRead (s.descAddr r) 16) r (txFields d)
    exact ⟨by simpa [e] using m.txQueue, by simpa [e] using m.rxQueue⟩

theorem rxQueueMove_rxStep (s : State) : RxQueueMove s s.rxStep := by
  cases h : s.rxStops with
  | true =>
    rw [rxStep_stops h]
    split <;> exact ⟨by simp, .inl (by simp)⟩
  | false =>
    obtain ⟨d, f, _, _, _, e⟩ := rxStep_goes h
    exact ⟨by simp [e], .inr (by simp [e])⟩

/-! ### One producer and one consumer for each queue -/

/-- What an operation does to the queues, resets apart (R280, R281, R288). -/
inductive QueueMove (i : Instr) (s t : State) : Prop
  | keeps : t.txQueue = s.txQueue → t.rxQueue = s.rxQueue → QueueMove i s t
  | txDescriptor : consumesTx i = true → TxQueueMove s t → QueueMove i s t
  | rxDescriptor : consumesRx i = true → RxQueueMove s t → QueueMove i s t
  | emit (ok : Bool) : i = .engTxEmit ok → t.txQueue = s.txQueue.tail → t.rxQueue = s.rxQueue → QueueMove i s t
  | arrive (f : Packet) : i = .wireFrameArrive f → s.rxQueue.length < 256 → t.txQueue = s.txQueue →
      t.rxQueue = s.rxQueue ++ [f] → QueueMove i s t

theorem Effect.queueMove {i : Instr} {s t : State} (e : Effect i s t) (hreset : i ≠ .hostReset)
    (hsoft : ∀ v, i = .wrCfg0 v → softResetHit s.cfg v = false) : QueueMove i s t := by
  cases e with
  | txStep => exact .txDescriptor rfl (txQueueMove_txStep s _ _)
  | txConsume d => exact .txDescriptor rfl (txQueueMove_txConsume s _ d)
  | rxStep => exact .rxDescriptor rfl (rxQueueMove_rxStep s)
  | rxConsume d f => exact .rxDescriptor rfl (rxQueueMove_rxConsume s d f)
  | emit ok f rest _ _ hq => exact .emit ok rfl (by rw [hq, List.tail_cons]) rfl
  | arrive f =>
    rcases enqueueRx_cases s f with ⟨hroom, e⟩ | ⟨_, e⟩ <;> rw [e]
    · exact .arrive f rfl hroom rfl rfl
    · exact .keeps rfl rfl
  | reset => exact absurd rfl hreset
  | softReset v _ _ hv => rw [hsoft v rfl] at hv; cases hv
  | passEnd => exact .keeps (by simp) (by simp)
  | stop => exact .keeps (by simp) (by simp)
  | fetchStop => exact .keeps (by simp) (by simp)
  | store _ _ _ _ _ hf => exact .keeps hf.txQueue hf.rxQueue
  | command => rw [phyWrite_eq]; exact .keeps rfl rfl
  | link => exact .keeps (by simp) (by simp)
  | _ => exact .keeps rfl rfl

/-- Settles O58, by the ways a queue can move. -/
theorem queuesAreFifos : Obligations.QueuesAreFifos := by
  intro i s t h hreset hsoft
  cases (exec_effect h).queueMove hreset hsoft with
  | keeps htx hrx => exact ⟨.inl htx, .inl hrx⟩
  | txDescriptor hi m => exact ⟨m.txQueue.imp_right fun ha => .inr ⟨hi, ha⟩, .inl m.rxQueue⟩
  | rxDescriptor hi m => exact ⟨.inl m.txQueue, m.rxQueue.imp_right fun ht => .inl ⟨hi, ht⟩⟩
  | emit ok hi htx hrx => exact ⟨.inr (.inl ⟨⟨ok, hi⟩, htx⟩), .inl hrx⟩
  | arrive f hi hroom htx hrx => exact ⟨.inl htx, .inr (.inr ⟨hroom, f, hi, hrx⟩)⟩

end Sys2Proof.Machine

/-! PROOFS of the statement on requests (spec/60_exceptions.md): an operation sends at most one `IrqRequest`, at a raise. -/

namespace Sys2Proof.Machine

/-! ### What the primitives of a descriptor step send -/

theorem requests_eq {s : State} {h : List Event} (e : s.history = h) : s.requests = h.countP Event.isRequest :=
  congrArg _ e

/-- Guest loads ahead of a history add no request to it. -/
theorem OnlyLoads.countP_append {l : List Event} (hl : OnlyLoads l) (h : List Event) :
    (l ++ h).countP Event.isRequest = h.countP Event.isRequest := by
  rw [List.countP_append, hl.countP, Nat.zero_add]

theorem requests_memRead (s : State) (a : Word) (n : Nat) : (s.memRead a n).requests = s.requests := by
  obtain ⟨l, hl, e⟩ := history_memRead s a n
  rw [requests_eq e, hl.countP_append]
  split <;> rfl

theorem requests_memWrite (s : State) (a : Word) (b : List Byte) : (s.memWrite a b).requests = s.requests := by
  obtain ⟨l, hl, e⟩ := history_memWrite s a b
  rw [requests_eq e, hl.countP_append]
  split <;> rfl

theorem requests_writeBack (s : State) (a w : Word) : (s.writeBack a w).requests = s.requests := by
  obtain ⟨l, hl, e⟩ := history_writeBack s a w
  rw [requests_eq e, hl.countP_append]
  rfl

/-- No primitive of a descriptor step sends a request: a pass that goes on sends none (R229, R323). -/
theorem requests_closed : EngineClosed fun s t => t.requests = s.requests where
  refl _ := rfl
  trans _ _ _ h h' := h'.trans h
  memRead := requests_memRead
  memWrite := requests_memWrite
  writeBack := requests_writeBack
  advance _ r _ := by cases r <;> rfl
  count _ := rfl
  enqueue _ _ := by rw [enqueueTx_eq]; rfl
  dequeue _ := rfl
  txErr _ := rfl
  rxErr _ := rfl
  overrun _ := rfl

/-! ### What a raise sends -/

/-- From `s` to `t` the cause `c` joined ISR and one request was sent, with some unmasked cause pending (R322). -/
structure Requested (c : Word) (s t : State) : Prop where
  once : t.requests = s.requests + 1
  unmasked : t.imr &&& t.isr ≠ 0
  isr : t.isr = s.isr ||| c

/-- A raise sends nothing, or one request for an unmasked pending cause (R322, R323). -/
theorem requested_raiseInt (s : State) (c : Word) :
    (s.raiseInt c).requests = s.requests ∨ Requested c s (s.raiseInt c) := by
  by_cases hmasked : s.imr &&& (s.isr ||| c) = 0
  · exact .inl (requests_eq ((history_raiseInt s c).trans (if_pos hmasked)))
  · refine .inr ⟨?_, by rwa [raiseInt_imr, raiseInt_isr], raiseInt_isr s c⟩
    rw [requests_eq ((history_raiseInt s c).trans (if_neg hmasked))]
    exact List.countP_cons_of_pos rfl

/-! ### What an operation sends -/

/-- What an operation does to the requests: it sends none, or one with the raise at the end of a pass that consumed something or
at a change of the link (R229, R302, R323). -/
inductive RequestMove (i : Instr) (s t : State) : Prop
  | keeps : t.requests = s.requests → RequestMove i s t
  | passEnd (p : Pass) : s.pass = some p → 1 ≤ p.consumed → t.pass = none → Requested (ringCause p.ring) s t →
      RequestMove i s t
  | link (up : Bool) : i = .linkChange up → up ≠ s.linkUp → Requested intLink s t → RequestMove i s t

/-- The end of a pass, after steps that sent nothing and left ISR and the pass alone (R229). -/
theorem requestMove_passEnd {i : Instr} {s u : State} (hreq : u.requests = s.requests) (hisr : u.isr = s.isr)
    (hpass : u.pass = s.pass) : RequestMove i s u.passEnd := by
  rcases passEnd_cases u with ⟨_, e⟩ | ⟨p, _, _, e⟩ | ⟨p, hp, hc, e⟩
  · exact .keeps (by rw [e, hreq])
  · exact .keeps (by rw [e]; exact hreq)
  · rcases requested_raiseInt { u with pass := none } (ringCause p.ring) with h | h <;> rw [← e] at h
    · exact .keeps (h.trans hreq)
    · exact .passEnd p (hpass ▸ hp) hc (pass_passEnd u)
        ⟨h.once.trans (congrArg (· + 1) hreq), h.unmasked, hisr ▸ h.isr⟩

/-- The end of a pass that came to a fetch (R222, R251). -/
theorem requestMove_fetch_passEnd (i : Instr) (s : State) (a : Word) (n : Nat) :
    RequestMove i s (s.memRead a n).passEnd :=
  requestMove_passEnd (requests_memRead s a n) (memRead_isr s a n) (memRead_pass s a n)

theorem requestMove_txStep (i : Instr) (s : State) (r : Ring) (n : Nat) : RequestMove i s (s.txStep r n) := by
  cases hstop : s.txStops r n with
  | true =>
    rw [txStep_stops hstop]
    split
    · exact requestMove_fetch_passEnd i s _ _
    · exact requestMove_passEnd rfl rfl rfl
  | false =>
    obtain ⟨d, _, _, _, _, e⟩ := txStep_goes hstop
    rw [e]
    exact .keeps ((requests_closed.txConsume _ r _).trans (requests_memRead s _ _))

theorem requestMove_rxStep (i : Instr) (s : State) : RequestMove i s s.rxStep := by
  cases hstop : s.rxStops with
  | true =>
    rw [rxStep_stops hstop]
    split
    · exact requestMove_fetch_passEnd i s _ _
    · exact requestMove_passEnd rfl rfl rfl
  | false =>
    obtain ⟨d, f, _, _, _, e⟩ := rxStep_goes hstop
    rw [e]
    exact .keeps ((requests_closed.rxConsume _ _ f).trans (requests_memRead s _ _))

/-- A completed operation sends no request but at the two kinds of raise (R321, R323). -/
theorem Effect.requestMove {i : Instr} {s t : State} (e : Effect i s t) : RequestMove i s t := by
  cases e with
  | txStep => exact requestMove_txStep _ s _ _
  | rxStep => exact requestMove_rxStep _ s
  | txConsume d => exact .keeps (requests_closed.txConsume s _ d)
  | rxConsume d f => exact .keeps (requests_closed.rxConsume s d f)
  | passEnd => exact requestMove_passEnd rfl rfl rfl
  | stop => exact requestMove_passEnd rfl rfl rfl
  | fetchStop => exact requestMove_fetch_passEnd _ s _ _
  | link up _ _ hup =>
    rcases requested_raiseInt { s with linkUp := up, phy := bankLinked up s.phy } intLink with h | h
    · exact .keeps h
    · exact .link up rfl hup ⟨h.once, h.unmasked, h.isr⟩
  | arrive f => exact .keeps (by rw [enqueueRx_eq]; rfl)
  | store _ _ _ _ _ hf => exact .keeps (requests_eq hf.history)
  | command => exact .keeps (by rw [phyWrite_eq]; rfl)
  -- the others add no event to the history but the data of a register read and a send
  | _ => exact .keeps rfl

/-- Settles O21, by the ways an operation can send a request. -/
theorem requestsOnlyAtRaises : Obligations.RequestsOnlyAtRaises := by
  intro i s t h
  cases (exec_effect h).requestMove with
  | keeps hreq => exact .inl hreq
  | passEnd p hp hc hnone hr => exact .inr ⟨hr.once, hr.unmasked, .inl ⟨p, hp, hc, hnone, hr.isr⟩⟩
  | link up hi hup hr => exact .inr ⟨hr.once, hr.unmasked, .inr ⟨up, hi, hup, hr.isr⟩⟩

end Sys2Proof.Machine

/-! PROOFS of the statement on reset (spec/70_reset_and_hazards.md): what `HOST_RESET` puts back and what it leaves. -/

namespace Sys2Proof.Machine

/-- Before shutdown the guard of `HOST_RESET` lets it through (log entry 11). -/
theorem exec_hostReset {s : State} (hs : s.shutdown = false) : exec .hostReset s = .next s.hostReset := by
  simp only [exec, execHostReset, hs, Bool.false_eq_true, if_false]

/-- Settles O10: in a running block the operation is `State.hostReset`, which keeps exactly what is not the block's (R360). -/
theorem hostResetRestores : Obligations.HostResetRestores :=
  fun _ hs => exec_hostReset hs

end Sys2Proof.Machine
